-- ==== Sys2Proof/Word.lean ====
section
/-! DEFINITION. The word types of the Brixwick: a byte, the 32-bit register and instruction word, the 64-bit cue word
and literal, the 128-bit capability and the 512-bit (64-byte) line. -/

namespace Sys2Proof

/-- One byte of memory, scratchpad or weight buffer. -/
abbrev Byte := BitVec 8

/-- A vector, uniform or 32-bit system register, and one instruction word (R14, R32). -/
abbrev Word := BitVec 32

/-- A cue register or an instruction's literal (R14, R36). -/
abbrev DWord := BitVec 64

/-- A capability (R127). -/
abbrev Cap := BitVec 128

/-- The 64 bytes of a cache line, byte `j` in bits `[8j+7:8j]` (R144, R146). -/
abbrev LineData := BitVec 512

end Sys2Proof
end

