-- ==== Sys2Proof/Syntax.lean ====
section
/-! DEFINITION. Syntax: the opcodes of the map (R56), the fields of an instruction word (R36), a pair's second operation
(R49) and `Instr`, one constructor for every row of the table of operations and events. -/

namespace Sys2Proof

/-- The 148 opcodes that the map of R56 assigns, by mnemonic. -/
inductive Opc where
  | nop | bra | brc | jmpi | call | calli | ret | reform | scene | exit | arrive | bwait | dqpush | dqpop | qenq
  | qdeq | qstat | launch | wait | ordy | castsync | yield | iadd | isub | imul | imulh | imad | imin | imax | iabs
  | ineg | iadds | isubs | icmp | sel | mov | movl | vidx | and | or | xor | andn | not | shl | shr | sar | rol | bfx
  | bfi | popc | clz | ctz | brev | plog | padd16 | psub16 | pmul16 | pmac16 | padd8 | pdot8 | shrr | satn | pmin16
  | pmax16 | add64 | sub64 | shl64 | shr64 | mul32w | fadd | fsub | fmul | ffma | fmin | fmax | fabs | fneg | fcmp
  | fclass | frcp | frsq | fsqrt | fexp2 | flog2 | ftanh | frnd | fscale | cvt | cvtq | cvtd | hadd2 | hmul2 | hfma2
  | fdot2 | slide | shfl | bcast | reduce | scan | vote | matchLanes | kmov | ld | st | lds | sts | ldk | atom
  | atoms | pfch | capld | capst | capnar | capinfo | copy | gatherb | copyx | rel | acq | icinv | capmk | mma | mmas
  | wload | zclr | zld | zst | zmov | spcomp | expq | cred | qcast | topk | sacc | trap | resume | sysrd | syswr
  | pbkrd | pbkwr | pbkclr | pbksave | pbkload | step | fade | classmap | brkpt | trace
  deriving DecidableEq, Repr

/-- The LEN field of R32: how many words the instruction has, and of which kind. -/
inductive Form where
  /-- One word. -/
  | base
  /-- Words 0, 1 and 2. -/
  | ext
  /-- Word 0 and a 64-bit literal. -/
  | lit
  /-- Words 0, 1 and 2 and a 64-bit literal. -/
  | extLit
  deriving DecidableEq, Repr

/-- The second operation that word 2 holds when PAIR is 1 (R36, R49). -/
structure Second where
  opc : Opc
  d2 : BitVec 7
  a2 : BitVec 7
  b2 : BitVec 7
  grd2 : BitVec 3
  deriving DecidableEq, Repr

/-- The fields of an instruction (R36), apart from the opcode, which is the constructor of `Instr`. A form without word 1
has word 1's fields 0; `word2` is the 32-bit immediate, 0 where there is none; `second` is present exactly when PAIR is 1. -/
structure Op where
  form : Form
  stall : BitVec 3 := 0
  grd : BitVec 3 := 7
  gneg : Bool := false
  d : BitVec 7 := 0
  a : BitVec 7 := 0
  asel : Bool := false
  b : BitVec 7 := 0
  bsel : Bool := false
  c : BitVec 7 := 0
  csel : Bool := false
  mod : BitVec 8 := 0
  fslot : BitVec 3 := 0
  ovf : BitVec 2 := 0
  fzi : Bool := false
  fzo : Bool := false
  word2 : Word := 0
  lit : DWord := 0
  second : Option Second := none
  deriving DecidableEq, Repr

/-- A thread: lane `lane` of the launch's cast `cast` on a core, or the core's cue thread (R169, R182). -/
inductive Agent where
  | lane (core cast lane : Nat)
  | cue (core : Nat)
  deriving DecidableEq, Repr

/-- What a peer module asks for (R386). -/
inductive PeerOp where
  | read
  | write (value : Nat)
  /-- MOD of an ATOM (R155), its operand and its compare value. -/
  | atomic (mod operand compare : Nat)
  deriving DecidableEq, Repr

/-- The shared structures of R272, each by number. -/
inductive SharedStructure where
  | l2Slice (die slice : Nat)
  | tlb2 (die : Nat)
  | frontEnd (die : Nat)
  | channel (h : Nat)
  | linkPort (p : Nat)
  deriving DecidableEq, Repr

/-- One constructor for every row of the table of operations and events: an instruction with its fields, or an event of
the module with the part, the job or the value it concerns. -/
inductive Instr where
  /-- NOP (R200). -/
  | nop (o : Op)
  /-- BRA (R200). -/
  | bra (o : Op)
  /-- BRC (R200). -/
  | brc (o : Op)
  /-- JMPI (R200). -/
  | jmpi (o : Op)
  /-- CALL (R171). -/
  | call (o : Op)
  /-- CALLI (R171). -/
  | calli (o : Op)
  /-- RET (R171). -/
  | ret (o : Op)
  /-- REFORM (R176). -/
  | reform (o : Op)
  /-- SCENE (R209). -/
  | scene (o : Op)
  /-- EXIT (R197). -/
  | exit (o : Op)
  /-- ARRIVE (R194). -/
  | arrive (o : Op)
  /-- BWAIT (R195). -/
  | bwait (o : Op)
  /-- DQPUSH (R188). -/
  | dqpush (o : Op)
  /-- DQPOP (R189). -/
  | dqpop (o : Op)
  /-- QENQ (R202). -/
  | qenq (o : Op)
  /-- QDEQ (R202). -/
  | qdeq (o : Op)
  /-- QSTAT (R202). -/
  | qstat (o : Op)
  /-- LAUNCH (R265). -/
  | launch (o : Op)
  /-- WAIT (R149). -/
  | wait (o : Op)
  /-- ORDY (R315). -/
  | ordy (o : Op)
  /-- CASTSYNC (R200). -/
  | castsync (o : Op)
  /-- YIELD (R200). -/
  | yield (o : Op)
  /-- IADD (R94). -/
  | iadd (o : Op)
  /-- ISUB (R94). -/
  | isub (o : Op)
  /-- IMUL (R94). -/
  | imul (o : Op)
  /-- IMULH (R94). -/
  | imulh (o : Op)
  /-- IMAD (R94). -/
  | imad (o : Op)
  /-- IMIN (R94). -/
  | imin (o : Op)
  /-- IMAX (R94). -/
  | imax (o : Op)
  /-- IABS (R94). -/
  | iabs (o : Op)
  /-- INEG (R94). -/
  | ineg (o : Op)
  /-- IADDS (R94). -/
  | iadds (o : Op)
  /-- ISUBS (R94). -/
  | isubs (o : Op)
  /-- ICMP (R97). -/
  | icmp (o : Op)
  /-- SEL (R98). -/
  | sel (o : Op)
  /-- MOV (R99). -/
  | mov (o : Op)
  /-- MOVL (R99). -/
  | movl (o : Op)
  /-- VIDX (R99). -/
  | vidx (o : Op)
  /-- AND (R94). -/
  | and (o : Op)
  /-- OR (R94). -/
  | or (o : Op)
  /-- XOR (R94). -/
  | xor (o : Op)
  /-- ANDN (R94). -/
  | andn (o : Op)
  /-- NOT (R94). -/
  | not (o : Op)
  /-- SHL (R95). -/
  | shl (o : Op)
  /-- SHR (R95). -/
  | shr (o : Op)
  /-- SAR (R95). -/
  | sar (o : Op)
  /-- ROL (R95). -/
  | rol (o : Op)
  /-- BFX (R96). -/
  | bfx (o : Op)
  /-- BFI (R96). -/
  | bfi (o : Op)
  /-- POPC (R94). -/
  | popc (o : Op)
  /-- CLZ (R94). -/
  | clz (o : Op)
  /-- CTZ (R94). -/
  | ctz (o : Op)
  /-- BREV (R94). -/
  | brev (o : Op)
  /-- PLOG (R100). -/
  | plog (o : Op)
  /-- PADD16 (R102). -/
  | padd16 (o : Op)
  /-- PSUB16 (R102). -/
  | psub16 (o : Op)
  /-- PMUL16 (R103). -/
  | pmul16 (o : Op)
  /-- PMAC16 (R104). -/
  | pmac16 (o : Op)
  /-- PADD8 (R102). -/
  | padd8 (o : Op)
  /-- PDOT8 (R104). -/
  | pdot8 (o : Op)
  /-- SHRR (R106). -/
  | shrr (o : Op)
  /-- SATN (R107). -/
  | satn (o : Op)
  /-- PMIN16 (R105). -/
  | pmin16 (o : Op)
  /-- PMAX16 (R105). -/
  | pmax16 (o : Op)
  /-- ADD64 (R101). -/
  | add64 (o : Op)
  /-- SUB64 (R101). -/
  | sub64 (o : Op)
  /-- SHL64 (R101). -/
  | shl64 (o : Op)
  /-- SHR64 (R101). -/
  | shr64 (o : Op)
  /-- MUL32W (R101). -/
  | mul32w (o : Op)
  /-- FADD (R109). -/
  | fadd (o : Op)
  /-- FSUB (R109). -/
  | fsub (o : Op)
  /-- FMUL (R109). -/
  | fmul (o : Op)
  /-- FFMA (R109). -/
  | ffma (o : Op)
  /-- FMIN (R111). -/
  | fmin (o : Op)
  /-- FMAX (R111). -/
  | fmax (o : Op)
  /-- FABS (R112). -/
  | fabs (o : Op)
  /-- FNEG (R112). -/
  | fneg (o : Op)
  /-- FCMP (R113). -/
  | fcmp (o : Op)
  /-- FCLASS (R114). -/
  | fclass (o : Op)
  /-- FRCP (R115). -/
  | frcp (o : Op)
  /-- FRSQ (R115). -/
  | frsq (o : Op)
  /-- FSQRT (R115). -/
  | fsqrt (o : Op)
  /-- FEXP2 (R115). -/
  | fexp2 (o : Op)
  /-- FLOG2 (R115). -/
  | flog2 (o : Op)
  /-- FTANH (R115). -/
  | ftanh (o : Op)
  /-- FRND (R116). -/
  | frnd (o : Op)
  /-- FSCALE (R116). -/
  | fscale (o : Op)
  /-- CVT (R119). -/
  | cvt (o : Op)
  /-- CVTQ (R121). -/
  | cvtq (o : Op)
  /-- CVTD (R125). -/
  | cvtd (o : Op)
  /-- HADD2 (R117). -/
  | hadd2 (o : Op)
  /-- HMUL2 (R117). -/
  | hmul2 (o : Op)
  /-- HFMA2 (R117). -/
  | hfma2 (o : Op)
  /-- FDOT2 (R118). -/
  | fdot2 (o : Op)
  /-- SLIDE (R205). -/
  | slide (o : Op)
  /-- SHFL (R206). -/
  | shfl (o : Op)
  /-- BCAST (R206). -/
  | bcast (o : Op)
  /-- REDUCE (R207). -/
  | reduce (o : Op)
  /-- SCAN (R207). -/
  | scan (o : Op)
  /-- VOTE (R208). -/
  | vote (o : Op)
  /-- MATCH (R208). -/
  | matchLanes (o : Op)
  /-- KMOV (R208). -/
  | kmov (o : Op)
  /-- LD (R151). -/
  | ld (o : Op)
  /-- ST (R152). -/
  | st (o : Op)
  /-- LDS (R151). -/
  | lds (o : Op)
  /-- STS (R152). -/
  | sts (o : Op)
  /-- LDK (R153). -/
  | ldk (o : Op)
  /-- ATOM (R156). -/
  | atom (o : Op)
  /-- ATOMS (R156). -/
  | atoms (o : Op)
  /-- PFCH (R154). -/
  | pfch (o : Op)
  /-- CAPLD (R157). -/
  | capld (o : Op)
  /-- CAPST (R157). -/
  | capst (o : Op)
  /-- CAPNAR (R157). -/
  | capnar (o : Op)
  /-- CAPINFO (R157). -/
  | capinfo (o : Op)
  /-- COPY (R160). -/
  | copy (o : Op)
  /-- GATHERB (R161). -/
  | gatherb (o : Op)
  /-- COPYX (R163). -/
  | copyx (o : Op)
  /-- REL (R159). -/
  | rel (o : Op)
  /-- ACQ (R398). -/
  | acq (o : Op)
  /-- ICINV (R166). -/
  | icinv (o : Op)
  /-- CAPMK (R157). -/
  | capmk (o : Op)
  /-- MMA (R309). -/
  | mma (o : Op)
  /-- MMAS (R309). -/
  | mmas (o : Op)
  /-- WLOAD (R321). -/
  | wload (o : Op)
  /-- ZCLR (R317). -/
  | zclr (o : Op)
  /-- ZLD (R318). -/
  | zld (o : Op)
  /-- ZST (R318). -/
  | zst (o : Op)
  /-- ZMOV (R319). -/
  | zmov (o : Op)
  /-- SPCOMP (R325). -/
  | spcomp (o : Op)
  /-- EXPQ (R332). -/
  | expq (o : Op)
  /-- CRED (R335). -/
  | cred (o : Op)
  /-- QCAST (R329). -/
  | qcast (o : Op)
  /-- TOPK (R351). -/
  | topk (o : Op)
  /-- SACC (R349). -/
  | sacc (o : Op)
  /-- TRAP (R223). -/
  | trap (o : Op)
  /-- RESUME (R224). -/
  | resume (o : Op)
  /-- SYSRD (R223). -/
  | sysrd (o : Op)
  /-- SYSWR (R223). -/
  | syswr (o : Op)
  /-- PBKRD (R295). -/
  | pbkrd (o : Op)
  /-- PBKWR (R296). -/
  | pbkwr (o : Op)
  /-- PBKCLR (R297). -/
  | pbkclr (o : Op)
  /-- PBKSAVE (R298). -/
  | pbksave (o : Op)
  /-- PBKLOAD (R298). -/
  | pbkload (o : Op)
  /-- STEP (R369). -/
  | step (o : Op)
  /-- FADE (R370). -/
  | fade (o : Op)
  /-- CLASSMAP (R375). -/
  | classmap (o : Op)
  /-- BRKPT (R223). -/
  | brkpt (o : Op)
  /-- TRACE (R223). -/
  | trace (o : Op)
  /-- GATHER_COMPLETE (R172). -/
  | gatherComplete (core cast : Nat)
  /-- WAIT_WAKE (R149). -/
  | waitWake (who : Agent)
  /-- BWAIT_WAKE (R195). -/
  | bwaitWake (who : Agent)
  /-- DQPOP_WAKE (R189). -/
  | dqpopWake (core cast : Nat)
  /-- QDEQ_WAKE (R202). -/
  | qdeqWake (who : Agent)
  /-- BRC_RESOLVE (R185). -/
  | brcResolve (core : Nat)
  /-- COMMAND_BUFFER_PERFORM (R184). -/
  | commandBufferPerform (core : Nat)
  /-- TRANSLATION_RESTART (R140). -/
  | translationRestart (who : Agent)
  /-- RETRY_AFTER_REFUSAL (R141). -/
  | retryAfterRefusal (core xfer : Nat) (hint : BitVec 8)
  /-- RETRY_RESEND (R141). -/
  | retryResend (core xfer : Nat)
  /-- L1_FILL (R144): `back` is the clk that the line took on its way back from the channel that served it (R167). -/
  | l1Fill (core line back : Nat)
  /-- RELEASE_FIFO_WRITEBACK (R145). -/
  | releaseFifoWriteback (core : Nat)
  /-- HOME_WRITE_APPLY (R244). -/
  | homeWriteApply (index : Nat)
  /-- HOME_WRITE_ACK (R244). -/
  | homeWriteAck (index : Nat)
  /-- COPY_COMPLETION (R158). -/
  | copyCompletion (core xfer : Nat)
  /-- ACCUMULATOR_COPY_COMPLETION (R318). -/
  | accumulatorCopyCompletion (core xfer : Nat)
  /-- WLOAD_COMPLETION (R321). -/
  | wloadCompletion (core xfer : Nat)
  /-- QCAST_COMPLETION (R329). -/
  | qcastCompletion (core xfer : Nat)
  /-- PBK_TRANSFER_COMPLETION (R298). -/
  | pbkTransferCompletion (core xfer : Nat)
  /-- MATRIX_GRANT (R312). -/
  | matrixGrant (cluster : Nat)
  /-- MATRIX_PASS_COMPLETION (R309). -/
  | matrixPassCompletion (cluster : Nat)
  /-- CRED_ROUND_COMPLETION (R336). -/
  | credRoundCompletion (cluster ctx launch ens : Nat)
  /-- FADER_REENCODE (R365). -/
  | faderReencode (core job : Nat)
  /-- CLASSMAP_COMPLETION (R375). -/
  | classmapCompletion (job : Nat)
  /-- BIN_DRAW (R177). -/
  | binDraw (core part bin : Nat)
  /-- CAST_SWAP (R179). -/
  | castSwap (core out inn : Nat)
  /-- CAST_DUE (R180). -/
  | castDue (core part : Nat)
  /-- QUEUE_DOORBELL (R259). -/
  | queueDoorbell (die queue : Nat) (value : Word)
  /-- QUEUE_HALT_CLEAR (R257). -/
  | queueHaltClear (die queue : Nat)
  /-- QUEUE_ENABLE (R258). -/
  | queueEnable (die queue : Nat)
  /-- PACKET_AT_HEAD (R256). -/
  | packetAtHead (die queue : Nat)
  /-- WAITSET_CONSUME (R260). -/
  | waitsetConsume (die queue : Nat)
  /-- LAUNCH_DRAW (R261). -/
  | launchDraw (die ctx : Nat)
  /-- CAST_PLACEMENT (R262). -/
  | castPlacement (ctx launch : Nat)
  /-- COMPLETION_RECORD_WRITE (R199). -/
  | completionRecordWrite (ctx launch scope core : Nat)
  /-- OWNER_CHANGE (R301). -/
  | ownerChange (core ctx : Nat)
  /-- DEFICIT_EXHAUSTED (R268). -/
  | deficitExhausted (cluster : Nat)
  /-- TOKEN_REFILL (R270). -/
  | tokenRefill (die : Nat)
  /-- PREEMPT (R227). -/
  | preempt (fn : Nat)
  /-- PREEMPTION_IMAGE_SAVED (R231). -/
  | preemptionImageSaved (ctx : Nat)
  /-- RESUME_COMMAND (R232). -/
  | resumeCommand (fn : Nat)
  /-- INVAL (R382). -/
  | inval (fn : Nat)
  /-- PAGERESP (R140). -/
  | pageresp (fn : Nat)
  /-- FUGSET (R384). -/
  | fugset (fn : Nat)
  /-- PULL (R387). -/
  | pull (fn : Nat)
  /-- PULL_PAGE_COMPLETE (R387). -/
  | pullPageComplete (job : Nat) (lost : Bool)
  /-- INJECT (R382). -/
  | inject (fn : Nat)
  /-- RECORD (R396). -/
  | record (fn : Nat)
  /-- ATTEST (R388). -/
  | attest (fn : Nat)
  /-- CONTINUE (R395). -/
  | continueHalt (fn : Nat)
  /-- HOST_APERTURE_ACCESS (R380). -/
  | hostApertureAccess (fn offset size : Nat) (write : Option Nat)
  /-- PEER_REQUEST (R386). -/
  | peerRequest (entry offset size : Nat) (op : PeerOp)
  /-- PEER_SOURCE_LOST (R386). -/
  | peerSourceLost (core xfer : Nat)
  /-- SHARED_STRUCTURE_ERROR (R273). -/
  | sharedStructureError (part : SharedStructure) (line : Nat) (control : Bool)
  /-- FIRMWARE_SCRUB (R356). -/
  | firmwareScrub (line : Nat)
  /-- FUNCTION_LEVEL_RESET (R274). -/
  | functionLevelReset (fn : Nat)
  /-- FLR_DRAIN_EXPIRY (R274). -/
  | flrDrainExpiry (fn : Nat)
  /-- VF_ENABLE_CLEAR (R275). -/
  | vfEnableClear
  /-- PCLU_WRITE (R276). -/
  | pcluWrite (fn : Nat) (value : DWord)
  /-- FUNCTION_REGISTER_WRITE (R267). -/
  | functionRegisterWrite (fn : Nat) (value : DWord)
  /-- PCAP_WRITE (R392). -/
  | pcapWrite (value : Word)
  /-- RATE_WRITE (R390). -/
  | rateWrite (channel : Nat) (value : BitVec 2)
  /-- RATE_SWITCH_DONE (R390). -/
  | rateSwitchDone (channel : Nat)
  /-- TRDROP_WRITE (R379). -/
  | trdropWrite (fn : Nat) (value : Word)
  /-- HISTOGRAM_CLEAR (R394). -/
  | histogramClear (core part counter : Nat)
  /-- REGISTER_WRITE (R379). -/
  | registerWrite (fn offset : Nat) (value : DWord)
  /-- REFRESH_INTERVAL (R391). -/
  | refreshInterval (channel : Nat) (issued : Nat)
  /-- ROW_ACTIVATION_LIMIT (R391). -/
  | rowActivationLimit (channel row : Nat)
  /-- THERMAL_THROTTLE (R392). -/
  | thermalThrottle (die : Nat)
  /-- THERMAL_TRIP (R392). -/
  | thermalTrip (die temperature : Nat)
  /-- WATCHPOINT_MATCH (R395). -/
  | watchpointMatch (die index : Nat)
  /-- WATCHPOINT_PREDICATE_END (R395). -/
  | watchpointPredicateEnd (die : Nat)
  /-- MODULE_BOOT (R388). -/
  | moduleBoot
  /-- HOME_ACCESS_RESPONSE (R156). -/
  | homeAccessResponse (core index : Nat)
  /-- CMDDOOR_WRITE (R380). -/
  | cmddoorWrite (fn : Nat) (value : Word)
  /-- UNKNOWN_OP (R382). -/
  | unknownOp (fn : Nat)
  /-- EVHEAD_WRITE (R384). -/
  | evheadWrite (fn : Nat) (value : Word)
  /-- THROTTLE_RELEASE (R392). -/
  | throttleRelease (die : Nat)
  deriving DecidableEq, Repr

end Sys2Proof
end

