-- ==== Sys2Proof/Machine/OpcodeMap.lean ====
section
/-! DEFINITION. The opcode map of R56, row by row, and the passage between an opcode with its fields and the
instruction it stands for. -/

namespace Sys2Proof.Machine

/-- What an operand field names (R37). -/
inductive Kind where
  | none | g | u | d | f | q | k | a | capD | z | w | e | s | o
  deriving DecidableEq, Repr

/-- The modes in which an opcode is legal: the Cue column of R56. -/
inductive Modes where
  | both | lane | cue
  deriving DecidableEq, Repr

/-- The pairing class of R48. -/
inductive PairClass where
  | i | f | m | n
  deriving DecidableEq, Repr

/-- The latency classes of R52 that are not a fixed count of issue steps. -/
inductive LatClass where
  /-- A1, A3, F4 or T8, by its latency. -/
  | fixed (steps : Nat)
  /-- V: interlocked. -/
  | v
  /-- S: counted on a wait counter. -/
  | s
  /-- No register result. -/
  | nothing
  deriving DecidableEq, Repr

/-- One row of the opcode map (R56). -/
structure MapRow where
  code : Nat
  base : Bool
  ext : Bool
  kd : Kind
  ka : Kind
  kb : Kind
  kc : Kind
  imm : Bool
  modes : Modes
  pair : PairClass
  lat : LatClass
  deriving DecidableEq, Repr

/-- A row of the map, its columns in the order of R56. -/
def mapRow (code : Nat) (base ext : Bool) (kd ka kb kc : Kind) (imm : Bool) (modes : Modes) (pair : PairClass)
    (lat : LatClass) : MapRow :=
  { code, base, ext, kd, ka, kb, kc, imm, modes, pair, lat }

/-- The opcode map (R56). SCENE's only form is LEN 0b11 (R57), so neither the base nor the extended form is its own. -/
def opRow : Opc → MapRow
  | .nop => mapRow 0x00 true true .none .none .none .none false .both .n .nothing
  | .bra => mapRow 0x01 true true .o .o .none .none false .both .n .nothing
  | .brc => mapRow 0x02 false true .none .u .none .none true .both .n .nothing
  | .jmpi => mapRow 0x03 true true .none .g .none .none false .both .n .nothing
  | .call => mapRow 0x04 true true .o .o .none .none false .lane .n .nothing
  | .calli => mapRow 0x05 true true .none .g .none .none false .lane .n .nothing
  | .ret => mapRow 0x06 true true .none .none .none .none false .lane .n .nothing
  | .reform => mapRow 0x07 true true .none .none .none .none false .lane .n .nothing
  | .scene => mapRow 0x08 false false .none .none .none .none true .lane .n .nothing
  | .exit => mapRow 0x09 true true .none .g .none .none false .both .n .nothing
  | .arrive => mapRow 0x0A true true .none .e .none .none false .lane .n .nothing
  | .bwait => mapRow 0x0B true true .none .e .none .none false .lane .n .nothing
  | .dqpush => mapRow 0x0C false true .f .g .g .none false .cue .n .v
  | .dqpop => mapRow 0x0D true true .k .none .none .none false .lane .n .v
  | .qenq => mapRow 0x0E false true .f .a .g .none true .both .n .v
  | .qdeq => mapRow 0x0F false true .d .a .none .none true .both .n .v
  | .qstat => mapRow 0x10 false true .d .a .none .none true .both .n .v
  | .launch => mapRow 0x11 false true .f .a .g .none true .cue .n .v
  | .wait => mapRow 0x12 true true .none .w .none .none true .both .n .nothing
  | .ordy => mapRow 0x13 true true .none .none .none .none false .lane .n .nothing
  | .castsync => mapRow 0x14 true true .none .none .none .none false .lane .n .nothing
  | .yield => mapRow 0x15 true true .none .none .none .none false .both .n .nothing
  | .iadd => mapRow 0x20 false true .d .g .g .none false .both .i (.fixed 1)
  | .isub => mapRow 0x21 false true .d .g .g .none false .both .i (.fixed 1)
  | .imul => mapRow 0x22 false true .d .g .g .none false .both .i (.fixed 3)
  | .imulh => mapRow 0x23 false true .d .g .g .none false .both .i (.fixed 3)
  | .imad => mapRow 0x24 false true .d .g .g .g false .lane .i (.fixed 3)
  | .imin => mapRow 0x25 false true .d .g .g .none false .both .i (.fixed 1)
  | .imax => mapRow 0x26 false true .d .g .g .none false .both .i (.fixed 1)
  | .iabs => mapRow 0x27 true true .d .g .none .none false .both .i (.fixed 1)
  | .ineg => mapRow 0x28 true true .d .g .none .none false .both .i (.fixed 1)
  | .iadds => mapRow 0x29 false true .d .g .g .none false .lane .i (.fixed 1)
  | .isubs => mapRow 0x2A false true .d .g .g .none false .lane .i (.fixed 1)
  | .icmp => mapRow 0x2B false true .f .g .g .none false .both .i (.fixed 1)
  | .sel => mapRow 0x2C false true .d .g .g .q false .both .i (.fixed 1)
  | .mov => mapRow 0x2D true true .d .g .none .none false .both .i (.fixed 1)
  | .movl => mapRow 0x2E true true .d .none .none .none true .both .i (.fixed 1)
  | .vidx => mapRow 0x2F true true .d .none .none .none false .lane .i (.fixed 1)
  | .and => mapRow 0x30 false true .d .g .g .none false .both .i (.fixed 1)
  | .or => mapRow 0x31 false true .d .g .g .none false .both .i (.fixed 1)
  | .xor => mapRow 0x32 false true .d .g .g .none false .both .i (.fixed 1)
  | .andn => mapRow 0x33 false true .d .g .g .none false .both .i (.fixed 1)
  | .not => mapRow 0x34 true true .d .g .none .none false .both .i (.fixed 1)
  | .shl => mapRow 0x35 false true .d .g .g .none false .both .i (.fixed 1)
  | .shr => mapRow 0x36 false true .d .g .g .none false .both .i (.fixed 1)
  | .sar => mapRow 0x37 false true .d .g .g .none false .both .i (.fixed 1)
  | .rol => mapRow 0x38 false true .d .g .g .none false .both .i (.fixed 1)
  | .bfx => mapRow 0x39 false true .d .g .g .g false .both .i (.fixed 1)
  | .bfi => mapRow 0x3A false true .d .g .g .g false .both .i (.fixed 1)
  | .popc => mapRow 0x3B true true .d .g .none .none false .both .i (.fixed 1)
  | .clz => mapRow 0x3C true true .d .g .none .none false .both .i (.fixed 1)
  | .ctz => mapRow 0x3D true true .d .g .none .none false .both .i (.fixed 1)
  | .brev => mapRow 0x3E true true .d .g .none .none false .both .i (.fixed 1)
  | .plog => mapRow 0x3F false true .f .q .q .q false .lane .i (.fixed 1)
  | .padd16 => mapRow 0x40 false true .d .g .g .none false .lane .i (.fixed 1)
  | .psub16 => mapRow 0x41 false true .d .g .g .none false .lane .i (.fixed 1)
  | .pmul16 => mapRow 0x42 false true .d .g .g .none false .lane .i (.fixed 3)
  | .pmac16 => mapRow 0x43 false true .d .g .g .g false .lane .i (.fixed 3)
  | .padd8 => mapRow 0x44 false true .d .g .g .none false .lane .i (.fixed 1)
  | .pdot8 => mapRow 0x45 false true .d .g .g .g false .lane .i (.fixed 3)
  | .shrr => mapRow 0x46 false true .d .g .g .none false .lane .i (.fixed 1)
  | .satn => mapRow 0x47 true true .d .g .none .none false .lane .i (.fixed 1)
  | .pmin16 => mapRow 0x48 false true .d .g .g .none false .lane .i (.fixed 1)
  | .pmax16 => mapRow 0x49 false true .d .g .g .none false .lane .i (.fixed 1)
  | .add64 => mapRow 0x4A false true .d .g .g .none false .both .i (.fixed 1)
  | .sub64 => mapRow 0x4B false true .d .g .g .none false .both .i (.fixed 1)
  | .shl64 => mapRow 0x4C false true .d .g .g .none false .both .i (.fixed 1)
  | .shr64 => mapRow 0x4D false true .d .g .g .none false .both .i (.fixed 1)
  | .mul32w => mapRow 0x4E false true .d .g .g .none false .both .i (.fixed 3)
  | .fadd => mapRow 0x60 false true .d .g .g .none false .lane .f (.fixed 4)
  | .fsub => mapRow 0x61 false true .d .g .g .none false .lane .f (.fixed 4)
  | .fmul => mapRow 0x62 false true .d .g .g .none false .lane .f (.fixed 4)
  | .ffma => mapRow 0x63 false true .d .g .g .g false .lane .f (.fixed 4)
  | .fmin => mapRow 0x64 false true .d .g .g .none false .lane .f (.fixed 4)
  | .fmax => mapRow 0x65 false true .d .g .g .none false .lane .f (.fixed 4)
  | .fabs => mapRow 0x66 true true .d .g .none .none false .lane .f (.fixed 4)
  | .fneg => mapRow 0x67 true true .d .g .none .none false .lane .f (.fixed 4)
  | .fcmp => mapRow 0x68 false true .f .g .g .none false .lane .f (.fixed 4)
  | .fclass => mapRow 0x69 true true .d .g .none .none false .lane .f (.fixed 4)
  | .frcp => mapRow 0x6A true true .d .g .none .none false .lane .f (.fixed 8)
  | .frsq => mapRow 0x6B true true .d .g .none .none false .lane .f (.fixed 8)
  | .fsqrt => mapRow 0x6C true true .d .g .none .none false .lane .f (.fixed 8)
  | .fexp2 => mapRow 0x6D true true .d .g .none .none false .lane .f (.fixed 8)
  | .flog2 => mapRow 0x6E true true .d .g .none .none false .lane .f (.fixed 8)
  | .ftanh => mapRow 0x6F true true .d .g .none .none false .lane .f (.fixed 8)
  | .frnd => mapRow 0x70 true true .d .g .none .none false .lane .f (.fixed 4)
  | .fscale => mapRow 0x71 false true .d .g .g .none false .lane .f (.fixed 4)
  | .cvt => mapRow 0x72 false true .d .g .none .none false .lane .f (.fixed 4)
  | .cvtq => mapRow 0x73 false true .d .g .g .none false .lane .n .v
  | .cvtd => mapRow 0x74 false true .d .g .g .none false .lane .f (.fixed 4)
  | .hadd2 => mapRow 0x75 false true .d .g .g .none false .lane .f (.fixed 4)
  | .hmul2 => mapRow 0x76 false true .d .g .g .none false .lane .f (.fixed 4)
  | .hfma2 => mapRow 0x77 false true .d .g .g .g false .lane .f (.fixed 4)
  | .fdot2 => mapRow 0x78 false true .d .g .g .g false .lane .f (.fixed 4)
  | .slide => mapRow 0xA0 false true .d .g .g .none false .lane .n .v
  | .shfl => mapRow 0xA1 false true .d .g .g .none false .lane .n .v
  | .bcast => mapRow 0xA2 false true .d .g .g .none false .lane .n .v
  | .reduce => mapRow 0xA3 false true .d .g .none .none false .lane .n .v
  | .scan => mapRow 0xA4 false true .d .g .none .none false .lane .n .v
  | .vote => mapRow 0xA5 false true .d .q .none .none false .lane .n .v
  | .matchLanes => mapRow 0xA6 false true .d .g .none .none false .lane .n .v
  | .kmov => mapRow 0xA7 false true .k .g .none .none false .lane .n .v
  | .ld => mapRow 0xC0 false true .d .a .g .none true .both .m .v
  | .st => mapRow 0xC1 false true .none .a .g .g true .both .m .nothing
  | .lds => mapRow 0xC2 false true .d .g .none .none true .lane .m .v
  | .sts => mapRow 0xC3 false true .none .g .g .none true .lane .m .nothing
  | .ldk => mapRow 0xC4 false true .k .a .g .none true .lane .n .v
  | .atom => mapRow 0xC5 false true .d .a .g .g true .both .n .v
  | .atoms => mapRow 0xC6 false true .d .g .g .g true .lane .n .v
  | .pfch => mapRow 0xC7 false true .none .a .g .none true .both .m .nothing
  | .capld => mapRow 0xC8 false true .capD .a .g .none true .lane .n .v
  | .capst => mapRow 0xC9 false true .none .a .g .a true .lane .n .nothing
  | .capnar => mapRow 0xCA false true .capD .a .g .g false .lane .n .v
  | .capinfo => mapRow 0xCB false true .d .a .none .none false .both .n .v
  | .copy => mapRow 0xCC false true .w .a .g .g true .both .n .s
  | .gatherb => mapRow 0xCD false true .w .a .g .g true .lane .n .s
  | .copyx => mapRow 0xCE false true .w .a .a .g true .both .n .s
  | .rel => mapRow 0xCF true true .none .none .none .none false .both .n .nothing
  | .acq => mapRow 0xD0 true true .none .none .none .none false .both .n .nothing
  | .icinv => mapRow 0xD1 false true .none .a .g .g true .both .n .nothing
  | .capmk => mapRow 0xD2 false true .capD .a .g .g false .lane .n .v
  | .mma => mapRow 0xD8 false true .z .g .g .w false .lane .n .s
  | .mmas => mapRow 0xD9 false true .z .g .g .w false .lane .n .s
  | .wload => mapRow 0xDA false true .w .a .g .g true .cue .n .s
  | .zclr => mapRow 0xDB false true .z .none .none .w false .lane .n .s
  | .zld => mapRow 0xDC false true .z .a .g .w true .lane .n .s
  | .zst => mapRow 0xDD false true .z .a .g .w true .lane .n .s
  | .zmov => mapRow 0xDE false true .d .z .g .none false .lane .n .v
  | .spcomp => mapRow 0xDF false true .d .g .g .none false .lane .n .v
  | .expq => mapRow 0xE0 false true .d .g .g .none false .lane .n .v
  | .cred => mapRow 0xE1 false true .z .g .g .w false .lane .n .s
  | .qcast => mapRow 0xE2 false true .w .g .g .none true .cue .n .s
  | .topk => mapRow 0xE3 false true .d .g .g .none false .lane .n .v
  | .sacc => mapRow 0xE4 false true .none .g .g .g false .lane .n .nothing
  | .trap => mapRow 0xF0 true true .none .g .none .none false .both .n .nothing
  | .resume => mapRow 0xF1 true true .none .none .none .none false .lane .n .nothing
  | .sysrd => mapRow 0xF2 false true .d .s .g .none false .both .n .v
  | .syswr => mapRow 0xF3 false true .none .s .g .g false .both .n .nothing
  | .pbkrd => mapRow 0xF4 false true .d .g .g .none false .both .n .v
  | .pbkwr => mapRow 0xF5 false true .none .g .g .g false .both .n .nothing
  | .pbkclr => mapRow 0xF6 true true .none .g .none .none false .both .n .nothing
  | .pbksave => mapRow 0xF7 false true .w .a .g .none true .both .n .s
  | .pbkload => mapRow 0xF8 false true .w .a .g .none true .both .n .s
  | .step => mapRow 0xF9 true true .none .a .none .none false .both .n .nothing
  | .fade => mapRow 0xFA false true .none .a .g .g false .both .n .nothing
  | .classmap => mapRow 0xFB false true .none .a .g .g false .both .n .nothing
  | .brkpt => mapRow 0xFC true true .none .none .none .none false .both .n .nothing
  | .trace => mapRow 0xFD false true .none .g .g .none false .both .n .nothing

/-- Every opcode, in the order of the map. -/
def allOpcs : List Opc := [
   .nop, .bra, .brc, .jmpi, .call, .calli, .ret, .reform, .scene, .exit, .arrive, .bwait, .dqpush, .dqpop, .qenq,
   .qdeq, .qstat, .launch, .wait, .ordy, .castsync, .yield, .iadd, .isub, .imul, .imulh, .imad, .imin, .imax,
   .iabs, .ineg, .iadds, .isubs, .icmp, .sel, .mov, .movl, .vidx, .and, .or, .xor, .andn, .not, .shl, .shr, .sar,
   .rol, .bfx, .bfi, .popc, .clz, .ctz, .brev, .plog, .padd16, .psub16, .pmul16, .pmac16, .padd8, .pdot8, .shrr,
   .satn, .pmin16, .pmax16, .add64, .sub64, .shl64, .shr64, .mul32w, .fadd, .fsub, .fmul, .ffma, .fmin, .fmax,
   .fabs, .fneg, .fcmp, .fclass, .frcp, .frsq, .fsqrt, .fexp2, .flog2, .ftanh, .frnd, .fscale, .cvt, .cvtq, .cvtd,
   .hadd2, .hmul2, .hfma2, .fdot2, .slide, .shfl, .bcast, .reduce, .scan, .vote, .matchLanes, .kmov, .ld, .st,
   .lds, .sts, .ldk, .atom, .atoms, .pfch, .capld, .capst, .capnar, .capinfo, .copy, .gatherb, .copyx, .rel, .acq,
   .icinv, .capmk, .mma, .mmas, .wload, .zclr, .zld, .zst, .zmov, .spcomp, .expq, .cred, .qcast, .topk, .sacc,
   .trap, .resume, .sysrd, .syswr, .pbkrd, .pbkwr, .pbkclr, .pbksave, .pbkload, .step, .fade, .classmap, .brkpt,
   .trace]

/-- The opcode with this code, if the map assigns it (R55, R56). -/
def opcOfCode (n : Nat) : Option Opc := allOpcs.find? fun o => (opRow o).code == n

/-- The instruction with this opcode and these fields. -/
def instrOf : Opc → Op → Instr
  | .nop, o => .nop o
  | .bra, o => .bra o
  | .brc, o => .brc o
  | .jmpi, o => .jmpi o
  | .call, o => .call o
  | .calli, o => .calli o
  | .ret, o => .ret o
  | .reform, o => .reform o
  | .scene, o => .scene o
  | .exit, o => .exit o
  | .arrive, o => .arrive o
  | .bwait, o => .bwait o
  | .dqpush, o => .dqpush o
  | .dqpop, o => .dqpop o
  | .qenq, o => .qenq o
  | .qdeq, o => .qdeq o
  | .qstat, o => .qstat o
  | .launch, o => .launch o
  | .wait, o => .wait o
  | .ordy, o => .ordy o
  | .castsync, o => .castsync o
  | .yield, o => .yield o
  | .iadd, o => .iadd o
  | .isub, o => .isub o
  | .imul, o => .imul o
  | .imulh, o => .imulh o
  | .imad, o => .imad o
  | .imin, o => .imin o
  | .imax, o => .imax o
  | .iabs, o => .iabs o
  | .ineg, o => .ineg o
  | .iadds, o => .iadds o
  | .isubs, o => .isubs o
  | .icmp, o => .icmp o
  | .sel, o => .sel o
  | .mov, o => .mov o
  | .movl, o => .movl o
  | .vidx, o => .vidx o
  | .and, o => .and o
  | .or, o => .or o
  | .xor, o => .xor o
  | .andn, o => .andn o
  | .not, o => .not o
  | .shl, o => .shl o
  | .shr, o => .shr o
  | .sar, o => .sar o
  | .rol, o => .rol o
  | .bfx, o => .bfx o
  | .bfi, o => .bfi o
  | .popc, o => .popc o
  | .clz, o => .clz o
  | .ctz, o => .ctz o
  | .brev, o => .brev o
  | .plog, o => .plog o
  | .padd16, o => .padd16 o
  | .psub16, o => .psub16 o
  | .pmul16, o => .pmul16 o
  | .pmac16, o => .pmac16 o
  | .padd8, o => .padd8 o
  | .pdot8, o => .pdot8 o
  | .shrr, o => .shrr o
  | .satn, o => .satn o
  | .pmin16, o => .pmin16 o
  | .pmax16, o => .pmax16 o
  | .add64, o => .add64 o
  | .sub64, o => .sub64 o
  | .shl64, o => .shl64 o
  | .shr64, o => .shr64 o
  | .mul32w, o => .mul32w o
  | .fadd, o => .fadd o
  | .fsub, o => .fsub o
  | .fmul, o => .fmul o
  | .ffma, o => .ffma o
  | .fmin, o => .fmin o
  | .fmax, o => .fmax o
  | .fabs, o => .fabs o
  | .fneg, o => .fneg o
  | .fcmp, o => .fcmp o
  | .fclass, o => .fclass o
  | .frcp, o => .frcp o
  | .frsq, o => .frsq o
  | .fsqrt, o => .fsqrt o
  | .fexp2, o => .fexp2 o
  | .flog2, o => .flog2 o
  | .ftanh, o => .ftanh o
  | .frnd, o => .frnd o
  | .fscale, o => .fscale o
  | .cvt, o => .cvt o
  | .cvtq, o => .cvtq o
  | .cvtd, o => .cvtd o
  | .hadd2, o => .hadd2 o
  | .hmul2, o => .hmul2 o
  | .hfma2, o => .hfma2 o
  | .fdot2, o => .fdot2 o
  | .slide, o => .slide o
  | .shfl, o => .shfl o
  | .bcast, o => .bcast o
  | .reduce, o => .reduce o
  | .scan, o => .scan o
  | .vote, o => .vote o
  | .matchLanes, o => .matchLanes o
  | .kmov, o => .kmov o
  | .ld, o => .ld o
  | .st, o => .st o
  | .lds, o => .lds o
  | .sts, o => .sts o
  | .ldk, o => .ldk o
  | .atom, o => .atom o
  | .atoms, o => .atoms o
  | .pfch, o => .pfch o
  | .capld, o => .capld o
  | .capst, o => .capst o
  | .capnar, o => .capnar o
  | .capinfo, o => .capinfo o
  | .copy, o => .copy o
  | .gatherb, o => .gatherb o
  | .copyx, o => .copyx o
  | .rel, o => .rel o
  | .acq, o => .acq o
  | .icinv, o => .icinv o
  | .capmk, o => .capmk o
  | .mma, o => .mma o
  | .mmas, o => .mmas o
  | .wload, o => .wload o
  | .zclr, o => .zclr o
  | .zld, o => .zld o
  | .zst, o => .zst o
  | .zmov, o => .zmov o
  | .spcomp, o => .spcomp o
  | .expq, o => .expq o
  | .cred, o => .cred o
  | .qcast, o => .qcast o
  | .topk, o => .topk o
  | .sacc, o => .sacc o
  | .trap, o => .trap o
  | .resume, o => .resume o
  | .sysrd, o => .sysrd o
  | .syswr, o => .syswr o
  | .pbkrd, o => .pbkrd o
  | .pbkwr, o => .pbkwr o
  | .pbkclr, o => .pbkclr o
  | .pbksave, o => .pbksave o
  | .pbkload, o => .pbkload o
  | .step, o => .step o
  | .fade, o => .fade o
  | .classmap, o => .classmap o
  | .brkpt, o => .brkpt o
  | .trace, o => .trace o

/-- The opcode and fields of an instruction; an event of the module has none. -/
def opcOf : Instr → Option (Opc × Op)
  | .nop o => some (.nop, o)
  | .bra o => some (.bra, o)
  | .brc o => some (.brc, o)
  | .jmpi o => some (.jmpi, o)
  | .call o => some (.call, o)
  | .calli o => some (.calli, o)
  | .ret o => some (.ret, o)
  | .reform o => some (.reform, o)
  | .scene o => some (.scene, o)
  | .exit o => some (.exit, o)
  | .arrive o => some (.arrive, o)
  | .bwait o => some (.bwait, o)
  | .dqpush o => some (.dqpush, o)
  | .dqpop o => some (.dqpop, o)
  | .qenq o => some (.qenq, o)
  | .qdeq o => some (.qdeq, o)
  | .qstat o => some (.qstat, o)
  | .launch o => some (.launch, o)
  | .wait o => some (.wait, o)
  | .ordy o => some (.ordy, o)
  | .castsync o => some (.castsync, o)
  | .yield o => some (.yield, o)
  | .iadd o => some (.iadd, o)
  | .isub o => some (.isub, o)
  | .imul o => some (.imul, o)
  | .imulh o => some (.imulh, o)
  | .imad o => some (.imad, o)
  | .imin o => some (.imin, o)
  | .imax o => some (.imax, o)
  | .iabs o => some (.iabs, o)
  | .ineg o => some (.ineg, o)
  | .iadds o => some (.iadds, o)
  | .isubs o => some (.isubs, o)
  | .icmp o => some (.icmp, o)
  | .sel o => some (.sel, o)
  | .mov o => some (.mov, o)
  | .movl o => some (.movl, o)
  | .vidx o => some (.vidx, o)
  | .and o => some (.and, o)
  | .or o => some (.or, o)
  | .xor o => some (.xor, o)
  | .andn o => some (.andn, o)
  | .not o => some (.not, o)
  | .shl o => some (.shl, o)
  | .shr o => some (.shr, o)
  | .sar o => some (.sar, o)
  | .rol o => some (.rol, o)
  | .bfx o => some (.bfx, o)
  | .bfi o => some (.bfi, o)
  | .popc o => some (.popc, o)
  | .clz o => some (.clz, o)
  | .ctz o => some (.ctz, o)
  | .brev o => some (.brev, o)
  | .plog o => some (.plog, o)
  | .padd16 o => some (.padd16, o)
  | .psub16 o => some (.psub16, o)
  | .pmul16 o => some (.pmul16, o)
  | .pmac16 o => some (.pmac16, o)
  | .padd8 o => some (.padd8, o)
  | .pdot8 o => some (.pdot8, o)
  | .shrr o => some (.shrr, o)
  | .satn o => some (.satn, o)
  | .pmin16 o => some (.pmin16, o)
  | .pmax16 o => some (.pmax16, o)
  | .add64 o => some (.add64, o)
  | .sub64 o => some (.sub64, o)
  | .shl64 o => some (.shl64, o)
  | .shr64 o => some (.shr64, o)
  | .mul32w o => some (.mul32w, o)
  | .fadd o => some (.fadd, o)
  | .fsub o => some (.fsub, o)
  | .fmul o => some (.fmul, o)
  | .ffma o => some (.ffma, o)
  | .fmin o => some (.fmin, o)
  | .fmax o => some (.fmax, o)
  | .fabs o => some (.fabs, o)
  | .fneg o => some (.fneg, o)
  | .fcmp o => some (.fcmp, o)
  | .fclass o => some (.fclass, o)
  | .frcp o => some (.frcp, o)
  | .frsq o => some (.frsq, o)
  | .fsqrt o => some (.fsqrt, o)
  | .fexp2 o => some (.fexp2, o)
  | .flog2 o => some (.flog2, o)
  | .ftanh o => some (.ftanh, o)
  | .frnd o => some (.frnd, o)
  | .fscale o => some (.fscale, o)
  | .cvt o => some (.cvt, o)
  | .cvtq o => some (.cvtq, o)
  | .cvtd o => some (.cvtd, o)
  | .hadd2 o => some (.hadd2, o)
  | .hmul2 o => some (.hmul2, o)
  | .hfma2 o => some (.hfma2, o)
  | .fdot2 o => some (.fdot2, o)
  | .slide o => some (.slide, o)
  | .shfl o => some (.shfl, o)
  | .bcast o => some (.bcast, o)
  | .reduce o => some (.reduce, o)
  | .scan o => some (.scan, o)
  | .vote o => some (.vote, o)
  | .matchLanes o => some (.matchLanes, o)
  | .kmov o => some (.kmov, o)
  | .ld o => some (.ld, o)
  | .st o => some (.st, o)
  | .lds o => some (.lds, o)
  | .sts o => some (.sts, o)
  | .ldk o => some (.ldk, o)
  | .atom o => some (.atom, o)
  | .atoms o => some (.atoms, o)
  | .pfch o => some (.pfch, o)
  | .capld o => some (.capld, o)
  | .capst o => some (.capst, o)
  | .capnar o => some (.capnar, o)
  | .capinfo o => some (.capinfo, o)
  | .copy o => some (.copy, o)
  | .gatherb o => some (.gatherb, o)
  | .copyx o => some (.copyx, o)
  | .rel o => some (.rel, o)
  | .acq o => some (.acq, o)
  | .icinv o => some (.icinv, o)
  | .capmk o => some (.capmk, o)
  | .mma o => some (.mma, o)
  | .mmas o => some (.mmas, o)
  | .wload o => some (.wload, o)
  | .zclr o => some (.zclr, o)
  | .zld o => some (.zld, o)
  | .zst o => some (.zst, o)
  | .zmov o => some (.zmov, o)
  | .spcomp o => some (.spcomp, o)
  | .expq o => some (.expq, o)
  | .cred o => some (.cred, o)
  | .qcast o => some (.qcast, o)
  | .topk o => some (.topk, o)
  | .sacc o => some (.sacc, o)
  | .trap o => some (.trap, o)
  | .resume o => some (.resume, o)
  | .sysrd o => some (.sysrd, o)
  | .syswr o => some (.syswr, o)
  | .pbkrd o => some (.pbkrd, o)
  | .pbkwr o => some (.pbkwr, o)
  | .pbkclr o => some (.pbkclr, o)
  | .pbksave o => some (.pbksave, o)
  | .pbkload o => some (.pbkload, o)
  | .step o => some (.step, o)
  | .fade o => some (.fade, o)
  | .classmap o => some (.classmap, o)
  | .brkpt o => some (.brkpt, o)
  | .trace o => some (.trace, o)
  | .gatherComplete _ _ => none
  | .waitWake _ => none
  | .bwaitWake _ => none
  | .dqpopWake _ _ => none
  | .qdeqWake _ => none
  | .brcResolve _ => none
  | .commandBufferPerform _ => none
  | .translationRestart _ => none
  | .retryAfterRefusal _ _ _ => none
  | .retryResend _ _ => none
  | .l1Fill _ _ _ => none
  | .releaseFifoWriteback _ => none
  | .homeWriteApply _ => none
  | .homeWriteAck _ => none
  | .copyCompletion _ _ => none
  | .accumulatorCopyCompletion _ _ => none
  | .wloadCompletion _ _ => none
  | .qcastCompletion _ _ => none
  | .pbkTransferCompletion _ _ => none
  | .matrixGrant _ => none
  | .matrixPassCompletion _ => none
  | .credRoundCompletion _ _ _ _ => none
  | .faderReencode _ _ => none
  | .classmapCompletion _ => none
  | .binDraw _ _ _ => none
  | .castSwap _ _ _ => none
  | .castDue _ _ => none
  | .queueDoorbell _ _ _ => none
  | .queueHaltClear _ _ => none
  | .queueEnable _ _ => none
  | .packetAtHead _ _ => none
  | .waitsetConsume _ _ => none
  | .launchDraw _ _ => none
  | .castPlacement _ _ => none
  | .completionRecordWrite _ _ _ _ => none
  | .ownerChange _ _ => none
  | .deficitExhausted _ => none
  | .tokenRefill _ => none
  | .preempt _ => none
  | .preemptionImageSaved _ => none
  | .resumeCommand _ => none
  | .inval _ => none
  | .pageresp _ => none
  | .fugset _ => none
  | .pull _ => none
  | .pullPageComplete _ _ => none
  | .inject _ => none
  | .record _ => none
  | .attest _ => none
  | .continueHalt _ => none
  | .hostApertureAccess _ _ _ _ => none
  | .peerRequest _ _ _ _ => none
  | .peerSourceLost _ _ => none
  | .sharedStructureError _ _ _ => none
  | .firmwareScrub _ => none
  | .functionLevelReset _ => none
  | .flrDrainExpiry _ => none
  | .vfEnableClear => none
  | .pcluWrite _ _ => none
  | .functionRegisterWrite _ _ => none
  | .pcapWrite _ => none
  | .rateWrite _ _ => none
  | .rateSwitchDone _ => none
  | .trdropWrite _ _ => none
  | .histogramClear _ _ _ => none
  | .registerWrite _ _ _ => none
  | .refreshInterval _ _ => none
  | .rowActivationLimit _ _ => none
  | .thermalThrottle _ => none
  | .thermalTrip _ _ => none
  | .watchpointMatch _ _ => none
  | .watchpointPredicateEnd _ => none
  | .moduleBoot => none
  | .homeAccessResponse _ _ => none
  | .cmddoorWrite _ _ => none
  | .unknownOp _ => none
  | .evheadWrite _ _ => none
  | .throttleRelease _ => none

end Sys2Proof.Machine
end

