-- ==== Sys2Proof/Machine/Sparse.lean ====
section
/-! DEFINITION. Sparse data in one canonical form: a store is a list of keys and values with the keys strictly rising, a
set of numbers a strictly rising list. -/

namespace Sys2Proof.Machine

/-- Values by number, sorted by number. -/
abbrev Store (α : Type) := List (Nat × α)

/-- A set of numbers, strictly rising. -/
abbrev NSet := List Nat

/-- The value at `k`, if one is listed. -/
def sfind {α : Type} (k : Nat) : Store α → Option α
  | [] => none
  | (j, v) :: rest => if j = k then some v else sfind k rest

/-- The value at `k`, or `d` where none is listed. -/
def sget {α : Type} (d : α) (k : Nat) (m : Store α) : α :=
  match sfind k m with
  | some v => v
  | none => d

/-- List `v` at `k`. -/
def sput {α : Type} (k : Nat) (v : α) : Store α → Store α
  | [] => [(k, v)]
  | (j, x) :: rest =>
    if k < j then (k, v) :: (j, x) :: rest
    else if j = k then (k, v) :: rest
    else (j, x) :: sput k v rest

/-- Remove what is listed at `k`. -/
def sdel {α : Type} (k : Nat) : Store α → Store α
  | [] => []
  | (j, x) :: rest => if j = k then sdel k rest else (j, x) :: sdel k rest

/-- Set the value at `k` in a store whose unlisted entries read `d`: an entry equal to `d` is not listed. -/
def sset {α : Type} [DecidableEq α] (d : α) (k : Nat) (v : α) (m : Store α) : Store α :=
  if v = d then sdel k m else sput k v m

/-- Are the keys strictly rising and all at least `lo`? -/
def sortedFrom {α : Type} (lo : Nat) : Store α → Bool
  | [] => true
  | (j, _) :: rest => decide (lo ≤ j) && sortedFrom (j + 1) rest

/-- The canonical form: keys strictly rising, no entry equal to what an unlisted key reads. -/
def Store.canonical {α : Type} [DecidableEq α] (d : α) (m : Store α) : Bool :=
  sortedFrom 0 m && m.all fun e => !decide (e.2 = d)

/-- Is `k` in the set? -/
def nmem (k : Nat) : NSet → Bool
  | [] => false
  | j :: rest => if j = k then true else nmem k rest

/-- Add `k` to the set. -/
def nins (k : Nat) : NSet → NSet
  | [] => [k]
  | j :: rest => if k < j then k :: j :: rest else if j = k then j :: rest else j :: nins k rest

/-- Remove `k` from the set. -/
def ndel (k : Nat) (m : NSet) : NSet := m.filter fun j => !(j == k)

/-- Add or remove `k`. -/
def nset (k : Nat) (b : Bool) (m : NSet) : NSet := if b then nins k m else ndel k m

/-- Is some number of `[lo, lo + n)` in the set? -/
def nmeets (lo n : Nat) (m : NSet) : Bool := m.any fun j => decide (lo ≤ j ∧ j < lo + n)

/-- Bytes `[lo, lo + n)` of a byte store whose unlisted bytes read 0. -/
def bytesAt (lo n : Nat) (m : Store Byte) : List Byte := (span lo n).map fun a => sget 0 a m

/-- Set the bytes from `lo` upwards. -/
def putBytes (lo : Nat) : List Byte → Store Byte → Store Byte
  | [], m => m
  | b :: bs, m => putBytes (lo + 1) bs (sset 0 lo b m)

/-- The numbers of a list are strictly rising. -/
def rising : List Nat → Bool
  | [] => true
  | [_] => true
  | a :: b :: rest => decide (a < b) && rising (b :: rest)

/-- Replace the element at `i`. -/
def setAt {α : Type} (i : Nat) (x : α) (l : List α) : List α := l.set i x

/-- Add one to a value that stops at `top`. -/
def satInc (top x : Nat) : Nat := if x < top then x + 1 else x

end Sys2Proof.Machine
end

