-- ==== Sys2Proof/Machine/Checks.lean ====
section
/-! DEFINITION. The checks that make words an instruction, whatever the mode, the launch and the run mode: R37 to R42,
R44, R48, R49, R55 to R57 and the single descriptions, each under a name. -/

namespace Sys2Proof.Machine

/-- Why words are not an instruction (R55). -/
inductive Reject where
  /-- Fewer words than LEN asks for. -/
  | truncated
  /-- An opcode or OP2 that the map does not assign. -/
  | opcode
  /-- A form that the map entry lacks. -/
  | form
  /-- An operand value outside its kind, or a selector beside a kind that takes none. -/
  | operand
  /-- A use of the immediate or the literal that R39 forbids, or a non-zero unused word 2. -/
  | immediate
  /-- An unassigned MOD value. -/
  | modifier
  /-- A non-zero FSLOT, OVF, FZI or FZO that the instruction does not use. -/
  | formatField
  /-- A guard that R44 forbids. -/
  | guard
  /-- A pair that breaks R48 or R49. -/
  | pair
  deriving DecidableEq, Repr

/-- Does the form carry word 1? -/
def formHasWord1 : Form → Bool
  | .ext => true
  | .extLit => true
  | .base => false
  | .lit => false

/-- Does the form carry a literal? -/
def formHasLit : Form → Bool
  | .lit => true
  | .extLit => true
  | .base => false
  | .ext => false

/-- The form whose LEN is `n` (R32). -/
def formOfLen (n : Nat) : Form :=
  match n with
  | 0 => .base
  | 1 => .ext
  | 2 => .lit
  | _ => .extLit

/-- LEN of a form (R32). -/
def formLen : Form → Nat
  | .base => 0
  | .ext => 1
  | .lit => 2
  | .extLit => 3

/-- Words of an instruction in this form (R32). -/
def formWords : Form → Nat
  | .base => 1
  | .ext => 3
  | .lit => 3
  | .extLit => 5

/-- Is the kind a source that takes a selector (R37)? -/
def selectable : Kind → Bool
  | .g => true
  | .u => true
  | _ => false

/-- Does the word's first operation have an immediate (R39)? -/
def opHasImm (op : Op) : Bool :=
  match op.form with
  | .base => false
  | .ext => op.second.isNone
  | .lit => true
  | .extLit => true

/-- Does a field of a selectable kind name the immediate (R38)? -/
def namesImm (kd : Kind) (sel : Bool) (x : BitVec 7) : Bool := selectable kd && sel && x == 0x7F

/-- Does the operation read the immediate (R39, R40)? -/
def readsImm (o : Opc) (op : Op) : Bool :=
  let r := opRow o
  r.imm || (r.kd == .o && op.form != .base) || namesImm r.ka op.asel op.a || namesImm r.kb op.bsel op.b
    || namesImm r.kc op.csel op.c

/-- The system registers of R17 by number. -/
def sysNumbers : List Nat := [0x00, 0x01, 0x02, 0x03, 0x04, 0x08, 0x09, 0x10, 0x14, 0x20, 0x21, 0x40]

/-- Is `x` a value of a field of this kind in some mode (R37, R38)? -/
def operandOk (kd : Kind) (sel : Bool) (x : BitVec 7) (hasImm : Bool) : Bool :=
  let n := x.toNat
  match kd with
  | .g | .u => !sel || n < 0x60 || (n == 0x7F && hasImm)
  | .none => !sel && n == 0
  | .d => !sel
  | .f | .q | .z => !sel && n < 64
  | .k | .a => !sel && n < 32
  | .capD => !sel && n < 16
  | .w => !sel && n < 8
  | .e => !sel && n < 4
  | .s => !sel && sysNumbers.contains n
  | .o => !sel

/-- Form check: R56, R57. -/
def formOk (o : Opc) (op : Op) : Bool :=
  let r := opRow o
  match o, op.form with
  | .scene, .extLit => op.second.isNone
  | .scene, _ => false
  | _, .base => r.base
  | _, .lit => r.base && readsImm o op
  | _, .ext => r.ext
  | _, .extLit => r.ext && readsImm o op

/-- Operand check: R37, R38, R40; a branch offset in D and A is all there is in base form and 0 elsewhere. -/
def operandsOk (o : Opc) (op : Op) : Bool :=
  let r := opRow o
  let i := opHasImm op
  match r.kd with
  | .o => !op.asel && (op.form == .base || (op.d == 0 && op.a == 0)) && operandOk r.kb op.bsel op.b i
      && operandOk r.kc op.csel op.c i
  | kd => operandOk kd false op.d i && operandOk r.ka op.asel op.a i && operandOk r.kb op.bsel op.b i
      && operandOk r.kc op.csel op.c i && !(o == .brc && op.asel && op.a == 0x7F)
      && !(o == .syswr && !([0x03, 0x08, 0x09].contains op.a.toNat))
      && !(o == .cred && (op.d.toNat % 2 == 1 || op.d.toNat > 62))

/-- Immediate check: R39, R57, R149, R161. Word 2 is 0 unless it is the immediate, or SCENE's second one. -/
def immediateOk (o : Opc) (op : Op) : Bool :=
  (o == .scene || !formHasWord1 op.form || op.second.isSome || op.word2 == 0 || (op.form == .ext && readsImm o op))
    && (o != .wait || !formHasLit op.form || op.lit.toNat < 256) && (o != .wait || op.form != .ext || op.word2.toNat < 256)
    && (o != .gatherb || (op.form == .ext && op.word2.toNat < 2 ^ 16 && op.word2.toNat % 256 != 0)
        || (op.form == .extLit && op.lit.toNat < 2 ^ 16 && op.lit.toNat % 256 != 0))

/-- The rounding modes of R81: MOD[2:0] is at most 5. -/
def roundOk (m : Nat) : Bool := m % 8 ≤ 5

/-- MOD check: the values that each description assigns (R41). -/
def modOk (o : Opc) (m : Nat) : Bool :=
  match o with
  | .brc | .dqpop | .qstat | .imulh | .imin | .imax | .iadds | .isubs | .bfx | .pmac16 | .pmin16 | .pmax16 | .mul32w
  | .fmin | .fmax | .shfl | .kmov | .ldk | .pfch | .copy | .expq | .sacc | .pbksave | .pbkload => m ≤ 1
  | .vidx | .padd16 | .psub16 | .pmul16 | .padd8 | .pdot8 | .shrr | .fclass | .gatherb | .copyx | .capmk
  | .classmap => m ≤ 2
  | .satn | .vote | .spcomp | .cred | .fade => m ≤ 3
  | .capinfo => m ≤ 4
  | .rel | .acq | .lds => m ≤ 6
  | .fcmp | .cvtd => m ≤ 7
  | .pbkrd => m ≤ 8
  | .pbkwr => m ≤ 6
  | .plog | .capnar => true
  | .launch => m < 64
  | .mma => m < 64
  | .mmas | .topk => m < 128
  | .qcast => m < 15
  | .icmp => m < 16 && m % 8 ≤ 5
  | .fadd | .fsub | .fmul | .ffma | .frcp | .frsq | .fsqrt | .fexp2 | .flog2 | .ftanh | .frnd | .fscale => m ≤ 5
  | .hadd2 | .hmul2 | .hfma2 | .fdot2 => m < 16 && roundOk m
  | .cvt =>
    let code := m / 8 % 16
    code ≤ 9 && (if code ≤ 5 || code == 8 then roundOk m else m % 8 == 0) && (m < 128 || code == 8)
  | .cvtq => m / 16 % 8 == 0 && (if m / 8 % 2 == 1 then m == 8 else roundOk m)
  | .scene => m < 128 && m % 32 ≤ 16 && m / 32 % 4 ≠ 3
  | .arrive | .bwait => m < 16 && m / 2 ≠ 7
  | .slide => m % 4 ≠ 3
  | .reduce => m ≤ 10
  | .scan => m < 32 && m % 16 ≤ 10
  | .ld => m % 8 ≠ 7 && m / 8 % 4 ≠ 3 && m / 32 % 4 ≠ 3
  | .st | .sts => m == 0 || m == 1 || m == 3 || m == 5 || m == 6
  | .atom => m < 64 && m % 16 ≤ 11
  | .atoms => m < 64 && m % 16 ≤ 10
  | _ => m == 0

/-- The conversion code of CVT, MOD[6:3] (R119). -/
def cvtCode (m : Nat) : Nat := m / 8 % 16

/-- FSLOT, OVF, FZI and FZO check: R42, R85, R86, R108, R119 to R121, R125, R155, R303, R325, R358. -/
def formatOk (o : Opc) (op : Op) : Bool :=
  let m := op.mod.toNat
  let slotOk := op.fslot == 0 || (match o with
    | .cvtq | .cvtd | .mma | .mmas | .spcomp => true
    | .cvt => cvtCode m == 8 || cvtCode m == 9
    | .ld => op.fslot.toNat % 4 ≠ 3
    | .atom => op.fslot.toNat ≠ 7
    | _ => false)
  let ovfOk := op.ovf == 0 || (match o with
    | .cvt => cvtCode m == 4 || cvtCode m == 5 || (cvtCode m == 8 && m ≥ 128)
    | .cvtq => m ≥ 128
    | _ => false)
  let fziOk := !op.fzi || (match o with
    | .fadd | .fsub | .fmul | .ffma | .fmin | .fmax | .fcmp | .frcp | .frsq | .fsqrt | .fexp2 | .flog2 | .ftanh
    | .frnd | .fscale | .cvt | .cvtq | .cvtd | .hadd2 | .hmul2 | .hfma2 | .fdot2 => true
    | _ => false)
  let fzoOk := !op.fzo || (match o with
    | .fadd | .fsub | .fmul | .ffma | .fmin | .fmax | .frcp | .frsq | .fsqrt | .fexp2 | .flog2 | .ftanh
    | .frnd | .fscale | .cvtq | .cvtd | .hadd2 | .hmul2 | .hfma2 | .fdot2 => true
    | .cvt => cvtCode m == 6 || cvtCode m == 7 || cvtCode m == 9
    | _ => false)
  slotOk && ovfOk && fziOk && fzoOk

/-- Guard check: R44. -/
def guardOk (o : Opc) (op : Op) : Bool :=
  match o with
  | .scene | .reform | .ordy | .castsync | .yield | .resume => op.grd == 7 && !op.gneg
  | _ => true

/-- The field of an operand: D, A, B or C. -/
inductive Field where
  | d | a | b | c
  deriving DecidableEq, Repr

/-- How many consecutive registers a lane operand of general or uniform kind spans (R101, R150, R153, R155, R157, R189,
R305, R331). -/
def span32 (o : Opc) (m : Nat) (f : Field) : Nat :=
  match o, f with
  | .add64, .d | .add64, .a | .add64, .b | .sub64, .d | .sub64, .a | .sub64, .b => 2
  | .shl64, .d | .shl64, .a | .shr64, .d | .shr64, .a | .mul32w, .d => 2
  | .capmk, .b | .capmk, .c => 2
  | .capinfo, .d => if m < 3 then 2 else 1
  | .ldk, .d => if m == 1 then 2 else 1
  | .dqpop, .d => if m == 0 then 2 else 1
  | .ld, .d | .lds, .d | .st, .c | .sts, .b => if m % 8 == 5 then 2 else if m % 8 == 6 then 4 else 1
  | .atom, .d => if m % 16 == 11 then 2 else 1
  | .atom, .c => if m % 16 == 11 || m % 16 == 9 then 2 else 1
  | .expq, .a => 4
  | .mma, .a => if m / 8 % 2 == 0 then 16 else 1
  | .mmas, .a => if m / 8 % 2 == 0 then 32 else 1
  | _, _ => 1

/-- The vector registers that a source field reads (R48). -/
def readRegs (kd : Kind) (sel : Bool) (x : BitVec 7) (n : Nat) : List Nat :=
  if kd == .g && !sel then span x.toNat n else []

/-- The second operation of a pair as an operation of its own (R49): selectors, MOD and the format fields are 0, it has no
immediate, and its C is the register that D2 names. -/
def secondOp (t : Second) : Op :=
  let r := opRow t.opc
  { form := .ext
    grd := t.grd2
    d := if r.kd == .none then 0 else t.d2
    a := t.a2
    b := t.b2
    c := if r.kc == .none then 0 else t.d2
    second := some t }

/-- Can a second operation's kinds be met (R49)? A C operand of a kind other than D's cannot be. -/
def secondKindsOk (t : Second) : Bool :=
  let r := opRow t.opc
  let q := secondOp t
  r.ext && r.kd != .o && r.ka != .u && r.kb != .u && r.kc != .u
    && operandOk r.kd false q.d false && operandOk r.ka false q.a false && operandOk r.kb false q.b false
    && operandOk r.kc false q.c false
    && (r.kd != .none || r.kc != .none || t.d2 == 0)
    && (r.kd == .none || r.kc == .none || (r.kd == .d && r.kc == .g) || (r.kd == .f && r.kc == .q))

/-- How many of the registers lie in bank `j` (R15, R48). -/
def bankCount (regs : List Nat) (j : Nat) : Nat := (regs.filter fun n => n % 4 == j).length

/-- Operands taken from the uniform space. -/
def uniformCount (o : Opc) (op : Op) : Nat :=
  let r := opRow o
  b2n (selectable r.ka && op.asel) + b2n (selectable r.kb && op.bsel) + b2n (selectable r.kc && op.csel)

/-- The registers an operation reads through general source fields. -/
def opReads (o : Opc) (op : Op) : List Nat :=
  let r := opRow o
  let m := op.mod.toNat
  readRegs r.ka op.asel op.a (span32 o m .a) ++ readRegs r.kb op.bsel op.b (span32 o m .b)
    ++ readRegs r.kc op.csel op.c (span32 o m .c)

/-- Do the two operations write one register (R48)? -/
def sameTarget (o : Opc) (op : Op) (t : Second) : Bool :=
  let kd := (opRow o).kd
  kd == (opRow t.opc).kd && (kd == .d || kd == .f)
    && overlaps op.d.toNat (span32 o op.mod.toNat .d) t.d2.toNat (span32 t.opc 0 .d)

/-- Pair check: R48, R49. -/
def pairOk (o : Opc) (op : Op) : Bool :=
  match op.second with
  | none => true
  | some t =>
    let r := opRow o
    let r2 := opRow t.opc
    let reads := (opReads o op ++ opReads t.opc (secondOp t)).foldr nins []
    (op.form == .ext || (op.form == .extLit && readsImm o op))
      && r.ext && r.modes != .cue && r2.modes != .cue
      && r.pair != .n && r2.pair != .n && !(r.pair == .f && r2.pair == .f) && !(r.pair == .m && r2.pair == .m)
      && secondKindsOk t
      && (List.range 4).all (fun j => bankCount reads j ≤ 2)
      && uniformCount o op ≤ 1
      && !sameTarget o op t

/-- Fields that the form does not carry are 0 (R35). -/
def absentZero (op : Op) : Bool :=
  (formHasWord1 op.form || (op.b == 0 && !op.bsel && op.c == 0 && !op.csel && op.mod == 0 && op.fslot == 0 && op.ovf == 0
      && !op.fzi && !op.fzo && op.word2 == 0 && op.second.isNone))
    && (formHasLit op.form || op.lit == 0) && (op.second.isNone || op.word2 == 0)

/-- The first check that an operation fails, by name. -/
def rejects (o : Opc) (op : Op) : Option Reject :=
  if !(absentZero op && formOk o op) then some .form
  else if !operandsOk o op then some .operand
  else if !immediateOk o op then some .immediate
  else if !modOk o op.mod.toNat then some .modifier
  else if !formatOk o op then some .formatField
  else if !guardOk o op then some .guard
  else if !pairOk o op then some .pair
  else none

end Sys2Proof.Machine
end

