-- ==== Sys2Proof/WellFormed.lean ====
section
/-! DEFINITION. Well-formed instructions: those that words can encode (R55). The checks are in Machine/Checks.lean. -/

namespace Sys2Proof

open Machine

/-- Is the instruction one that words can encode? An event of the module has no words. -/
def wellFormed (i : Instr) : Bool :=
  match opcOf i with
  | some (o, op) => (rejects o op).isNone
  | none => false

end Sys2Proof
end

