-- ==== Sys2Proof/Decode.lean ====
section
/-! DEFINITION. Decode: from bytes to an instruction or a named rejection (R32, R33, R36, R49, R55), and after it the
encoder, from the same tables. -/

namespace Sys2Proof

open Machine

/-- Bits `[lo + n - 1 : lo]` of a word. -/
def wordField (w : Word) (lo n : Nat) : Nat := w.toNat / 2 ^ lo % 2 ^ n

/-- Word 0 without the opcode (R36). -/
def decodeWord0 (w : Word) : Op :=
  { form := formOfLen (wordField w 0 2)
    stall := BitVec.ofNat 3 (wordField w 2 3)
    grd := BitVec.ofNat 3 (wordField w 5 3)
    gneg := wordField w 8 1 == 1
    d := BitVec.ofNat 7 (wordField w 18 7)
    a := BitVec.ofNat 7 (wordField w 25 7)
    asel := wordField w 17 1 == 1 }

/-- Word 1 (R36), with PAIR left to the caller. -/
def decodeWord1 (w : Word) (op : Op) : Op :=
  { op with
    b := BitVec.ofNat 7 (wordField w 0 7)
    c := BitVec.ofNat 7 (wordField w 7 7)
    mod := BitVec.ofNat 8 (wordField w 14 8)
    fslot := BitVec.ofNat 3 (wordField w 22 3)
    ovf := BitVec.ofNat 2 (wordField w 25 2)
    fzi := wordField w 27 1 == 1
    fzo := wordField w 28 1 == 1
    bsel := wordField w 29 1 == 1
    csel := wordField w 30 1 == 1 }

/-- Word 2 of a pair (R36), if the map assigns OP2. -/
def decodeSecond (w : Word) : Option Second :=
  match opcOfCode (wordField w 0 8) with
  | some o => some
      { opc := o
        d2 := BitVec.ofNat 7 (wordField w 8 7)
        a2 := BitVec.ofNat 7 (wordField w 15 7)
        b2 := BitVec.ofNat 7 (wordField w 22 7)
        grd2 := BitVec.ofNat 3 (wordField w 29 3) }
  | none => none

/-- Words 1 and 2 applied to an operation (R36). -/
def decodeExtension (w1 w2 : Word) (op : Op) : Except Reject Op :=
  let op1 := decodeWord1 w1 op
  if wordField w1 31 1 == 1 then
    match decodeSecond w2 with
    | some t => .ok { op1 with second := some t }
    | none => .error .opcode
  else .ok { op1 with word2 := w2 }

/-- A literal from its two words, the low one first (R32). -/
def literalOf (lo hi : Word) : DWord := BitVec.ofNat 64 (lo.toNat + 2 ^ 32 * hi.toNat)

/-- The fields of an instruction from its words, before any check. -/
def decodeFields (ws : List Word) : Except Reject Op :=
  match ws with
  | [] => .error .truncated
  | w0 :: rest =>
    let op := decodeWord0 w0
    match op.form, rest with
    | .base, _ => .ok op
    | .ext, w1 :: w2 :: _ => decodeExtension w1 w2 op
    | .lit, l0 :: l1 :: _ => .ok { op with lit := literalOf l0 l1 }
    | .extLit, w1 :: w2 :: l0 :: l1 :: _ => decodeExtension w1 w2 { op with lit := literalOf l0 l1 }
    | _, _ => .error .truncated

/-- The instruction that the words begin with, or why they are none. -/
def decodeWords (ws : List Word) : Except Reject Instr :=
  match ws with
  | [] => .error .truncated
  | w0 :: _ =>
    match opcOfCode (wordField w0 9 8) with
    | none => .error .opcode
    | some o =>
      match decodeFields ws with
      | .error r => .error r
      | .ok op =>
        match rejects o op with
        | some r => .error r
        | none => .ok (instrOf o op)

/-- The words that little-endian bytes hold (R33). -/
def wordsOfBytes : List Byte → List Word
  | b0 :: b1 :: b2 :: b3 :: rest => BitVec.ofNat 32 (ofBytes [b0, b1, b2, b3]) :: wordsOfBytes rest
  | _ => []

/-- The instruction that the bytes begin with, or why they are none. -/
def decode (bytes : List Byte) : Except Reject Instr := decodeWords (wordsOfBytes bytes)

/-- The bytes of the instruction whose bits are `w`, its bits from `nbits` up being 0, laid out as the code object holds
them (R33): word 0 at the lowest address, each word little-endian, up to the longest form. -/
def tableBytes (nbits w : Nat) : List Byte := toBytes 20 (w % 2 ^ nbits)

/-- The instruction the decoder reads from an instruction whose bits are `w`. -/
def decodeTableWord (nbits w : Nat) : Option Instr :=
  match decode (tableBytes nbits w) with
  | .ok i => some i
  | .error _ => none

/-! ### The encoder -/

/-- Word 0 (R36). -/
def encodeWord0 (o : Opc) (op : Op) : Word :=
  BitVec.ofNat 32 (formLen op.form + 2 ^ 2 * op.stall.toNat + 2 ^ 5 * op.grd.toNat + 2 ^ 8 * b2n op.gneg
    + 2 ^ 9 * (opRow o).code + 2 ^ 17 * b2n op.asel + 2 ^ 18 * op.d.toNat + 2 ^ 25 * op.a.toNat)

/-- Word 1 (R36). -/
def encodeWord1 (op : Op) : Word :=
  BitVec.ofNat 32 (op.b.toNat + 2 ^ 7 * op.c.toNat + 2 ^ 14 * op.mod.toNat + 2 ^ 22 * op.fslot.toNat
    + 2 ^ 25 * op.ovf.toNat + 2 ^ 27 * b2n op.fzi + 2 ^ 28 * b2n op.fzo + 2 ^ 29 * b2n op.bsel
    + 2 ^ 30 * b2n op.csel + 2 ^ 31 * b2n op.second.isSome)

/-- Word 2: the immediate, or the second operation (R36). -/
def encodeWord2 (op : Op) : Word :=
  match op.second with
  | none => op.word2
  | some t => BitVec.ofNat 32 ((opRow t.opc).code + 2 ^ 8 * t.d2.toNat + 2 ^ 15 * t.a2.toNat + 2 ^ 22 * t.b2.toNat
      + 2 ^ 29 * t.grd2.toNat)

/-- The literal's words, the low one first (R32). -/
def encodeLiteral (op : Op) : List Word :=
  [BitVec.ofNat 32 op.lit.toNat, BitVec.ofNat 32 (op.lit.toNat / 2 ^ 32)]

/-- The words of an operation, word 0 first (R32). -/
def encodeOp (o : Opc) (op : Op) : List Word :=
  match op.form with
  | .base => [encodeWord0 o op]
  | .ext => [encodeWord0 o op, encodeWord1 op, encodeWord2 op]
  | .lit => encodeWord0 o op :: encodeLiteral op
  | .extLit => encodeWord0 o op :: encodeWord1 op :: encodeWord2 op :: encodeLiteral op

/-- The words of an instruction; an event of the module has none. -/
def encode (i : Instr) : List Word :=
  match opcOf i with
  | some (o, op) => encodeOp o op
  | none => []

end Sys2Proof
end

