-- ==== Sys2Proof/Machine/Numeric.lean ====
section
/-! DEFINITION. Number formats, exact values and the one rounding (R58, R72 to R87, R126). A value is exact until `roundTo`
rounds it; TSTAT flags travel as a mask: SAT 1, INV 2, OVF 4 (R89). -/

namespace Sys2Proof.Machine

/-- An exact value: a NaN, an infinity, or `(−1)^neg × num / den` with `den` positive; a zero keeps its sign. -/
inductive FVal where
  | nan
  | inf (neg : Bool)
  | fin (neg : Bool) (num den : Nat)
  deriving DecidableEq, Repr

/-- The element formats (R72, R73, R75): `ieee w t` has `w` exponent and `t` significand bits with infinities. -/
inductive Fmt where
  | ieee (w t : Nat)
  | e4m3
  | e2m1
  | b8 (p : Nat) (signed infs : Bool)
  | int (n : Nat) (signed : Bool)
  deriving DecidableEq, Repr

/-- FP32, FP16, BF16 and E5M2. -/
def fp32 : Fmt := .ieee 8 23
def fp16 : Fmt := .ieee 5 10
def bf16 : Fmt := .ieee 8 7
def e5m2 : Fmt := .ieee 5 2

/-- Trailing significand bits t. -/
def fmtT : Fmt → Nat
  | .ieee _ t => t
  | .e4m3 => 3
  | .e2m1 => 1
  | .b8 p _ _ => p - 1
  | .int _ _ => 0

/-- Exponent bits w. -/
def fmtW : Fmt → Nat
  | .ieee w _ => w
  | .e4m3 => 4
  | .e2m1 => 2
  | .b8 p s _ => if s then 8 - p else 9 - p
  | .int _ _ => 0

/-- The exponent bias. -/
def fmtBias : Fmt → Nat
  | .ieee w _ => 2 ^ (w - 1) - 1
  | .e4m3 => 7
  | .e2m1 => 1
  | .b8 p _ _ => 2 ^ (7 - p)
  | .int _ _ => 0

/-- The width of a code in bits. -/
def fmtBits : Fmt → Nat
  | .ieee w t => w + t + 1
  | .e4m3 => 8
  | .e2m1 => 4
  | .b8 _ _ _ => 8
  | .int n _ => n

/-- Does the format hold negative values? -/
def fmtSigned : Fmt → Bool
  | .b8 _ s _ => s
  | .int _ s => s
  | .ieee _ _ => true
  | .e4m3 => true
  | .e2m1 => true

/-- Has the format a NaN? -/
def fmtHasNan : Fmt → Bool
  | .e2m1 => false
  | .int _ _ => false
  | .ieee _ _ => true
  | .e4m3 => true
  | .b8 _ _ _ => true

/-- Has the format an infinity of this sign? -/
def fmtHasInf (f : Fmt) (neg : Bool) : Bool :=
  match f with
  | .ieee _ _ => true
  | .b8 _ s infs => infs && (s || !neg)
  | .e4m3 => false
  | .e2m1 => false
  | .int _ _ => false

/-- The canonical NaN's code (R73, R75). -/
def fmtNan : Fmt → Nat
  | .ieee w t => (2 ^ w - 1) * 2 ^ t + 2 ^ (t - 1)
  | .e4m3 => 0x7F
  | .b8 _ s _ => if s then 0x80 else 0xFF
  | .e2m1 => 0
  | .int _ _ => 0

/-- The code of an infinity that the format has. -/
def fmtInf (f : Fmt) (neg : Bool) : Nat :=
  match f with
  | .ieee w t => b2n neg * 2 ^ (w + t) + (2 ^ w - 1) * 2 ^ t
  | .b8 _ s _ => if s then (if neg then 0xFF else 0x7F) else 0xFE
  | .e4m3 => 0
  | .e2m1 => 0
  | .int _ _ => 0

/-- The code of the largest finite value (R73, R76); for an integer type its greatest value. -/
def fmtMaxCode : Fmt → Nat
  | .ieee w t => (2 ^ w - 2) * 2 ^ t + (2 ^ t - 1)
  | .e4m3 => 0x7E
  | .e2m1 => 0x7
  | .b8 _ s infs => (if s then 0x7F else 0xFE) - b2n infs
  | .int n s => if s then 2 ^ (n - 1) - 1 else 2 ^ n - 1

/-- `num / den × 2^e` as a fraction. -/
def scaleFrac (num den : Nat) (e : Int) : Nat × Nat :=
  match e with
  | .ofNat k => (num <<< k, den)
  | .negSucc k => (num, den <<< (k + 1))

/-- The value of exponent field `ef` and significand `tf`, without sign (R74). -/
def fieldValue (f : Fmt) (ef tf : Nat) : Nat × Nat :=
  if ef = 0 then scaleFrac tf 1 (1 - (fmtBias f : Int) - fmtT f)
  else scaleFrac (2 ^ fmtT f + tf) 1 ((ef : Int) - fmtBias f - fmtT f)

/-- The value of a code (R72, R74, R75). -/
def decodeFmt (f : Fmt) (code : Nat) : FVal :=
  let x := code % 2 ^ fmtBits f
  match f with
  | .int n s =>
    if s then (let v := sext x n; .fin (decide (v < 0)) v.natAbs 1) else .fin false x 1
  | _ =>
    let t := fmtT f
    let neg := fmtSigned f && x.testBit (fmtBits f - 1)
    let ef := x / 2 ^ t % 2 ^ fmtW f
    let tf := x % 2 ^ t
    let special : Option FVal := match f with
      | .ieee w _ => if ef = 2 ^ w - 1 then some (if tf = 0 then .inf neg else .nan) else none
      | .e4m3 => if x % 128 = 0x7F then some .nan else none
      | .b8 _ s infs =>
        if x = fmtNan f then some .nan
        else if infs && x = fmtInf f false then some (.inf false)
        else if infs && s && x = fmtInf f true then some (.inf true)
        else none
      | .e2m1 => none
      | .int _ _ => none
    match special with
    | some v => v
    | none => .fin neg (fieldValue f ef tf).1 (fieldValue f ef tf).2

/-- floor(log2 (num / den)) for a positive fraction. -/
def floorLog2 (num den : Nat) : Int :=
  let e : Int := (Nat.log2 num : Int) - Nat.log2 den
  let (a, b) := scaleFrac num den (-e)
  if a < b then e - 1 else e

/-- The least exponent of a normal value. -/
def fmtEmin (f : Fmt) : Int := 1 - fmtBias f

/-- The code of a finite value that the format holds exactly. -/
def encodeFin (f : Fmt) (neg : Bool) (num den : Nat) : Nat :=
  match f with
  | .int n _ => wrap (if neg then -((num / den : Nat) : Int) else ((num / den : Nat) : Int)) n
  | _ =>
    let t := fmtT f
    let sgn := if neg && fmtSigned f then 2 ^ (fmtBits f - 1) else 0
    if num = 0 then (match f with
      | .b8 _ _ _ => 0
      | _ => sgn)
    else
      let e := floorLog2 num den
      if e < fmtEmin f then
        let (a, b) := scaleFrac num den ((t : Int) - fmtEmin f)
        sgn + a / b
      else
        let (a, b) := scaleFrac num den ((t : Int) - e)
        sgn + (e + fmtBias f).toNat * 2 ^ t + (a / b - 2 ^ t)

/-- The code of a value that the format holds. -/
def encodeFmt (f : Fmt) : FVal → Nat
  | .nan => fmtNan f
  | .inf neg => fmtInf f neg
  | .fin neg n d => encodeFin f neg n d

/-- `Xorshift32` (R58). -/
def xorshift32 (x : Nat) : Nat :=
  let x := x ^^^ (x <<< 13) % 2 ^ 32
  let x := x ^^^ (x >>> 17)
  x ^^^ (x <<< 5) % 2 ^ 32

/-- `Xorshift64` (R58). -/
def xorshift64 (x : Nat) : Nat :=
  let x := x ^^^ (x <<< 13) % 2 ^ 64
  let x := x ^^^ (x >>> 7)
  x ^^^ (x <<< 17) % 2 ^ 64

/-- The rounding modes (R81). -/
inductive Rm where
  | rne | rtz | rup | rdn | rna | sto
  deriving DecidableEq, Repr

/-- The mode of a MOD[2:0] value (R81). -/
def rmOf (n : Nat) : Rm :=
  match n % 8 with
  | 0 => .rne
  | 1 => .rtz
  | 2 => .rup
  | 3 => .rdn
  | 4 => .rna
  | _ => .sto

/-- Is the point with magnitude `q × 2^u` the one whose code is even (R82)? -/
def evenPoint (f : Fmt) (q : Nat) (u : Int) : Bool :=
  match f with
  | .b8 1 _ _ => if q = 0 then true else decide ((u + Nat.log2 q + fmtBias f) % 2 = 0)
  | _ => q % 2 == 0

/-- Does the magnitude go up from `q` to `q + 1`? `rem / den` is what lies above `q`, `sr` the state already drawn (R58). -/
def roundsUp (f : Fmt) (rm : Rm) (neg : Bool) (q : Nat) (u : Int) (rem den : Nat) (sr : Nat) : Bool :=
  match rm with
  | .rne => 2 * rem > den || (2 * rem = den && !evenPoint f q u)
  | .rna => 2 * rem ≥ den
  | .rtz => false
  | .rup => !neg
  | .rdn => neg
  | .sto =>
    if neg then !(decide (sr < (den - rem) * 2 ^ 32 / den)) else decide (sr < rem * 2 ^ 32 / den)

/-- The exponent of the spacing of E around a positive value (R82). -/
def ulpExp (f : Fmt) (num den : Nat) : Int :=
  match f with
  | .int _ _ => 0
  | _ => max (floorLog2 num den) (fmtEmin f) - fmtT f

/-- The magnitude `RoundTo` gives before its overflow test, and the state after a draw (R58). `num` is positive. -/
def roundMag (f : Fmt) (rm : Rm) (neg : Bool) (num den sr : Nat) : Nat × Nat × Nat :=
  let u := ulpExp f num den
  let (a, b) := scaleFrac num den (-u)
  let q := a / b
  let rem := a % b
  let sr' := if rm = .sto then xorshift32 sr else sr
  let m := if rem = 0 then q else if roundsUp f rm neg q u rem b sr' then q + 1 else q
  let (n, d) := scaleFrac m 1 u
  (n, d, sr')

/-- `a / b > c / d`. -/
def fracGt (a b c d : Nat) : Bool := decide (a * d > c * b)

/-- The largest finite magnitude. -/
def fmtMax (f : Fmt) : Nat × Nat :=
  match decodeFmt f (fmtMaxCode f) with
  | .fin _ n d => (n, d)
  | _ => (0, 1)

/-- `Extreme` (R58, R84). -/
def extreme (f : Fmt) (neg : Bool) : Nat :=
  match f, neg with
  | .int n s, true => if s then 2 ^ (n - 1) else 0
  | f, false => fmtMaxCode f
  | f, true => if fmtSigned f then fmtMaxCode f + 2 ^ (fmtBits f - 1) else 0

/-- The overflow policies (R58): 0 saturate, 1 infinity, 2 NaN, 3 trap. The answer is a code and flags, or a trap. -/
def overflow (f : Fmt) (neg : Bool) (pol : Nat) : Option (Nat × Nat) :=
  match pol with
  | 0 => some (extreme f neg, 1)
  | 1 => some (if fmtHasInf f neg then fmtInf f neg
      else if !fmtHasInf f false && fmtHasNan f then fmtNan f else extreme f neg, 4)
  | 2 => some (if fmtHasNan f then fmtNan f else extreme f neg, 4)
  | _ => none

/-- What a rounding gives: a code, flags and the new SRSTATE. -/
structure Rounded where
  bits : Nat
  flags : Nat
  sr : Nat
  deriving DecidableEq, Repr

/-- `Convert` (R84) of an exact value under an overflow policy; `none` is a trapping overflow. -/
def convert (f : Fmt) (rm : Rm) (pol : Nat) (x : FVal) (sr : Nat) : Option Rounded :=
  match x with
  | .nan => some (if fmtHasNan f then ⟨fmtNan f, 0, sr⟩ else ⟨0, 2, sr⟩)
  | .inf neg =>
    if fmtHasInf f neg then some ⟨fmtInf f neg, 0, sr⟩
    else (overflow f neg pol).map fun r => ⟨r.1, r.2, sr⟩
  | .fin neg num den =>
    if num = 0 then some ⟨encodeFin f neg 0 1, 0, sr⟩
    else
      let (n, d, sr') := roundMag f rm neg num den sr
      let big := match f with
        | .int k s => if s && neg then decide (n > 2 ^ (k - 1)) else fracGt n d (fmtMax f).1 (fmtMax f).2
        | _ => fracGt n d (fmtMax f).1 (fmtMax f).2
      if (neg && !fmtSigned f && n ≠ 0) || big then
        (overflow f neg pol).map fun r => ⟨r.1, r.2, sr'⟩
      else some ⟨encodeFin f neg n d, 0, sr'⟩

/-- `RoundF` (R83): an overflow sets OVF and gives an infinity, or the largest finite value in the modes that stop
there. -/
def roundF (f : Fmt) (rm : Rm) (x : FVal) (sr : Nat) : Rounded :=
  match x with
  | .nan => ⟨fmtNan f, 0, sr⟩
  | .inf neg => ⟨fmtInf f neg, 0, sr⟩
  | .fin neg num den =>
    if num = 0 then ⟨encodeFin f neg 0 1, 0, sr⟩
    else
      let (n, d, sr') := roundMag f rm neg num den sr
      if fracGt n d (fmtMax f).1 (fmtMax f).2 then
        if rm = .rtz || (rm = .rup && neg) || (rm = .rdn && !neg) then ⟨extreme f neg, 4, sr'⟩
        else ⟨fmtInf f neg, 4, sr'⟩
      else ⟨encodeFin f neg n d, 0, sr'⟩

/-- A subnormal code with its significand cleared, as FZI and FZO read and write it (R86). -/
def flushCode (f : Fmt) (code : Nat) : Nat :=
  match f with
  | .int _ _ => code
  | _ =>
    let t := fmtT f
    if code / 2 ^ t % 2 ^ fmtW f = 0 ∧ code % 2 ^ t ≠ 0 then
      encodeFin f (fmtSigned f && code.testBit (fmtBits f - 1)) 0 1
    else code

/-- A source value, its subnormals read as zeros when FZI is set. -/
def readF (f : Fmt) (fzi : Bool) (code : Nat) : FVal :=
  match decodeFmt f code with
  | .fin neg n d => if fzi && flushCode f (code % 2 ^ fmtBits f) != code % 2 ^ fmtBits f then .fin neg 0 1 else .fin neg n d
  | v => v

/-- A rounded result, its subnormals replaced by zeros when FZO is set. -/
def writeF (f : Fmt) (fzo : Bool) (r : Rounded) : Rounded := if fzo then { r with bits := flushCode f r.bits } else r

/-! ### Exact arithmetic -/

/-- The sign of a value that is not a NaN. -/
def fNeg : FVal → Bool
  | .nan => false
  | .inf n => n
  | .fin n _ _ => n

/-- Is the value a NaN? -/
def isNan : FVal → Bool
  | .nan => true
  | _ => false

/-- Is the value an infinity? -/
def isInf : FVal → Bool
  | .inf _ => true
  | _ => false

/-- Is the value a zero? -/
def isZero : FVal → Bool
  | .fin _ 0 _ => true
  | _ => false

/-- The value with its sign inverted. -/
def negF : FVal → FVal
  | .nan => .nan
  | .inf n => .inf (!n)
  | .fin n a b => .fin (!n) a b

/-- A signed numerator. -/
def signedNum (neg : Bool) (n : Nat) : Int := if neg then -(n : Int) else n

/-- The exact product; a zero times an infinity is a NaN (R109, R304). -/
def mulF (x y : FVal) : FVal :=
  match x, y with
  | .nan, _ => .nan
  | _, .nan => .nan
  | .inf a, .inf b => .inf (a != b)
  | .inf a, .fin b n _ => if n = 0 then .nan else .inf (a != b)
  | .fin a n _, .inf b => if n = 0 then .nan else .inf (a != b)
  | .fin a n d, .fin b m e => .fin (a != b) (n * m) (d * e)

/-- `n/d + m/e` as a signed numerator and a denominator. -/
def addFrac (n : Int) (d : Nat) (m : Int) (e : Nat) : Int × Nat :=
  if d % e = 0 then (n + m * ((d / e : Nat) : Int), d)
  else if e % d = 0 then (n * ((e / d : Nat) : Int) + m, e)
  else (n * (e : Int) + m * (d : Int), d * e)

/-- The exact finite sum of the finite terms. -/
def sumFrac : List FVal → Int × Nat
  | [] => (0, 1)
  | .fin neg n d :: rest =>
    let (m, e) := sumFrac rest
    addFrac (signedNum neg n) d m e
  | _ :: rest => sumFrac rest

/-- The exact sum of the terms (R110, R304): a NaN when a term is one or the infinite terms have both signs; an exact 0 is
−0 when every term is a zero of negative sign, or when `zeroNeg` (RDN) holds. -/
def sumF (zeroNeg : Bool) (xs : List FVal) : FVal :=
  if xs.any isNan then .nan
  else if xs.any isInf then
    if xs.any (fun x => isInf x && fNeg x) && xs.any (fun x => isInf x && !fNeg x) then .nan
    else .inf (xs.any fun x => isInf x && fNeg x)
  else
    let (n, d) := sumFrac xs
    if n = 0 then .fin (xs.all (fun x => isZero x && fNeg x) || zeroNeg) 0 1
    else .fin (decide (n < 0)) n.natAbs d

/-- Do the infinite terms have both signs? -/
def infClash (xs : List FVal) : Bool :=
  xs.any (fun x => isInf x && fNeg x) && xs.any (fun x => isInf x && !fNeg x)

/-- The exact value of `x / (n / d)` for a positive fraction. -/
def divFrac (x : FVal) (n d : Nat) : FVal :=
  match x with
  | .fin neg a b => .fin neg (a * d) (b * n)
  | v => v

/-- The value multiplied by a power of two. -/
def scaleF (x : FVal) (e : Int) : FVal :=
  match x with
  | .fin neg a b => .fin neg (scaleFrac a b e).1 (scaleFrac a b e).2
  | v => v

/-- Compare two values that are not NaNs: −1, 0 or 1; zeros of either sign are equal. -/
def cmpF (x y : FVal) : Int :=
  match x, y with
  | .inf a, .inf b => if a = b then 0 else if a then -1 else 1
  | .inf a, _ => if a then -1 else 1
  | _, .inf b => if b then 1 else -1
  | .fin a n d, .fin b m e =>
    let l := signedNum a n * (e : Int)
    let r := signedNum b m * (d : Int)
    if l < r then -1 else if l = r then 0 else 1
  | .nan, _ => 0
  | _, .nan => 0

/-! ### Irrational functions, to 320 fractional bits (DEDUCED, log 16) -/

/-- Fractional bits of the fixed-point values below. -/
def fixBits : Nat := 320

/-- floor(ln 2 × 2^320). -/
def ln2Fix : Nat := 0xb17217f7d1cf79abc9e3b39803f2f6af40f343267298b62d8a0d175b8baafa2be7b876206debac98

/-- Newton steps of the integer square root, from above. -/
def isqrtStep (n : Nat) : Nat → Nat → Nat
  | 0, x => x
  | k + 1, x =>
    let y := (x + n / x) / 2
    if y < x then isqrtStep n k y else x

/-- floor(√n). -/
def isqrt (n : Nat) : Nat := if n = 0 then 0 else isqrtStep n 600 (2 ^ (Nat.log2 n / 2 + 1))

/-- √(num / den): exact where it is rational, else a value between its neighbours of 200 more bits. -/
def sqrtFrac (num den : Nat) : Nat × Nat :=
  let m := num * den * 2 ^ 400
  let s := isqrt m
  if s * s = m then (s, den * 2 ^ 200) else (2 * s + 1, den * 2 ^ 201)

/-- Taylor sum of e^y for fixed-point y below 1. -/
def expSeries (y : Nat) : Nat → Nat → Nat → Nat
  | 0, _, _ => 0
  | fuel + 1, k, term => term + expSeries y fuel (k + 1) (term * y / 2 ^ fixBits / (k + 1))

/-- e^y in fixed point, for a fixed-point y in [0, 1). -/
def expFix (y : Nat) : Nat := expSeries y 90 0 (2 ^ fixBits)

/-- e^(n / d) with |n / d| clamped to 200, as a fraction. -/
def expFrac (neg : Bool) (n d : Nat) : Nat × Nat :=
  let (n, d) := if n > 200 * d then (200, 1) else (n, d)
  let y : Int := signedNum neg (n * 2 ^ fixBits / d)
  let i : Int := y / (ln2Fix : Int)
  let r := (y - i * (ln2Fix : Int)).toNat
  scaleFrac (expFix r) (2 ^ fixBits) i

/-- 2^(n / d) with |n / d| clamped to 200, as a fraction: exact for an integer exponent. -/
def exp2Frac (neg : Bool) (n d : Nat) : Nat × Nat :=
  let (n, d) := if n > 200 * d then (200, 1) else (n, d)
  let i : Int := (signedNum neg n) / (d : Int)
  let r := ((signedNum neg n) - i * (d : Int)).toNat
  if r = 0 then scaleFrac 1 1 i
  else scaleFrac (expFix (r * ln2Fix / d)) (2 ^ fixBits) i

/-- Series of atanh t = t + t³/3 + … in fixed point. -/
def atanhSeries (t2 : Nat) : Nat → Nat → Nat → Nat
  | 0, _, _ => 0
  | fuel + 1, k, pow => pow / (2 * k + 1) + atanhSeries t2 fuel (k + 1) (pow * t2 / 2 ^ fixBits)

/-- log2(num / den) for a positive fraction, as a signed numerator over 2^320: exact for a power of two. -/
def log2Fix (num den : Nat) : Int :=
  let i := floorLog2 num den
  let (a, b) := scaleFrac num den (-i)
  if a = b then i * (2 ^ fixBits : Nat)
  else
    let t := (a - b) * 2 ^ fixBits / (a + b)
    let ln := 2 * atanhSeries (t * t / 2 ^ fixBits) 110 0 t
    i * (2 ^ fixBits : Nat) + ((ln * 2 ^ fixBits / ln2Fix : Nat) : Int)

/-- tanh(num / den) for a positive fraction. -/
def tanhFrac (num den : Nat) : Nat × Nat :=
  if num * 2 ^ 40 < den then (num * (2 ^ 100 - 1), den * 2 ^ 100)
  else
    let (n, d) := if num > 50 * den then (50, 1) else (num, den)
    let (e, b) := expFrac false (2 * n) d
    (e - b, e + b)

end Sys2Proof.Machine
end

