-- ==== Sys2Proof/Machine/Blocks.lean ====
section
/-! DEFINITION. Format-slot descriptors and block scales (R78, R122, R123, R126). -/

namespace Sys2Proof.Machine

/-- A format-slot descriptor's fields (R78). -/
def slotTscale (d : DWord) : Nat := field d.toNat 63 32
def slotVthr (d : DWord) : Nat := field d.toNat 28 24
def slotOvp (d : DWord) : Nat := field d.toNat 15 14
def slotSch (d : DWord) : Nat := field d.toNat 13 12
def slotEfmt (d : DWord) : Nat := field d.toNat 3 0

/-- The element format of a slot; none when it is unbound (R78, R80). -/
def slotFmt (d : DWord) : Option Fmt :=
  match slotEfmt d with
  | 1 => some (.int 8 true)
  | 2 => some (.int 8 false)
  | 3 => some (.int 16 true)
  | 4 => some (.int 16 false)
  | 5 => some .e4m3
  | 6 => some e5m2
  | 7 => some .e2m1
  | 8 => some (.b8 (field d.toNat 9 7) (d.toNat.testBit 10) (d.toNat.testBit 11))
  | 9 => some fp16
  | 10 => some bf16
  | _ => none

/-- Is the slot's format an integer type? -/
def slotIsInt (d : DWord) : Bool := decide (1 ≤ slotEfmt d ∧ slotEfmt d ≤ 4)

/-- TSCALE as a fraction: 0 stands for 1.0 (R78). -/
def tscaleFrac (d : DWord) : Nat × Nat :=
  if slotTscale d = 0 then (1, 1)
  else match decodeFmt fp32 (slotTscale d) with
    | .fin _ n m => (n, m)
    | _ => (1, 1)

/-- emax_f and emin_f of R122: the exponents of the largest finite and the smallest normal value. -/
def emaxOf (f : Fmt) : Int := floorLog2 (fmtMax f).1 (fmtMax f).2
def eminOf (f : Fmt) : Int :=
  match f with
  | .int _ _ => 0
  | f => fmtEmin f

/-- floor(log2 |x|) of a finite non-zero value. -/
def expOf : FVal → Option Int
  | .fin _ n d => if n = 0 then none else some (floorLog2 n d)
  | _ => none

/-- The scale of a block (R123). -/
def blockScale (emax : Int) (xs : List FVal) : Nat :=
  if xs.any isNan then 0xFF
  else match (xs.filterMap expOf).max? with
    | none => 0x7F
    | some m => (min (max (m - emax) (-127)) 127 + 127).toNat

/-- A value divided by an E8M0 scale. -/
def unscale (scl : Nat) (x : FVal) : FVal := scaleF x (127 - (scl : Int))

/-- A value multiplied by an E8M0 scale; the scale 0xFF makes it a NaN (R125, R364). -/
def rescale (scl : Nat) (x : FVal) : FVal := if scl = 0xFF then .nan else scaleF x ((scl : Int) - 127)

end Sys2Proof.Machine
end

