-- ==== Sys2Proof/Machine/MatrixFns.lean ====
section
/-! DEFINITION. The arithmetic of a pass: element classes, depth, packing, scales, sparse positions, group sums; structured
compression (R93, R303 to R307, R309, R325). -/

namespace Sys2Proof.Machine

/-- The width of a slot's element class (R303): 8, 4 or 16 bits; none where the slot serves no pass. -/
def passClass (d : DWord) : Option Nat :=
  if slotSch d = 2 then none
  else match slotEfmt d with
    | 1 | 2 | 5 | 6 | 8 => some 8
    | 7 => some 4
    | 9 | 10 => some 16
    | _ => none

/-- The sizes of a pass (R303, R306). -/
structure PassShape where
  wa : Nat
  wb : Nat
  depth : Nat
  deriving DecidableEq, Repr

/-- 32-element groups along the depth, and the bytes of a row's codes. -/
def PassShape.groups (p : PassShape) : Nat := p.depth / 32
def PassShape.rowBytes (p : PassShape) : Nat := p.depth * p.wa / 8

/-- Codes of a column. -/
def PassShape.kept (p : PassShape) (sparse : Bool) : Nat := if sparse then p.depth / 2 else p.depth

/-- Bytes of a column's codes, metadata and scales (R306). -/
def PassShape.colCodes (p : PassShape) (sparse : Bool) : Nat := p.kept sparse * p.wb / 8
def PassShape.colMeta (p : PassShape) (sparse : Bool) : Nat := if sparse then p.depth / 8 else 0
def PassShape.colScales (p : PassShape) (sb : DWord) : Nat := if slotSch sb = 1 then p.depth / 32 else 0

/-- Granules of a block (R306). -/
def PassShape.granules (p : PassShape) (sparse : Bool) (sb : DWord) : Nat :=
  ceilDiv (32 * (p.colCodes sparse + p.colMeta sparse + p.colScales sb)) 64

/-- The shape that the two slots give; none where R303 excludes them. -/
def passShape (sparse : Bool) (sa sb : DWord) : Option PassShape :=
  match passClass sa, passClass sb with
  | some wa, some wb =>
    if wb > wa then none
    else
      let depth := if wa = 8 then 64 else if wa = 4 then 128 else 32
      some { wa, wb, depth := if sparse then 2 * depth else depth }
  | _, _ => none

/-- `n` codes of `w` bits from packed bytes (R305). -/
def codesOf (w n : Nat) (bs : List Byte) : List Nat :=
  let x := ofBytes bs
  (List.range n).map fun k => field x (w * k + w - 1) (w * k)

/-- The value of an element (R304): its format's value under its group's scale or TSCALE. -/
def elemValue (d : DWord) (scl code : Nat) : FVal :=
  match slotFmt d with
  | none => .nan
  | some f =>
    let v := decodeFmt f code
    match slotSch d with
    | 1 => rescale scl v
    | 3 => mulF v (.fin false (tscaleFrac d).1 (tscaleFrac d).2)
    | _ => v

/-- A row of values from codes and group scales. -/
def rowValues (d : DWord) (codes scales : List Nat) : List FVal :=
  (enumNat 0 codes).map fun e => elemValue d (scales.getD (e.1 / 32) 0) e.2
where
  enumNat : Nat → List Nat → List (Nat × Nat)
    | _, [] => []
    | i, x :: xs => (i, x) :: enumNat (i + 1) xs

/-- Which code each depth position of a sparse column takes, if any (R307); `m` is 4 or 8. -/
def sparseTake (m : Nat) (bits : List Nat) : List (Option Nat) :=
  (List.range bits.length).map fun p =>
    let g := p / m
    let rank := (((bits.drop (m * g)).take (p - m * g)).filter fun b => b = 1).length
    if bits.getD p 0 = 1 ∧ rank < m / 2 then some (m / 2 * g + rank) else none

/-- The values of a column by depth position; a position that takes no code has none. -/
def columnValues (sparse : Option Nat) (d : DWord) (codes bits scales : List Nat) : List (Option FVal) :=
  let value (p code : Nat) : FVal := elemValue d (scales.getD (p / 32) 0) code
  match sparse with
  | none => (List.range codes.length).map fun p => some (value p (codes.getD p 0))
  | some m => (List.range bits.length).map fun p => (((sparseTake m bits).getD p none).map fun k => value p (codes.getD k 0))

/-- The products of one group: none where a position takes no code. -/
def products (a : List FVal) (b : List (Option FVal)) : List FVal :=
  (a.zip b).filterMap fun e => e.2.map (mulF e.1)

/-- `FADD` under RNE, no flag (R109, R110). -/
def faddBits (x y : Nat) : Nat := (roundF fp32 .rne (sumF false [decodeFmt fp32 x, decodeFmt fp32 y]) 0).bits

/-- The sum of group `g`, rounded once (R93, R304). DEDUCED, log 46. -/
def groupSum (a : List FVal) (b : List (Option FVal)) (g : Nat) : Nat :=
  (roundF fp32 .rne (sumF false (products ((a.drop (32 * g)).take 32) ((b.drop (32 * g)).take 32))) 0).bits

/-- One element of a pass: its groups in ascending depth over its start value (R309). -/
def passElem (a : List FVal) (b : List (Option FVal)) (groups x : Nat) : Nat :=
  (List.range groups).foldl (fun x g => faddBits x (groupSum a b g)) x

/-! ### Structured compression (R325) -/

/-- Does element `i` rank above element `j`? NaNs stand above all, magnitudes decide, ties go to the lower index. -/
def ranksAbove (f : Fmt) (x y : Nat × Nat) : Bool :=
  let mag (v : FVal) : FVal := match v with
    | .nan => .nan
    | .inf _ => .inf false
    | .fin _ n d => .fin false n d
  match mag (decodeFmt f x.2), mag (decodeFmt f y.2) with
  | .nan, .nan => x.1 < y.1
  | .nan, _ => true
  | _, .nan => false
  | a, b => if cmpF a b = 0 then x.1 < y.1 else cmpF a b = 1

/-- The elements kept: those above which fewer than m/2 of their group rank. -/
def keptElems (f : Fmt) (m : Nat) (codes : List Nat) : List (Nat × Nat) :=
  let all := (List.range codes.length).map fun i => (i, codes.getD i 0)
  all.filter fun e => (all.filter fun x => x.1 / m = e.1 / m && ranksAbove f x e).length < m / 2

/-- SPCOMP of a row of 64 bits: the codes kept, or their mask. -/
def spcompRow (f : Fmt) (w m row : Nat) (mask : Bool) : Nat :=
  let kept := keptElems f m ((List.range (64 / w)).map fun k => field row (w * k + w - 1) (w * k))
  if mask then kept.foldl (fun acc e => acc + 2 ^ e.1) 0 else kept.foldr (fun e acc => e.2 + acc * 2 ^ w) 0

end Sys2Proof.Machine
end

