-- ==== Sys2Proof/Machine/State.lean ====
section
/-! DEFINITION. The state of the module as plain data, its faults and refusals, and the state right after reset.
A field's docstring names the rule of spec/ that gives it. Every record's default is its value at reset, or at creation
where it does not exist at reset. -/

namespace Sys2Proof.Machine

/-! ### Lane threads -/

/-- A store that waits in the scene store buffer (R151, R152, R212). -/
inductive BufKind where
  /-- ST or CAPST through a capability; `granule` is the capability's 16 bytes with their tag (R157). -/
  | mem (cap : Cap) (granule : Bool)
  /-- STS. -/
  | spad
  deriving DecidableEq, Repr

/-- One entry of the scene store buffer: one store of one lane. `seq` orders stores by issue (R152). -/
structure BufStore where
  seq : Nat
  pc : Word
  kind : BufKind
  /-- Object offset, or scratchpad offset. -/
  off : Nat
  bytes : List Byte
  deriving DecidableEq, Repr

/-- A training event of the stride prefetcher (R284). -/
structure Training where
  seq : Nat
  pc : Word
  cap : Cap
  off : Nat
  deriving DecidableEq, Repr

/-- A scene: entry PC, live-ins, budget, snapshot and what waits for its commit (R209, R210, R284, R366). -/
structure Scene where
  entry : Word := 0
  liveV : BitVec 128 := 0
  liveK : Word := 0
  budget : Nat := 16
  /-- Stores counted against the budget (R213). -/
  count : Nat := 0
  snapP : BitVec 7 := 0
  snapTstat : Word := 0
  snapSr : Word := 1
  snapStack : List Word := []
  stores : List BufStore := []
  /-- Renewals as capability and tile (R366). -/
  renewals : List (Cap × Nat) := []
  training : List Training := []
  deriving DecidableEq, Repr

/-- A page: function, object, and the offset of the page's first byte. -/
structure PageKey where
  fn : Nat
  oid : Nat
  off : Nat
  deriving DecidableEq, Repr

/-- Why a lane thread does not issue (R149, R172, R173, R195, R140, R395). -/
inductive Wait where
  /-- It may issue. -/
  | ready
  /-- In WAIT, for counter `w` to fall to `m`; `next` is the next instruction. -/
  | counter (w m : Nat) (next : Word)
  /-- In BWAIT on an ensemble, a parity and a scope. -/
  | barrier (ens : Nat) (odd : Bool) (scope : Nat) (next : Word)
  /-- It has reached a gathering instruction. -/
  | gather
  /-- In ORDY, for the ranges of its core and the loads of its cluster that it noted (R315). -/
  | ordy (ranges loads : List Nat) (next : Word)
  /-- For the response of a home access. -/
  | response
  /-- In an atomic or queue operation on a peer module's line, not yet performed; `next` is the next instruction (R139, R230). -/
  | remote (next : Word)
  /-- In QDEQ with too few entries, with the lanes of the cast that execute it together, as a bit mask. -/
  | qdeq (group : Nat)
  /-- In DQPOP with no visible entry. -/
  | dqpop
  /-- In a translation restart: the scene is aborted and the page is awaited. -/
  | page (key : PageKey)
  /-- As `page`, the host having refused the page (R140). -/
  | refused (key : PageKey)
  deriving DecidableEq, Repr

/-- What a pending producer wrote (R53). -/
inductive Slot where
  | v (n : Nat)
  | p (n : Nat)
  deriving DecidableEq, Repr

/-- A producer of fixed latency whose consumers may still come too early (R53, R54). -/
structure Producer where
  slot : Slot
  old : Word
  /-- Issue steps left until a read is correct. -/
  left : Nat
  pc : Word
  deriving DecidableEq, Repr

/-- The kind of a performed access, as a watchpoint and FREC name it (R219, R395). -/
inductive AccessKind where
  | read | write | atomic
  deriving DecidableEq, Repr

/-- An access that a lane has performed (R395). -/
structure Performed where
  oid : Nat
  off : Nat
  size : Nat
  kind : AccessKind
  value : Word
  pc : Word
  deriving DecidableEq, Repr

/-- A lane thread (R14, R169). Vector registers read 0 where none is listed. -/
structure Thread where
  live : Bool := true
  pc : Word := 0
  v : Store Word := []
  p : BitVec 7 := 0
  /-- Wait counters w0–w7 (R148). -/
  w : Store Nat := []
  /-- The return stack, newest entry first (R171). -/
  stack : List Word := []
  tstat : Word := 0
  srstate : Word := 1
  frec : BitVec 128 := 0
  faddr : DWord := 0
  /-- The handler bit (R220). -/
  inh : Bool := false
  /-- The exhaustion pending bit (R218). -/
  exh : Bool := false
  scene : Scene := {}
  wait : Wait := .ready
  producers : List Producer := []
  /-- The count of ICINV marks at the last scene boundary (R226). -/
  codeEpoch : Nat := 0
  /-- The accesses of its last instruction that meet a watchpoint, oldest first: the thread is stopped until the predicate has
ended for each (R395). -/
  performed : List Performed := []
  /-- The clk of its die when it was filed in its bin (R177). -/
  filed : Nat := 0
  /-- The clk of its die until which the stall count of its last instruction keeps it (R52). -/
  rest : Nat := 0
  /-- What holds its next instruction, as a reason code of R394: 0 nothing, 2 an interlock, 3 a load that misses L2, 9 a range, 10 a
  full table. -/
  stalled : Nat := 0
  /-- The line of that load. -/
  missed : Nat := 0
  /-- Its next instruction, a commit point, has committed its scene and waits to be performed: it commits no second time (R211, R298,
R349). -/
  committed : Bool := false
  /-- A page the host has refused: the restarted access to it takes the bounds fault (R140). -/
  denied : Option PageKey := none
  /-- The release-FIFO marker a release of this thread awaits (R159). -/
  marker : Option Nat := none
  /-- Values returned to the thread so far while recording or replaying (R396). -/
  logged : Nat := 0
  deriving DecidableEq, Repr

/-- A cast on a core (R14, R170). -/
structure Cast where
  part : Nat := 0
  k : Store Word := []
  a : Store Cap := []
  /-- E0–E3 (R192). -/
  ens : List (BitVec 9) := [0, 0, 0, 0]
  /-- Decision-queue read pointer: the entries pushed before this position are behind it (R187). -/
  dqPtr : Nat := 0
  threads : List Thread := []
  deriving DecidableEq, Repr

/-! ### Partitions -/

/-- A bin (R177). Its age is the wait of its oldest thread. -/
structure Bin where
  key : Word
  threads : List (Nat × Nat)
  deriving DecidableEq, Repr

/-- A vector partition: active and pending casts with a clk count each, bins, drawn groups, swaps and the stall
histogram (R177–R180, R394). -/
structure Partition where
  /-- Active casts in entry order, each with the clk of its entry. -/
  active : List (Nat × Nat) := []
  /-- Pending casts, oldest first, each with the clk since when it could issue. -/
  pending : List (Nat × Nat) := []
  /-- Casts in a swap, with the clk at which it ends. -/
  swapping : List (Nat × Nat) := []
  /-- Pending casts that are due (R180). -/
  due : List Nat := []
  /-- Bins by number, 0 to 31. -/
  bins : Store Bin := []
  /-- Groups drawn from bins that still issue together. -/
  drawn : List (List (Nat × Nat)) := []
  /-- Threads taken out of their bins when their cast left the active set. -/
  unfiled : List (Nat × Nat) := []
  /-- Counters 0–9, 64 bits. -/
  eligible : Store Nat := []
  /-- Reason counters 0–12, 32 bits. -/
  reasons : Store Nat := []
  deriving DecidableEq, Repr

/-! ### The cue thread -/

/-- What a fault reports (R217, R219). -/
structure FaultInfo where
  code : Nat
  info : Word := 0
  opcode : Nat := 0
  /-- 0 none, 1 read, 2 write, 3 fetch or execute. -/
  acc : Nat := 0
  cwide : Bool := false
  half : Bool := false
  faddr : DWord := 0
  deriving DecidableEq, Repr

/-- The condition of a predicted BRC: its value, or the buffered command that will give it (R183). -/
inductive Cond where
  | known (x : DWord)
  | fromCommand (command : Nat)
  deriving DecidableEq, Repr

/-- A predicted BRC with its checkpoint (R183, R185, R282). -/
structure Checkpoint where
  id : Nat
  pc : Word
  cond : Cond
  /-- Branch when the condition is zero. -/
  onZero : Bool
  predicted : Bool
  index : Nat
  /-- The taken target, exact. -/
  target : Int
  next : Word
  c : Store DWord
  pend : Store Nat
  dqTail : Nat
  /-- Values returned to the thread before it (R396). -/
  logged : Nat
  deriving DecidableEq, Repr

/-- A command in the command buffer, with the operand values it took at issue (R184), and what the thread held at its
issue, to which a pre-emption that finds it not performed goes back (R186). -/
structure Command where
  id : Nat
  pc : Word
  instr : Instr
  a : DWord
  b : DWord
  c : DWord
  regs : Store DWord
  pend : Store Nat
  dqTail : Nat
  logged : Nat
  deriving DecidableEq, Repr

/-- The cue thread of a core (R182–R186). -/
structure Cue where
  pc : Word := 0
  c : Store DWord := []
  /-- Its own wait counter (R148). -/
  counter : Nat := 0
  /-- Unresolved BRCs, oldest first. -/
  checks : List Checkpoint := []
  /-- Buffered commands, oldest first. -/
  buf : List Command := []
  /-- Registers that await a buffered command, with that command's number. -/
  pend : Store Nat := []
  /-- A fault met on a path not yet resolved (R47). -/
  parked : Option FaultInfo := none
  /-- Instructions issued beyond the oldest unresolved BRC. -/
  beyond : Nat := 0
  /-- The release-FIFO marker that the oldest command awaits. -/
  marker : Option Nat := none
  /-- The oldest command waits for the response of a home access. -/
  response : Bool := false
  /-- The page that the oldest command or the next instruction awaits. -/
  page : Option PageKey := none
  denied : Option PageKey := none
  codeEpoch : Nat := 0
  logged : Nat := 0
  /-- What the bank held before BRCs that have resolved while an older command is not performed, newest first: the BRC's number, its
  index, its counter and HIST (R186, R299). -/
  trained : List (Nat × Nat × Nat × Word) := []
  deriving DecidableEq, Repr

/-- An entry of the decision queue (R187, R188). -/
structure DqEntry where
  /-- Its position in the order of pushes. -/
  pos : Nat
  value : DWord
  targets : NSet
  /-- Numbers of the BRCs and WAITs that hold it. -/
  holds : NSet
  /-- The clk of its push (R190). -/
  pushed : Nat
  deriving DecidableEq, Repr

/-! ### Caches and ports -/

/-- An L1 line (R144, R237, R286). -/
structure L1Line where
  line : Nat
  data : LineData
  /-- Bytes the core has written and not written back (R237, R398). -/
  dirty : BitVec 64
  tags : BitVec 4
  poison : Bool
  /-- The reliability class of the object the line belongs to. -/
  cls : Nat
  rrv : Nat
  ctx : Nat
  sig : Nat
  reuse : Bool
  /-- The line's way in its set. -/
  way : Nat
  deriving DecidableEq, Repr

/-- An L2 line (R146, R287). A line without a signature has `sig` none. -/
structure L2Line where
  line : Nat
  data : LineData
  tags : BitVec 4
  dirty : Bool
  rrv : Nat
  ctx : Nat
  sig : Option Nat
  reuse : Bool
  way : Nat
  deriving DecidableEq, Repr

/-- A request of a core for a line that is on its way: an open miss of L1 (R144, R168), or a request that no later one shares. -/
structure Miss where
  line : Nat
  ctx : Nat
  sig : Nat
  opened : Nat
  /-- Requests that joined it. -/
  joined : Nat
  /-- Later requests, which wait for its fill. -/
  late : Nat := 0
  /-- It misses the home's L2 too (R179, R272). -/
  far : Bool := false
  /-- It holds one of the core's 64 miss-status entries (R144). -/
  entry : Bool := true
  /-- Later requests for the line take its fill (R144, R238). -/
  share : Bool := true
  /-- The bytes, tags and poison of its fill. -/
  data : LineData := 0
  tags : BitVec 4 := 0
  poison : Bool := false
  deriving DecidableEq, Repr

/-- An entry of the release FIFO: a line, or the marker of a release (R145, R159). -/
inductive FifoEntry where
  | line (line : Nat)
  | marker (id : Nat)
  deriving DecidableEq, Repr

/-- A translation (R138): the page and what it maps to. -/
structure TlbEntry where
  fn : Nat
  ctx : Nat
  oid : Nat
  /-- First byte of the page in the object. -/
  off : Nat
  size : Nat
  /-- First byte of the page in the physical space of `physKey`. -/
  phys : Nat
  tier : Nat
  cls : Nat
  poisoned : Bool
  deriving DecidableEq, Repr

/-- One word of code in an instruction cache (R166, R249): valid for threads whose code epoch is below `stale`. -/
structure CodeWord where
  fn : Nat
  oid : Nat
  off : Nat
  word : Word
  stale : Option Nat
  deriving DecidableEq, Repr

/-- A range of the range scoreboard (R143). -/
structure Range where
  id : Nat
  lo : Nat
  hi : Nat
  deriving DecidableEq, Repr

/-! ### Transfers -/

/-- One side of a transfer. -/
inductive Side where
  | mem (cap : Cap) (off : Nat)
  | spad (off : Nat)
  | weights (off : Nat)
  | tile (off : Nat)
  | book
  /-- Rows of zeros in place of the bytes at an offset (R162, R230). -/
  | zeros (cap : Cap) (off : Nat)
  deriving DecidableEq, Repr

/-- What a transfer is, as the KIND of its replay entry names it (R229), and WLOAD, which has none. -/
inductive XferKind where
  | copyIn | copyOut | copyx | zld | zst | qcast | step | fade | gather | pbksave | pbkload | wload
  /-- An atomic or a queue operation on a peer module's line (KIND 0x04). -/
  | atom | qenq | qdeq
  deriving DecidableEq, Repr

/-- An operation of the copy engine, the weight loader, the multicast, the book or the fader in flight (R158, R230). -/
structure Xfer where
  id : Nat
  kind : XferKind
  agent : Agent
  /-- Lanes whose counters fall at completion; empty for the cue thread. -/
  lanes : List Nat := []
  ctr : Nat := 0
  mod : Nat := 0
  src : Side
  dst : Side
  /-- Bytes still to land. -/
  len : Nat
  /-- Bytes that have landed. -/
  done : Nat := 0
  /-- Pieces land in descending order (R163). -/
  descending : Bool := false
  /-- A gather lane: rows left, row bytes, pitch in bytes (R161). -/
  rows : Nat := 0
  rowBytes : Nat := 0
  pitch : Nat := 0
  /-- The range it holds on its core, by number. -/
  range : Option Nat := none
  /-- The instruction it belongs to: lanes of one instruction share the number. -/
  group : Nat
  /-- A refusal awaiting its re-send, and when it came (R141). -/
  refused : Option (Nat × Nat) := none
  /-- Pages already requested by this transfer, and pages the host has refused to it (R141). -/
  requested : List PageKey := []
  denied : List PageKey := []
  /-- Poison met so far (R298), and the scratchpad segments that received poisoned bytes (R164). -/
  poison : Bool := false
  bad : NSet := []
  /-- The Bare line to which it last brought poison, which holds zeros (R355). -/
  zeroed : Option Nat := none
  /-- STEP and FADE: the next tile and the tiles left (R371); `started` once the step is performed at the header. -/
  tile : Nat := 0
  started : Bool := false
  /-- The PC of its instruction, whose bits give the lines it reads their signature (R287). -/
  pc : Word := 0
  /-- An atomic or queue operation: capability register, destination register, scope, operand and compare value. -/
  reg : Nat := 0
  dreg : Nat := 0
  scope : Nat := 0
  operand : DWord := 0
  compare : DWord := 0
  /-- The clk at which its next piece was asked for (R167). -/
  asked : Nat := 0
  ctx : Nat := 0
  fn : Nat := 0
  /-- The launch of its thread, by the key of `launches`: a core may hold another when it completes (R12). -/
  launch : Option Nat := none
  /-- A replay entry of an image: its thread is past its instruction (R230, R233). -/
  resumed : Bool := false
  deriving DecidableEq, Repr

/-- The prompt-book transfer buffer (R298). -/
structure PbkBuffer where
  holder : Nat
  bytes : Store Byte := []
  deriving DecidableEq, Repr

/-! ### The prompt book -/

/-- A core bank (R279), its tables by entry; an unlisted entry holds its cleared value (R277). -/
structure CoreBank where
  bp : Store Nat := []
  hist : Word := 0
  pf : Store (BitVec 128) := []
  l1s : Store Nat := []
  deriving DecidableEq, Repr

/-- A die part (R279), its tables by entry; an unlisted signature counter holds 1 (R277). -/
structure DiePart where
  l2s : Store Nat := []
  duel : Word := 0x200
  lot : DWord := 1
  deriving DecidableEq, Repr

/-! ### Cores -/

/-- A core (R8). -/
structure Core where
  /-- The launch it holds, by the key of `launches` (R12). -/
  launch : Option Nat := none
  /-- The context whose bank runs on it (R278). -/
  owner : Option Nat := none
  casts : Store Cast := []
  parts : Store Partition := []
  cue : Option Cue := none
  dq : List DqEntry := []
  /-- Positions pushed so far (R187). -/
  dqTail : Nat := 0
  /-- Positions that a pre-emption has saved: the pushes up to here after the cue thread's saved PC stand in the queue already
(R186, R190). -/
  dqSaved : Nat := 0
  spad : Store Byte := []
  /-- Poisoned 64-byte segments (R142). -/
  spadPoison : NSet := []
  ranges : List Range := []
  l1 : Store L1Line := []
  misses : List Miss := []
  fifo : List FifoEntry := []
  /-- First-level translations, most recently used first (R138). -/
  tlb : List TlbEntry := []
  code : List CodeWord := []
  xfers : List Xfer := []
  pbk : Option PbkBuffer := none
  bank : CoreBank := {}
  /-- The staging bank, and the context whose bank it holds (R292). -/
  staging : CoreBank := {}
  staged : Option Nat := none
  cycle : DWord := 0
  seqno : Word := 0
  /-- Deadline misses by service class (R167). -/
  dlmiss : Store Nat := []
  /-- Tokens of its network port, and whether a request waits there (R269, R270). -/
  tokens : Nat := 0
  backlog : Bool := false
  deriving DecidableEq, Repr

/-! ### Clusters -/

/-- What a request of the reservation table does (R311). -/
inductive ReqKind where
  /-- MMA or MMAS with its fields, the block's granule, the bytes of A by lane and of the block as they stood at issue, and the
  rows' scratchpad offsets, none where A stands in registers (R314; DEDUCED, log 15). -/
  | pass (sparse : Bool) (op : Op) (granule : Nat) (rows : Store (List Byte)) (block : List Byte) (offsets : Store Nat)
  | zclr
  | zld (xfer : Nat)
  | zst (xfer : Nat)
  | cred (ens : Nat)
  deriving DecidableEq, Repr

/-- A request of the reservation table (R311). -/
structure Request where
  id : Nat
  core : Nat
  cast : Nat
  lanes : List Nat
  ctr : Nat
  tile : Nat
  high : Bool
  posted : Nat
  kind : ReqKind
  granted : Bool := false
  /-- The launch of its cast, by the key of `launches` (R12). -/
  launch : Option Nat := none
  deriving DecidableEq, Repr

/-- A contribution to an open CRED round (R335). -/
structure Contribution where
  core : Nat
  cast : Nat
  position : Nat
  lanes : List Nat
  tile : Nat
  ctr : Nat
  m : Store Word
  l : Store Word
  request : Nat
  /-- The scenes its lanes opened at the CRED, which a withdrawal gives back; where it has no lanes, a scene at the CRED for each live
  lane of the cast, and by 64 + lane the scene open there (R338). -/
  scenes : Store Scene
  deriving DecidableEq, Repr

/-- An open round of a cluster ensemble (R335). -/
structure Round where
  launch : Nat
  ens : Nat
  posts : List Contribution
  deriving DecidableEq, Repr

/-- What other cores of a cluster may still see of a tile and the next where a round has written them (R313, R338). -/
structure TileView where
  /-- The core that posted the lead contribution. -/
  lead : Nat
  /-- The tile's elements before the round, by the key of `z`. -/
  old : Store Word
  /-- The cores that have not acquired the round's writes since their release. -/
  hidden : NSet
  /-- The lead's core has released them. -/
  published : Bool := false
  deriving DecidableEq, Repr

/-- An entry of the weight-source table (R323). -/
structure WeightSource where
  cap : Cap
  off : Nat
  granule : Nat
  count : Nat
  fn : Nat
  ctx : Nat
  deriving DecidableEq, Repr

/-- A cluster (R8, R302, R306, R311, R322, R323, R335, R268). -/
structure Cluster where
  ctx : Option Nat := none
  /-- Accumulator elements: tile × 2,048 + row × 32 + column. -/
  z : Store Word := []
  /-- Poisoned rows: tile × 64 + row. -/
  zPoison : NSet := []
  weights : Store Byte := []
  /-- Poisoned granules. -/
  weightsPoison : NSet := []
  table : List Request := []
  /-- Ranges of WLOADs in flight: the load's number and its bytes. -/
  loads : List Range := []
  sources : List WeightSource := []
  /-- Numbers of the loads that refill the weight buffer after a resume, in table order (R324). -/
  refill : List Nat := []
  rounds : List Round := []
  views : List TileView := []
  /-- Deficits by function (R268). -/
  deficit : Store Int := []
  /-- The function and the context whose turn it is, and the last context of each function. -/
  turnFn : Option Nat := none
  turnCtx : Option Nat := none
  lastCtx : Store Nat := []
  /-- A thread of the context has issued since it took the cluster: the deficit falls (R268). -/
  issued : Bool := false
  deriving DecidableEq, Repr

/-! ### Dies -/

/-- A launch queue (R258). -/
structure Queue where
  head : Word := 0
  tail : Word := 0
  rcode : BitVec 8 := 0
  halt : Bool := false
  base : DWord := 0
  lsize : BitVec 4 := 0
  src : Bool := false
  en : Bool := false
  pf : Bool := false
  vf : BitVec 4 := 0
  ctx : BitVec 12 := 0
  /-- The sound LAUNCH packet at the head: its reference and the tickets read with it (R254). -/
  ready : Option (DWord × Nat) := none
  /-- Units that clearing the halt skips; none after a refused doorbell (R257). -/
  skip : Option Nat := none
  deriving DecidableEq, Repr

/-- A watchpoint (R395). -/
structure Watchpoint where
  valid : Bool := false
  oid : Nat := 0
  lo : Nat := 0
  hi : Nat := 0
  onRead : Bool := false
  onWrite : Bool := false
  onAtomic : Bool := false
  ctx : Nat := 0
  program : DWord := 0
  /-- The raw words of its 0x40-byte block, as the host wrote them (R379). -/
  raw : Store DWord := []
  deriving DecidableEq, Repr

/-- A predicate in progress (R395). -/
structure Predicate where
  agent : Agent
  watch : Nat
  access : Performed
  /-- A page that its program awaits, true once the host has refused it. -/
  page : Option (PageKey × Bool) := none
  deriving DecidableEq, Repr

/-- A compute die (R8, R244, R258). -/
structure Die where
  clk : Nat := 0
  l2 : Store L2Line := []
  tlb : List TlbEntry := []
  /-- V_d of a sender (R244). -/
  clock : List Word := [0, 0, 0, 0]
  /-- V_h of a home: the greatest stamps it has applied (R244). -/
  homeClock : List Word := [0, 0, 0, 0]
  /-- Applied counts the die knows, by die. -/
  app : List Word := [0, 0, 0, 0]
  /-- Home writes sent by the die and not acknowledged. -/
  unacked : Nat := 0
  queues : Store Queue := []
  /-- The die parts of contexts (R278). -/
  parts : Store DiePart := []
  watch : Store Watchpoint := []
  predicate : Option Predicate := none
  /-- Partitions idle issue slots (R392). -/
  throttled : Bool := false
  /-- The clk of the last token refill (R270). -/
  refilled : Nat := 0
  deriving DecidableEq, Repr

/-! ### Launches and contexts -/

/-- A playbill (R253). -/
structure Playbill where
  ver : Word := 0x00010000
  cuePc : Word := 0
  lanePc : Word := 0
  trapPc : Word := 0xFFFFFFFF
  code : Cap := 0
  casts : Nat := 1
  width : Nat := 16
  vregs : Nat := 16
  scratch : Nat := 0
  kclass : Nat := 0
  tickets : Nat := 1
  ctxid : Nat := 0
  ensCap : Cap := 0
  doneCap : Cap := 0
  slots : List DWord := []
  args : List Cap := []
  deriving DecidableEq, Repr

/-- An ensemble of a launch, or, under number 256, the whole kernel: its barrier and its record (R29, R193, R198). -/
structure Ensemble where
  reports : Bool := false
  cluster : Bool := false
  recOff : Nat := 0
  casts : List Nat := []
  phase : Nat := 0
  expected : Nat := 0
  arrived : Nat := 0
  next : Nat := 0
  nexit : Nat := 0
  nnz : Nat := 0
  thmin : Word := 0xFFFFFFFF
  live : Nat := 0
  stmin : Nat := 0
  stor : Nat := 0
  cueor : Nat := 0
  written : Bool := false
  /-- The core whose exit completed the record (R199). -/
  closer : Option Nat := none
  deriving DecidableEq, Repr

/-- A launch: its playbill as drawn, its number, its die, what is still to be placed (R254, R262). -/
structure Launch where
  ctx : Nat
  number : Nat
  die : Nat
  queue : Nat := 0
  bill : Playbill
  /-- The next cast index to place. -/
  next : Nat := 0
  /-- Casts of cluster ensembles placed ahead of their turn (R327). -/
  ahead : NSet := []
  /-- Casts saved in the image memory and not placed again, and saved cores whose cluster has not moved yet (R276). -/
  waiting : List Nat := []
  saved : NSet := []
  ensembles : Store Ensemble := []
  /-- Cue threads that have not ended. -/
  cues : Nat := 0
  ended : Bool := false
  deriving DecidableEq, Repr

/-- Recording or replaying (R396). -/
structure Recording where
  /-- 1 record, 2 replay. -/
  mode : Nat
  /-- The function whose object table names the log (R400). -/
  fn : Nat
  oid : Nat
  off : Nat
  /-- Entries written so far. -/
  entries : Nat := 0
  deriving DecidableEq, Repr

/-- The run state of a context (R227, R395). -/
inductive RunState where
  | running
  /-- Its image is to be written at `place` (function × 2^24 + object ID, offset); TAG of the command that asked for it, and the
  function that gave the command. -/
  | saving (tag : Nat) (asked : Option Nat) (place : Nat × Nat)
  | saved
  /-- Its image is saved by the round robin, which resumes it at its turn (R268). -/
  | parked
  /-- A debug halt. -/
  | halted
  deriving DecidableEq, Repr

/-- A context (R21, R17). -/
structure Context where
  mode : Word := 0
  ctxid : Word := 0
  ebud : Word := 0
  stepbase : DWord := 0
  fn : Nat := 0
  svc : Nat := 0
  /-- Slack in clk, by class (R167). -/
  slack : Store Word := []
  /-- The next launch number (R254). -/
  launches : Nat := 0
  run : RunState := .running
  recording : Option Recording := none
  /-- A charge has spent the budget while threads stood in the image: they take their pending bits with their restore (R218). -/
  spent : Bool := false
  /-- Values returned so far to threads that stand in the image, by global index, and to cue threads, by 2^32 + core (R396). -/
  counts : Store Nat := []
  /-- The image object of its last PREEMPT or RESUME, as function × 2^24 + object ID and offset (R301). -/
  image : Option (Nat × Nat) := none
  /-- The cores of its image that run again, each with the core it runs on (R276). -/
  moved : Store Nat := []
  /-- The cores that its saved casts stood on (R268). -/
  homes : NSet := []
  /-- The debug core had halted it when the module itself wrote its image: it is halted again when it is restored (R276, R395). -/
  held : Bool := false
  deriving DecidableEq, Repr

/-! ### Functions and the module -/

/-- A function-level reset in progress (R274). -/
inductive Flr where
  | idle
  /-- Draining since the clk counts of the dies. -/
  | draining (since : Nat)
  /-- Waiting for the reset of a lower function (R275). -/
  | queued
  deriving DecidableEq, Repr

/-- The registers and rings of one function (R267, R379–R384). -/
structure Func where
  cmdBase : DWord := 0
  cmdLog : Word := 0
  cmdDoor : Word := 0
  cmdHead : Word := 0
  evBase : DWord := 0
  evLog : Word := 0
  evTail : Word := 0
  evHead : Word := 0
  trBase : DWord := 0
  trTail : Word := 0
  trHead : Word := 0
  trDrop : Word := 0
  winOid : Word := 0
  winOff : DWord := 0
  pclu : DWord := 0
  occ : Nat := 0
  bwwt : Nat := 1
  weight : Nat := 1
  /-- Events that wait for room in the ring, oldest first (R384). -/
  events : List (BitVec 256) := []
  /-- MSI-X vector 0 has fired this many times (R383). -/
  msix : Nat := 0
  flr : Flr := .idle
  /-- The queues are not drawn (R274, R275). -/
  stopped : Bool := false
  deriving DecidableEq, Repr

/-- An HBM channel (R390, R391). -/
structure Channel where
  bal : Int := 0
  rate : BitVec 2 := 0b10
  switching : Option (BitVec 2) := none
  rows : Store Nat := []
  refreshes : Nat := 0
  deriving DecidableEq, Repr

/-- A home write in flight (R244), or a write-back in flight, which carries no stamp. -/
structure HomeWrite where
  id : Nat
  die : Nat
  core : Nat
  stamp : Option (List Word)
  line : Nat
  data : LineData
  mask : BitVec 64
  /-- Granules whose tag becomes 1 (the rest of the written granules lose theirs). -/
  tags : BitVec 4
  poison : Bool
  cls : Nat
  applied : Bool := false
  ctx : Nat := 0
  /-- A renewal (R366) instead of bytes: the capability and the tile. -/
  renew : Option (Cap × Nat) := none
  /-- The clk of its die at which it was sent (R167). -/
  sent : Nat := 0
  /-- The signature with which it installs or meets its line in L2; none for a write-back (R287). -/
  sig : Option Nat := none
  deriving DecidableEq, Repr

/-- A home access whose value is on its way back to its thread (R156). -/
structure Response where
  agent : Agent
  /-- Its context, its line, whether it has missed L2, and the clk of its die at which it was sent (R167, R179, R272). -/
  ctx : Nat := 0
  line : Option Nat := none
  far : Bool := false
  sent : Nat := 0
  /-- Vector or cue register values to write. -/
  regs : List (Nat × DWord)
  flag : Option (Nat × Bool)
  /-- The acquire performed when the value has returned: its scope. -/
  acquire : Option Nat
  pc : Word
  deriving DecidableEq, Repr

/-- A CLASSMAP in progress (R375, R376). -/
structure ClassJob where
  id : Nat
  agent : Option Agent
  ctx : Nat
  fn : Nat
  oid : Nat
  cls : Nat
  pool : Nat
  /-- First units of the class groups taken from the pool. -/
  groups : List Nat
  keep : Bool
  deriving DecidableEq, Repr

/-- A PULL in progress (R387). -/
structure PullJob where
  id : Nat
  fn : Nat
  oid : Nat
  off : Nat
  source : Nat
  pages : Nat
  lost : List Nat
  tag : Nat
  ctx : Nat
  deriving DecidableEq, Repr

/-! ### The outside world -/

/-- An access of the host through BAR2 that waits for its page (R380). -/
structure HostAccess where
  fn : Nat
  /-- The object and the offset that the aperture named when it arrived. -/
  oid : Nat
  off : Nat
  /-- The bytes written; none for a read. -/
  bytes : Option (List Byte)
  size : Nat
  deriving DecidableEq, Repr

/-- What the host's link holds until its turn comes: an access through BAR2, or a doorbell, which covers the accesses before it (R259,
R380). -/
inductive HostOp where
  | access (a : HostAccess)
  | door (die queue : Nat) (value : Word)
  | cmdDoor (fn : Nat) (value : Word)
  deriving DecidableEq, Repr

/-- A request of a peer that has been refused for an absent page, as the peer sends it again (R141, R386). -/
structure PeerAsk where
  key : PageKey
  off : Nat
  size : Nat
  op : PeerOp
  deriving DecidableEq, Repr

/-- How an access from outside completes (R380, R386). -/
inductive Completion where
  /-- Done, with the bytes read. -/
  | done (bytes : List Byte)
  /-- Refused, to be sent again after 2^H × 256 clk (R141). -/
  | retryAfter (h : Nat)
  /-- Unsupported, or Unsupported Request. -/
  | unsupported
  /-- Data from a poisoned line, or Completer Abort. -/
  | poisoned
  deriving DecidableEq, Repr

/-- A completion that has left the module: for a function of the host, or for a peer module. -/
structure Reply where
  peer : Bool
  fn : Nat
  what : Completion
  deriving DecidableEq, Repr

/-- One turn of the module: what happens next. -/
inductive Turn where
  /-- The next word of an issue group of a core, as casts and lanes. -/
  | lanes (core : Nat) (threads : List (Nat × Nat))
  /-- The next instruction of a core's cue thread; `hold` keeps a buffered kind of instruction in the command buffer. -/
  | cue (core : Nat) (hold : Bool)
  /-- A row of the table of events. -/
  | event (e : Instr)
  /-- `n` clk of a die pass. -/
  | elapse (die n : Nat)
  /-- The next 64-byte piece of a transfer lands. -/
  | piece (core xfer : Nat)
  /-- The host writes an entry of a function's object table (R134). -/
  | hostObject (fn oid : Nat) (entry : BitVec 128)
  /-- The host reads 4 bytes of a function's BAR0 (R379). -/
  | hostRead (fn off : Nat)
  /-- The oldest waiting access of the host is tried again (R380). -/
  | hostRetry
  /-- A row of an HBM channel is activated (R391). -/
  | activate (channel row : Nat)
  /-- A thread's load from a peer module is lost (R386). -/
  | lostLoad (who : Agent)
  /-- A peer module completes what it sends of a line with the status poisoned (R386). -/
  | peerPoison (line : Nat)
  /-- A peer module completes the request of a transfer with the status unsupported (R386). -/
  | peerUnsupported (core xfer : Nat)
  deriving DecidableEq, Repr, Inhabited

/-- Who executes the instruction that `exec` is given. -/
inductive Actor where
  | none
  | lanes (core : Nat) (threads : List (Nat × Nat))
  | cue (core : Nat) (hold : Bool)
  deriving DecidableEq, Repr

/-- The whole module. -/
structure State where
  /-- The firmware has been verified and loaded (R388). -/
  booted : Bool := false
  /-- The module is powered down after a thermal trip (R392). -/
  poweredDown : Bool := false
  /-- A thermal trip has pre-empted the contexts: the module powers down once images and events are written (R392). -/
  tripped : Bool := false
  vfEnable : Bool := true
  /-- Physical memory, keyed as `physKey` says; an unlisted byte reads 0. -/
  mem : List Host.Cell := []
  /-- Granules of Lightfast memory whose tag is 1 (R133). -/
  tags : NSet := []
  /-- Lines that carry a poison mark (R355). -/
  poison : NSet := []
  /-- Injected check failures by line: false correctable, true detected or uncorrectable (R382). -/
  injected : Store Bool := []
  /-- Object tables (R134): function × 2^24 + object ID. -/
  objects : Store (BitVec 128) := []
  /-- Entries that the host has written and not yet invalidated: no access uses them (R138). -/
  objectWrites : Store (BitVec 128) := []
  cores : Store Core := []
  clusters : Store Cluster := []
  dies : Store Die := []
  contexts : Store Context := []
  /-- Launches by context × 2^16 + number. -/
  launches : Store Launch := []
  functions : Store Func := []
  channels : Store Channel := []
  homeWrites : List HomeWrite := []
  responses : List Response := []
  /-- Page requests the host has not answered (R140). -/
  pageRequests : List PageKey := []
  classJobs : List ClassJob := []
  pulls : List PullJob := []
  /-- Pages of pulled objects that have landed while their leaf still holds MIG 1 (R387). -/
  landed : List PageKey := []
  /-- Requests of peers that were refused for an absent page, and whether the host has refused to map it (R141). -/
  peerPages : List (PeerAsk × Bool) := []
  /-- Accesses of the host that wait for their pages, and the doorbells behind them, in the host link's order (R259, R380). -/
  hostWaiting : List HostOp := []
  /-- Completions that have left the module, oldest first. -/
  replies : List Reply := []
  /-- ICINV marks so far (R166). -/
  icEpoch : Nat := 0
  pcap : Nat := 2400
  fownBase : DWord := 0
  grpBase : DWord := 0
  poolBase : DWord := 0
  expBase : DWord := 0
  /-- The MODEL's own: the turns to come, oldest first. -/
  agenda : List Turn := []
  /-- The MODEL's own: who executes the running instruction. -/
  actor : Actor := .none
  /-- The MODEL's own: the counter that indexes free values. -/
  tick : Nat := 0
  /-- The MODEL's own: words issued so far; it orders buffered stores (R152). -/
  issued : Nat := 0
  /-- The MODEL's own: the next number of a transfer, a request, a home write, a marker or a command. -/
  fresh : Nat := 0
  deriving DecidableEq, Repr

/-- Why the machine stops. -/
inductive Fault where
  /-- Raised by every access to physical memory when the address names no byte of the tier it is read in (R385): HBM at or
  above 512 GiB, the CXL tier outside its 4 TiB. Safe: the spec says no such byte exists. -/
  | noSuchAddress
  deriving DecidableEq, Repr

/-- Why an instruction has no meaning. -/
inductive Refusal where
  /-- Answered by an arm of `exec` whose instruction is not modelled; by no meaning. Safe: nothing can be proved of it. -/
  | notModelled (mnemonic : String)
  deriving DecidableEq, Repr

/-- Memory is in its canonical form: addresses strictly rising, no entry that holds what an unlisted byte reads. -/
abbrev Memory.wf (m : List Host.Cell) : Bool := Store.canonical 0 m

/-- The answer of one step. -/
abbrev Out := Host.Outcome State Fault Refusal

/-- The module right after reset (R388): not booted, nothing in memory, no context, every register at the value the spec
gives for reset or, where it gives none, at the value the assumption log names. DESIGN CHOICE, log 4. -/
def State.reset : State := {}

end Sys2Proof.Machine
end

