-- ==== Sys2Proof/Config.lean ====
section
/-! DEFINITION. Config: what one module fixes and the values the spec leaves open. Each is a constant with no body, so no
proof can rest on what it is. -/

namespace Sys2Proof.Config

open Machine

/-- The turn that comes next when the agenda is empty, by the count of turns (DESIGN CHOICE, log 2). -/
opaque schedule : Nat → Turn

/-- Does the firmware's signature verify against the fused digest (R388; DESIGN CHOICE, log 3)? -/
opaque firmwareValid : Bool

/-- A free choice between an old and a new value, by the model's counter and an index (DESIGN CHOICE, log 11). -/
opaque freeBit : Nat → Nat → Bool

/-- The module number that the host has assigned (R385, R388; DESIGN CHOICE, log 21). -/
opaque moduleNumber : BitVec 8

/-- A free byte, by the model's counter and an index: a hint for a peer, a value that a peer did not give (DESIGN CHOICE, log 26). -/
opaque freeByte : Nat → Nat → Byte

/-- The bytes of a digest that stays as long as the module runs: 0 of the ROM, 1 of the firmware, 2 of the certificate chain; 3 for the
bytes of a report that R388 gives no part (DESIGN CHOICE, log 21). -/
opaque fixedByte : Nat → Nat → Byte

/-- The measurement of the function registers for a function's report, from the registers of every function in ascending order (R267,
R388; DESIGN CHOICE, log 21). -/
opaque registerDigest : Nat → List (BitVec 128) → Nat → Byte

/-- The signature over the bytes before it, by the model's counter (R388; DESIGN CHOICE, log 21). -/
opaque signature : Nat → List Byte → Nat → Byte

/-- Where the module writes a new extent list: a page number, by the model's counter (R375; DESIGN CHOICE, log 32). -/
opaque freePage : Nat → Nat

end Sys2Proof.Config
end

