-- ==== Sys2Proof/Machine/Legal.lean ====
section
/-! DEFINITION. The checks at decode that depend on the mode, the launch and the run mode: R16, R17, R37, R38, R39, R42,
R45, R57, R101, R208. -/

namespace Sys2Proof.Machine

/-- What the checks at decode depend on: cue mode, V, W and MODE.RUN. -/
structure Env where
  cue : Bool
  vregs : Nat
  width : Nat
  run : Nat
  deriving DecidableEq, Repr

/-- Who holds a system register (R17). -/
inductive Holder where
  | thread | core | launch | context | module
  deriving DecidableEq, Repr

/-- The holder of a system register by number (R17). -/
def sysHolder (n : Nat) : Holder :=
  if n == 0x08 || n == 0x09 || n == 0x10 || n == 0x14 then .thread
  else if n == 0x20 || n == 0x21 then .core
  else if n == 0x02 then .launch
  else if n == 0x40 then .module
  else .context

/-- May code of this mode read the register (R17, R223)? -/
def sysReadable (cue : Bool) (n : Nat) : Bool :=
  match sysHolder n with
  | .thread => !cue
  | .core => cue
  | .launch | .context | .module => true

/-- May the program write the register in this run mode (R17, R24)? -/
def sysWritable (run n : Nat) : Bool := n == 0x08 || n == 0x09 || (n == 0x03 && run == 1)

/-- A register group of `n` registers starts at a multiple of its size, at most of 4, and ends below `top` (R101, R150,
R305, R331). -/
def groupOk (x n top : Nat) : Bool := x % (min n 4) == 0 && x + n ≤ top

/-- Is the field's value one of its kind in this mode (R37, R38)? `n` is the span of a register group. -/
def fieldLegal (e : Env) (kd : Kind) (sel : Bool) (x : BitVec 7) (n : Nat) : Bool :=
  let m := x.toNat
  match kd with
  | .g | .u =>
    if sel then m ≥ 0x20 || (!e.cue && (n == 1 || groupOk m n 32))
    else if e.cue then m < 64
    else kd == .g && groupOk m n e.vregs
  | .d => if e.cue then m < 64 else groupOk m n e.vregs
  | .f => e.cue || m ≤ 6
  | .q => e.cue || m ≤ 7
  | .k => !e.cue && (n == 1 || groupOk m n 32)
  | .a => !e.cue || m ≥ 16
  | .capD | .z | .e => !e.cue
  | .w => !e.cue || m == 0
  | .s => sysReadable e.cue m
  | .none | .o => true

/-- All four fields of an operation. -/
def fieldsLegal (e : Env) (o : Opc) (op : Op) : Bool :=
  let r := opRow o
  let m := op.mod.toNat
  if r.kd == .o then true
  else fieldLegal e r.kd false op.d (span32 o m .d) && fieldLegal e r.ka op.asel op.a (span32 o m .a)
    && fieldLegal e r.kb op.bsel op.b (span32 o m .b) && fieldLegal e r.kc op.csel op.c (span32 o m .c)

/-- Is a literal taken whole in lane mode (R39, R101, R157)? A branch offset is exact (R40). -/
def wideLiteral (o : Opc) (op : Op) : Bool :=
  match o with
  | .scene | .bra | .call | .brc | .add64 | .sub64 | .capmk => true
  | .shl64 | .shr64 => !(namesImm .g op.bsel op.b)
  | _ => false

/-- A literal that feeds a 32-bit operand is the sign extension of its low half (R39). -/
def literalLegal (e : Env) (o : Opc) (op : Op) : Bool :=
  !formHasLit op.form || e.cue || wideLiteral o op || wrap (sext op.lit.toNat 32) 64 == op.lit.toNat

/-- The live-in mask of SCENE names no register numbered V or higher, and BANK 1 and 2 need V above 64 (R57). -/
def sceneLegal (e : Env) (op : Op) : Bool :=
  let bank := op.mod.toNat / 32 % 4
  (bank == 0 || e.vregs > 64) && op.lit.toNat < 2 ^ (e.vregs - (if bank == 2 then 64 else 0))

/-- Limits of single descriptions that depend on the mode or the launch. -/
def specialLegal (e : Env) (o : Opc) (op : Op) : Bool :=
  let m := op.mod.toNat
  match o with
  | .scene => sceneLegal e op
  | .ld | .st => !(e.cue && m % 8 == 6)
  | .expq => !op.asel
  | .mma | .mmas => m / 8 % 2 == 1 || !op.asel
  | .syswr => sysWritable e.run op.a.toNat
  | .vote => !(e.width == 64 && m == 0) || groupOk op.d.toNat 2 e.vregs
  | .matchLanes => e.width != 64 || groupOk op.d.toNat 2 e.vregs
  | _ => true

/-- Is the operation legal in its mode (R45) with the guard of cue mode? -/
def modeLegal (e : Env) (o : Opc) (op : Op) : Bool :=
  match (opRow o).modes with
  | .both => !e.cue || (op.grd == 7 && !op.gneg && op.second.isNone)
  | .lane => !e.cue
  | .cue => e.cue && op.grd == 7 && !op.gneg && op.second.isNone

/-- Is a well-formed operation an instruction in this environment? A breach raises the illegal-instruction fault at decode
(R55). -/
def legalIn (e : Env) (o : Opc) (op : Op) : Bool :=
  modeLegal e o op && fieldsLegal e o op && literalLegal e o op && specialLegal e o op
    && ((!op.fzi && !op.fzo) || e.run == 1)
    && (match op.second with
      | none => true
      | some t => fieldsLegal e t.opc (secondOp t) && specialLegal e t.opc (secondOp t))

end Sys2Proof.Machine
end

