-- ==== Sys2Proof/Machine/Access.lean ====
section
/-! DEFINITION. Reading and replacing the parts of the state: cores, casts, threads, clusters, dies, contexts, launches,
functions, channels; the numbering of R9. -/

namespace Sys2Proof.Machine

/-- The die of a core (R9). -/
def dieOfCore (core : Nat) : Nat := core / 64

/-- The global cluster of a core (R9). -/
def clusterOfCore (core : Nat) : Nat := core / 4

/-- The die of a global cluster (R9). -/
def dieOfCluster (cluster : Nat) : Nat := cluster / 16

/-- A core. -/
def getCore (s : State) (core : Nat) : Core := sget {} core s.cores

/-- Replace a core. -/
def setCore (s : State) (core : Nat) (x : Core) : State := { s with cores := sput core x s.cores }

/-- Change a core. -/
def modCore (s : State) (core : Nat) (f : Core → Core) : State := setCore s core (f (getCore s core))

/-- A cluster. -/
def getCluster (s : State) (cluster : Nat) : Cluster := sget {} cluster s.clusters

/-- Replace a cluster. -/
def setCluster (s : State) (cluster : Nat) (x : Cluster) : State := { s with clusters := sput cluster x s.clusters }

/-- Change a cluster. -/
def modCluster (s : State) (cluster : Nat) (f : Cluster → Cluster) : State :=
  setCluster s cluster (f (getCluster s cluster))

/-- A die. -/
def getDie (s : State) (die : Nat) : Die := sget {} die s.dies

/-- Replace a die. -/
def setDie (s : State) (die : Nat) (x : Die) : State := { s with dies := sput die x s.dies }

/-- Change a die. -/
def modDie (s : State) (die : Nat) (f : Die → Die) : State := setDie s die (f (getDie s die))

/-- A context. -/
def getContext (s : State) (ctx : Nat) : Context := sget {} ctx s.contexts

/-- Replace a context. -/
def setContext (s : State) (ctx : Nat) (x : Context) : State := { s with contexts := sput ctx x s.contexts }

/-- Change a context. -/
def modContext (s : State) (ctx : Nat) (f : Context → Context) : State := setContext s ctx (f (getContext s ctx))

/-- The key of a launch: context and number (R254). -/
def launchKey (ctx number : Nat) : Nat := ctx * 65536 + number

/-- A launch that no core holds. -/
def noLaunch : Launch := { ctx := 0, number := 0, die := 0, bill := {} }

/-- A launch. -/
def getLaunch (s : State) (key : Nat) : Launch := sget noLaunch key s.launches

/-- Replace a launch. -/
def setLaunch (s : State) (key : Nat) (x : Launch) : State := { s with launches := sput key x s.launches }

/-- Change a launch. -/
def modLaunch (s : State) (key : Nat) (f : Launch → Launch) : State := setLaunch s key (f (getLaunch s key))

/-- A function: 0 to 15 for the virtual functions, 16 for the physical function. -/
def getFunc (s : State) (fn : Nat) : Func := sget {} fn s.functions

/-- Replace a function. -/
def setFunc (s : State) (fn : Nat) (x : Func) : State := { s with functions := sput fn x s.functions }

/-- Change a function. -/
def modFunc (s : State) (fn : Nat) (f : Func → Func) : State := setFunc s fn (f (getFunc s fn))

/-- The number of the physical function. -/
def physFn : Nat := 16

/-- An HBM channel. -/
def getChannel (s : State) (h : Nat) : Channel := sget {} h s.channels

/-- Replace a channel. -/
def setChannel (s : State) (h : Nat) (x : Channel) : State := { s with channels := sput h x s.channels }

/-- The launch that a core holds (R12). -/
def coreLaunch (s : State) (core : Nat) : Launch :=
  match (getCore s core).launch with
  | some key => getLaunch s key
  | none => noLaunch

/-- The playbill of the launch that a core holds (R254). -/
def coreBill (s : State) (core : Nat) : Playbill := (coreLaunch s core).bill

/-- The context of the launch that a core holds. -/
def coreCtx (s : State) (core : Nat) : Nat := (coreLaunch s core).ctx

/-- The function of the launch that a core holds. -/
def coreFn (s : State) (core : Nat) : Nat := (getContext s (coreCtx s core)).fn

/-- The function of a context ID: ID 0x000 belongs to the firmware and to none (R21). -/
def fnOfCtx (s : State) (ctx : Nat) : Option Nat := if ctx = 0 then none else (sfind ctx s.contexts).map Context.fn

/-- MODE of the launch that a core holds (R19). -/
def coreMode (s : State) (core : Nat) : Word := (getContext s (coreCtx s core)).mode

/-- MODE.RUN (R19). -/
def modeRun (mode : Word) : Nat := mode.toNat % 4

/-- MODE.SCHK, ZCHK, TREN and PRIV (R19). -/
def modeSchk (mode : Word) : Bool := mode.toNat.testBit 2
def modeZchk (mode : Word) : Bool := mode.toNat.testBit 3
def modeTren (mode : Word) : Bool := mode.toNat.testBit 4
def modePriv (mode : Word) : Bool := mode.toNat.testBit 5

/-- The scratchpad size S in bytes (R10). -/
def spadSize (b : Playbill) : Nat := b.scratch * 65536

/-- A cast of a core. -/
def getCast (s : State) (core cast : Nat) : Cast := sget {} cast (getCore s core).casts

/-- Replace a cast. -/
def setCast (s : State) (core cast : Nat) (x : Cast) : State :=
  modCore s core fun c => { c with casts := sput cast x c.casts }

/-- Change a cast. -/
def modCast (s : State) (core cast : Nat) (f : Cast → Cast) : State := setCast s core cast (f (getCast s core cast))

/-- A lane thread; a lane that the cast lacks is an exited thread. -/
def getThread (s : State) (core cast lane : Nat) : Thread :=
  match (getCast s core cast).threads[lane]? with
  | some t => t
  | none => { live := false }

/-- Replace a lane thread. -/
def setThread (s : State) (core cast lane : Nat) (t : Thread) : State :=
  modCast s core cast fun c => { c with threads := c.threads.set lane t }

/-- Change a lane thread. -/
def modThread (s : State) (core cast lane : Nat) (f : Thread → Thread) : State :=
  setThread s core cast lane (f (getThread s core cast lane))

/-- The global index of a lane thread (R170). -/
def gidx (b : Playbill) (cast lane : Nat) : Nat := cast * b.width + lane

/-- A partition of a core. -/
def getPart (s : State) (core part : Nat) : Partition := sget {} part (getCore s core).parts

/-- Replace a partition. -/
def setPart (s : State) (core part : Nat) (p : Partition) : State :=
  modCore s core fun c => { c with parts := sput part p c.parts }

/-- The cue thread of a core, if it has one. -/
def getCue (s : State) (core : Nat) : Option Cue := (getCore s core).cue

/-- Replace the cue thread of a core. -/
def setCue (s : State) (core : Nat) (q : Cue) : State := modCore s core fun c => { c with cue := some q }

/-- Change the cue thread of a core, if it has one. -/
def modCue (s : State) (core : Nat) (f : Cue → Cue) : State :=
  match getCue s core with
  | some q => setCue s core (f q)
  | none => s

/-- The next number of an operation, and the state after taking it. -/
def takeFresh (s : State) : Nat × State := (s.fresh, { s with fresh := s.fresh + 1 })

/-- Every core of the module, in ascending global core order (R9). -/
def allCores : List Nat := List.range 256

/-- The cores that hold a launch of the context, or on which a transfer of it goes on after its launch has left (R12). -/
def coresOf (s : State) (ctx : Nat) : List Nat :=
  (s.cores.filter fun e => (e.2.launch.isSome && coreCtx s e.1 == ctx) || e.2.xfers.any fun x => x.ctx == ctx).map Prod.fst

/-- The lanes of a list of threads with their numbers. -/
def enum {α : Type} : Nat → List α → List (Nat × α)
  | _, [] => []
  | i, x :: xs => (i, x) :: enum (i + 1) xs

/-- The live lanes of a cast, ascending. -/
def liveLanes (c : Cast) : List Nat := ((enum 0 c.threads).filter fun e => e.2.live).map Prod.fst

/-- Change every live thread of a core. -/
def mapLive (f : Thread → Thread) (c : Core) : Core :=
  { c with casts := c.casts.map fun e =>
      (e.1, { e.2 with threads := e.2.threads.map fun t => if t.live then f t else t }) }

/-- The clk count of a core's die. -/
def coreClk (s : State) (core : Nat) : Nat := (getDie s (dieOfCore core)).clk

end Sys2Proof.Machine
end

