-- ==== Sys2Proof/Machine/Memory.lean ====
section
/-! DEFINITION. Physical memory, checks and charges, the home L2, L1 and the release FIFO (R133, R139, R144 to R147, R237,
R238, R244, R286 to R288, R353 to R356, R385, R398). -/

namespace Sys2Proof.Machine

/-! ### Physical addresses -/

/-- First key of host memory and of peer memory in the one physical space of the model (DESIGN CHOICE, log 5). -/
def hostKey : Nat := 2 ^ 52
def peerKey : Nat := 2 ^ 53

/-- The physical key of an address read according to its tier (R385); none where the tier has no such byte. -/
def physKey (tier pa : Nat) : Option Nat :=
  match tier with
  | 0 => if pa < 2 ^ 39 then some pa else none
  | 1 => if 2 ^ 40 ≤ pa ∧ pa < 2 ^ 40 + 2 ^ 42 then some pa else none
  | 2 => some (hostKey + pa % 2 ^ 52)
  | _ => some (peerKey + pa % 2 ^ 52)

/-- The home die of a key (R139): the owner of its HBM stack, else PA[13:12]. -/
def homeDie (key : Nat) : Nat := if key < 2 ^ 39 then key / 2 ^ 37 else key / 4096 % 4

/-- Does the line lie on a peer module? No L2 of this module holds it (R139). -/
def isPeerLine (line : Nat) : Bool := peerKey ≤ line * 64

/-- Is the line one of the CXL tier or of host memory (R146)? -/
def isFarLine (line : Nat) : Bool := 2 ^ 40 ≤ line * 64 && line * 64 < peerKey

/-! ### Lines -/

/-- The bytes of a line. -/
def lineBytes (d : LineData) : List Byte := toBytes 64 d.toNat

/-- A line from its bytes. -/
def lineOfBytes (bs : List Byte) : LineData := BitVec.ofNat 512 (ofBytes bs)

/-- The bits of the bytes that a mask names. -/
def maskBits (mask : BitVec 64) : Nat :=
  (List.range 64).foldl (fun acc j => if mask.getLsbD j then acc + 255 <<< (8 * j) else acc) 0

/-- `new` where the mask is set, `old` elsewhere. -/
def mergeLine (mask : BitVec 64) (new old : LineData) : LineData :=
  let m : LineData := BitVec.ofNat 512 (maskBits mask)
  (new &&& m) ||| (old &&& ~~~m)

/-- The mask of bytes `[lo, lo + n)` of a line. -/
def byteMask (lo n : Nat) : BitVec 64 := BitVec.ofNat 64 ((2 ^ n - 1) <<< lo)

/-- A line with the given bytes from `lo` upwards and 0 elsewhere. -/
def placeBytes (lo : Nat) (bs : List Byte) : LineData := BitVec.ofNat 512 (ofBytes bs <<< (8 * lo))

/-- Bytes `[lo, lo + n)` of a line. -/
def takeBytes (d : LineData) (lo n : Nat) : List Byte := toBytes n (d.toNat >>> (8 * lo))

/-- Every byte of a line. -/
def fullMask : BitVec 64 := BitVec.allOnes 64

/-- The line as memory holds it. -/
def memLine (s : State) (line : Nat) : LineData := lineOfBytes (bytesAt (line * 64) 64 s.mem)

/-- The tags of a line as memory holds them (R133). -/
def memTags (s : State) (line : Nat) : BitVec 4 :=
  BitVec.ofNat 4 (b2n (nmem (4 * line) s.tags) + 2 * b2n (nmem (4 * line + 1) s.tags)
    + 4 * b2n (nmem (4 * line + 2) s.tags) + 8 * b2n (nmem (4 * line + 3) s.tags))

/-- Write a line and its tags to memory. -/
def putMemLine (s : State) (line : Nat) (d : LineData) (tags : BitVec 4) : State :=
  { s with
    mem := putBytes (line * 64) (lineBytes d) s.mem
    tags := (List.range 4).foldl (fun acc j => nset (4 * line + j) (tags.getLsbD j) acc) s.tags }

/-! ### Budgets -/

/-- Does a context hold threads in its image? -/
def heldInImage (s : State) (ctx : Nat) : Bool :=
  (getContext s ctx).run == .saved || (getContext s ctx).run == .parked
    || s.launches.any fun e => e.2.ctx == ctx && !e.2.waiting.isEmpty

/-- A charge of `k` on a context (R356), with the pending bits it sets, those of threads in the image at their restore (R218).
Context 0x000 has no budget. -/
def charge (s : State) (ctx k : Nat) : State :=
  if ctx = 0 ∨ k = 0 then s
  else
    let c := getContext s ctx
    let left := c.ebud.toNat - k
    let s1 := setContext s ctx { c with ebud := BitVec.ofNat 32 left, spent := c.spent || (left == 0 && heldInImage s ctx) }
    if left = 0 then
      { s1 with cores := s1.cores.map fun e =>
          if e.2.launch.isSome && coreCtx s1 e.1 == ctx then (e.1, mapLive (fun t => { t with exh := true }) e.2)
          else e }
    else s1

/-- What a check of a line finds: corrected 1, poisoned 4, nothing 0. -/
def checkCost (cls : Nat) (bad : Bool) : Nat :=
  match cls with
  | 2 => if bad then 4 else 1
  | 1 => 4
  | 3 => 4
  | _ => 0

/-- The check that a read of a line makes (R354): an injected failure is consumed; the charge falls on `ctx` (R356). DEDUCED, log 9. -/
def checkLine (s : State) (line cls ctx : Nat) : State :=
  if nmem line s.poison then s
  else
    match sfind line s.injected with
    | none => s
    | some bad =>
      let s1 := { s with injected := sdel line s.injected }
      let cost := checkCost cls bad
      let s2 := if cost = 4 then { s1 with poison := nins line s1.poison } else s1
      charge s2 ctx cost

/-! ### The home L2 -/

/-- The set of a line within its die's L2: 32 slices of 3,072 sets (R287; the hash is PRESUMED, log 8). -/
def l2Set (line : Nat) : Nat := line % 32 * 3072 + line / 32 % 3072

/-- Is some core of the die held by the context? -/
def residentOn (s : State) (die ctx : Nat) : Bool :=
  s.cores.any fun e => dieOfCore e.1 == die && e.2.launch.isSome && coreCtx s e.1 == ctx

/-- The die part of a context on a die, cleared where it has none (R277). -/
def clearedDiePart (ctx : Nat) : DiePart :=
  { lot := BitVec.ofNat 64 (0x9E3779B97F4A7C15 ^^^ (ctx % 4096)) }

/-- The die part a context uses on a die (R278); a context that is not resident there uses the one its last residence left, or
a cleared one (DESIGN CHOICE, log 63). -/
def diePart (s : State) (die ctx : Nat) : DiePart := sget (clearedDiePart ctx) ctx (getDie s die).parts

/-- Replace a die part. -/
def setDiePart (s : State) (die ctx : Nat) (p : DiePart) : State :=
  modDie s die fun d => { d with parts := sput ctx p d.parts }

/-- FL2 of a die part (R281). -/
def fl2 (p : DiePart) : Bool := p.duel.toNat.testBit 10

/-- PSEL of a die part (R281). -/
def psel (p : DiePart) : Nat := p.duel.toNat % 1024

/-- Change an L2 signature counter of an owner unless FL2 is set. -/
def trainL2 (s : State) (die ctx sig : Nat) (up : Bool) : State :=
  let p := diePart s die ctx
  if fl2 p then s
  else
    let v := sget 1 sig p.l2s
    setDiePart s die ctx { p with l2s := sset 1 sig (if up then min (v + 1) 7 else v - 1) p.l2s }

/-- The re-reference value that counts: 3 for a line whose context is not resident (R27). -/
def effectiveRrv (s : State) (die : Nat) (l : L2Line) : Nat := if residentOn s die l.ctx then l.rrv else 3

/-- The lowest-numbered of the lines with the greatest value. -/
def victimOf (value : L2Line → Nat) : List L2Line → Option L2Line
  | [] => none
  | l :: rest =>
    match victimOf value rest with
    | none => some l
    | some m => if value m > value l || (value m == value l && m.way < l.way) then some m else some l

/-- The lowest way below `n` that no line uses. -/
def freeWay (used : List Nat) (n : Nat) : Option Nat := (List.range n).find? fun w => !used.contains w

/-- Lines of a die's L2 that belong to a function (R271). -/
def linesOfFn (s : State) (die fn : Nat) : Nat :=
  ((getDie s die).l2.filter fun e => fnOfCtx s e.2.ctx == some fn).length

/-- Evict a line of L2: a dirty one goes to memory; an unused one trains its counter (R286, R287). -/
def evictL2 (s : State) (die : Nat) (l : L2Line) : State :=
  let s1 := modDie s die fun d => { d with l2 := sdel l.line d.l2 }
  let s2 := if l.dirty then putMemLine s1 l.line l.data l.tags else s1
  match l.sig with
  | some sig => if !l.reuse && residentOn s die l.ctx then trainL2 s2 die l.ctx sig false else s2
  | none => s2

/-- The insertion value, and PSEL's step in a leader set (R288). -/
def insertL2 (s : State) (die line ctx : Nat) (sig : Option Nat) (lu : Bool) : Nat × State :=
  match sig with
  | none => (2, s)
  | some g =>
    let p := diePart s die ctx
    let v := sget 1 g p.l2s
    let set := line / 32 % 3072
    let leadA := set % 64 == 0
    let leadB := set % 64 == 33
    let polB := leadB || (!leadA && psel p ≥ 0x200)
    let rrv := if lu then 3 else if polB then (if v = 7 then 2 else 3) else (if v = 0 then 3 else 2)
    let n := psel p
    let n' := if fl2 p then n else if leadA then min (n + 1) 1023 else if leadB then n - 1 else n
    (rrv, if n' = n then s else setDiePart s die ctx { p with duel := BitVec.ofNat 32 (setField p.duel.toNat 9 0 n') })

/-- A line of the set of `line` aged by a search for a victim (R286). -/
def ageL2 (line n : Nat) (e : Nat × L2Line) : Nat × L2Line :=
  if l2Set e.2.line == l2Set line then (e.1, { e.2 with rrv := min 3 (e.2.rrv + n) }) else e

/-- The lines of a set among which a fill of a context chooses its victim: its function's own where the function is above its
occupancy limit and has one (R271). Context 0x000 belongs to no function. -/
def victimsL2 (s : State) (die ctx : Nat) (inSet : List L2Line) : List L2Line :=
  match fnOfCtx s ctx with
  | none => inSet
  | some fn =>
    let occ := (getFunc s fn).occ
    let own := inSet.filter fun l => fnOfCtx s l.ctx == some fn
    if occ ≠ 0 && linesOfFn s die fn > occ * 16384 && !own.isEmpty then own else inSet

/-- Make room for a line in its set and give its way. -/
def makeRoomL2 (s : State) (die line ctx : Nat) : Nat × State :=
  let inSet := ((getDie s die).l2.map Prod.snd).filter fun l => l2Set l.line == l2Set line
  match freeWay (inSet.map L2Line.way) 16 with
  | some w => (w, s)
  | none =>
    match victimOf (effectiveRrv s die) (victimsL2 s die ctx inSet) with
    | none => (0, s)
    | some v =>
      let aged := 3 - effectiveRrv s die v
      let s1 := modDie s die fun d => { d with l2 := d.l2.map (ageL2 line aged) }
      (v.way, evictL2 s1 die v)

/-- The line in its home's L2, as R286 to R288 hit or install it; `sig` is none for accesses without a signature, which are no hit of
R286 where they find their line (DESIGN CHOICE, log 79). -/
def touchL2 (s : State) (line ctx : Nat) (sig : Option Nat) (lu : Bool) : State :=
  if isPeerLine line then s
  else
    let die := homeDie (line * 64)
    match sfind line (getDie s die).l2 with
    | some l =>
      match sig with
      | none => s
      | some _ =>
        let s1 := modDie s die fun d =>
          { d with l2 := sput line { l with rrv := if lu then 3 else 0, reuse := l.reuse || !lu } d.l2 }
        match l.sig with
        | some g => if lu then s1 else trainL2 s1 die l.ctx g true
        | none => s1
    | none =>
      let (way, s1) := makeRoomL2 s die line ctx
      let (rrv, s2) := insertL2 s1 die line ctx sig lu
      modDie s2 die fun d =>
        { d with l2 := sput line { line, data := memLine s2 line, tags := memTags s2 line, dirty := false, rrv, ctx, sig,
                                   reuse := false, way } d.l2 }

/-- The bytes of a line as its home holds them. -/
def homeData (s : State) (line : Nat) : LineData :=
  if isPeerLine line then memLine s line
  else match sfind line (getDie s (homeDie (line * 64))).l2 with
    | some l => l.data
    | none => memLine s line

/-- The tags of a line as its home holds them. -/
def homeTags (s : State) (line : Nat) : BitVec 4 :=
  if isPeerLine line then memTags s line
  else match sfind line (getDie s (homeDie (line * 64))).l2 with
    | some l => l.tags
    | none => memTags s line

/-- One byte as its home holds it: the read of memory that statements use. -/
def homeByte (s : State) (key : Nat) : Byte :=
  if isPeerLine (key / 64) then sget 0 key s.mem
  else match sfind (key / 64) (getDie s (homeDie (key / 64 * 64))).l2 with
    | some l => BitVec.extractLsb' (8 * (key % 64)) 8 l.data
    | none => sget 0 key s.mem

/-- Bytes as their homes hold them. -/
def homeBytes (s : State) (key n : Nat) : List Byte := (span key n).map (homeByte s)

/-- Put a line's bytes and tags at its home, which keeps it dirty. -/
def putHome (s : State) (line : Nat) (d : LineData) (tags : BitVec 4) : State :=
  if isPeerLine line then putMemLine s line d tags
  else
    let die := homeDie (line * 64)
    match sfind line (getDie s die).l2 with
    | some l => modDie s die fun x => { x with l2 := sput line { l with data := d, tags, dirty := true } x.l2 }
    | none => putMemLine s line d tags

/-- The tags after a write of the bytes of `mask`: a granule written whole takes the tag carried for it, one written in part
loses its tag (R133). -/
def mergeTags (mask : BitVec 64) (new old : BitVec 4) : BitVec 4 :=
  BitVec.ofNat 4 ((List.range 4).foldl (fun acc j =>
    let g := field mask.toNat (16 * j + 15) (16 * j)
    let t := if g = 0 then old.getLsbD j else if g = 0xFFFF then new.getLsbD j else false
    acc + b2n t <<< j) 0)

/-- A write of the bytes of `mask` to a line at its home: the check of a partial write (R354), the merge, the tags, and the
poison mark (R355): a Bare line takes zeros and a charge where another would take the mark. `sig` is the signature of the
instruction that writes, where it is no write-back (R287). -/
def writeHome (s : State) (line : Nat) (mask : BitVec 64) (d : LineData) (tags : BitVec 4) (poison : Bool)
    (cls ctx : Nat) (sig : Option Nat := none) : State :=
  let s1 := if mask = fullMask then s else checkLine s line cls ctx
  let s2 := touchL2 s1 line ctx sig false
  if poison && cls = 0 then charge (putHome s2 line 0 0) ctx 4
  else
    let s3 := putHome s2 line (mergeLine mask d (homeData s2 line)) (mergeTags mask tags (homeTags s2 line))
    if poison then { s3 with poison := nins line s3.poison }
    else if mask = fullMask then { s3 with poison := ndel line s3.poison }
    else s3

/-- A read of a line at its home with its check. -/
def readHome (s : State) (line cls ctx : Nat) (sig : Option Nat) (lu : Bool) : State :=
  touchL2 (checkLine s line cls ctx) line ctx sig lu

/-- Write the dirty far lines of every L2 through to memory (REL.sys; R146, R159). -/
def writeThrough (s : State) : State :=
  (List.range 4).foldl (fun s die =>
    ((getDie s die).l2.filter fun e => e.2.dirty && isFarLine e.1).foldl (fun s e =>
      let s1 := putMemLine s e.1 e.2.data e.2.tags
      modDie s1 die fun d => { d with l2 := sput e.1 { e.2 with dirty := false } d.l2 }) s) s

/-! ### Stamps (R244) -/

/-- `a ≥ b` as serial numbers modulo 2^32. -/
def serialGe (a b : Word) : Bool := (a - b).toNat < 2 ^ 31

/-- The elementwise maximum of two vectors of serial numbers. -/
def mergeClock (a b : List Word) : List Word := List.zipWith (fun x y => if serialGe x y then x else y) a b

/-- The die that stamps a core's write to a line: the core's own, or the local die of a line on a peer module (R139, R244). -/
def stampDie (core line : Nat) : Nat := if isPeerLine line then homeDie (line * 64) else dieOfCore core

/-- V_d with one more write of die `d`. -/
def bumpClock (v : List Word) (d : Nat) : List Word := v.set d ((v.getD d 0) + 1)

/-- May home `h` apply a write of die `e` with stamp `v`? -/
def stampReady (s : State) (h e : Nat) (v : List Word) : Bool :=
  (List.range 4).all fun f =>
    if f = e then serialGe ((getDie s h).app.getD f 0) (v.getD f 0 - 1)
    else serialGe ((getDie s h).app.getD f 0) (v.getD f 0)

/-- The home has applied a write with this stamp. -/
def noteApplied (s : State) (h : Nat) (v : List Word) : State :=
  modDie s h fun d => { d with homeClock := mergeClock d.homeClock v }

/-- The count of die `e`'s writes before the first that is not applied (R244). -/
def appliedCount (s : State) (e : Nat) : Word :=
  match s.homeWrites.find? fun w => w.die == e && w.stamp.isSome && !w.applied with
  | some w => (w.stamp.getD []).getD e 0 - 1
  | none => (getDie s e).clock.getD e 0

/-- Die `e` publishes its applied count. -/
def publishApp (s : State) (e : Nat) : State :=
  let n := appliedCount s e
  (List.range 4).foldl (fun s d => modDie s d fun x => { x with app := x.app.set e n }) s

/-- Can a home write of this core be performed at once: is every earlier write of its die acknowledged and its stamp
applicable? -/
def homeWriteReady (s : State) (die line : Nat) : Bool :=
  (getDie s die).unacked = 0 && stampReady s (homeDie (line * 64)) die (bumpClock (getDie s die).clock die)

/-- Stamp and apply a home write at once. -/
def stampNow (s : State) (die line : Nat) : State :=
  let v := bumpClock (getDie s die).clock die
  publishApp (noteApplied (modDie s die fun d => { d with clock := v }) (homeDie (line * 64)) v) die

/-- A home read carries V_h back (R244). -/
def mergeRead (s : State) (die line : Nat) : State :=
  let v := (getDie s (homeDie (line * 64))).homeClock
  modDie s die fun d => { d with clock := mergeClock d.clock v }

/-! ### L1 and the release FIFO -/

/-- The sets of a core's L1 (R144). -/
def l1Sets (b : Playbill) : Nat := (524288 - spadSize b) / 512

/-- The set of a line (PRESUMED, log 8). -/
def l1Set (b : Playbill) (line : Nat) : Nat := line % max 1 (l1Sets b)

/-- FL1 of a core bank (R281). -/
def fl1 (k : CoreBank) : Bool := k.hist.toNat.testBit 27

/-- Change an L1 signature counter unless FL1 is set. -/
def trainL1 (k : CoreBank) (sig : Nat) (up : Bool) : CoreBank :=
  if fl1 k then k
  else
    let v := sget 1 sig k.l1s
    { k with l1s := sset 1 sig (if up then min (v + 1) 7 else v - 1) k.l1s }

/-- The tokens a request of one line takes from the port's bucket (R269). DESIGN CHOICE, log 30. -/
def spendToken (s : State) (core : Nat) : State :=
  modCore s core fun c => { c with tokens := c.tokens - 1, backlog := c.backlog || c.tokens == 0 }

/-- Put a write-back in flight: the written bytes of a line, with its tags (R133, R237). DEDUCED, log 14. -/
def sendWriteBack (s : State) (core : Nat) (l : L1Line) : State :=
  if l.dirty = 0 then s
  else
    let (id, s1) := takeFresh (spendToken s core)
    { s1 with homeWrites := s1.homeWrites ++
        [{ id, die := dieOfCore core, core, stamp := none, line := l.line, data := l.data, mask := l.dirty, tags := l.tags,
           poison := false, cls := l.cls, ctx := l.ctx, sent := coreClk s core }] }

/-- Remove a line's entry from the FIFO. -/
def dropFifo (c : Core) (line : Nat) : Core := { c with fifo := c.fifo.filter fun e => !(e == .line line) }

/-- Evict a line of L1: its written bytes go back, an unused line trains its counter (R286). -/
def evictL1 (s : State) (core : Nat) (l : L1Line) : State :=
  let s1 := sendWriteBack s core l
  modCore s1 core fun c =>
    let c := dropFifo { c with l1 := sdel l.line c.l1 } l.line
    if l.reuse then c else { c with bank := trainL1 c.bank l.sig false }

/-- A core's own home writes and write-backs of a line that its home has not applied, oldest first. -/
def ownWrites (s : State) (core line : Nat) : List HomeWrite :=
  s.homeWrites.filter fun w => w.core == core && w.line == line && !w.applied && w.renew.isNone

/-- No later request for a line that the test names takes the fill of an open miss. -/
def unshare (p : Nat → Bool) (c : Core) : Core :=
  { c with misses := c.misses.map fun m => if p m.line then { m with share := false } else m }

/-- The core's copy of a line leaves L1, as a shared-volatile access makes it: its written bytes go back, in the order of the
core's writes to the line; an open miss of the line takes no more requests (R238, R156). -/
def ejectLine (s : State) (core line : Nat) : State :=
  let s1 := match sfind line (getCore s core).l1 with
    | some l => sendWriteBack s core l
    | none => s
  modCore s1 core fun c => dropFifo (unshare (fun n => n == line) { c with l1 := sdel line c.l1 }) line

/-- The lowest-way line of a set with the greatest RRV. -/
def victimL1 : List L1Line → Option L1Line
  | [] => none
  | l :: rest =>
    match victimL1 rest with
    | none => some l
    | some m => if m.rrv > l.rrv || (m.rrv == l.rrv && m.way < l.way) then some m else some l

/-- A line of the set of `line` aged by a search for a victim (R286). -/
def ageL1 (b : Playbill) (line n : Nat) (e : Nat × L1Line) : Nat × L1Line :=
  if l1Set b e.2.line == l1Set b line then (e.1, { e.2 with rrv := min 3 (e.2.rrv + n) }) else e

/-- Make room for a line in L1 and give its way. -/
def makeRoomL1 (s : State) (core line : Nat) : Nat × State :=
  let b := coreBill s core
  let inSet := ((getCore s core).l1.map Prod.snd).filter fun l => l1Set b l.line == l1Set b line
  match freeWay (inSet.map L1Line.way) 8 with
  | some w => (w, s)
  | none =>
    match victimL1 inSet with
    | none => (0, s)
    | some v =>
      let aged := 3 - v.rrv
      let s1 := modCore s core fun c => { c with l1 := c.l1.map (ageL1 b line aged) }
      (v.way, evictL1 s1 core v)

/-- What a read of a line by a core gives: the bytes, the tags and whether they are poisoned. -/
structure LineView where
  data : LineData
  tags : BitVec 4
  poison : Bool
  deriving DecidableEq, Repr

/-- A line under a write to it: the bytes, the tags (R133), the poison mark (R355). -/
def underWrite (v : LineView) (w : HomeWrite) : LineView :=
  { data := mergeLine w.mask w.data v.data, tags := mergeTags w.mask w.tags v.tags
    poison := w.poison || (v.poison && !(w.mask == fullMask)) }

/-- The line as its home holds it. -/
def homeView (s : State) (line : Nat) : LineView := ⟨homeData s line, homeTags s line, nmem line s.poison⟩

/-- A line under the core's own writes to it that its home has not applied (R133, R234). -/
def overOwn (s : State) (core line : Nat) (v : LineView) : LineView := (ownWrites s core line).foldl underWrite v

/-- The line that a fill brings. -/
def fillView (s : State) (core line : Nat) : LineView := overOwn s core line (homeView s line)

/-- Install a line in L1 (R144, R286). -/
def installL1 (s : State) (core : Nat) (line cls ctx sig : Nat) (lu : Bool) (v : LineView) : State :=
  let (way, s1) := makeRoomL1 s core line
  let c := getCore s1 core
  let rrv := if lu then 3 else if sget 1 sig c.bank.l1s = 0 then 3 else 2
  let l : L1Line := { line, data := v.data, dirty := 0, tags := v.tags, poison := v.poison, cls, rrv, ctx, sig,
                      reuse := false, way }
  setCore s1 core { c with l1 := sput line l c.l1 }

/-- A hit in L1 (R286). -/
def hitL1 (s : State) (core : Nat) (l : L1Line) (lu : Bool) : State :=
  modCore s core fun c =>
    { c with
      l1 := sput l.line { l with rrv := if lu then 3 else 0, reuse := l.reuse || !lu } c.l1
      bank := if lu then c.bank else trainL1 c.bank l.sig true }

/-- The signatures of an instruction at `pc`: 8 bits for L1, 10 bits for L2 (R286, R287). -/
def sigL1 (pc : Word) : Nat := field pc.toNat 9 2
def sigL2 (pc : Word) : Nat := field pc.toNat 11 2

/-- The core's view of a line now: its L1 copy, or what a fill would bring. -/
def viewLine (s : State) (core line : Nat) : LineView :=
  match sfind line (getCore s core).l1 with
  | some l => ⟨l.data, l.tags, l.poison⟩
  | none => fillView s core line

/-- The open miss of a line whose fill later requests share (R144). -/
def missOf (s : State) (core line : Nat) : Option Miss := (getCore s core).misses.find? fun m => m.share && m.line == line

/-- Is a request of the core for the line on its way that misses L2 (R179)? -/
def farOpen (s : State) (core line : Nat) : Bool := (getCore s core).misses.any fun m => m.far && m.line == line

/-- The line for whose fill a load of it waits, where the fill comes from beyond L2 (R168, R179). -/
def farLine (s : State) (core line : Nat) : Option Nat := if farOpen s core line then some line else none

/-- An open miss of the line under a write of its core that the home has applied: the fill gives no older bytes of the core's own
(R144, R234). -/
def coverMiss (w : HomeWrite) (c : Core) : Core :=
  { c with misses := c.misses.map fun m =>
      if m.line == w.line then
        let v := underWrite ⟨m.data, m.tags, m.poison⟩ w
        { m with data := v.data, tags := v.tags, poison := v.poison }
      else m }

/-- A request for a line whose miss is open: it joins the miss within 8 clk of its opening and waits for the fill later
(R144, R168). -/
def joinMiss (s : State) (core line : Nat) : State :=
  let clk := coreClk s core
  modCore s core fun c =>
    { c with misses := c.misses.map fun m =>
        if m.line != line || !m.share then m else if clk < m.opened + 8 then { m with joined := m.joined + 1 } else { m with late := m.late + 1 } }

/-- Does its home's L2 not hold a line? -/
def outsideL2 (s : State) (line : Nat) : Bool := (sfind line (getDie s (homeDie (line * 64))).l2).isNone

/-- Does a line stand neither in a core's L1 nor in its home's L2 (R179)? -/
def missesL2 (s : State) (core line : Nat) : Bool := (sfind line (getCore s core).l1).isNone && outsideL2 s line

/-- A miss is opened; L1_FILL closes it (R144). While a core's 64 entries are taken, the request goes out without one, and no later
request shares its fill. DESIGN CHOICE, log 31. -/
def openMiss (s : State) (core line ctx sig : Nat) (far : Bool) (v : LineView) : State :=
  let clk := coreClk s core
  modCore s core fun c =>
    let entry := decide ((c.misses.filter Miss.entry).length < 64)
    { c with misses := c.misses ++
        [{ line, ctx, sig, opened := clk, joined := 1, far, entry, share := entry, data := v.data, tags := v.tags, poison := v.poison }] }

/-- A request of the core that bypasses L1 is on its way to the home of a line; L1_FILL closes it (R167, R179, R272). -/
def openRequest (s : State) (core line ctx : Nat) : State :=
  let clk := coreClk s core
  let far := outsideL2 s line
  modCore s core fun c =>
    { c with misses := c.misses ++ [{ line, ctx, sig := 0, opened := clk, joined := 1, far, entry := false, share := false }] }

/-- What a load of a line by a core gives: the L1 copy, the fill of the open miss, or what a fill would bring. -/
def loadView (s : State) (core line : Nat) : LineView :=
  match sfind line (getCore s core).l1, missOf s core line with
  | some l, _ => ⟨l.data, l.tags, l.poison⟩
  | none, some m => overOwn s core line ⟨m.data, m.tags, m.poison⟩
  | none, none => fillView s core line

/-- An ordinary read of a line through L1: a hit; a request for a line whose miss is open, which shares its fill; or a fill
from the home that is checked. A fill is installed unless `alloc` is false (R144, R150, R354). -/
def loadLine (s : State) (core line cls ctx : Nat) (pc : Word) (alloc lu : Bool) : State :=
  match sfind line (getCore s core).l1, missOf s core line with
  | some l, _ => hitL1 (joinMiss s core line) core l lu
  | none, some _ =>
    let s1 := joinMiss s core line
    if alloc then installL1 s1 core line cls ctx (sigL1 pc) lu (loadView s1 core line) else s1
  | none, none =>
    let s1 := readHome (spendToken s core) line cls ctx (some (sigL2 pc)) lu
    let s2 := openMiss s1 core line ctx (sigL1 pc) (missesL2 s core line) (homeView s1 line)
    if alloc then installL1 s2 core line cls ctx (sigL1 pc) lu (fillView s2 core line) else s2

/-- Write back the FIFO's head: a line's written bytes leave for its home, a marker is reached (R145, R237). -/
def popFifo (s : State) (core : Nat) : State :=
  match (getCore s core).fifo with
  | [] => s
  | .marker _ :: rest => modCore s core fun c => { c with fifo := rest }
  | .line n :: rest =>
    let s1 := modCore s core fun c => { c with fifo := rest }
    match sfind n (getCore s1 core).l1 with
    | none => s1
    | some l =>
      let s2 := sendWriteBack s1 core l
      modCore s2 core fun c => { c with l1 := sput n { l with dirty := 0 } c.l1 }

/-- Enter a line or a marker in the FIFO; a full FIFO writes its head back first. -/
def pushFifo (s : State) (core : Nat) (e : FifoEntry) : State :=
  let s1 := if (getCore s core).fifo.length ≥ 256 then popFifo s core else s
  modCore s1 core fun c => { c with fifo := c.fifo ++ [e] }

/-- An ordinary store to bytes of one line, performed in L1 (R144, R145): it installs the line and makes it dirty. `tags` are
the tags that granules written whole take. -/
def storeLine (s : State) (core line cls ctx : Nat) (pc : Word) (mask : BitVec 64) (d : LineData) (tags : BitVec 4) :
    State :=
  let s1 := loadLine s core line cls ctx pc true false
  match sfind line (getCore s1 core).l1 with
  | none => s1
  | some l =>
    let dirty := l.dirty ||| mask
    let l' := { l with data := mergeLine mask d l.data, dirty, tags := mergeTags mask tags l.tags,
                       poison := l.poison && !(dirty = fullMask) }
    let s2 := modCore s1 core fun c => { c with l1 := sput line l' c.l1 }
    if l.dirty = 0 then pushFifo s2 core (.line line) else s2

/-- Send a stamped home write of bytes of one line by the instruction at `pc` (R147, R244, R287). -/
def sendHomeWrite (s : State) (core line cls ctx : Nat) (pc : Word) (mask : BitVec 64) (d : LineData) (tags : BitVec 4)
    (poison : Bool) : State :=
  let die := stampDie core line
  let v := bumpClock (getDie s die).clock die
  let (id, s1) := takeFresh (modDie (spendToken s core) die fun x => { x with clock := v, unacked := x.unacked + 1 })
  { s1 with homeWrites := s1.homeWrites ++
      [{ id, die, core, stamp := some v, line, data := d, mask, tags, poison, cls, ctx, sent := coreClk s core
         sig := some (sigL2 pc) }] }

/-- Send the bytes of an ordinary store to a page with PSN 1: they reach the home as a poisoned write (R140, R355). -/
def sendPoisoned (s : State) (core line cls ctx : Nat) (mask : BitVec 64) (d : LineData) : State :=
  let (id, s1) := takeFresh (spendToken s core)
  { s1 with homeWrites := s1.homeWrites ++
      [{ id, die := dieOfCore core, core, stamp := none, line, data := d, mask, tags := 0, poison := true, cls, ctx
         sent := coreClk s core }] }

/-- Send a renewal as a stamped home write of the line that holds the tile's descriptor (R244, R366). -/
def sendRenewal (s : State) (core line ctx : Nat) (c : Cap) (n : Nat) : State :=
  let die := stampDie core line
  let v := bumpClock (getDie s die).clock die
  let (id, s1) := takeFresh (modDie (spendToken s core) die fun x => { x with clock := v, unacked := x.unacked + 1 })
  { s1 with homeWrites := s1.homeWrites ++
      [{ id, die, core, stamp := some v, line, data := 0, mask := 0, tags := 0, poison := false, cls := 2, ctx
         renew := some (c, n), sent := coreClk s core }] }

/-- The invalidation of an acquire on one line: a line that the core has written whole stays, the written bytes of another go
back (R398). -/
def acquireLine (s : State) (core : Nat) (l : L1Line) : State :=
  if l.dirty = fullMask then s else ejectLine s core l.line

/-- Does a scope reach no further than the core, so that its releases and acquires move nothing (R159)? -/
def narrowScope (scope : Nat) : Bool := scope == 1 || scope == 2 || scope == 3

/-- A core has released the writes of its rounds to tiles at cluster scope or wider (R313). -/
def publishViews (core : Nat) (c : Cluster) : Cluster :=
  { c with views := c.views.map fun v => if v.lead = core then { v with published := true } else v }

/-- A core has acquired what was released: it sees the writes of published rounds (R313, R338). -/
def acquireViews (core : Nat) (c : Cluster) : Cluster :=
  { c with views := (c.views.map fun v => if v.published then { v with hidden := ndel core v.hidden } else v).filter fun v =>
      !v.hidden.isEmpty }

/-- Change the tile views of a core's cluster, if it has any. -/
def modViews (s : State) (core : Nat) (f : Cluster → Cluster) : State :=
  if (getCluster s (clusterOfCore core)).views.isEmpty then s else modCluster s (clusterOfCore core) f

/-- The invalidation of an ACQ of cluster scope or wider (R159, R398); narrower scopes invalidate nothing. Later loads share no
fill that is older. -/
def acquire (s : State) (core scope : Nat) : State :=
  if narrowScope scope then s
  else
    modViews (modCore ((getCore s core).l1.foldl (fun s e => acquireLine s core e.2) s) core (unshare fun _ => true)) core
      (acquireViews core)

/-- Are the write-backs that the invalidation of an ACQ has sent applied (R398)? -/
def acquired (s : State) (core scope : Nat) : Bool :=
  narrowScope scope || !(s.homeWrites.any fun w => w.core == core && w.stamp.isNone && !w.applied)

/-- Are all of the core's home writes and write-backs applied (R159, R241)? -/
def drained (s : State) (core : Nat) : Bool := !(s.homeWrites.any fun w => w.core == core && !w.applied)

/-- The outcome of a release: done, or waiting on its marker. -/
structure ReleaseStep where
  state : State
  finished : Bool
  marker : Option Nat

/-- A release of a scope (R159): thread, cast and core scope complete at the commit; wider ones place a marker and complete
when the FIFO has drained to it and the write-backs are applied; system scope also writes far lines through. -/
def release (s : State) (core scope : Nat) (marker : Option Nat) : ReleaseStep :=
  if narrowScope scope then ⟨s, true, none⟩
  else
    let finish (s : State) : ReleaseStep :=
      ⟨modViews (if scope = 6 then writeThrough s else s) core (publishViews core), true, none⟩
    match marker with
    | some id =>
      if (getCore s core).fifo.contains (.marker id) || !drained s core then ⟨s, false, some id⟩ else finish s
    | none =>
      if (getCore s core).fifo.isEmpty && drained s core then finish s
      else
        let (id, s1) := takeFresh s
        ⟨pushFifo s1 core (.marker id), false, some id⟩

end Sys2Proof.Machine
end

