-- ==== Sys2Proof/Machine/Caps.lean ====
section
/-! DEFINITION. Capabilities, object tables, translation, page requests and host events (R127 to R141, R357, R379, R383,
R384). -/

namespace Sys2Proof.Machine

/-! ### Capabilities (R127, R128) -/

def capLower (c : Cap) : Nat := field c.toNat 39 0
def capUpper (c : Cap) : Nat := field c.toNat 79 40
def capOid (c : Cap) : Nat := field c.toNat 103 80
def capRights (c : Cap) : Nat := field c.toNat 111 104
def capLc (c : Cap) : Nat := field c.toNat 113 112
def capReserved (c : Cap) : Nat := field c.toNat 127 114

/-- The rights by bit: read 0, write 1, execute 2, atomic 3, store-capability 4, class-cross 5, scratch 6, shared-volatile
7 (R128). -/
def capHas (c : Cap) (right : Nat) : Bool := (capRights c).testBit right

/-- A capability from its fields (R127). -/
def mkCap (lower upper oid rights lc : Nat) : Cap :=
  BitVec.ofNat 128 (lower % 2 ^ 40 + (upper % 2 ^ 40) <<< 40 + (oid % 2 ^ 24) <<< 80 + (rights % 256) <<< 104
    + (lc % 4) <<< 112)

/-- The rank of a class (R129). -/
def classRank (cls : Nat) : Nat :=
  match cls % 4 with
  | 0 => 0
  | 2 => 2
  | _ => 1

/-- May a capability of this least class reach a region of class `cls` (R129)? -/
def classLegal (lc cls : Nat) : Bool := classRank cls ≥ classRank lc && ((cls == 3) == (lc == 3))

/-! ### Objects (R134) -/

/-- An entry of a function's object table. -/
def getObject (s : State) (fn oid : Nat) : BitVec 128 := sget 0 (fn * 2 ^ 24 + oid) s.objects

/-- Replace an entry. -/
def setObject (s : State) (fn oid : Nat) (e : BitVec 128) : State :=
  { s with objects := sset 0 (fn * 2 ^ 24 + oid) e s.objects }

def objSize (e : BitVec 128) : Nat := field e.toNat 127 88
def objRoot (e : BitVec 128) : Nat := field e.toNat 87 48 * 4096
def objNext (e : BitVec 128) : Nat := field e.toNat 47 32
def objTier (e : BitVec 128) : Nat := field e.toNat 7 6
def objClass (e : BitVec 128) : Nat := field e.toNat 5 4
def objPaged (e : BitVec 128) : Bool := e.toNat.testBit 1
def objValid (e : BitVec 128) : Bool := e.toNat.testBit 0

/-- The page size of an extent-mapped object (R136). -/
def tierPage (tier : Nat) : Nat :=
  match tier with
  | 0 => 2 ^ 21
  | 1 => 2 ^ 16
  | _ => 2 ^ 12

/-- A little-endian number that homes hold at a key. -/
def homeNat (s : State) (key n : Nat) : Nat := ofBytes (homeBytes s key n)

/-- What a page is (R135, R137, R140). -/
inductive PageState where
  | valid (e : TlbEntry)
  | migrating
  | absent
  /-- The address names no byte of its tier. -/
  | nowhere
  deriving DecidableEq, Repr

/-- A valid page from its physical address, or none of its tier. -/
def pageAt (fn ctx oid off size pa tier cls : Nat) (mig psn : Bool) : PageState :=
  if mig then .migrating
  else
    match physKey tier pa with
    | some phys => .valid { fn, ctx, oid, off, size, phys, tier, cls, poisoned := psn }
    | none => .nowhere

/-- The extent that holds an offset, among the `n` entries from `key` (R135). -/
def findExtent (s : State) (fn ctx oid tier cls off : Nat) : Nat → Nat → PageState
  | 0, _ => .absent
  | n + 1, key =>
    let x := homeNat s key 16
    let start := field x 127 88
    let page := tierPage tier
    if start ≤ off ∧ off < start + field x 47 24 * page then
      let first := off / page * page
      pageAt fn ctx oid first page (field x 87 48 * 4096 + (first - start)) tier cls (x.testBit 1) (x.testBit 0)
    else findExtent s fn ctx oid tier cls off n (key + 16)

/-- The walk of a paged object's table: shift and index width of each level (R137). -/
def walkTable (s : State) (fn ctx oid tier cls off : Nat) : List (Nat × Nat) → Nat → PageState
  | [], _ => .absent
  | (sh, w) :: rest, table =>
    let x := homeNat s (table + 8 * (off / 2 ^ sh % 2 ^ w)) 8
    if !x.testBit 63 then .absent
    else if x.testBit 62 then
      let size := 2 ^ sh
      pageAt fn ctx oid (off / size * size) size (field x 51 12 * 4096) tier cls (x.testBit 61) (x.testBit 60)
    else walkTable s fn ctx oid tier cls off rest (field x 51 12 * 4096)

/-- The levels of R137. -/
def tableLevels : List (Nat × Nat) := [(30, 10), (21, 9), (16, 5), (12, 4)]

/-- Where an offset of an object lies, by the tables as their homes hold them. DEDUCED, log 6. -/
def walkObject (s : State) (fn ctx oid off : Nat) : PageState :=
  let e := getObject s fn oid
  if objPaged e then walkTable s fn ctx oid (objTier e) (objClass e) off tableLevels (objRoot e)
  else findExtent s fn ctx oid (objTier e) (objClass e) off (objNext e) (objRoot e)

/-- The first byte of the page that a page request for an offset names (R140; DESIGN CHOICE, log 27). -/
def pageKeyOf (s : State) (fn oid off : Nat) : PageKey :=
  let e := getObject s fn oid
  let size := if objPaged e then 4096 else tierPage (objTier e)
  { fn, oid, off := off / size * size }

/-- Does a translation hold this offset? -/
def tlbHolds (fn ctx oid off : Nat) (e : TlbEntry) : Bool :=
  e.fn == fn && e.ctx == ctx && e.oid == oid && decide (e.off ≤ off ∧ off < e.off + e.size)

/-- A translation moved or installed at the front of a list of at most `n` (R138): the victim is the oldest last use. DEDUCED, log 7. -/
def tlbFront (n : Nat) (e : TlbEntry) (l : List TlbEntry) : List TlbEntry := (e :: l.filter fun x => !(x == e)).take n

/-- Translate an offset for a core (R138): the first level, the second level, then the walk. -/
def translate (s : State) (core fn ctx oid off : Nat) : PageState × State :=
  let die := dieOfCore core
  match (getCore s core).tlb.find? (tlbHolds fn ctx oid off) with
  | some e => (.valid e, modCore s core fun c => { c with tlb := tlbFront 192 e c.tlb })
  | none =>
    match (getDie s die).tlb.find? (tlbHolds fn ctx oid off) with
    | some e =>
      let s1 := modCore s core fun c => { c with tlb := tlbFront 192 e c.tlb }
      (.valid e, modDie s1 die fun d => { d with tlb := tlbFront 16384 e d.tlb })
    | none =>
      match walkObject s fn ctx oid off with
      | .valid e =>
        let s1 := modCore s core fun c => { c with tlb := tlbFront 192 e c.tlb }
        (.valid e, modDie s1 die fun d => { d with tlb := tlbFront 16384 e d.tlb })
      | p => (p, s)

/-- The physical key of an offset on its page. -/
def pageByte (e : TlbEntry) (off : Nat) : Nat := e.phys + (off - e.off)

/-! ### Bytes of objects -/

/-- Who reads or writes bytes of objects: the function whose table names them, the context that answers for them, and the core
whose TLBs translate for it (R138). The launch front end, the host and peers have no core and walk the tables. DEDUCED, log 7. -/
structure Port where
  fn : Nat
  ctx : Nat
  core : Option Nat
  deriving DecidableEq, Repr

/-- The port of a core for the launch it holds. -/
def corePort (s : State) (core : Nat) : Port := { fn := coreFn s core, ctx := coreCtx s core, core := some core }

/-- A port outside the cores, for a function. -/
def outerPort (fn : Nat) : Port := { fn, ctx := 0, core := none }

/-- What a port finds at an offset of an object. -/
def lookup (s : State) (q : Port) (oid off : Nat) : PageState :=
  match q.core with
  | none => walkObject s q.fn q.ctx oid off
  | some core => (translate s core q.fn q.ctx oid off).1

/-- A port uses the translation of an offset (R138). -/
def visit (s : State) (q : Port) (oid off : Nat) : State :=
  match q.core with
  | none => s
  | some core => (translate s core q.fn q.ctx oid off).2

/-- The physical key of a byte of an object. -/
def resolve (s : State) (q : Port) (oid off : Nat) : Option Nat :=
  let e := getObject s q.fn oid
  if objValid e && off < objSize e then
    match lookup s q oid off with
    | .valid p => some (pageByte p off)
    | .migrating => none
    | .absent => none
    | .nowhere => none
  else none

/-- Bytes of an object as their homes hold them, if every page of them is valid. -/
def readObject (s : State) (q : Port) (oid off n : Nat) : Option (List Byte) :=
  (span off n).foldr (fun o acc =>
    match acc, resolve s q oid o with
    | some bs, some k => some (homeByte s k :: bs)
    | _, _ => none) (some [])

/-- Is some byte of the range in a poisoned line or on a poisoned page? -/
def objectPoisoned (s : State) (q : Port) (oid off n : Nat) : Bool :=
  (span off n).any fun o =>
    match lookup s q oid o with
    | .valid p => p.poisoned || nmem (pageByte p o / 64) s.poison
    | .migrating => false
    | .absent => false
    | .nowhere => false

/-- Split a range at line boundaries. -/
def chunksOf : Nat → Nat → Nat → List (Nat × Nat)
  | 0, _, _ => []
  | fuel + 1, off, n =>
    if n = 0 then []
    else
      let len := min n (64 - off % 64)
      (off, len) :: chunksOf fuel (off + len) (n - len)

/-- The parts of a range. -/
def rangeChunks (off n : Nat) : List (Nat × Nat) := chunksOf (n / 64 + 2) off n

/-- POFF of a Fugitive object, as its header holds it (R360). -/
def poolStart (s : State) (q : Port) (oid : Nat) : Nat :=
  match readObject s q oid 0 64 with
  | some bs => field (ofBytes bs) 279 240
  | none => 0

/-- The class of a part of an object: the bookkeeping of a Fugitive object is Lightfast (R352, R360). -/
def partClass (s : State) (q : Port) (oid off : Nat) : Nat :=
  let cls := objClass (getObject s q.fn oid)
  if cls = 3 ∧ off < poolStart s q oid then 2 else cls

/-- Read the lines of a range of an object at their homes, with their checks (R354). -/
def checkRange (s : State) (q : Port) (oid off n : Nat) : State :=
  (rangeChunks off n).foldl (fun s c =>
    match resolve s q oid c.1 with
    | some k => readHome (visit s q oid c.1) (k / 64) (partClass s q oid c.1) q.ctx none false
    | none => s) s

/-- Write the bytes of some parts of an object at their homes; a part without a valid page is not written. -/
def writeParts (s : State) (q : Port) (oid : Nat) (poison : Bool) : List (Nat × Nat) → List Byte → State
  | [], _ => s
  | c :: rest, bs =>
    let s1 := match resolve s q oid c.1 with
      | none => s
      | some k =>
        writeHome (visit s q oid c.1) (k / 64) (byteMask (k % 64) c.2) (placeBytes (k % 64) (bs.take c.2)) 0 poison
          (partClass s q oid c.1) q.ctx
    writeParts s1 q oid poison rest (bs.drop c.2)

/-- Write bytes of an object at their homes, line by line in ascending order. -/
def writeObject (s : State) (q : Port) (oid off : Nat) (bs : List Byte) (poison : Bool := false) : State :=
  writeParts s q oid poison (rangeChunks off bs.length) bs

/-- Is every page of a range valid? -/
def rangeMapped (s : State) (q : Port) (oid off n : Nat) : Bool :=
  (rangeChunks off n).all fun c => (resolve s q oid c.1).isSome

/-- Write a dirty far line through to its memory (R146, R159). -/
def throughLine (s : State) (line : Nat) : State :=
  let die := homeDie (line * 64)
  match sfind line (getDie s die).l2 with
  | some l =>
    if l.dirty && isFarLine line then
      modDie (putMemLine s line l.data l.tags) die fun d => { d with l2 := sput line { l with dirty := false } d.l2 }
    else s
  | none => s

/-- Write bytes of an object and release them at system scope (R159, R384). -/
def writeSystem (s : State) (q : Port) (oid off : Nat) (bs : List Byte) : State :=
  (rangeChunks off bs.length).foldl (fun s c =>
    match resolve s q oid c.1 with
    | some k => throughLine s (k / 64)
    | none => s) (writeObject s q oid off bs)

/-! ### Host events (R383, R384) -/

/-- Is a ring's size exponent one that R379 gives? A ring of another size is not used (DESIGN CHOICE, log 64). -/
def ringLog (n : Nat) : Bool := decide (4 ≤ n ∧ n ≤ 16)

/-- Room in a function's event ring? -/
def eventRoom (f : Func) : Bool := ringLog f.evLog.toNat && (f.evTail - f.evHead).toNat < 2 ^ f.evLog.toNat

/-- The object and the offset of a function's next event. -/
def eventPlace (f : Func) : Nat × Nat :=
  (field f.evBase.toNat 63 40, field f.evBase.toNat 39 0 + 32 * (f.evTail.toNat % 2 ^ f.evLog.toNat))

/-- Write the waiting events that the ring has room for, oldest first, each released at system scope; MSI-X vector 0 fires at
each. The completion event of a command, of type 0x01, is a release, which shows the command's effects with it (R384). An event whose
place in the ring has no valid page waits. -/
def drainEvents (s : State) (fn : Nat) : Nat → State
  | 0 => s
  | n + 1 =>
    let f := getFunc s fn
    match f.events with
    | [] => s
    | ev :: rest =>
      let at' := eventPlace f
      if !eventRoom f || !rangeMapped s (outerPort fn) at'.1 at'.2 32 then s
      else
        let s1 := writeSystem s (outerPort fn) at'.1 at'.2 (toBytes 32 ev.toNat)
        let s2 := if ev.toNat % 256 = 0x01 then writeThrough s1 else s1
        drainEvents (setFunc s2 fn { f with events := rest, evTail := f.evTail + 1, msix := f.msix + 1 }) fn n

/-- An event of a function: written when the ring has room, else waiting. -/
def postEvent (s : State) (fn type status tag ctx detail : Nat) : State :=
  let ev := BitVec.ofNat 256 (type % 256 + (status % 256) <<< 8 + (tag % 65536) <<< 16 + (ctx % 2 ^ 32) <<< 32
    + detail <<< 64)
  let s1 := modFunc s fn fun f => { f with events := f.events ++ [ev] }
  drainEvents s1 fn (getFunc s1 fn).events.length

/-- {OID, offset} as events, FADDR and packets carry it. -/
def oidOff (oid off : Nat) : Nat := (oid % 2 ^ 24) <<< 40 + off % 2 ^ 40

/-- An access raises a page request, and the page awaits the host's answer (R140, R141). -/
def raisePage (s : State) (k : PageKey) (ctx : Nat) : State :=
  postEvent { s with pageRequests := if s.pageRequests.contains k then s.pageRequests else s.pageRequests ++ [k] } k.fn 0x03 0 0 ctx
    (oidOff k.oid k.off)

/-- What waits for a page and looks for it again and again raises its request once, while the host has not answered (R140; DESIGN
CHOICE, log 85). -/
def requestPage (s : State) (k : PageKey) (ctx : Nat) : State := if s.pageRequests.contains k then s else raisePage s k ctx

end Sys2Proof.Machine
end

