-- ==== Sys2Proof/Machine/Fugitive.lean ====
section
/-! DEFINITION. Fugitive regions: header, descriptors, rungs, the element view, renewals and the fader (R359 to R367,
R369, R370, R372, R373, R378). -/

namespace Sys2Proof.Machine

/-- A valid region header (R360). -/
structure FugHdr where
  raw : Nat
  stepn : Nat
  ntile : Nat
  a1 : Nat
  a2 : Nat
  a3 : Nat
  doff : Nat
  boff : Nat
  poff : Nat
  nchunk : Nat
  nfree : Nat
  deriving DecidableEq, Repr

/-- The fields of a header. -/
def fugFields (h : Nat) : FugHdr :=
  { raw := h, stepn := field h 63 0, ntile := field h 87 64, a1 := field h 109 96, a2 := field h 125 112,
    a3 := field h 141 128, doff := field h 199 160, boff := field h 239 200, poff := field h 279 240,
    nchunk := field h 311 280, nfree := field h 343 312 }

/-- A number in an object as its home holds it; 0 where a page is missing. -/
def fugNat (s : State) (q : Port) (oid off n : Nat) : Nat :=
  match readObject s q oid off n with
  | some bs => ofBytes bs
  | none => 0

/-- The 1 bits of a number below bit `n`. -/
def countBits (x n : Nat) : Nat := ((List.range n).filter fun i => x.testBit i).length

/-- Bytes of the free bitmap. -/
def bitmapBytes (f : FugHdr) : Nat := ceilDiv f.nchunk 8

/-- The conditions of R360 on a header that stands in an object of this size and page size. -/
def fugFieldsValid (f : FugHdr) (size page : Nat) : Bool :=
  field f.raw 511 344 == 0 && field f.raw 159 142 == 0 && field f.raw 127 126 == 0 && field f.raw 111 110 == 0
    && field f.raw 95 88 == 0 && f.ntile ≥ 1 && f.doff % 64 == 0 && f.boff % 64 == 0 && f.poff % page == 0
    && f.doff + 16 * f.ntile ≤ f.poff && f.boff + bitmapBytes f ≤ f.poff && f.poff + 128 * f.nchunk ≤ size

/-- The header of a region, if it is valid (R360). -/
def fugHeader (s : State) (q : Port) (oid : Nat) : Option FugHdr :=
  let o := getObject s q.fn oid
  match readObject s q oid 0 64 with
  | none => none
  | some bs =>
    let f := fugFields (ofBytes bs)
    if fugFieldsValid f (objSize o) (tierPage (objTier o))
        && countBits (fugNat s q oid f.boff (bitmapBytes f)) f.nchunk == f.nfree then some f
    else none

/-- Write fields of the header back. -/
def fugPutHeader (s : State) (q : Port) (oid h : Nat) : State := writeObject s q oid 0 (toBytes 64 h)

/-- A tile descriptor (R361). -/
def fugDesc (s : State) (q : Port) (oid : Nat) (f : FugHdr) (n : Nat) : Nat := fugNat s q oid (f.doff + 16 * n) 16

/-- Replace a tile descriptor. -/
def fugPutDesc (s : State) (q : Port) (oid : Nat) (f : FugHdr) (n d : Nat) : State :=
  writeObject s q oid (f.doff + 16 * n) (toBytes 16 d)

def descSt (d : Nat) : Nat := field d 15 14
def descBase (d : Nat) : Nat := field d 63 24
def descAge (d : Nat) : Nat := field d 13 0
def descRnw (d : Nat) : Bool := d.testBit 16
def descNxt (d : Nat) : Nat := field d 23 21
def descTgt (d : Nat) : Nat := field d 20 19

/-- The rung of block `b` (R361). -/
def descRung (d b : Nat) : Nat := if b < descNxt d then descTgt d else descSt d

/-- The scale of block `b`. -/
def descScale (d b : Nat) : Nat := field d (64 + 8 * b + 7) (64 + 8 * b)

/-- Bytes of a block in a rung (R362). -/
def rungBytes (rung : Nat) : Nat :=
  match rung with
  | 0 => 64
  | 1 => 32
  | 2 => 16
  | _ => 0

/-- Chunks of a tile in a rung (R362). -/
def rungChunks (rung : Nat) : Nat :=
  match rung with
  | 0 => 4
  | 1 => 2
  | 2 => 1
  | _ => 0

/-- The object offset of block `b`'s bytes in a rung. -/
def blockOff (f : FugHdr) (d b rung : Nat) : Nat := f.poff + 128 * descBase d + rungBytes rung * b

/-- The element format of a rung. -/
def rungFmt (rung : Nat) : Fmt :=
  match rung with
  | 0 => bf16
  | 1 => .e4m3
  | _ => .e2m1

/-- The 32 codes of a block's bytes. -/
def blockCodes (rung : Nat) (bs : List Byte) : List Nat :=
  let x := ofBytes bs
  let w := rungBytes rung / 4
  (List.range 32).map fun j => field x (w * j + w - 1) (w * j)

/-- The bytes of 32 codes. -/
def codeBytes (rung : Nat) (codes : List Nat) : List Byte :=
  let w := rungBytes rung / 4
  toBytes (rungBytes rung) (codes.foldr (fun c acc => c % 2 ^ w + acc <<< w) 0)

/-- The exact value of a code of a block (R364). -/
def blockValue (rung scl code : Nat) : FVal :=
  if rung = 0 then decodeFmt bf16 code else rescale scl (decodeFmt (rungFmt rung) code)

/-- The 64 view bytes of a block (R361, R364). -/
def viewBytes (rung scl : Nat) (bs : List Byte) : List Byte :=
  if rung = 0 then bs
  else codeBytes 0 ((blockCodes rung bs).map fun c => (roundF bf16 .rne (blockValue rung scl c) 0).bits)

/-- emax_f of a rung's format (R363). -/
def rungEmax (rung : Nat) : Int := if rung = 1 then 8 else 2

/-- A block's values re-encoded to the next rung: scale and codes (R363). -/
def encodeBlock (rung : Nat) (vals : List FVal) : Nat × List Nat :=
  let scl := blockScale (rungEmax rung) vals
  if scl = 0xFF then (0xFF, vals.map fun _ => 0)
  else (scl, vals.map fun v =>
    match convert (rungFmt rung) .rne 0 (unscale scl v) 0 with
    | some r => r.bits
    | none => 0)

/-- A block re-encoded rung by rung, from rung `r` down `n` rungs (R363). -/
def lowerBlock (r : Nat) (scl : Nat) (codes : List Nat) : Nat → Nat × List Nat
  | 0 => (scl, codes)
  | n + 1 =>
    let e := encodeBlock (r + 1) (codes.map (blockValue r scl))
    lowerBlock (r + 1) e.1 e.2 n

/-- What a block of the element view gives: its bytes and whether a line of it is poisoned; none where it is absent. -/
structure BlockView where
  state : State
  rung : Nat
  bytes : List Byte
  poison : Bool

/-- A request of a core for part of a region leaves its network port (R269); other ports have none. -/
def spendPort (s : State) (q : Port) : State :=
  match q.core with
  | some core => spendToken s core
  | none => s

/-- Read a block in one step with its descriptor at the home, with the checks of its lines (R354, R365), for an instruction with
the signature `sig` (R287). -/
def readBlock (s : State) (q : Port) (oid : Nat) (f : FugHdr) (n b : Nat) (sig : Option Nat := none) : BlockView :=
  let d := fugDesc s q oid f n
  let rung := descRung d b
  if rung = 3 then ⟨s, 3, List.replicate 64 0, false⟩
  else
    let off := blockOff f d b rung
    match resolve s q oid off with
    | none => ⟨s, 3, List.replicate 64 0, false⟩
    | some key =>
      let s1 := readHome (visit s q oid off) (key / 64) 3 q.ctx sig false
      let bs := homeBytes s1 key (rungBytes rung)
      ⟨s1, rung, viewBytes rung (descScale d b) bs, objectPoisoned s1 q oid off (rungBytes rung)⟩

/-! ### The pages and the lines of a region -/

/-- The first of some object offsets whose page is not valid, with what it is. -/
def firstMissing (s : State) (q : Port) (oid : Nat) : List Nat → Option (Nat × PageState)
  | [] => none
  | o :: rest =>
    match lookup s q oid o with
    | .valid _ => firstMissing s q oid rest
    | p => some (o, p)

/-- One offset in each 4 KiB of a byte range, and its last byte. -/
def pageSamples (lo n : Nat) : List Nat :=
  if n = 0 then [] else (List.range (ceilDiv n 4096)).map (fun i => lo + 4096 * i) ++ [lo + n - 1]

/-- A port uses the translations of some offsets of an object (R138). -/
def visitAll (s : State) (q : Port) (oid : Nat) (os : List Nat) : State := os.foldl (fun s o => visit s q oid o) s

/-- Offsets of the header and the bitmap of a region, as far as the header's fields place it. -/
def fugHeaderOffsets (s : State) (q : Port) (oid : Nat) : List Nat :=
  match readObject s q oid 0 64 with
  | none => [0]
  | some bs =>
    let f := fugFields (ofBytes bs)
    let o := getObject s q.fn oid
    if fugFieldsValid f (objSize o) (tierPage (objTier o)) then 0 :: pageSamples f.boff (bitmapBytes f) else [0]

/-- Offsets of a tile's descriptor and of a block's bytes. -/
def fugTileOffsets (s : State) (q : Port) (oid : Nat) (f : FugHdr) (n b : Nat) : List Nat :=
  let d := fugDesc s q oid f n
  [f.doff + 16 * n] ++ (if descRung d b = 3 then [] else [blockOff f d b (descRung d b)])

/-- Offsets of a tile's descriptor and of block `b`'s bytes, as they stand and as rung `r` places them. -/
def fugFadeOffsets (s : State) (q : Port) (oid : Nat) (f : FugHdr) (n b r : Nat) : List Nat :=
  let d := fugDesc s q oid f n
  fugTileOffsets s q oid f n b ++ (if r = 3 ∨ r ≤ descSt d then [] else [blockOff f d b r])

/-- The line at which a block of a region stands, and the line of its descriptor where the block is absent. -/
def blockLine (s : State) (q : Port) (oid : Nat) (f : FugHdr) (n b : Nat) : Option Nat :=
  let d := fugDesc s q oid f n
  (resolve s q oid (if descRung d b = 3 then f.doff + 16 * n else blockOff f d b (descRung d b))).map fun k => k / 64

/-- Read the bookkeeping of a region: the lines of its header, of its bitmap and of the descriptors of tiles `[n, n + k)`, with
their checks (R352, R354, R360). -/
def readBooks (s : State) (q : Port) (oid : Nat) (f : FugHdr) (n k : Nat) : State :=
  let s1 := checkRange (checkRange s q oid 0 64) q oid f.boff (bitmapBytes f)
  checkRange s1 q oid (f.doff + 16 * n) (16 * k)

/-- Renew a tile (R366): a home write that sets AGE to 0 and RNW to 1. -/
def renewTile (s : State) (q : Port) (c : Cap) (n : Nat) : State :=
  match fugHeader s q (capOid c) with
  | none => s
  | some f =>
    if n < f.ntile then
      let d := fugDesc s q (capOid c) f n
      fugPutDesc (readBooks s q (capOid c) f n 1) q (capOid c) f n (setField (setField d 13 0 0) 16 16 1)
    else s

/-- The first page that a renewal of a tile lacks: of the header, the bitmap or the descriptor. -/
def renewMissing (s : State) (q : Port) (c : Cap) (n : Nat) : Option (Nat × PageState) :=
  match firstMissing s q (capOid c) (fugHeaderOffsets s q (capOid c)) with
  | some x => some x
  | none => match fugHeader s q (capOid c) with
    | none => none
    | some f => if n < f.ntile then firstMissing s q (capOid c) [f.doff + 16 * n] else none

/-- The first page that a write of one view byte of a region lacks. -/
def fugMissing (s : State) (q : Port) (oid e : Nat) : Option (Nat × PageState) :=
  match firstMissing s q oid (fugHeaderOffsets s q oid) with
  | some x => some x
  | none => match fugHeader s q oid with
    | none => none
    | some f =>
      if e / 512 < f.ntile then firstMissing s q oid (fugTileOffsets s q oid f (e / 512) (e / 64 % 8)) else none

/-- Write view bytes of one BF16 tile for an instruction with the signature `sig` (R287); bytes whose tile is not BF16, or whose header is not valid, are not written (R367). -/
def fugWrite (s : State) (q : Port) (oid e : Nat) (bs : List Byte) (poison : Bool := false) (sig : Option Nat := none) : State :=
  match fugHeader s q oid with
  | none => s
  | some f =>
    let n := e / 512
    let d := fugDesc s q oid f n
    if n < f.ntile ∧ descSt d = 0 then
      match resolve s q oid (f.poff + 128 * descBase d + e % 512) with
      | none => s
      | some key =>
        writeHome (readBooks s q oid f n 1) (key / 64) (byteMask (key % 64) bs.length) (placeBytes (key % 64) bs) 0 poison 3
          q.ctx sig
    else s

/-- Add to STEPBASE (R373). -/
def addSteps (s : State) (ctx steps faded : Nat) : State :=
  modContext s ctx fun c =>
    let x := c.stepbase.toNat
    { c with stepbase := BitVec.ofNat 64 (((x / 2 ^ 32 + steps) % 2 ^ 32) * 2 ^ 32 + (x + faded) % 2 ^ 32) }

/-- Set or clear bitmap bits of chunks `[c, c + n)` and change NFREE by their number (R365, R370). -/
def fugChunks (s : State) (q : Port) (oid : Nat) (f : FugHdr) (c n : Nat) (free : Bool) : State :=
  if n = 0 then s
  else
    let s1 := (span c n).foldl (fun s i =>
      let x := fugNat s q oid (f.boff + i / 8) 1
      writeObject s q oid (f.boff + i / 8) (toBytes 1 (setField x (i % 8) (i % 8) (b2n free)))) s
    let h := fugNat s1 q oid 0 64
    let k := field h 343 312
    fugPutHeader s1 q oid (setField h 343 312 (if free then k + n else k + 2 ^ 32 - n))

/-- Re-encode block `b` of a tile to rung `r` (R363, R365, R372, R378): codes, scale and NXT in one step; the last block
also gives the tile its new rung and frees the chunks it leaves. A poisoned block keeps its poison with scale 0xFF and
codes 0. The pages of both its places are mapped: the fader waits for them. -/
def fadeBlock (s : State) (q : Port) (oid : Nat) (f : FugHdr) (n b r : Nat) : State :=
  let d := fugDesc s q oid f n
  let st := descSt d
  let d1 := if b = 0 then setField d 20 19 r else d
  let step (s : State) (scl : Nat) : State :=
    let d2 := setField d1 (64 + 8 * b + 7) (64 + 8 * b) scl
    if b < 7 then fugPutDesc s q oid f n (setField d2 23 21 (b + 1))
    else
      let d3 := setField (setField (setField d2 23 21 0) 20 19 0) 15 14 r
      let s1 := fugPutDesc s q oid f n (if r = 3 then setField d3 127 64 0 else d3)
      fugChunks s1 q oid f (descBase d + rungChunks r) (rungChunks st - rungChunks r) true
  if r = 3 then step s 0
  else
    match resolve s q oid (blockOff f d b st), resolve s q oid (blockOff f d b r) with
    | some src, some dst =>
      let s1 := readHome s (src / 64) 3 q.ctx none false
      let bad := objectPoisoned s1 q oid (blockOff f d b st) (rungBytes st)
      let e := if bad then (0xFF, List.replicate 32 0)
        else lowerBlock st (descScale d b) (blockCodes st (homeBytes s1 src (rungBytes st))) (r - st)
      let bs := codeBytes r e.2
      let s2 := writeHome s1 (dst / 64) (byteMask (dst % 64) bs.length) (placeBytes (dst % 64) bs) 0 bad 3 q.ctx
      step s2 e.1
    | _, _ => s

/-- The rung that the ages of a region give a tile of age `age` (R369). -/
def fadeRung (f : FugHdr) (age : Nat) : Nat :=
  if f.a3 ≠ 0 ∧ age ≥ f.a3 then 3
  else if f.a2 ≠ 0 ∧ age ≥ f.a2 then 2
  else if f.a1 ≠ 0 ∧ age ≥ f.a1 then 1
  else 0

end Sys2Proof.Machine
end

