-- ==== Sys2Proof/Machine/AccessChecks.lean ====
section
/-! DEFINITION. Access (R129 to R131, R140, R353, R357, R360, R368): the checks of an access through a capability, in their
order, and translation with restarts. -/

namespace Sys2Proof.Machine

/-! ### Access (R131) -/

/-- What an access check gives. -/
inductive Acc (α : Type) where
  | ok (s : State) (x : α)
  | fault (f : FaultInfo)
  /-- The scene restarts when the page is valid (R140). -/
  | page (s : State) (k : PageKey)
  /-- The machine stops. -/
  | stop (f : Fault)

/-- Who makes an access and as what: the capability register that INFO names, the kind that ACC names, the opcode. -/
structure Via where
  reg : Nat
  acc : Nat
  opcode : Nat
  cwide : Bool := false
  half : Bool := false
  deriving DecidableEq, Repr

/-- A memory fault through a capability (R217, R219, R130). -/
def memFault (v : Via) (code : Nat) (c : Cap) (e : Int) (extra : Nat := 0) : FaultInfo :=
  { code, info := BitVec.ofNat 32 (v.reg + extra), opcode := v.opcode, acc := v.acc, cwide := v.cwide, half := v.half,
    faddr := BitVec.ofNat 64 (oidOff (capOid c) (wrap e 40)) }

/-- The sizes whose accesses are aligned naturally (R131). -/
def naturalSize (n : Nat) : Bool := n == 1 || n == 2 || n == 4 || n == 8 || n == 16

/-- The checks of R131 that precede translation: bounds, alignment, the object, the rights. -/
def boundsFail (s : State) (fn : Nat) (c : Cap) (e : Int) (n : Nat) (natural : Bool) : Bool :=
  let o := getObject s fn (capOid c)
  decide (e < capLower c ∨ e + n > capUpper c)
    || (natural && naturalSize n && e % (n : Int) ≠ 0)
    || !objValid o || decide (e + n > objSize o)

/-- The exact object offset of an access (R130). DEDUCED, log 41. -/
def effective (c : Cap) (off : Int) : Int := (capLower c : Int) + off

/-- Access up to translation: bounds, then every right of the list (R131). -/
def checkCap (s : State) (fn : Nat) (v : Via) (c : Cap) (off : Int) (n : Nat) (natural : Bool) (rights : List Nat) :
    Option FaultInfo :=
  let e := effective c off
  if boundsFail s fn c e n natural then some (memFault v 0x02 c e)
  else if !(rights.all (capHas c)) then some (memFault v 0x03 c e)
  else none

/-- The class that an access meets at its object (R129): host memory holds Bare data only (R353). -/
def classFail (c : Cap) (tier cls : Nat) : Bool := !classLegal (capLc c) cls || (tier == 2 && cls != 0)

/-- A page of an object that is not valid: a restart, or the bounds fault once the host has refused it (R140). -/
def missingPage {α : Type} (s : State) (fn ctx : Nat) (v : Via) (c : Cap) (e : Int) (denied : Option PageKey) (o : Nat)
    (p : PageState) : Acc α :=
  let k := pageKeyOf s fn (capOid c) o
  match p with
  | .nowhere => .stop .noSuchAddress
  | .migrating => .page s k
  | _ => if denied = some k then .fault (memFault v 0x02 c e) else .page (raisePage s k ctx) k

/-- Translate the first byte of an access of a thread and check its class (R131, R140). `denied` is the page the host has
refused to the thread. -/
def translateAccess (s : State) (core fn ctx : Nat) (v : Via) (c : Cap) (off : Int) (denied : Option PageKey) :
    Acc TlbEntry :=
  let e := effective c off
  let o := e.toNat
  match translate s core fn ctx (capOid c) o with
  | (.valid p, s1) => if classFail c p.tier p.cls then .fault (memFault v 0x04 c e) else .ok s1 p
  | (p, s1) => missingPage s1 fn ctx v c e denied o p

/-- Does the access go through a Fugitive capability to a Fugitive object (R361)? -/
def isFug (s : State) (fn : Nat) (c : Cap) : Bool :=
  let o := getObject s fn (capOid c)
  capLc c == 3 && objClass o == 3 && objValid o

/-- Access (R131) of `n` bytes of the element view, for the instructions that accept a Fugitive capability (R359, R360):
bounds with the header and its NTILE, rights, translation, class. The bookkeeping it reads is checked (R354). -/
def accessFug (s : State) (core fn ctx : Nat) (v : Via) (c : Cap) (off : Int) (n : Nat) (rights : List Nat)
    (denied : Option PageKey) : Acc FugHdr :=
  let q : Port := { fn, ctx, core := some core }
  let e := effective c off
  let oid := capOid c
  if decide (e < capLower c ∨ e + n > capUpper c) || (naturalSize n && e % (n : Int) ≠ 0) then .fault (memFault v 0x02 c e)
  else
    match firstMissing s q oid (fugHeaderOffsets s q oid) with
    | some (o, p) => missingPage s fn ctx v c e denied o p
    | none =>
      match fugHeader s q oid with
      | none => .fault (memFault v 0x02 c e)
      | some f =>
        let tile := e.toNat / 512
        if e + n > 512 * f.ntile then .fault (memFault v 0x02 c e)
        else if !(rights.all (capHas c)) then .fault (memFault v 0x03 c e)
        else
          match firstMissing s q oid (fugTileOffsets s q oid f tile (e.toNat / 64 % 8)) with
          | some (o, p) => missingPage s fn ctx v c e denied o p
          | none =>
            if objTier (getObject s fn oid) = 2 then .fault (memFault v 0x04 c e)
            else .ok (readBooks (spendPort s q) q oid f tile 1) f

/-- Access (R131) for an access within one page, by the instructions that do not accept a Fugitive capability (R368). -/
def accessOne (s : State) (core fn ctx : Nat) (v : Via) (c : Cap) (off : Int) (n : Nat) (rights : List Nat)
    (denied : Option PageKey) : Acc TlbEntry :=
  if isFug s fn c then
    match accessFug s core fn ctx v c off n rights denied with
    | .ok _ _ => .fault (memFault v 0x04 c (effective c off))
    | .fault f => .fault f
    | .page s' k => .page s' k
    | .stop f => .stop f
  else
    match checkCap s fn v c off n true rights with
    | some f => .fault f
    | none => translateAccess s core fn ctx v c off denied

/-- Is a region's header, whose pages are all valid, itself not valid (R360)? -/
def headerInvalid (s : State) (q : Port) (oid : Nat) : Bool :=
  (firstMissing s q oid (fugHeaderOffsets s q oid)).isNone && (fugHeader s q oid).isNone

/-- The checks that the copy engine's instructions make at issue (R141, R158): R131 without translation, which its port
makes later, and the class of the object, then the rights that the instruction adds. Through a Fugitive capability a header
that is not valid raises the bounds fault (R360), any other the class fault (R368); a header whose page is missing counts as
valid (DESIGN CHOICE, log 65). -/
def checkEngine (s : State) (core fn ctx : Nat) (v : Via) (c : Cap) (off : Int) (n : Nat) (rights extra : List Nat) :
    Option FaultInfo :=
  let e := effective c off
  let q : Port := { fn, ctx, core := some core }
  if isFug s fn c && headerInvalid s q (capOid c) then
    some (memFault v 0x02 c e)
  else
    match checkCap s fn v c off n false rights with
    | some f => some f
    | none =>
      let o := getObject s fn (capOid c)
      if classFail c (objTier o) (objClass o) then some (memFault v 0x04 c e)
      else if !(extra.all (capHas c)) then some (memFault v 0x03 c e)
      else if capLc c = 3 then some (memFault v 0x04 c e)
      else none

/-- The class rule of loads (R357): a region that ranks below KCLASS raises the class fault, unless the accept field admits its
rank. -/
def kclassFail (kclass accept cls : Nat) : Bool :=
  classRank cls < classRank kclass &&
    (match accept with
      | 1 => decide (classRank cls < 1)
      | 2 => false
      | _ => true)

end Sys2Proof.Machine
end

