-- ==== Sys2Proof/Machine/Bins.lean ====
section
/-! DEFINITION. Bins and drawn groups of a vector partition (R175 to R177). -/

namespace Sys2Proof.Machine

/-- Take a thread out of a partition's bins and drawn groups. -/
def unbin (th : Nat × Nat) (p : Partition) : Partition :=
  { p with
    bins := (p.bins.map fun e => (e.1, { e.2 with threads := e.2.threads.filter fun x => !(x == th) })).filter fun e =>
      !e.2.threads.isEmpty
    unfiled := p.unfiled.filter fun x => !(x == th)
    drawn := (p.drawn.map fun g => g.filter fun x => !(x == th)).filter fun g => g.length ≥ 2 }

/-- The lowest global index of a list of threads. -/
def lowestGidx (b : Playbill) (ths : List (Nat × Nat)) : Nat :=
  ((ths.map fun th => gidx b th.1 th.2).min?).getD 0

/-- When the oldest thread of a bin was filed (R177). -/
def binSince (filed : Nat × Nat → Nat) (x : Bin) : Nat := ((x.threads.map filed).min?).getD 0

/-- The bin to draw first: the oldest; of equal ages, the one whose lowest-numbered thread has the lower global index. -/
def oldestBin (b : Playbill) (filed : Nat × Nat → Nat) : Store Bin → Option (Nat × Bin)
  | [] => none
  | e :: rest =>
    match oldestBin b filed rest with
    | none => some e
    | some m =>
      let x := binSince filed m.2
      let y := binSince filed e.2
      if x < y || (x == y && lowestGidx b m.2.threads < lowestGidx b e.2.threads) then some m else some e

/-- A bin is drawn: its threads form a group, the bin is free. -/
def drawBin (p : Partition) (n : Nat) : Partition :=
  match sfind n p.bins with
  | none => p
  | some x =>
    { p with bins := sdel n p.bins, drawn := if x.threads.length ≥ 2 then p.drawn ++ [x.threads] else p.drawn }

/-- Insert a thread among threads in ascending order. -/
def insertThread (th : Nat × Nat) : List (Nat × Nat) → List (Nat × Nat)
  | [] => [th]
  | x :: rest =>
    if th.1 < x.1 || (th.1 == x.1 && th.2 < x.2) then th :: x :: rest
    else if th == x then x :: rest
    else x :: insertThread th rest

/-- File a thread under a key (R177). -/
def fileThread (b : Playbill) (filed : Nat × Nat → Nat) (p : Partition) (key : Word) (th : Nat × Nat) : Partition :=
  let p := unbin th p
  match p.bins.find? fun e => e.2.key == key with
  | some e =>
    let x := { e.2 with threads := insertThread th e.2.threads }
    let p1 := { p with bins := sput e.1 x p.bins }
    if x.threads.length ≥ b.width then drawBin p1 e.1 else p1
  | none =>
    let p1 := if p.bins.length < 32 then p
      else match oldestBin b filed p.bins with
        | some e => drawBin p e.1
        | none => p
    match (List.range 32).find? fun n => (sfind n p1.bins).isNone with
    | none => p1
    | some n =>
      let p2 := { p1 with bins := sput n { key, threads := [th] } p1.bins }
      if b.width ≤ 1 then drawBin p2 n else p2

/-- When a thread of a core was filed. -/
def filedAt (s : State) (core : Nat) (th : Nat × Nat) : Nat := (getThread s core th.1 th.2).filed

/-- The threads of a group by PC, in the order of its first thread at each. -/
def groupsByPc (pc : Nat × Nat → Word) (g : List (Nat × Nat)) : List (List (Nat × Nat)) :=
  (g.map pc).eraseDups.map fun w => g.filter fun th => pc th == w

/-- The drawn groups of a core split where their threads no longer agree on a PC (R177). -/
def splitDrawn (s : State) (core : Nat) : State :=
  let pc (th : Nat × Nat) : Word := (getThread s core th.1 th.2).pc
  modCore s core fun c =>
    { c with parts := c.parts.map fun e =>
        (e.1, { e.2 with drawn := (e.2.drawn.flatMap (groupsByPc pc)).filter fun g => g.length ≥ 2 }) }

/-- File a lane of a core. -/
def fileLane (s : State) (core cast lane : Nat) (key : Word) : State :=
  let clk := coreClk s core
  let s1 := modThread s core cast lane fun t => { t with filed := clk }
  let part := (getCast s1 core cast).part
  setPart s1 core part (fileThread (coreBill s1 core) (filedAt s1 core) (getPart s1 core part) key (cast, lane))

/-- The threads of a cast leave their bins (R177). -/
def unfileCast (p : Partition) (cast : Nat) : Partition :=
  let out := (p.bins.flatMap fun e => e.2.threads).filter fun th => th.1 == cast
  let p1 := out.foldl (fun p th => unbin th p) p
  { p1 with
    unfiled := out.foldl (fun l th => insertThread th l) p1.unfiled
    drawn := (p1.drawn.map fun g => g.filter fun th => !(th.1 == cast)).filter fun g => g.length ≥ 2 }

/-- The threads of a cast that returns to the active set are filed again under the same keys, their PCs. -/
def refileCast (s : State) (core cast : Nat) : State :=
  let part := (getCast s core cast).part
  let p := getPart s core part
  let back := p.unfiled.filter fun th => th.1 == cast
  let s1 := setPart s core part { p with unfiled := p.unfiled.filter fun th => !(th.1 == cast) }
  back.foldl (fun s th => fileLane s core th.1 th.2 (getThread s core th.1 th.2).pc) s1

end Sys2Proof.Machine
end

