-- ==== Sys2Proof/Machine/Tables.lean ====
section
/-! DEFINITION. The prompt book's tables and what trains them: branch cue predictor, stride prefetcher, the bank layouts
(R277 to R285, R290, R293, R298). -/

namespace Sys2Proof.Machine

/-! ### The branch cue predictor (R281 to R283) -/

def histGhr (h : Word) : Nat := field h.toNat 7 0
def histMisp (h : Word) : Nat := field h.toNat 23 8
def histFbp (h : Word) : Bool := h.toNat.testBit 24
def histFpf (h : Word) : Bool := h.toNat.testBit 25
def histPfoff (h : Word) : Bool := h.toNat.testBit 26

/-- The index of a BRC (R282). -/
def brcIndex (k : CoreBank) (pc : Word) : Nat := field pc.toNat 9 2 ^^^ histGhr k.hist

/-- Is the BRC predicted taken (R282)? -/
def predictTaken (k : CoreBank) (pc : Word) : Bool := sget 1 (brcIndex k pc) k.bp ≥ 2

/-- A resolved BRC trains the tables (R283). -/
def trainBrc (k : CoreBank) (i : Nat) (predicted taken : Bool) : CoreBank :=
  let h := k.hist.toNat
  let h1 := if taken = predicted then h else setField h 23 8 (min (field h 23 8 + 1) 0xFFFF)
  if histFbp k.hist then { k with hist := BitVec.ofNat 32 h1 }
  else
    let n := sget 1 i k.bp
    { k with
      hist := BitVec.ofNat 32 (setField h1 7 0 (field h 6 0 * 2 + b2n taken))
      bp := sset 1 i (if taken then min (n + 1) 3 else n - 1) k.bp }

/-! ### The stride prefetcher (R280, R284, R285) -/

def pfValid (x : Nat) : Bool := x.testBit 95
def pfAge (x : Nat) : Nat := field x 94 90
def pfConf (x : Nat) : Nat := field x 89 88
def pfStride (x : Nat) : Int := sext (field x 87 68) 20
def pfLast (x : Nat) : Nat := field x 67 20
def pfTag (x : Nat) : Nat := field x 19 0

/-- An entry from its fields. -/
def pfMake (age conf stride last tag : Nat) : Nat :=
  tag % 2 ^ 20 + (last % 2 ^ 48) <<< 20 + (stride % 2 ^ 20) <<< 68 + (conf % 4) <<< 88 + (age % 32) <<< 90 + 2 ^ 95

/-- Entry `j`. -/
def pfEntry (k : CoreBank) (j : Nat) : Nat := (sget 0 j k.pf).toNat

/-- The entry that matches a tag. -/
def pfFind (k : CoreBank) (tag : Nat) : Option Nat :=
  (List.range 32).find? fun j => pfValid (pfEntry k j) && pfTag (pfEntry k j) == tag

/-- The entry to replace: the lowest invalid one, else the one of greatest AGE (R285). -/
def pfVictim (k : CoreBank) : Nat :=
  match (List.range 32).find? fun j => !pfValid (pfEntry k j) with
  | some j => j
  | none => (List.range 32).foldl (fun best j => if pfAge (pfEntry k j) > pfAge (pfEntry k best) then j else best) 0

/-- Every valid entry grows older by one. -/
def pfAged (k : CoreBank) : CoreBank :=
  { k with pf := k.pf.map fun e =>
      if pfValid e.2.toNat then (e.1, BitVec.ofNat 128 (setField e.2.toNat 94 90 (min (pfAge e.2.toNat + 1) 31))) else e }

/-- Set entry `j`. -/
def pfSet (k : CoreBank) (j x : Nat) : CoreBank := { k with pf := sset 0 j (BitVec.ofNat 128 x) k.pf }

/-- The trained entry of a match: new confidence and stride (R285). -/
def pfTouch (x a : Nat) : Nat :=
  let d : Int := (a : Int) - pfLast x
  let conf := if d = pfStride x then min (pfConf x + 1) 3 else pfConf x - 1
  let stride : Int := if d = pfStride x then pfStride x
    else if conf = 0 then (if -(2 ^ 19) ≤ d ∧ d < 2 ^ 19 then d else 0) else pfStride x
  pfMake 0 conf (wrap stride 20) a (pfTag x)

/-- A training event: the bank afterwards, and the offset to prefetch, if any (R285). -/
def trainStride (k : CoreBank) (pc : Word) (oid e : Nat) : CoreBank × Option Int :=
  let a := oid % 256 * 2 ^ 40 + e % 2 ^ 40
  let tag := field pc.toNat 21 2
  let frozen := histFpf k.hist
  let aged := pfAged k
  match pfFind aged tag with
  | some j =>
    let x := if frozen then pfEntry k j else pfTouch (pfEntry aged j) a
    let k1 := if frozen then k else pfSet aged j x
    let go := pfConf x ≥ 2 && pfStride x != 0 && !histPfoff k.hist
    (k1, if go then some ((e : Int) + 4 * pfStride x) else none)
  | none => (if frozen then k else pfSet aged (pfVictim aged) (pfMake 0 0 0 a tag), none)

/-! ### Layout (R277, R279) -/

/-- `n` entries of `w` bits packed into a number; unlisted entries hold `dflt`. -/
def packEntries (w n dflt : Nat) (m : Store Nat) : Nat :=
  (List.range n).foldr (fun i acc => sget dflt i m % 2 ^ w + acc <<< w) 0

/-- The entries of a packed number. -/
def unpackEntries (w n dflt x : Nat) : Store Nat :=
  (List.range n).foldl (fun m i => sset dflt i (field x (w * i + w - 1) (w * i)) m) []

/-- The 768 bytes of a core bank. -/
def bankBytes (k : CoreBank) : List Byte :=
  toBytes 4 k.hist.toNat ++ toBytes 12 0 ++ toBytes 64 (packEntries 2 256 1 k.bp) ++ toBytes 96 (packEntries 3 256 1 k.l1s)
    ++ (List.range 32).flatMap (fun j => toBytes 16 (pfEntry k j)) ++ toBytes 80 0

/-- A core bank from its bytes, with reserved bits stored as 0 (R293, R298). -/
def bankOfBytes (bs : List Byte) : CoreBank :=
  { hist := BitVec.ofNat 32 (ofBytes (bs.take 4) % 2 ^ 28)
    bp := unpackEntries 2 256 1 (ofBytes ((bs.drop 0x10).take 64))
    l1s := unpackEntries 3 256 1 (ofBytes ((bs.drop 0x50).take 96))
    pf := (List.range 32).foldl (fun m j =>
      sset 0 j (BitVec.ofNat 128 (ofBytes ((bs.drop (0xB0 + 16 * j)).take 16) % 2 ^ 96)) m) [] }

/-- The 512 bytes of a die part. -/
def dieBytes (p : DiePart) : List Byte :=
  toBytes 4 p.duel.toNat ++ toBytes 4 0 ++ toBytes 8 p.lot.toNat ++ toBytes 48 0
    ++ toBytes 384 (packEntries 3 1024 1 p.l2s) ++ toBytes 64 0

/-- A die part from its bytes, normalised. -/
def dieOfBytes (bs : List Byte) : DiePart :=
  let lot := ofBytes ((bs.drop 8).take 8)
  { duel := BitVec.ofNat 32 (ofBytes (bs.take 4) % 2 ^ 11)
    lot := BitVec.ofNat 64 (if lot = 0 then 1 else lot)
    l2s := unpackEntries 3 1024 1 (ofBytes ((bs.drop 0x40).take 384)) }

end Sys2Proof.Machine
end

