-- ==== Sys2Proof/Machine/Ops.lean ====
section
/-! DEFINITION. The shared operations on threads: scenes and their commit, abort, taking a fault, the return from a handler,
exits and completion counts, debug records, watchpoints, the core's view of memory for loads (R151, R152, R197 to R199,
R209 to R224, R226, R284, R285, R366, R393, R395). -/

namespace Sys2Proof.Machine

/-! ### Debug records (R393) -/

/-- The 256 bits of a record. -/
def recordBits (pc spc gidx va vb cyc seq ctx core : Nat) : Nat :=
  (pc % 2 ^ 32) <<< 224 + (spc % 2 ^ 32) <<< 192 + (gidx % 2 ^ 32) <<< 160 + (va % 2 ^ 32) <<< 128 + (vb % 2 ^ 32) <<< 96
    + (cyc % 2 ^ 32) <<< 64 + (seq % 2 ^ 32) <<< 32 + (ctx % 4096) <<< 20 + (core % 256) <<< 12

/-- Write a record to the function's trace ring, or drop it when the ring is full. SEQNO increases with a record written. DEDUCED, log 42. -/
def putRecord (s : State) (core fn : Nat) (bits : Nat) : State :=
  let f := getFunc s fn
  if (f.trTail - f.trHead).toNat = 65536 then
    setFunc s fn { f with trDrop := BitVec.ofNat 32 (satInc (2 ^ 32 - 1) f.trDrop.toNat) }
  else
    let off := field f.trBase.toNat 39 0 + 32 * (f.trTail.toNat % 65536)
    let s1 := writeObject s (outerPort fn) (field f.trBase.toNat 63 40) off (toBytes 32 bits)
    modCore (setFunc s1 fn { f with trTail := f.trTail + 1 }) core fun c => { c with seqno := c.seqno + 1 }

/-- The record of a thread of a core. -/
def recordOf (s : State) (core : Nat) (pc spc gidx va vb : Nat) : Nat :=
  let c := getCore s core
  recordBits pc spc gidx va vb c.cycle.toNat c.seqno.toNat (coreCtx s core) core

/-! ### Watchpoints (R395) -/

/-- Does an access of a core's lane meet a watchpoint? -/
def meets (s : State) (core : Nat) (x : Performed) (w : Watchpoint) : Bool :=
  w.valid && w.oid == x.oid && w.ctx == coreCtx s core && overlaps w.lo (w.hi - w.lo) x.off x.size
    && (match x.kind with
      | .read => w.onRead
      | .write => w.onWrite
      | .atomic => w.onAtomic)

/-- Does a watchpoint of the core's die meet a performed access? -/
def watched (s : State) (core : Nat) (x : Performed) : Bool :=
  (getDie s (dieOfCore core)).watch.any fun e => meets s core x e.2

/-- A lane has performed an access: one that a watchpoint meets stops the thread at its next instruction. -/
def noteAccess (s : State) (core cast lane : Nat) (x : Performed) : State :=
  if watched s core x then modThread s core cast lane fun t => { t with performed := t.performed ++ [x] } else s

/-! ### Opening scenes (R209, R210) -/

/-- Every vector register below V. -/
def allLive (b : Playbill) : BitVec 128 := BitVec.ofNat 128 (2 ^ b.vregs - 1)

/-- Open a scene at an entry with a snapshot of the thread's status. -/
def openScene (t : Thread) (entry : Word) (liveV : BitVec 128) (liveK : Word) (budget : Nat) : Thread :=
  { t with scene := { entry, liveV, liveK, budget, snapP := t.p, snapTstat := t.tstat, snapSr := t.srstate,
                      snapStack := t.stack } }

/-- Open the implicit scene of a commit point, a start or a handler entry. -/
def openImplicit (b : Playbill) (t : Thread) (entry : Word) : Thread :=
  openScene t entry (allLive b) (BitVec.allOnes 32) 16

/-- A boundary passed by a thread: it holds the code that the marks so far have left (R226). -/
def passBoundary (s : State) (t : Thread) : Thread := { t with codeEpoch := s.icEpoch }

/-! ### Aborting a scene (R215) -/

/-- The abort of a thread's scene. -/
def abortThread (t : Thread) : Thread :=
  { t with
    p := t.scene.snapP, tstat := t.scene.snapTstat, srstate := t.scene.snapSr, stack := t.scene.snapStack
    pc := t.scene.entry, producers := [], wait := .ready, marker := none, stalled := 0, committed := false
    scene := { t.scene with count := 0, stores := [], renewals := [], training := [] } }

/-- The translation restart of a thread: its scene is aborted and it waits for the page (R140). -/
def restartThread (s : State) (core cast lane : Nat) (k : PageKey) : State :=
  modThread s core cast lane fun t => { abortThread t with wait := .page k, denied := none }

/-! ### Exits and completion counts (R169, R197 to R199) -/

/-- The key of the kernel's own entry beside the 256 ensembles. -/
def kernelScope : Nat := 256

/-- Change an ensemble entry of a launch. -/
def modEnsemble (s : State) (key ens : Nat) (f : Ensemble → Ensemble) : State :=
  modLaunch s key fun l => { l with ensembles := sput ens (f (sget {} ens l.ensembles)) l.ensembles }

/-- A thread of global index `g` ends with a status: one entry's counts. -/
def countExit (g : Nat) (status : Nat) (core : Nat) (kernel : Bool) (cues : Nat) (e : Ensemble) : Ensemble :=
  let live := e.live - 1
  let e1 := { e with nexit := e.nexit + 1, live, stor := e.stor ||| status,
                     closer := if live = 0 ∧ (!kernel ∨ cues = 0) then some core else e.closer }
  if status = 0 then e1
  else
    let thmin := if e.nnz = 0 ∨ status < e.stmin then BitVec.ofNat 32 g
      else if status = e.stmin then (if g < e.thmin.toNat then BitVec.ofNat 32 g else e.thmin) else e.thmin
    { e1 with nnz := e.nnz + 1, stmin := if e.nnz = 0 then status else min e.stmin status, thmin }

/-- Drop retired entries from the front of the decision queue (R187). -/
def dropRetired : List DqEntry → List DqEntry
  | [] => []
  | e :: rest => if e.targets.isEmpty then dropRetired rest else e :: rest

/-- Take a cast out of every target set of the decision queue. -/
def untarget (cast : Nat) (c : Core) : Core :=
  { c with dq := dropRetired (c.dq.map fun e => { e with targets := ndel cast e.targets }) }

/-- Take a cast out of its partition. -/
def leavePartition (cast : Nat) (p : Partition) : Partition :=
  { p with
    active := p.active.filter fun e => !(e.1 == cast)
    pending := p.pending.filter fun e => !(e.1 == cast)
    swapping := p.swapping.filter fun e => !(e.1 == cast)
    due := p.due.filter fun e => !(e == cast) }

/-- The ensembles whose record a cast's exits join: those of its E registers that report (R197). -/
def reportingEnsembles (l : Launch) (c : Cast) : List Nat :=
  (c.ens.filterMap fun e => if e.toNat ≥ 256 then some (e.toNat % 256) else none).filter fun n => (sget {} n l.ensembles).reports

/-- The pending casts enter the active set, oldest first, while it holds fewer than 8 (R178). -/
def fillActive (clk : Nat) (live : Nat → Bool) (p : Partition) : Nat → Partition
  | 0 => p
  | n + 1 =>
    if p.active.length ≥ 8 then p
    else match p.pending.find? fun e => live e.1 with
      | none => p
      | some e =>
        fillActive clk live
          { p with active := p.active ++ [(e.1, clk)], pending := p.pending.filter fun x => !(x == e)
                   due := p.due.filter fun x => !(x == e.1) } n

/-- Has the cast a live thread? DEDUCED, log 54. -/
def castLive (c : Cast) : Bool := c.threads.any Thread.live

/-- Let pending casts of a partition become active. -/
def refillActive (s : State) (core part : Nat) : State :=
  let c := getCore s core
  let p := getPart s core part
  let p1 := fillActive (coreClk s core) (fun i => castLive (sget {} i c.casts)) p 8
  (p1.active.filter fun e => !(p.active.contains e)).foldl (fun s e => refileCast s core e.1) (setPart s core part p1)

/-- A thread exits with a status (R169, R197). The entry of its cast stays, with exited threads. -/
def exitThread (s : State) (core cast lane status : Nat) : State :=
  let b := coreBill s core
  let l := coreLaunch s core
  let c := getCast s core cast
  let s1 := modThread s core cast lane fun t =>
    { t with live := false, wait := .ready, exh := false, scene := { entry := t.pc }, producers := [], marker := none }
  let key := launchKey l.ctx l.number
  let g := gidx b cast lane
  let s2 := (reportingEnsembles l c).foldl (fun s n => modEnsemble s key n (countExit g status core false 0)) s1
  let s3 := modEnsemble s2 key kernelScope (countExit g status core true l.cues)
  let s4 := setPart s3 core c.part (unbin (cast, lane) (getPart s3 core c.part))
  if castLive (getCast s4 core cast) then s4
  else
    let s5 := modCore s4 core (untarget cast)
    refillActive (setPart s5 core c.part (leavePartition cast (getPart s5 core c.part))) core c.part

/-- The cue thread of a core ends with a status, which joins CUEOR of the kernel record (R197, R222). -/
def endCue (s : State) (core status : Nat) : State :=
  let l := coreLaunch s core
  let key := launchKey l.ctx l.number
  let s1 := modCore s core fun c => { c with cue := none }
  let s2 := modLaunch s1 key fun l => { l with cues := l.cues - 1 }
  let cues := l.cues - 1
  modEnsemble s2 key kernelScope fun e =>
    { e with cueor := e.cueor ||| status % 65536, closer := if e.live = 0 ∧ cues = 0 then some core else e.closer }

/-! ### Taking a fault (R216 to R222) -/

/-- FREC of a fault (R219). DEDUCED, log 61. -/
def frecOf (f : FaultInfo) (pc spc : Word) : BitVec 128 :=
  BitVec.ofNat 128 (f.code % 256 + b2n f.half <<< 8 + b2n f.cwide <<< 9 + (f.acc % 4) <<< 10 + (f.opcode % 256) <<< 24
    + f.info.toNat <<< 32 + spc.toNat <<< 64 + pc.toNat <<< 96)

/-- A lane thread takes a reportable fault at its PC: FREC and FADDR, the abort, and the handler's entry or the exit. -/
def takeFault (s : State) (core cast lane : Nat) (f : FaultInfo) : State :=
  let t := getThread s core cast lane
  let b := coreBill s core
  let spc := t.scene.entry
  let t1 := { abortThread t with
    frec := frecOf f t.pc spc, faddr := if 2 ≤ f.code ∧ f.code ≤ 5 then f.faddr else 0, denied := none }
  let s1 := setThread s core cast lane t1
  if t1.inh then exitThread s1 core cast lane (0x8000 + f.code)
  else if b.trapPc = 0xFFFFFFFF then exitThread s1 core cast lane f.code
  else if t1.stack.length ≥ 16 then exitThread s1 core cast lane (0x8000 + f.code)
  else
    let t2 := { t1 with stack := spc :: t1.stack, inh := true, pc := b.trapPc }
    setThread s1 core cast lane (passBoundary s (openImplicit b t2 b.trapPc))

/-- The cue thread takes a reportable fault: it ends, its buffered commands are discarded (R222). -/
def takeCueFault (s : State) (core : Nat) (f : FaultInfo) : State := endCue s core f.code

/-- RESUME in a thread whose handler's scene has committed (R224): the return from the handler. -/
def resumeThread (s : State) (core cast lane : Nat) : State :=
  let t := getThread s core cast lane
  match t.stack with
  | [] => s
  | top :: rest =>
    let t1 := { t with stack := rest, pc := top, inh := false, exh := false }
    setThread s core cast lane (passBoundary s (openImplicit (coreBill s core) t1 top))

/-! ### Loads through the hierarchy -/

/-- Is the page or its line poisoned in the view of a core? -/
def viewPoison (s : State) (core : Nat) (p : TlbEntry) (off : Nat) : Bool :=
  p.poisoned || (viewLine s core (pageByte p off / 64)).poison

/-- A core's read of the block of a region at view offset `e`, for the instruction at `pc`: a request of its own to the block's home
(R269, R359). -/
def readFugBlock (s : State) (core fn ctx oid : Nat) (f : FugHdr) (e : Nat) (pc : Word) : BlockView :=
  let q : Port := { fn, ctx, core := some core }
  let s1 := match blockLine s q oid f (e / 512) (e / 64 % 8) with
    | some line => openRequest (spendToken s core) core line ctx
    | none => s
  readBlock s1 q oid f (e / 512) (e / 64 % 8) (some (sigL2 pc))

/-- PFCH of an offset of an object, or a fill of the prefetcher (R154, R285, R367): the checks of a one-byte read; nothing where
one fails. One that finds its line already in L1, bound for L1, leaves the line, its counter and its REUSE as they are (DESIGN
CHOICE, log 66). -/
def prefetchAt (s : State) (core fn ctx : Nat) (c : Cap) (e : Int) (pc : Word) (toL1 : Bool) : State :=
  let off : Int := e - capLower c
  let v : Via := { reg := 0, acc := 1, opcode := 0xC7 }
  if isFug s fn c then
    match accessFug s core fn ctx v c off 1 [0] none with
    | .ok s1 f => (readFugBlock s1 core fn ctx (capOid c) f e.toNat pc).state
    | _ => s
  else
    match checkCap s fn v c off 1 true [0] with
    | some _ => s
    | none =>
      match translate s core fn ctx (capOid c) e.toNat with
      | (.valid p, s1) =>
        if classFail c p.tier p.cls then s
        else
          let line := pageByte p e.toNat / 64
          if toL1 then
            if (sfind line (getCore s1 core).l1).isSome then s1 else loadLine s1 core line p.cls ctx pc true false
          else readHome (openRequest (spendToken s1 core) core line ctx) line p.cls ctx (some (sigL2 pc)) false
      | _ => s

/-! ### Commit (R152, R211) -/

/-- What stops a commit: a range in flight or a die with too many unacknowledged home writes (R143, R244), or a page. -/
inductive CommitCheck where
  | ready
  | held
  | page (k : PageKey)
  | stop (f : Fault)
  deriving DecidableEq, Repr

/-- Does a scratchpad access meet a range in flight (R143)? -/
def rangeBusy (c : Core) (lo n : Nat) : Bool := c.ranges.any fun r => overlaps r.lo (r.hi - r.lo) lo n

/-- What a missing page makes of a commit: the machine stops where no such byte exists, else the scene restarts. -/
def missingCheck (s : State) (fn oid o : Nat) (p : PageState) : CommitCheck :=
  match p with
  | .nowhere => .stop .noSuchAddress
  | _ => .page (pageKeyOf s fn oid o)

/-- Can one buffered store be performed now, as far as ranges and pages go? -/
def storeReady (s : State) (core : Nat) (st : BufStore) : CommitCheck :=
  let q := corePort s core
  match st.kind with
  | .spad => if rangeBusy (getCore s core) st.off st.bytes.length then .held else .ready
  | .mem c _ =>
    if isFug s q.fn c then
      match fugMissing s q (capOid c) st.off with
      | none => .ready
      | some (o, p) => missingCheck s q.fn (capOid c) o p
    else match lookup s q (capOid c) st.off with
      | .valid _ => .ready
      | p => missingCheck s q.fn (capOid c) st.off p

/-- Can every store of a list be performed now? -/
def storesReady (s : State) (core : Nat) : List BufStore → CommitCheck
  | [] => .ready
  | st :: rest =>
    match storeReady s core st with
    | .ready => storesReady s core rest
    | r => r

/-- Can every renewal of a list be performed now (R366)? -/
def renewalsReady (s : State) (core : Nat) : List (Cap × Nat) → CommitCheck
  | [] => .ready
  | r :: rest =>
    match renewMissing s (corePort s core) r.1 r.2 with
    | none => renewalsReady s core rest
    | some (o, p) => missingCheck s (coreFn s core) (capOid r.1) o p

/-- Can a thread's scene be committed now, as far as ranges and pages go? -/
def sceneReady (s : State) (core : Nat) (t : Thread) : CommitCheck :=
  match storesReady s core t.scene.stores with
  | .ready => renewalsReady s core t.scene.renewals
  | r => r

/-- Is a store a stamped home write (R147)? -/
def stampedStore (s : State) (fn : Nat) (st : BufStore) : Bool :=
  match st.kind with
  | .spad => false
  | .mem c _ => capHas c 7 && !isFug s fn c

/-- The die that stamps a store (R139, R244). -/
def storeDie (s : State) (core : Nat) (st : BufStore) : Nat :=
  match st.kind with
  | .spad => dieOfCore core
  | .mem c _ => match resolve s (corePort s core) (capOid c) st.off with
    | some key => stampDie core (key / 64)
    | none => dieOfCore core

/-- The dies that stamp the home writes of a scene's commit, one for each write (R244). -/
def sceneStamps (s : State) (core : Nat) (t : Thread) : List Nat :=
  (t.scene.stores.filter (stampedStore s (coreFn s core))).map (storeDie s core) ++ t.scene.renewals.map fun _ => dieOfCore core

/-- May the dies send these stamped home writes: each holds at most 4,096 unacknowledged (R244)? -/
def mayStamp (s : State) (dies : List Nat) : Bool :=
  dies.all fun d => decide ((getDie s d).unacked + dies.count d ≤ 4096)

/-- Perform one store to the scratchpad or to memory (R142, R144, R147, R367). -/
def landStore (s : State) (core : Nat) (st : BufStore) : State :=
  let fn := coreFn s core
  let ctx := coreCtx s core
  match st.kind with
  | .spad => modCore s core fun c => { c with spad := putBytes st.off st.bytes c.spad }
  | .mem c granule =>
    if isFug s fn c then
      fugWrite (spendToken s core) (corePort s core) (capOid c) st.off st.bytes (sig := some (sigL2 st.pc))
    else match translate s core fn ctx (capOid c) st.off with
      | (.valid p, s1) =>
        let key := pageByte p st.off
        let mask := byteMask (key % 64) st.bytes.length
        let d := placeBytes (key % 64) st.bytes
        let tags : BitVec 4 := if granule then BitVec.ofNat 4 (1 <<< (key / 16 % 4)) else 0
        if capHas c 7 then sendHomeWrite (ejectLine s1 core (key / 64)) core (key / 64) p.cls ctx st.pc mask d tags p.poisoned
        else if p.poisoned then sendPoisoned (ejectLine s1 core (key / 64)) core (key / 64) p.cls ctx mask d
        else storeLine s1 core (key / 64) p.cls ctx st.pc mask d tags
      | (_, s1) => s1

/-- The performed access of a store to memory. -/
def storeAccess (st : BufStore) : Option Performed :=
  match st.kind with
  | .mem c _ => some { oid := capOid c, off := st.off, size := st.bytes.length, kind := .write,
                       value := BitVec.ofNat 32 (ofBytes st.bytes), pc := st.pc }
  | .spad => none

/-- Perform one buffered store of a lane. -/
def performStore (s : State) (core cast lane : Nat) (st : BufStore) : State :=
  landStore (match storeAccess st with
    | some x => noteAccess s core cast lane x
    | none => s) core st

/-- Insert a job among jobs ordered by issue and then by lane. -/
def insertJob (x : Nat × Nat × BufStore) : List (Nat × Nat × BufStore) → List (Nat × Nat × BufStore)
  | [] => [x]
  | y :: rest =>
    if x.2.2.seq < y.2.2.seq || (x.2.2.seq == y.2.2.seq && (x.1 < y.1 || (x.1 == y.1 && x.2.1 < y.2.1))) then x :: y :: rest
    else y :: insertJob x rest

/-- The buffered stores of some threads in the order they are performed (R152). -/
def storeJobs (s : State) (core : Nat) (ths : List (Nat × Nat)) : List (Nat × Nat × BufStore) :=
  (ths.flatMap fun th => (getThread s core th.1 th.2).scene.stores.map fun st => (th.1, th.2, st)).foldr insertJob []

/-- A scene's training events reach the prefetcher (R284, R285). -/
def trainEvents (s : State) (core : Nat) (es : List Training) : State :=
  es.foldl (fun s e =>
    let c := getCore s core
    let ev := effective e.cap e.off
    let r := trainStride c.bank e.pc (capOid e.cap) ev.toNat
    let s1 := setCore s core { c with bank := r.1 }
    match r.2 with
    | some off => prefetchAt s1 core (coreFn s1 core) (coreCtx s1 core) e.cap off e.pc true
    | none => s1) s

/-- Perform a renewal: a stamped home write of the line of the tile's descriptor (R244, R366). -/
def performRenewal (s : State) (core : Nat) (c : Cap) (n : Nat) : State :=
  let q := corePort s core
  match fugHeader s q (capOid c) with
  | none => s
  | some f =>
    if n < f.ntile then
      match resolve s q (capOid c) (f.doff + 16 * n) with
      | some key => sendRenewal s core (key / 64) q.ctx c n
      | none => s
    else s

/-- What remains of a thread's commit once its stores are performed: renewals, training, an empty buffer. -/
def finishCommit (s : State) (core : Nat) (th : Nat × Nat) : State :=
  let t := getThread s core th.1 th.2
  let s1 := t.scene.renewals.foldl (fun s r => performRenewal s core r.1 r.2) s
  let s2 := trainEvents s1 core t.scene.training
  modThread s2 core th.1 th.2 fun t =>
    { t with scene := { t.scene with count := 0, stores := [], renewals := [], training := [] } }

/-- The scenes of some threads commit in one step (R211). DEDUCED, log 40. -/
def commitThreads (s : State) (core : Nat) (ths : List (Nat × Nat)) : State :=
  let s1 := (storeJobs s core ths).foldl (fun s j => performStore s core j.1 j.2.1 j.2.2) s
  ths.foldl (fun s th => finishCommit s core th) s1

/-- Entries of a partition's scene store buffer in use (R212). -/
def bufferUse (s : State) (core part : Nat) : Nat :=
  (getCore s core).casts.foldl (fun n e =>
    if e.2.part = part then e.2.threads.foldl (fun n t => n + t.scene.stores.length) n else n) 0

/-! ### The latest store of the thread to a byte (R151) -/

/-- The bytes at an offset with the thread's own buffered stores over them. DEDUCED, log 60. -/
def forward (sameSpace : BufStore → Bool) (off : Nat) (bs : List Byte) (stores : List BufStore) : List Byte :=
  stores.foldl (fun bs st =>
    if sameSpace st then
      (enum off bs).map fun e => if st.off ≤ e.1 ∧ e.1 < st.off + st.bytes.length then st.bytes.getD (e.1 - st.off) 0 else e.2
    else bs) bs

/-- Does the thread's buffer hold the byte? -/
def forwards (sameSpace : BufStore → Bool) (o : Nat) (stores : List BufStore) : Bool :=
  stores.any fun st => sameSpace st && decide (st.off ≤ o ∧ o < st.off + st.bytes.length)

/-- A store to memory of this object. -/
def toObject (oid : Nat) (st : BufStore) : Bool :=
  match st.kind with
  | .mem c _ => capOid c == oid
  | .spad => false

/-- A store to the scratchpad. -/
def toSpad (st : BufStore) : Bool :=
  match st.kind with
  | .mem _ _ => false
  | .spad => true

end Sys2Proof.Machine
end

