-- ==== Sys2Proof/Machine/Operands.lean ====
section
/-! DEFINITION. Operand forms: what every field names for a lane or for the cue thread, the immediate, register groups, and
the writing of results with their pending latency (R14, R16, R37 to R39, R52 to R54, R58, R101, R130). -/

namespace Sys2Proof.Machine

/-- The running operation of a word on a core: opcode, fields, whether it is the second of a pair, the word's PC and the
next PC, and the lowest active lane of the group in each operation (R284). -/
structure Frame where
  core : Nat
  o : Opc
  op : Op
  half : Bool := false
  pc : Word
  next : Word
  lead : Option (Nat × Nat) := none
  lead2 : Option (Nat × Nat) := none
  deriving DecidableEq, Repr

/-- The kind of a source field. -/
def kindOf (o : Opc) (f : Field) : Kind :=
  match f with
  | .d => (opRow o).kd
  | .a => (opRow o).ka
  | .b => (opRow o).kb
  | .c => (opRow o).kc

/-- The value and the selector of a field. -/
def fieldVal (op : Op) (f : Field) : Nat :=
  match f with
  | .d => op.d.toNat
  | .a => op.a.toNat
  | .b => op.b.toNat
  | .c => op.c.toNat

def fieldSel (op : Op) (f : Field) : Bool :=
  match f with
  | .d => false
  | .a => op.asel
  | .b => op.bsel
  | .c => op.csel

/-- A constant of the uniform space (R38). -/
def constOf (x : Nat) : Int := if x < 0x40 then (x : Int) - 0x20 else (x : Int) - 0x60

/-- The immediate of R39, signed; 0 where there is none. -/
def immOf (op : Op) : Int :=
  match op.form with
  | .base => 0
  | .ext => if op.second.isSome then 0 else sext op.word2.toNat 32
  | .lit => sext op.lit.toNat 64
  | .extLit => sext op.lit.toNat 64

/-- A free bit of this turn for a slot of a lane: registers 0 to 127, predicates from 128 (DESIGN CHOICE, log 11). -/
def laneFree (s : State) (cast lane i : Nat) : Bool := Config.freeBit s.tick ((cast * 64 + lane) * 256 + i)

/-- The old value that a read too early may give (R54). -/
def pendingOld (t : Thread) (x : Slot) : Option Word := (t.producers.find? fun p => p.slot == x).map Producer.old

/-- A vector register as a lane reads it. -/
def readV (s : State) (core cast lane n : Nat) : Word :=
  let t := getThread s core cast lane
  match pendingOld t (.v n) with
  | some old => if laneFree s cast lane n then old else sget 0 n t.v
  | none => sget 0 n t.v

/-- A predicate as a lane reads it; p7 reads 1 (R16). -/
def readP (s : State) (core cast lane n : Nat) : Bool :=
  if n ≥ 7 then true
  else
    let t := getThread s core cast lane
    match pendingOld t (.p n) with
    | some old => if laneFree s cast lane (128 + n) then old == 1 else t.p.getLsbD n
    | none => t.p.getLsbD n

/-- `n` consecutive 32-bit registers as one number, the first lowest (R101). -/
def joinWords (f : Nat → Word) (x : Nat) : Nat → Nat
  | 0 => 0
  | n + 1 => (f x).toNat + (joinWords f (x + 1) n) <<< 32

/-- What the uniform space gives a lane (R38, R39, R101), as `n` words. -/
def laneUniform (c : Cast) (op : Op) (x n : Nat) : Nat :=
  if x < 0x20 then joinWords (fun i => sget 0 i c.k) x n
  else if x < 0x60 then wrap (constOf x) (32 * n)
  else wrap (immOf op) (32 * n)

/-- The value a field names for a lane (R37): registers and conditions by value, other kinds by number. -/
def laneSrc (s : State) (fr : Frame) (cast lane : Nat) (f : Field) : Nat :=
  let x := fieldVal fr.op f
  let n := span32 fr.o fr.op.mod.toNat f
  match kindOf fr.o f with
  | .g | .u => if fieldSel fr.op f then laneUniform (getCast s fr.core cast) fr.op x n
               else joinWords (readV s fr.core cast lane) x n
  | .q => b2n (readP s fr.core cast lane x)
  | .none | .d | .f | .k | .a | .capD | .z | .w | .e | .s | .o => x

/-- The value a field names for the cue thread (R37, R38, R46). -/
def cueSrc (c : Store DWord) (fr : Frame) (f : Field) : Nat :=
  let x := fieldVal fr.op f
  match kindOf fr.o f with
  | .g | .u =>
    if fieldSel fr.op f then (if x < 0x60 then wrap (constOf x) 64 else wrap (immOf fr.op) 64) else (sget 0 x c).toNat
  | .q => b2n (sget 0 x c != 0)
  | .none | .d | .f | .k | .a | .capD | .z | .w | .e | .s | .o => x

/-- The capability register `n` of a cast (R14). -/
def laneCap (s : State) (core cast n : Nat) : Cap :=
  if n < 16 then sget 0 n (getCast s core cast).a else ((coreBill s core).args.getD (n - 16) 0)

/-- The capability register `n` of the cue thread, one of a16 to a31. -/
def cueCap (s : State) (core n : Nat) : Cap := (coreBill s core).args.getD (n - 16) 0

/-- The access of the operation through the capability register that a field names (R217, R219). -/
def viaOf (fr : Frame) (f : Field) (acc : Nat) : Via :=
  { reg := fieldVal fr.op f, acc, opcode := (opRow fr.o).code, half := fr.half }

/-- ACC of an instruction, whatever check failed (R219): 1 for one that only reads its location, 2 for one that writes or
modifies it. A copy reports the side whose check failed, and neither where no side did. DEDUCED, log 57. -/
def accessKind (o : Opc) : Nat :=
  match o with
  | .ld | .lds | .ldk | .capld | .qstat | .pfch | .launch | .mma | .mmas | .zmov | .topk => 1
  | .st | .sts | .capst | .atom | .atoms | .qenq | .qdeq | .sacc | .step | .fade | .classmap => 2
  | _ => 0

/-- A fault of the operation that no check of its access raises (R217). -/
def plainFault (fr : Frame) (code info : Nat) : FaultInfo :=
  { code, info := BitVec.ofNat 32 info, opcode := (opRow fr.o).code, acc := accessKind fr.o, half := fr.half }

/-- The illegal-instruction fault of the operation: INFO is word 0 (R217). -/
def illegalFault (fr : Frame) (word0 : Word) : FaultInfo :=
  { code := 0x01, info := word0, opcode := (opRow fr.o).code, acc := accessKind fr.o, half := fr.half }

/-- A fault of the scratchpad: INFO 0x7F, FADDR of the OID that names no object (R130, R217). -/
def spadFault (fr : Frame) (code : Nat) (acc : Nat) (off : Int) : FaultInfo :=
  { code, info := 0x7F, opcode := (opRow fr.o).code, acc, half := fr.half,
    faddr := BitVec.ofNat 64 (oidOff 0xFFFFFF (wrap off 40)) }

/-! ### Results -/

/-- What an operation writes in a lane, in the thread's registers. `goto` moves the PC elsewhere than to the next
instruction; `wait` leaves the thread waiting; `missed` is the line of a load that misses L2. -/
structure Eff where
  v : List (Nat × Word) := []
  p : List (Nat × Bool) := []
  flags : Nat := 0
  sr : Option Word := none
  goto : Option Word := none
  wait : Wait := .ready
  missed : Option Nat := none
  deriving DecidableEq, Repr

/-- `n` registers from `x` take the words of a number. -/
def splitWords (x value : Nat) : Nat → List (Nat × Word)
  | 0 => []
  | n + 1 => (x, BitVec.ofNat 32 value) :: splitWords (x + 1) (value / 2 ^ 32) n

/-- The result of an operation with a general or a flag destination. -/
def destEff (fr : Frame) (value : Nat) : Eff :=
  match kindOf fr.o .d with
  | .f => { p := [(fr.op.d.toNat, value % 2 == 1)] }
  | .d => { v := splitWords fr.op.d.toNat value (span32 fr.o fr.op.mod.toNat .d) }
  | .none | .g | .u | .q | .k | .a | .capD | .z | .w | .e | .s | .o => {}

/-- The latency of an operation whose consumers wait by stall count (R52). -/
def latencyOf (o : Opc) : Nat :=
  match (opRow o).lat with
  | .fixed n => n
  | .v => 0
  | .s => 0
  | .nothing => 0

/-- A write of a slot replaces what was pending for it; with latency left it is pending itself (R53). -/
def addProducer (x : Slot) (old : Word) (left : Nat) (pc : Word) (ps : List Producer) : List Producer :=
  let rest := ps.filter fun p => !(p.slot == x)
  if left = 0 then rest else { slot := x, old, left, pc } :: rest

/-- Write a vector register of a thread. DEDUCED, log 12. -/
def writeV (left : Nat) (pc : Word) (t : Thread) (e : Nat × Word) : Thread :=
  { t with v := sset 0 e.1 e.2 t.v, producers := addProducer (.v e.1) (sget 0 e.1 t.v) left pc t.producers }

/-- Write a predicate of a thread; p7 takes no write. -/
def writeP (left : Nat) (pc : Word) (t : Thread) (e : Nat × Bool) : Thread :=
  if e.1 ≥ 7 then t
  else
    { t with p := BitVec.ofNat 7 (setField t.p.toNat e.1 e.1 (b2n e.2)),
             producers := addProducer (.p e.1) (if t.p.getLsbD e.1 then 1 else 0) left pc t.producers }

/-- The registers, flags and rounding state that an operation of latency `lat` in a word with stall count `stall` writes
(R50, R53, R89). -/
def writeEff (lat stall : Nat) (pc : Word) (e : Eff) (t : Thread) : Thread :=
  let left := lat - (1 + stall)
  let t1 := e.v.foldl (writeV left pc) t
  let t2 := e.p.foldl (writeP left pc) t1
  { t2 with
    tstat := t2.tstat ||| BitVec.ofNat 32 e.flags
    srstate := match e.sr with | some x => x | none => t2.srstate }

/-- The pending producers as one more word issues (R53). -/
def ageProducers (stall : Nat) (ps : List Producer) : List Producer :=
  ps.filterMap fun p => if p.left > 1 + stall then some { p with left := p.left - (1 + stall) } else none

/-! ### The checking scoreboard (R54) -/

/-- The slots an operation reads through its sources. -/
def sourceSlots (o : Opc) (op : Op) : List Slot :=
  let r := opRow o
  (opReads o op).map Slot.v
    ++ (if r.ka == .q then [Slot.p op.a.toNat] else []) ++ (if r.kb == .q then [Slot.p op.b.toNat] else [])
    ++ (if r.kc == .q then [Slot.p op.c.toNat] else [])

/-- The producer's PC of the first slot read too early. -/
def shortfall (t : Thread) (slots : List Slot) : Option Word :=
  slots.findSome? fun x => (t.producers.find? fun p => p.slot == x).map Producer.pc

end Sys2Proof.Machine
end

