-- ==== Sys2Proof/Machine/Flags.lean ====
section
/-! DEFINITION. Guards and the sticky flags of TSTAT (R17, R43, R54, R89). -/

namespace Sys2Proof.Machine

/-- The guard of an operation for a lane (R43, R58). -/
def guardOf (s : State) (core cast lane : Nat) (op : Op) : Bool := readP s core cast lane op.grd.toNat != op.gneg

/-- The guard of a pair's second operation, never negated (R36). -/
def guard2Of (s : State) (core cast lane : Nat) (t : Second) : Bool := readP s core cast lane t.grd2.toNat

/-- Does some operation of the word act in the lane? -/
def laneActive (s : State) (core cast lane : Nat) (op : Op) : Bool :=
  guardOf s core cast lane op || (match op.second with
    | some t => guard2Of s core cast lane t
    | none => false)

/-- The format slot of an operation (R78). -/
def slotOf (s : State) (core : Nat) (op : Op) : DWord := (coreBill s core).slots.getD op.fslot.toNat 0

/-- The registers that a pass reads for the scales of its row, beyond its codes (R305). -/
def scaleReads (s : State) (core : Nat) (o : Opc) (op : Op) : List Nat :=
  let sa := slotOf s core op
  let sb := (coreBill s core).slots.getD (op.mod.toNat % 8) 0
  let of (sparse : Bool) (c : Nat) : List Nat :=
    if op.mod.toNat.testBit 3 || slotSch sa != 1 then []
    else match passShape sparse sa sb with
      | some p => span (op.a.toNat + c) (ceilDiv p.groups 4)
      | none => []
  match o with
  | .mma => of false 16
  | .mmas => of true 32
  | _ => []

/-- The PC of the producer that a lane's word reads too early, and whether the second operation of a pair does: of each
operation the guard first, then the sources where the guard is true; the first operation's shortfall prevails (R50, R54). -/
def stallShort (s : State) (core cast lane : Nat) (o : Opc) (op : Op) : Option (Word × Bool) :=
  let t := getThread s core cast lane
  let first := if guardOf s core cast lane op then sourceSlots o op ++ (scaleReads s core o op).map Slot.v else []
  match shortfall t (Slot.p op.grd.toNat :: first) with
  | some pc => some (pc, false)
  | none =>
    match op.second with
    | none => none
    | some x =>
      let second := if guard2Of s core cast lane x then sourceSlots x.opc (secondOp x) else []
      (shortfall t (Slot.p x.grd2.toNat :: second)).map fun pc => (pc, true)

/-- SAT, INV and OVF as they stand in TSTAT (R17, R89). -/
def flagSat : Nat := 1
def flagInv : Nat := 2
def flagOvf : Nat := 4

/-- A write of TSTAT: a written 1 clears its bit (R17). -/
def writeTstat (old value : Word) : Word := old &&& ~~~value

/-- A write of SRSTATE: 0 is stored as 1 (R18). -/
def writeSrstate (value : Word) : Word := if value = 0 then 1 else value

/-- `SatS` and `SatN` (R58): the clamped value and the flags. -/
def satS (x : Int) (n : Nat) : Nat × Nat :=
  let hi : Int := 2 ^ (n - 1) - 1
  let lo : Int := -(2 ^ (n - 1))
  if x < lo then (wrap lo n, flagSat) else if x > hi then (wrap hi n, flagSat) else (wrap x n, 0)

def satN (x : Int) (n : Nat) : Nat × Nat :=
  let hi : Int := 2 ^ n - 1
  if x < 0 then (0, flagSat) else if x > hi then (wrap hi n, flagSat) else (wrap x n, 0)

end Sys2Proof.Machine
end

