-- ==== Sys2Proof/Machine/Lane.lean ====
section
/-! DEFINITION. How a word runs for the lanes of an issue group: checks at decode, the checking scoreboard, guards, commit
points, the two halves of a pair, results and the next PC; and gathering instructions for whole casts (R43, R50, R54, R55,
R172 to R174, R209 to R211, R216 to R218). -/

namespace Sys2Proof.Machine

/-- What an operation does in one lane. -/
inductive LaneStep where
  | done (s : State) (e : Eff)
  /-- The thread stands where the operation has left it. -/
  | moved (s : State)
  | fault (f : FaultInfo)
  /-- A fault met after the access has left its mark: a charge, a poisoned line. -/
  | faultAt (s : State) (f : FaultInfo)
  | page (s : State) (k : PageKey)
  /-- It waits to issue; the state may note what it waits for. -/
  | hold (s : State)
  | stop (f : Fault)

/-- An operation's effect in one lane: cast, lane, state. -/
abbrev Body := Frame → Nat → Nat → State → LaneStep

/-- What a word does for one lane, or for a group. -/
inductive WordStep where
  | next (s : State)
  | hold (s : State)
  | stop (f : Fault)

/-- What the checks at decode depend on, for the lanes of a core (R16, R17, R42). -/
def laneEnv (s : State) (core : Nat) : Env :=
  let b := coreBill s core
  { cue := false, vregs := b.vregs, width := b.width, run := modeRun (coreMode s core) }

/-- The frame of a word at a PC. -/
def frameAt (core : Nat) (pc : Word) (o : Opc) (op : Op) : Frame :=
  { core, o, op, pc, next := pc + BitVec.ofNat 32 (4 * formWords op.form) }

/-- The PC of a group: that of its first thread. -/
def groupPc (s : State) (core : Nat) (ths : List (Nat × Nat)) : Word :=
  match ths with
  | [] => 0
  | th :: _ => (getThread s core th.1 th.2).pc

/-- Every thread of a group takes a fault. -/
def faultAll (s : State) (core : Nat) (ths : List (Nat × Nat)) (f : FaultInfo) : State :=
  ths.foldl (fun s th => takeFault s core th.1 th.2 f) s

/-- Some threads do not issue now, for a reason of R394; `committed` says that their scenes have committed. -/
def markHeld (s : State) (core reason : Nat) (committed : Bool) (ths : List (Nat × Nat)) : State :=
  ths.foldl (fun s th => modThread s core th.1 th.2 fun t =>
    { t with stalled := reason, committed := t.committed || committed }) s

/-- Does an instruction enter a request in the reservation table (R311)? -/
def tableOpc (o : Opc) : Bool :=
  match o with
  | .mma | .mmas | .zclr | .zld | .zst | .cred => true
  | _ => false

/-- The reason of a held instruction: a full reservation table, a range in flight, else an interlock. -/
def holdReason (s : State) (core : Nat) (o : Opc) (commits : Bool) : Nat :=
  if tableOpc o && (getCluster s (clusterOfCore core)).table.length ≥ 32 then 10
  else if (commits || o == .lds || o == .atoms || o == .sacc || o == .topk) && !(getCore s core).ranges.isEmpty then 9
  else 2

/-- A lane after its word: registers, latencies, next PC, what it waits for; a commit point whose effect is performed opens
its implicit scene anew with the next instruction as entry (R210). -/
def afterWord (s : State) (fr : Frame) (e1 : Eff) (second : Option (Second × Eff)) (committed : Bool) (t : Thread) : Thread :=
  let stall := fr.op.stall.toNat
  let t1 := writeEff (latencyOf fr.o) stall fr.pc e1 { t with producers := ageProducers stall t.producers }
  let t2 := match second with
    | some (x, e2) => writeEff (latencyOf x.opc) stall fr.pc e2 t1
    | none => t1
  let pc := match e1.goto with
    | some x => x
    | none => fr.next
  let wait := match second with
    | some (_, e2) => if e1.wait = .ready then e2.wait else e1.wait
    | none => e1.wait
  let missed := match e1.missed, second with
    | some n, _ => some n
    | none, some (_, e2) => e2.missed
    | none, none => none
  let t3 := { t2 with pc, wait, rest := coreClk s fr.core + stall, stalled := if missed.isSome then 3 else 0,
                      missed := missed.getD 0, committed := false }
  if committed && (wait = .ready || wait = .response) then
    { openImplicit (coreBill s fr.core) t3 pc with denied := none }
  else t3

/-- Replace a lane by what its word leaves of it. -/
def finishLane (s : State) (fr : Frame) (cast lane : Nat) (e1 : Eff) (second : Option (Second × Eff)) (committed : Bool) :
    State :=
  modThread s fr.core cast lane (afterWord s fr e1 second committed)

/-- The frame of a pair's second operation. -/
def secondFrame (fr : Frame) (t : Second) : Frame := { fr with o := t.opc, op := secondOp t, half := true, lead := fr.lead2 }

/-- A word in one lane: the operations whose guard is true, their reads before any write; the first fault prevails (R50). -/
def laneWord (fr : Frame) (body : Body) (second : Second → Body) (commits : Bool) (s : State) (cast lane : Nat) : WordStep :=
  let g := guardOf s fr.core cast lane fr.op
  let settle (r : LaneStep) (k : State → Eff → WordStep) : WordStep :=
    match r with
    | .done s1 e => k s1 e
    | .moved s1 => .next s1
    | .fault f => .next (takeFault s fr.core cast lane f)
    | .faultAt s1 f => .next (takeFault s1 fr.core cast lane f)
    | .page s1 p => .next (restartThread s1 fr.core cast lane p)
    | .hold s1 => .hold s1
    | .stop f => .stop f
  settle (if g then body fr cast lane s else .done s {}) fun s1 e1 =>
    match fr.op.second with
    | none => .next (finishLane s1 fr cast lane e1 none (commits && g))
    | some t =>
      settle (if guard2Of s fr.core cast lane t then second t (secondFrame fr t) cast lane s1 else .done s1 {}) fun s2 e2 =>
        .next (finishLane s2 fr cast lane e1 (some (t, e2)) (commits && g))

/-- A word in each lane, in ascending order. A lane that waits to issue keeps the lanes after it (R58). -/
def laneFold (fr : Frame) (body : Body) (second : Second → Body) (commits : Bool) : List (Nat × Nat) → State → Out
  | [], s => .next s
  | th :: rest, s =>
    match laneWord fr body second commits s th.1 th.2 with
    | .next s1 => laneFold fr body second commits rest s1
    | .hold s1 => .next (markHeld s1 fr.core (holdReason s1 fr.core fr.o commits) commits (th :: rest))
    | .stop f => .fault f

/-- The frame of a word's first or second operation. -/
def halfFrame (fr : Frame) (half : Bool) : Frame :=
  match fr.op.second with
  | some t => if half then secondFrame fr t else fr
  | none => fr

/-- The threads of a group that pass the checking scoreboard; the others take the stall-check fault of the half that reads too
early, before either half of a pair has executed (R50, R54; DESIGN CHOICE, log 82). -/
def stallCheck (s : State) (fr : Frame) : List (Nat × Nat) → State × List (Nat × Nat)
  | [] => (s, [])
  | th :: rest =>
    let (s1, ok) := stallCheck s fr rest
    match stallShort s fr.core th.1 th.2 fr.o fr.op with
    | none => (s1, th :: ok)
    | some (pc, half) => (takeFault s1 fr.core th.1 th.2 (plainFault (halfFrame fr half) 0x0B pc.toNat), ok)

/-- What the commit of a commit point leaves. -/
inductive CommitOut where
  /-- The lanes that committed and go on. -/
  | go (s : State) (ths : List (Nat × Nat))
  | held
  | stop (f : Fault)

/-- Does the thread raise the exhaustion fault at this boundary (R218, R377)? -/
def exhausted (t : Thread) : Bool := t.exh && !t.inh

/-- What the commits of some lanes meet. -/
inductive CommitScan where
  | ready (ths : List (Nat × Nat)) (restart : List ((Nat × Nat) × PageKey))
  | held
  | stop (f : Fault)

/-- Sort lanes by what their commits meet: those that can commit, those that restart for a page. -/
def scanCommits (s : State) (core : Nat) : List (Nat × Nat) → CommitScan
  | [] => .ready [] []
  | th :: rest =>
    match scanCommits s core rest with
    | .held => .held
    | .stop f => .stop f
    | .ready ths ps =>
      match sceneReady s core (getThread s core th.1 th.2) with
      | .ready => .ready (th :: ths) ps
      | .held => .held
      | .page k => .ready ths ((th, k) :: ps)
      | .stop f => .stop f

/-- Lanes commit their scenes as one commit point (R210, R211): the exhaustion fault before it commits; the page of a store
that has gone restarts the scene; the implicit scene opens at `pc`, the committing instruction. -/
def commitPoint (s : State) (fr : Frame) (ths : List (Nat × Nat)) : CommitOut :=
  let core := fr.core
  let worn := ths.filter fun th => exhausted (getThread s core th.1 th.2)
  let sound := ths.filter fun th => !exhausted (getThread s core th.1 th.2)
  match scanCommits s core sound with
  | .held => .held
  | .stop f => .stop f
  | .ready ok ps =>
    if !mayStamp s (ok.flatMap fun th => sceneStamps s core (getThread s core th.1 th.2)) then .held
    else
    let s1 := faultAll s core worn (plainFault fr 0x06 0)
    let s2 := ps.foldl (fun s p => restartThread s core p.1.1 p.1.2 p.2) s1
    let s3 := commitThreads s2 core ok
    .go (ok.foldl (fun s th => modThread s core th.1 th.2 fun t =>
      passBoundary s (openImplicit (coreBill s core) t fr.pc)) s3) ok

/-- The frame with the lowest active lane of each operation. -/
def withLeads (s : State) (fr : Frame) (ths : List (Nat × Nat)) : Frame :=
  { fr with
    lead := ths.find? fun th => guardOf s fr.core th.1 th.2 fr.op
    lead2 := ths.find? fun th => match fr.op.second with
      | some t => guard2Of s fr.core th.1 th.2 t
      | none => false }

/-- A word for an issue group, from its checks at decode to its last lane. A lane whose scene this instruction has committed already,
and which waited, commits no second time. A word that is illegal at decode by its second
operation alone is recorded with HALF 0 and the opcode of word 0 (R50; DESIGN CHOICE, log 67). -/
def runLanes (o : Opc) (op : Op) (commits : Bool) (body : Body) (second : Second → Body) (core : Nat)
    (ths : List (Nat × Nat)) (s : State) : Out :=
  let fr := frameAt core (groupPc s core ths) o op
  if !legalIn (laneEnv s core) o op then .next (faultAll s core ths (illegalFault fr (encodeWord0 o op)))
  else
    let (s1, ths1) := if modeSchk (coreMode s core) then stallCheck s fr ths else (s, ths)
    let fr := withLeads s1 fr ths1
    if commits then
      let act := ths1.filter fun th => guardOf s1 core th.1 th.2 op && !(getThread s1 core th.1 th.2).committed
      match commitPoint s1 fr act with
      | .held => .next (markHeld s core (holdReason s core o true) false ths)
      | .stop f => .fault f
      | .go s2 ok => laneFold fr body second true (ths1.filter fun th => !act.contains th || ok.contains th) s2
    else laneFold fr body second false ths1 s1

/-! ### Gathering instructions (R172 to R174) -/

/-- What a gathering instruction does for a cast: results by lane, or one outcome for every active lane. -/
inductive GatherStep where
  | done (s : State) (es : List (Nat × Eff))
  | fault (f : FaultInfo)
  | faultAt (s : State) (f : FaultInfo)
  | page (s : State) (k : PageKey)
  | hold (s : State)
  | stop (f : Fault)

/-- A gathering instruction's effect: cast, active lanes in ascending order, state. -/
abbrev GatherBody := Frame → Nat → List Nat → State → GatherStep

/-- A gathering instruction with what its run needs: is it a commit point? -/
structure GatherSpec where
  commits : Bool
  body : GatherBody

/-- The result of a lane, if any. -/
def effOf (lane : Nat) (es : List (Nat × Eff)) : Eff :=
  match es.find? fun e => e.1 == lane with
  | some e => e.2
  | none => {}

/-- The lanes `ls` of a cast go on after a gathering instruction. -/
def proceed (s : State) (fr : Frame) (cast : Nat) (ls : List Nat) (es : List (Nat × Eff)) (committed : Bool) : State :=
  ls.foldl (fun s l => finishLane s fr cast l (effOf l es) none committed) s

/-- A gathering instruction's effect for the lanes `act` of a cast whose commit is done; the lanes `idle` go on. A fault or a
restart reaches every active lane, and the idle ones go on all the same. Where the effect puts the active lanes to wait, as DQPOP does, the others go on before it
ends (R189; DESIGN CHOICE, log 68). -/
def gatherEffect (fr : Frame) (g : GatherSpec) (cwide : Bool) (cast : Nat) (act idle : List Nat) (s : State) :
    Out :=
  let fail (s : State) (f : FaultInfo) : Out :=
    .next (proceed (faultAll s fr.core (act.map fun l => (cast, l)) { f with cwide }) fr cast idle [] false)
  match g.body fr cast act s with
  | .done s1 es => .next (proceed (proceed s1 fr cast act es g.commits) fr cast idle [] false)
  | .fault f => fail s f
  | .faultAt s1 f => fail s1 f
  | .page s1 k => .next (proceed (act.foldl (fun s l => restartThread s fr.core cast l k) s1) fr cast idle [] false)
  | .hold s1 => .next (markHeld s1 fr.core (holdReason s1 fr.core fr.o g.commits) g.commits (act.map fun l => (cast, l)))
  | .stop f => .fault f

/-- A gathering commit point at which some active lane takes the exhaustion fault or restarts for a page: that lane does, and
the gathering, which has committed nothing, waits for it (R173, R217). -/
def commitAside (s : State) (fr : Frame) (ths : List (Nat × Nat)) : Option State :=
  let worn := ths.filter fun th => exhausted (getThread s fr.core th.1 th.2)
  match scanCommits s fr.core (ths.filter fun th => !exhausted (getThread s fr.core th.1 th.2)) with
  | .ready _ ps =>
    if worn.isEmpty && ps.isEmpty then none
    else some (ps.foldl (fun s p => restartThread s fr.core p.1.1 p.1.2 p.2) (faultAll s fr.core worn (plainFault fr 0x06 0)))
  | .held => none
  | .stop _ => none

/-- An instruction executes once for the lanes `parts` of a cast, which stand at its PC: its commit in the active lanes, its
effect, then the next instruction. A gathering instruction's faults are cast-wide. -/
def runGather (o : Opc) (op : Op) (g : GatherSpec) (cwide : Bool) (core cast : Nat) (parts : List Nat) (s : State) : Out :=
  let fr := frameAt core (groupPc s core (parts.map fun l => (cast, l))) o op
  let act := parts.filter fun l => guardOf s core cast l op
  let idle := parts.filter fun l => !act.contains l
  if g.commits then
    let todo := act.filter fun l => !(getThread s core cast l).committed
    match if cwide then commitAside s fr (todo.map fun l => (cast, l)) else none with
    | some s1 => .next s1
    | none =>
      match commitPoint s fr (todo.map fun l => (cast, l)) with
      | .held => .next (markHeld s core (holdReason s core o true) false (todo.map fun l => (cast, l)))
      | .stop f => .fault f
      | .go s1 ok => gatherEffect fr g cwide cast (act.filter fun l => !todo.contains l || ok.contains (cast, l)) idle s1
  else gatherEffect fr g cwide cast act idle s

/-- The lanes of a cast that execute a gathering instruction next: with every live thread at one, those at the lowest PC
(R173). Empty where some live thread has not reached one. -/
def gatherLanes (c : Cast) : List Nat :=
  let live := (enum 0 c.threads).filter fun e => e.2.live
  if live.all fun e => e.2.wait = .gather then
    match (live.map fun e => e.2.pc.toNat).min? with
    | none => []
    | some pc => (live.filter fun e => e.2.pc.toNat == pc).map Prod.fst
  else []

/-- The casts of a group's threads, ascending, each once. -/
def groupCasts (ths : List (Nat × Nat)) : List Nat := ths.foldr (fun th l => nins th.1 l) []

/-- Each cast of a list that stands complete at `pc` executes. -/
def gatherCasts (o : Opc) (op : Op) (g : GatherSpec) (core : Nat) (pc : Word) : List Nat → State → Out
  | [], s => .next s
  | cast :: rest, s =>
    let parts := gatherLanes (getCast s core cast)
    if parts.isEmpty || groupPc s core (parts.map fun l => (cast, l)) != pc then gatherCasts o op g core pc rest s
    else match runGather o op g true core cast parts s with
      | .next s1 => gatherCasts o op g core pc rest s1
      | .fault f => .fault f
      | .refused r => .refused r

/-- An issue group reaches a gathering instruction, and each of its casts that is then complete executes it. -/
def reachGather (o : Opc) (op : Op) (g : GatherSpec) (core : Nat) (ths : List (Nat × Nat)) (s : State) : Out :=
  let fr := frameAt core (groupPc s core ths) o op
  if !legalIn (laneEnv s core) o op then .next (faultAll s core ths (illegalFault fr (encodeWord0 o op)))
  else
    let (s1, ths1) := if modeSchk (coreMode s core) then stallCheck s fr ths else (s, ths)
    let s2 := ths1.foldl (fun s th => modThread s core th.1 th.2 fun t => { t with wait := .gather }) s1
    gatherCasts o op g core fr.pc (groupCasts ths1) s2

/-- Each cast of a group executes an instruction once for its lanes. -/
def sharedCasts (o : Opc) (op : Op) (g : GatherSpec) (core : Nat) (ths : List (Nat × Nat)) : List Nat → State → Out
  | [], s => .next s
  | cast :: rest, s =>
    let parts := (ths.filter fun th => th.1 == cast).map Prod.snd
    match runGather o op g false core cast parts s with
    | .next s1 => sharedCasts o op g core ths rest s1
    | .fault f => .fault f
    | .refused r => .refused r

/-- An instruction that acts once for the lanes of an issue group, as the queue instructions do (R202). -/
def runShared (o : Opc) (op : Op) (g : GatherSpec) (core : Nat) (ths : List (Nat × Nat)) (s : State) : Out :=
  let fr := frameAt core (groupPc s core ths) o op
  if !legalIn (laneEnv s core) o op then .next (faultAll s core ths (illegalFault fr (encodeWord0 o op)))
  else
    let (s1, ths1) := if modeSchk (coreMode s core) then stallCheck s fr ths else (s, ths)
    sharedCasts o op g core ths1 (groupCasts ths1) s1

end Sys2Proof.Machine
end

