-- ==== Sys2Proof/Machine/Record.lean ====
section
/-! DEFINITION. Recording and replaying the values that differ from run to run (R22, R203, R396), and halts. -/

namespace Sys2Proof.Machine

/-- The global index of a thread as records name it; the cue thread's is all ones. -/
def agentGidx (s : State) : Agent → Nat
  | .lane core cast lane => gidx (coreBill s core) cast lane
  | .cue _ => 0xFFFFFFFF

/-- The core of a thread. -/
def agentCore : Agent → Nat
  | .lane core _ _ => core
  | .cue core => core

/-- How many values have been returned to the thread while recording or replaying. -/
def agentLogged (s : State) : Agent → Nat
  | .lane core cast lane => (getThread s core cast lane).logged
  | .cue core => match getCue s core with
    | some q => q.logged
    | none => 0

/-- One more value returned. -/
def bumpLogged (s : State) : Agent → State
  | .lane core cast lane => modThread s core cast lane fun t => { t with logged := t.logged + 1 }
  | .cue core => modCue s core fun q => { q with logged := q.logged + 1 }

/-- One entry of a log: {GIDX, count, value} (R396). -/
def logEntry (g n v : Nat) : Nat := v % 2 ^ 64 + (n % 2 ^ 32) <<< 64 + (g % 2 ^ 32) <<< 96

/-- Append an entry to the log of a context that records: an object of the function that gave the RECORD (R400). -/
def appendLog (s : State) (ctx : Nat) (e : Nat) : State :=
  let c := getContext s ctx
  match c.recording with
  | some r =>
    if r.mode = 1 then
      let s1 := writeObject s { fn := r.fn, ctx, core := none } r.oid (r.off + 16 * r.entries) (toBytes 16 e)
      modContext s1 ctx fun c => { c with recording := some { r with entries := r.entries + 1 } }
    else s
  | none => s

/-- The value that the log holds for a thread's count, among `n` entries from `off`: the last one written (DESIGN CHOICE, log 35). -/
def searchLog (s : State) (fn oid g k : Nat) : Nat → Nat → Option DWord
  | 0, _ => none
  | n + 1, off =>
    match readObject s (outerPort fn) oid off 16 with
    | none => none
    | some bs =>
      let x := ofBytes bs
      match searchLog s fn oid g k n (off + 16) with
      | some y => some y
      | none => if field x 127 96 = g ∧ field x 95 64 = k then some (BitVec.ofNat 64 x) else none

/-- The thread's logged value number `k`. -/
def loggedAt (s : State) (who : Agent) (k : Nat) : Option DWord :=
  let c := getContext s (coreCtx s (agentCore who))
  match c.recording with
  | some r =>
    searchLog s r.fn r.oid (agentGidx s who) k ((objSize (getObject s r.fn r.oid) - r.off) / 16) r.off
  | none => none

/-- Does the context of a thread replay (R22)? -/
def replays (s : State) (who : Agent) : Bool := modeRun (getContext s (coreCtx s (agentCore who))).mode == 2

/-- What a replaying thread gets: nothing to do, the logged value, or the end of its log (R22, R396). -/
inductive Replay where
  | live
  | value (x : Nat)
  | ended
  deriving DecidableEq, Repr

/-- The next value of a thread, of at most 8 bytes or of 16 in two entries, the low one first (DESIGN CHOICE, log 35). DEDUCED, log 28. -/
def nextValue (s : State) (who : Agent) (bytes : Nat) : Replay :=
  if !replays s who then .live
  else
    let k := agentLogged s who
    match loggedAt s who k with
    | none => .ended
    | some x =>
      if bytes ≤ 8 then .value x.toNat
      else match loggedAt s who (k + 1) with
        | some y => .value (x.toNat + y.toNat * 2 ^ 64)
        | none => .ended

/-- A value is returned to a thread: a recording context logs it; a replaying one counts it. -/
def noteReturn (s : State) (who : Agent) (v : Nat) : State :=
  let ctx := coreCtx s (agentCore who)
  let c := getContext s ctx
  match c.recording with
  | none => s
  | some r =>
    if r.mode = 1 then bumpLogged (appendLog s ctx (logEntry (agentGidx s who) (agentLogged s who) v)) who
    else bumpLogged s who

/-- A value of some bytes is returned to a thread. -/
def noteValue (s : State) (who : Agent) (bytes v : Nat) : State :=
  if bytes ≤ 8 then noteReturn s who v else noteReturn (noteReturn s who (v % 2 ^ 64)) who (v / 2 ^ 64)

/-- Halt a context and write an event of a type with the record's bits [255:64] as DETAIL, and the whole record to the trace
ring (R383, R395, R396). -/
def haltContext (s : State) (core type : Nat) (bits : Nat) : State :=
  let ctx := coreCtx s core
  let fn := coreFn s core
  let s1 := modContext s ctx fun c => { c with run := .halted }
  postEvent (putRecord s1 core fn bits) fn type 0 0 ctx (bits >>> 64)

/-- A thread needs a value beyond its log (R396). -/
def haltDivergence (s : State) (who : Agent) : State :=
  let core := agentCore who
  let (pc, spc) := match who with
    | .lane _ cast lane => ((getThread s core cast lane).pc, (getThread s core cast lane).scene.entry)
    | .cue _ => match getCue s core with
      | some q => (q.pc, q.pc)
      | none => (0, 0)
  haltContext s core 0x07 (recordOf s core pc.toNat spc.toNat (agentGidx s who) 0 0)

end Sys2Proof.Machine
end

