-- ==== Sys2Proof/Machine/CueRun.lean ====
section
/-! DEFINITION. How an instruction runs for the cue thread: at once, or through the command buffer; faults on paths not yet
resolved; results of commands (R45 to R47, R182 to R186, R222). -/

namespace Sys2Proof.Machine

/-- What an operation does in the cue thread. -/
inductive CueStep where
  /-- The result for its destination, if it has one, and where the PC goes if not to the next instruction. -/
  | done (s : State) (r : Option DWord) (goto : Option Word)
  /-- It is performed; its value returns later. -/
  | await (s : State)
  | fault (f : FaultInfo)
  | faultAt (s : State) (f : FaultInfo)
  | page (s : State) (k : PageKey)
  | hold (s : State)
  /-- The cue thread has ended. -/
  | ended (s : State)
  | stop (f : Fault)

/-- An operation's effect with the values of its sources. -/
abbrev CueBody := Frame → DWord → DWord → DWord → State → CueStep

/-- What the checks at decode depend on in cue mode. -/
def cueEnv (s : State) (core : Nat) : Env := { laneEnv s core with cue := true }

/-- The registers that fields of the operation name. -/
def cueRegs (o : Opc) (op : Op) : List Nat :=
  let r := opRow o
  let one (kd : Kind) (sel : Bool) (x : BitVec 7) : List Nat :=
    if (kd == .g || kd == .u || kd == .q) && !sel then [x.toNat] else []
  one r.ka op.asel op.a ++ one r.kb op.bsel op.b ++ one r.kc op.csel op.c

/-- The destination register of the operation (R37). -/
def cueDest (o : Opc) (op : Op) : Option Nat :=
  match (opRow o).kd with
  | .d => some op.d.toNat
  | .f => some op.d.toNat
  | _ => none

/-- Are the operation's registers free of results still to come (R47, R184)? `skipA` leaves a BRC's condition out. -/
def cueReady (q : Cue) (o : Opc) (op : Op) (skipSources : Bool) : Bool :=
  (skipSources || (cueRegs o op).all fun r => (sfind r q.pend).isNone)
    && (match cueDest o op with
      | some d => (sfind d q.pend).isNone
      | none => true)

/-- A fault of the cue thread: it ends the thread once every older BRC is resolved; its buffered commands are discarded (R47,
R222; DEDUCED, log 18). -/
def cueFault (s : State) (core : Nat) (f : FaultInfo) : State :=
  match getCue s core with
  | none => s
  | some q => if q.checks.isEmpty then takeCueFault s core f else setCue s core { q with parked := some f }

/-- A parked fault falls due when no BRC before it is unresolved. -/
def settleParked (s : State) (core : Nat) : State :=
  match getCue s core with
  | some q => match q.parked with
    | some f => if q.checks.isEmpty then takeCueFault s core f else s
    | none => s
  | none => s

/-- The cue thread moves past an instruction. -/
def cueAdvance (q : Cue) (pc : Word) : Cue := { q with pc, beyond := if q.checks.isEmpty then 0 else q.beyond + 1 }

/-- Has the buffer a command of one of these opcodes? -/
def bufferHas (q : Cue) (p : Opc → Bool) : Bool :=
  q.buf.any fun c => match opcOf c.instr with
    | some (o, _) => p o
    | none => false

/-- Can the cue thread issue at all: nothing parked, no page awaited, no EXIT or TRAP before it, no replay entry that is still to
write its register (R232), at most 256 instructions beyond an unresolved BRC (R183)? -/
def cueMayIssue (q : Cue) : Bool :=
  q.parked.isNone && q.page.isNone && !(q.response && q.buf.isEmpty) && !bufferHas q (fun o => o == .exit || o == .trap)
    && (q.checks.isEmpty || q.beyond < 256)

/-- An instruction of the cue thread that executes at once. -/
def runCueNow (o : Opc) (op : Op) (body : CueBody) (core : Nat) (s : State) : Out :=
  match getCue s core with
  | none => .next s
  | some q =>
    let fr := frameAt core q.pc o op
    if !cueMayIssue q then .next s
    else if !legalIn (cueEnv s core) o op then .next (cueFault s core (illegalFault fr (encodeWord0 o op)))
    else if !cueReady q o op false then .next s
    else
      let src (f : Field) : DWord := BitVec.ofNat 64 (cueSrc q.c fr f)
      match body fr (src .a) (src .b) (src .c) s with
      | .done s1 r goto =>
        let pc := match goto with | some x => x | none => fr.next
        .next (modCue s1 core fun q =>
          cueAdvance { q with
            denied := none
            c := match cueDest o op, r with
              | some d, some v => sset 0 d v q.c
              | _, _ => q.c } pc)
      | .await s1 => .next s1
      | .fault f => .next (cueFault s core f)
      | .faultAt s1 f => .next (cueFault s1 core f)
      | .page s1 k => .next (modCue s1 core fun q => { q with page := some k })
      | .hold s1 => .next s1
      | .ended s1 => .next s1
      | .stop f => .fault f

/-- A result reaches the register that awaits it, in the thread and in what it may go back to (R184 to R186). -/
def deliver (id d : Nat) (v : DWord) (q : Cue) : Cue :=
  let give (c : Store DWord) (pend : Store Nat) : Store DWord × Store Nat :=
    if sfind d pend = some id then (sset 0 d v c, sdel d pend) else (c, pend)
  let now := give q.c q.pend
  { q with
    c := now.1, pend := now.2
    checks := q.checks.map fun k =>
      let old := give k.c k.pend
      { k with c := old.1, pend := old.2, cond := if k.cond = .fromCommand id then .known v else k.cond }
    buf := q.buf.map fun x =>
      let old := give x.regs x.pend
      { x with regs := old.1, pend := old.2 } }

/-- An entry of the decision queue is no longer held by a BRC or a WAIT (R188). -/
def unhold (id : Nat) (c : Core) : Core := { c with dq := c.dq.map fun e => { e with holds := ndel id e.holds } }

/-- The hold of the `i`-th WAIT that held a saved entry: it stands for a WAIT that the cue thread buffers again after the resume
(R190). -/
def savedHold (i : Nat) : Nat := 2 ^ 64 + i

/-- A WAIT is performed: each saved entry loses the hold of one WAIT. -/
def unholdSaved (c : Core) : Core :=
  { c with dq := c.dq.map fun e => match e.holds.find? fun h => decide (savedHold 0 ≤ h) with
    | some h => { e with holds := ndel h e.holds }
    | none => e }

/-- Does the instruction commit a scene in lane mode (R210)? In cue mode it is a boundary after which marked code is fetched
afresh (R226; DEDUCED, log 10). -/
def isCommitPoint (o : Opc) : Bool :=
  match o with
  | .atom | .qenq | .qdeq | .rel | .exit | .copy | .copyx | .wload | .qcast | .pbksave | .pbkload | .step | .fade | .classmap
  | .pbkwr | .pbkclr => true
  | _ => false

/-- A command is done: it leaves the buffer, and its result is delivered. -/
def finishCommand (s : State) (core : Nat) (cmd : Command) (r : Option DWord) : State :=
  let s1 := modCue s core fun q =>
    let q1 := { q with buf := q.buf.filter (fun x => !(x.id == cmd.id)), marker := none, response := false, denied := none }
    match opcOf cmd.instr with
    | none => q1
    | some (o, op) =>
      let q2 := if isCommitPoint o then { q1 with codeEpoch := s.icEpoch } else q1
      match r, cueDest o op with
      | some v, some d => deliver cmd.id d v q2
      | _, _ => q2
  let wait : Bool := match opcOf cmd.instr with
    | some (o, _) => o == .wait
    | none => false
  settleParked (modCore s1 core fun c => if wait then unholdSaved (unhold cmd.id c) else unhold cmd.id c) core

/-- Perform a command of the buffer (R184). -/
def performCommand (s : State) (core : Nat) (cmd : Command) (body : CueBody) : Out :=
  match opcOf cmd.instr with
  | none => .next s
  | some (o, op) =>
    match body (frameAt core cmd.pc o op) cmd.a cmd.b cmd.c s with
    | .done s1 r _ => .next (finishCommand s1 core cmd r)
    | .await s1 => .next (modCue s1 core fun q => { q with response := true })
    | .fault f => .next (takeCueFault s core f)
    | .faultAt s1 f => .next (takeCueFault s1 core f)
    | .page s1 k => .next (modCue s1 core fun q => { q with page := some k })
    | .hold s1 => .next s1
    | .ended s1 => .next s1
    | .stop f => .fault f

/-- May the oldest command be performed: no unresolved BRC precedes it, it awaits neither a page nor a response (R184)? -/
def headReady (q : Cue) (cmd : Command) : Bool :=
  (q.checks.all fun k => cmd.id < k.id) && q.page.isNone && !q.response

/-- A buffered instruction of the cue thread: it enters the command buffer with the values of its sources, and is performed
at once where nothing precedes it, unless `hold` leaves it there (R184; DESIGN CHOICE, log 17). -/
def runCueBuffered (o : Opc) (op : Op) (body : CueBody) (core : Nat) (hold : Bool) (s : State) : Out :=
  match getCue s core with
  | none => .next s
  | some q =>
    let fr := frameAt core q.pc o op
    if !cueMayIssue q then .next s
    else if !legalIn (cueEnv s core) o op then .next (cueFault s core (illegalFault fr (encodeWord0 o op)))
    else if !cueReady q o op false || q.buf.length ≥ 32 then .next s
    else
      let (id, s1) := takeFresh s
      let src (f : Field) : DWord := BitVec.ofNat 64 (cueSrc q.c fr f)
      let cmd : Command :=
        { id, pc := q.pc, instr := instrOf o op, a := src .a, b := src .b, c := src .c, regs := q.c, pend := q.pend
          dqTail := (getCore s core).dqTail, logged := q.logged }
      let q1 := cueAdvance { q with
        buf := q.buf ++ [cmd]
        pend := match cueDest o op with
          | some d => sput d id q.pend
          | none => q.pend } fr.next
      let s2 := setCue s1 core q1
      if hold || !q.buf.isEmpty || !headReady q1 cmd then .next s2 else performCommand s2 core cmd body

end Sys2Proof.Machine
end

