-- ==== Sys2Proof/Machine/Alu.lean ====
section
/-! DEFINITION. The frame of the register-to-register instructions: sources as numbers, a result as a number with flags and
rounding state; how such a result runs in a lane and in the cue thread (R46, R50, R58, R80, R85). -/

namespace Sys2Proof.Machine

/-- What a register-to-register operation reads. `n` is the width of R46: 32 in lane mode, 64 in cue mode. -/
structure AluIn where
  n : Nat
  a : Nat
  b : Nat
  c : Nat
  mod : Nat
  ovf : Nat := 0
  fzi : Bool := false
  fzo : Bool := false
  /-- The format slot that FSLOT names (R78). -/
  slot : DWord := 0
  /-- SRSTATE. -/
  sr : Nat := 1
  deriving DecidableEq, Repr

/-- What it gives. -/
inductive AluOut where
  /-- The result, the flags it sets and SRSTATE after its draws. -/
  | ok (d : Nat) (flags : Nat) (sr : Option Nat)
  /-- A trapping overflow (R58, R85). -/
  | trap
  /-- An unbound or excluded slot, or an operand value that is illegal at the instruction (R80, R125). -/
  | illegal
  deriving DecidableEq, Repr

/-- A result without flags. -/
def plain (d : Nat) : AluOut := .ok d 0 none

/-- A result with flags. -/
def flagged (r : Nat × Nat) : AluOut := .ok r.1 r.2 none

/-- The inputs of an operation in a lane. -/
def laneIn (s : State) (fr : Frame) (cast lane : Nat) : AluIn :=
  { n := 32, a := laneSrc s fr cast lane .a, b := laneSrc s fr cast lane .b, c := laneSrc s fr cast lane .c
    mod := fr.op.mod.toNat, ovf := fr.op.ovf.toNat, fzi := fr.op.fzi, fzo := fr.op.fzo
    slot := slotOf s fr.core fr.op, sr := (getThread s fr.core cast lane).srstate.toNat }

/-- The operation in a lane. -/
def aluBody (f : AluIn → AluOut) : Body := fun fr cast lane s =>
  match f (laneIn s fr cast lane) with
  | .ok d fl sr => .done s { destEff fr d with flags := fl, sr := sr.map (BitVec.ofNat 32) }
  | .trap => .fault (plainFault fr 0x09 fr.op.fslot.toNat)
  | .illegal => .fault (illegalFault fr (encodeWord0 fr.o fr.op))

/-- The operation in the cue thread. -/
def aluCue (f : AluIn → AluOut) : CueBody := fun fr a b c s =>
  match f { n := 64, a := a.toNat, b := b.toNat, c := c.toNat, mod := fr.op.mod.toNat } with
  | .ok d _ _ => .done s (some (BitVec.ofNat 64 d)) none
  | .trap => .fault (plainFault fr 0x09 fr.op.fslot.toNat)
  | .illegal => .fault (illegalFault fr (encodeWord0 fr.o fr.op))

end Sys2Proof.Machine
end

