-- ==== Sys2Proof/Machine/FloatFns.lean ====
section
/-! DEFINITION. The results of the floating-point and conversion instructions (R108 to R120, R125). -/

namespace Sys2Proof.Machine

/-- The rounding mode of MOD[2:0]. -/
def rmIn (x : AluIn) : Rm := rmOf (x.mod % 8)

/-- A rounded value with its flags; a state that has moved is written back. -/
def rounded (x : AluIn) (r : Rounded) (flags : Nat) : AluOut :=
  .ok r.bits (r.flags ||| flags) (if r.sr = x.sr then none else some r.sr)

/-- The result of an exact value: rounded once, flushed if FZO asks. -/
def finishF (x : AluIn) (f : Fmt) (v : FVal) : AluOut := rounded x (writeF f x.fzo (roundF f (rmIn x) v x.sr)) 0

/-- An invalid operation: the canonical NaN and INV. -/
def invalidF (f : Fmt) : AluOut := .ok (fmtNan f) 2 none

/-- Is a product a zero times an infinity? -/
def badProduct (a b : FVal) : Bool := (isZero a && isInf b) || (isInf a && isZero b)

/-- Does an exact zero sum take the negative sign (R110): under RDN, or when every addend is a negative zero? -/
def zeroNeg (rm : Rm) (xs : List FVal) : Bool := rm = .rdn || xs.all fun v => isZero v && fNeg v

/-- The sum of terms with the invalid cases of R109 and R118. -/
def sumOf (x : AluIn) (f : Fmt) (bad : Bool) (xs : List FVal) : AluOut :=
  if bad || (!xs.any isNan && infClash xs) then invalidF f else finishF x f (sumF (zeroNeg (rmIn x) xs) xs)

/-- FADD, FSUB, FMUL and FFMA of a format on codes (R109). -/
def addF (x : AluIn) (f : Fmt) (a b : Nat) : AluOut := sumOf x f false [readF f x.fzi a, readF f x.fzi b]
def subF (x : AluIn) (f : Fmt) (a b : Nat) : AluOut := sumOf x f false [readF f x.fzi a, negF (readF f x.fzi b)]
def prodF (x : AluIn) (f : Fmt) (a b : Nat) : AluOut :=
  let u := readF f x.fzi a
  let v := readF f x.fzi b
  if badProduct u v then invalidF f else finishF x f (mulF u v)
def fmaF (x : AluIn) (f : Fmt) (a b c : Nat) : AluOut :=
  let u := readF f x.fzi a
  let v := readF f x.fzi b
  if badProduct u v then invalidF f else sumOf x f false [mulF u v, readF f x.fzi c]

def fFadd (x : AluIn) : AluOut := addF x fp32 x.a x.b
def fFsub (x : AluIn) : AluOut := subF x fp32 x.a x.b
def fFmul (x : AluIn) : AluOut := prodF x fp32 x.a x.b
def fFfma (x : AluIn) : AluOut := fmaF x fp32 x.a x.b x.c

/-- FMIN and FMAX (R111): −0 below +0. -/
def pickF (x : AluIn) (greater : Bool) : AluOut :=
  let u := readF fp32 x.fzi x.a
  let v := readF fp32 x.fzi x.b
  let out (y : FVal) : AluOut := plain (writeF fp32 x.fzo ⟨encodeFmt fp32 y, 0, x.sr⟩).bits
  if x.mod % 2 = 1 ∧ isNan u then out v
  else if x.mod % 2 = 1 ∧ isNan v then out u
  else if isNan u || isNan v then plain (fmtNan fp32)
  else
    let le := cmpF u v < 0 || (cmpF u v = 0 && (fNeg u || !fNeg v))
    out (if le != greater then u else v)

def fFmin (x : AluIn) : AluOut := pickF x false
def fFmax (x : AluIn) : AluOut := pickF x true

/-- FABS and FNEG (R112). -/
def fFabs (x : AluIn) : AluOut := plain (if isNan (decodeFmt fp32 x.a) then fmtNan fp32 else x.a % 2 ^ 31)
def fFneg (x : AluIn) : AluOut := plain (if isNan (decodeFmt fp32 x.a) then fmtNan fp32 else x.a ^^^ 2 ^ 31)

/-- FCMP (R113). -/
def fFcmp (x : AluIn) : AluOut :=
  let u := readF fp32 x.fzi x.a
  let v := readF fp32 x.fzi x.b
  let un := isNan u || isNan v
  let c := cmpF u v
  match x.mod % 8 with
  | 0 => plain (b2n (!un && c = 0))
  | 1 => plain (b2n (un || c ≠ 0))
  | 2 => .ok (b2n (!un && c < 0)) (if un then 2 else 0) none
  | 3 => .ok (b2n (!un && c ≤ 0)) (if un then 2 else 0) none
  | 4 => .ok (b2n (!un && c > 0)) (if un then 2 else 0) none
  | 5 => .ok (b2n (!un && c ≥ 0)) (if un then 2 else 0) none
  | 6 => plain (b2n un)
  | _ => plain (b2n (!un))

/-- The class bit of a code (R114). -/
def classBit (f : Fmt) (code : Nat) : Nat :=
  match decodeFmt f code with
  | .nan => 8
  | .inf neg => if neg then 0 else 7
  | .fin neg n _ =>
    if n = 0 then (if neg then 3 else 4)
    else
      let sub := code / 2 ^ fmtT f % 2 ^ fmtW f = 0
      if neg then (if sub then 2 else 1) else (if sub then 5 else 6)

/-- FCLASS (R114). -/
def fFclass (x : AluIn) : AluOut :=
  match x.mod % 4 with
  | 1 => plain (2 ^ classBit fp16 (x.a % 65536))
  | 2 => plain (2 ^ classBit bf16 (x.a % 65536))
  | _ => plain (2 ^ classBit fp32 x.a)

/-- A value given outright, without rounding: under STO no draw is made for it, also where it is finite and not zero
(R115; DESIGN CHOICE, log 74). -/
def exactly (v : FVal) : AluOut := plain (encodeFmt fp32 v)

/-- FRCP (R115). -/
def fFrcp (x : AluIn) : AluOut :=
  match readF fp32 x.fzi x.a with
  | .nan => exactly .nan
  | .inf g => exactly (.fin g 0 1)
  | .fin g n d => if n = 0 then exactly (.inf g) else finishF x fp32 (.fin g d n)

/-- FRSQ (R115). -/
def fFrsq (x : AluIn) : AluOut :=
  match readF fp32 x.fzi x.a with
  | .nan => exactly .nan
  | .inf g => if g then invalidF fp32 else exactly (.fin false 0 1)
  | .fin g n d =>
    if n = 0 then exactly (.inf g)
    else if g then invalidF fp32
    else finishF x fp32 (.fin false (sqrtFrac d n).1 (sqrtFrac d n).2)

/-- FSQRT (R115). -/
def fFsqrt (x : AluIn) : AluOut :=
  match readF fp32 x.fzi x.a with
  | .nan => exactly .nan
  | .inf g => if g then invalidF fp32 else exactly (.inf false)
  | .fin g n d =>
    if n = 0 then exactly (.fin g 0 1)
    else if g then invalidF fp32
    else finishF x fp32 (.fin false (sqrtFrac n d).1 (sqrtFrac n d).2)

/-- FEXP2 (R115). A zero gives 1 outright, with no draw under STO (DESIGN CHOICE, log 74). -/
def fFexp2 (x : AluIn) : AluOut :=
  match readF fp32 x.fzi x.a with
  | .nan => exactly .nan
  | .inf g => if g then exactly (.fin false 0 1) else exactly (.inf false)
  | .fin g n d => if n = 0 then exactly (.fin false 1 1) else finishF x fp32 (.fin false (exp2Frac g n d).1 (exp2Frac g n d).2)

/-- FLOG2 (R115). -/
def fFlog2 (x : AluIn) : AluOut :=
  match readF fp32 x.fzi x.a with
  | .nan => exactly .nan
  | .inf g => if g then invalidF fp32 else exactly (.inf false)
  | .fin g n d =>
    if n = 0 then exactly (.inf true)
    else if g then invalidF fp32
    else
      let l := log2Fix n d
      finishF x fp32 (.fin (decide (l < 0)) l.natAbs (2 ^ fixBits))

/-- FTANH (R115). An infinity gives 1 or -1 outright, with no draw under STO (DESIGN CHOICE, log 74). -/
def fFtanh (x : AluIn) : AluOut :=
  match readF fp32 x.fzi x.a with
  | .nan => exactly .nan
  | .inf g => exactly (.fin g 1 1)
  | .fin g n d => if n = 0 then exactly (.fin g 0 1) else finishF x fp32 (.fin g (tanhFrac n d).1 (tanhFrac n d).2)

/-- FRND (R116): an integral value in the mode; the result of rounding toward a zero keeps the sign. A value of 2^23 or more passes
unchanged and draws nothing under STO (DESIGN CHOICE, log 74). -/
def fFrnd (x : AluIn) : AluOut :=
  match readF fp32 x.fzi x.a with
  | .nan => exactly .nan
  | .inf g => exactly (.inf g)
  | .fin g n d =>
    if n = 0 then exactly (.fin g 0 1)
    else if n ≥ 2 ^ 23 * d then plain (encodeFmt fp32 (.fin g n d))
    else
      let r := roundMag (.int 32 true) (rmIn x) g n d x.sr
      rounded x (writeF fp32 x.fzo ⟨encodeFin fp32 g (r.1 / r.2.1) 1, 0, r.2.2⟩) 0

/-- FSCALE (R116). -/
def fFscale (x : AluIn) : AluOut :=
  match readF fp32 x.fzi x.a with
  | .nan => exactly .nan
  | .inf g => exactly (.inf g)
  | .fin g n d =>
    if n = 0 then exactly (.fin g 0 1)
    else
      let k := sext x.b 32
      finishF x fp32 (scaleF (.fin g n d) (max (min k 1000) (-1000)))

/-- The format of a packed pair: MOD[3]. -/
def halfFmt (x : AluIn) : Fmt := if x.mod / 8 % 2 = 1 then bf16 else fp16

/-- The two elements of a packed result, element 0 computed and drawn before element 1 (R117). -/
def pairOf (x : AluIn) (f : AluIn → Nat → AluOut) : AluOut :=
  match f x 0 with
  | .ok d0 g0 s0 =>
    let sr := match s0 with | some y => y | none => x.sr
    match f { x with sr } 1 with
    | .ok d1 g1 s1 => .ok (d0 + d1 <<< 16) (g0 ||| g1) (match s1 with | some y => some y | none => s0)
    | r => r
  | r => r

def halfElem (v j : Nat) : Nat := v >>> (16 * j) % 65536

def fHadd2 (x : AluIn) : AluOut := pairOf x fun y j => addF y (halfFmt x) (halfElem x.a j) (halfElem x.b j)
def fHmul2 (x : AluIn) : AluOut := pairOf x fun y j => prodF y (halfFmt x) (halfElem x.a j) (halfElem x.b j)
def fHfma2 (x : AluIn) : AluOut :=
  pairOf x fun y j => fmaF y (halfFmt x) (halfElem x.a j) (halfElem x.b j) (halfElem x.c j)

/-- FDOT2 (R118). -/
def fFdot2 (x : AluIn) : AluOut :=
  let f := halfFmt x
  let a (j : Nat) : FVal := readF f x.fzi (halfElem x.a j)
  let b (j : Nat) : FVal := readF f x.fzi (halfElem x.b j)
  let bad := badProduct (a 0) (b 0) || badProduct (a 1) (b 1)
  let terms := [mulF (a 0) (b 0), mulF (a 1) (b 1), readF fp32 x.fzi x.c]
  if bad || infClash terms then invalidF fp32
  else finishF x fp32 (sumF (zeroNeg (rmIn x) terms) terms)

/-! ### Conversions (R119, R120, R125) -/

/-- The policy of a down-conversion that names a slot (R85); none is an illegal one. -/
def slotPolicy (x : AluIn) : Option Nat :=
  if x.mod < 128 then some (slotOvp x.slot)
  else if slotIsInt x.slot && (x.ovf == 1 || x.ovf == 2) then none
  else some x.ovf

/-- A conversion to a format under a policy. -/
def convertTo (x : AluIn) (f : Fmt) (pol : Nat) (v : FVal) : AluOut :=
  match convert f (rmIn x) pol v x.sr with
  | some r => rounded x { r with bits := r.bits % 2 ^ fmtBits f } 0
  | none => .trap

/-- A slot value with TSCALE applied when SCH is 0b11 (R120, R125). -/
def tensorScaled (x : AluIn) (v : FVal) : FVal :=
  if slotSch x.slot = 3 then mulF v (.fin false (tscaleFrac x.slot).1 (tscaleFrac x.slot).2) else v

/-- A value divided by TSCALE when SCH is 0b11. -/
def tensorUnscaled (x : AluIn) (v : FVal) : FVal :=
  if slotSch x.slot = 3 then divFrac v (tscaleFrac x.slot).1 (tscaleFrac x.slot).2 else v

/-- An exact value written as FP32 by RNE, flushed if FZO asks (R120). A value of code 9 above the range of FP32, which only b8p1
unsigned holds (R126), becomes +infinity with OVF, as RoundF by RNE gives it (DESIGN CHOICE, log 75). -/
def toFp32 (x : AluIn) (v : FVal) : AluOut :=
  let r := writeF fp32 x.fzo (roundF fp32 .rne v x.sr)
  .ok r.bits r.flags none

/-- CVT (R119, R120). -/
def fCvt (x : AluIn) : AluOut :=
  let int (v : Int) : FVal := .fin (decide (v < 0)) v.natAbs 1
  let a := readF fp32 x.fzi x.a
  match x.mod / 8 % 16 with
  | 0 => rounded x (roundF fp32 (rmIn x) (int (sext x.a 32)) x.sr) 0
  | 1 => rounded x (roundF fp32 (rmIn x) (int (x.a : Int)) x.sr) 0
  | 2 => convertTo x (.int 32 true) 0 a
  | 3 => convertTo x (.int 32 false) 0 a
  | 4 => convertTo x fp16 x.ovf a
  | 5 => convertTo x bf16 x.ovf a
  | 6 => toFp32 x (readF fp16 x.fzi (x.a % 65536))
  | 7 => toFp32 x (readF bf16 x.fzi (x.a % 65536))
  | 8 =>
    match slotFmt x.slot, slotPolicy x with
    | some f, some pol => convertTo x f pol (tensorUnscaled x a)
    | _, _ => .illegal
  | 9 =>
    match slotFmt x.slot with
    | some f => toFp32 x (tensorScaled x (readF f x.fzi (x.a % 2 ^ fmtBits f)))
    | none => .illegal
  | _ => .illegal

/-- CVTD (R125). -/
def fCvtd (x : AluIn) : AluOut :=
  match slotFmt x.slot with
  | none => .illegal
  | some f =>
    let s := fmtBits f
    let ix := x.mod % 8
    if ix ≥ 32 / s then .illegal
    else
      let v := readF f x.fzi (x.a >>> (s * ix) % 2 ^ s)
      let w := if slotSch x.slot = 1 ∨ slotSch x.slot = 2 then rescale (x.b % 256) v else v
      toFp32 x (tensorScaled x w)

end Sys2Proof.Machine
end

