-- ==== Sys2Proof/Machine/IntFns.lean ====
section
/-! DEFINITION. The results of the integer, logic, packed and 64-bit instructions (R94 to R107). -/

namespace Sys2Proof.Machine

/-- Is the form's type unsigned: MOD[0] of `.i32` and `.n32` forms. -/
def unsignedForm (x : AluIn) : Bool := x.mod % 2 == 1

/-- A source read signed at the width. -/
def sx (x : AluIn) (v : Nat) : Int := sext v x.n

def fIadd (x : AluIn) : AluOut := plain (wrap ((x.a : Int) + x.b) x.n)
def fIsub (x : AluIn) : AluOut := plain (wrap ((x.a : Int) - x.b) x.n)
def fImul (x : AluIn) : AluOut := plain (wrap ((x.a : Int) * x.b) x.n)
def fImulh (x : AluIn) : AluOut :=
  let p : Int := if unsignedForm x then (x.a : Int) * x.b else sx x x.a * sx x x.b
  plain (wrap (p / 2 ^ x.n) x.n)
def fImad (x : AluIn) : AluOut := plain (wrap ((x.a : Int) * x.b + x.c) 32)
def fImin (x : AluIn) : AluOut :=
  plain (if unsignedForm x then min x.a x.b else if sx x x.a ≤ sx x x.b then x.a else x.b)
def fImax (x : AluIn) : AluOut :=
  plain (if unsignedForm x then max x.a x.b else if sx x x.a ≥ sx x x.b then x.a else x.b)
def fIabs (x : AluIn) : AluOut := plain (wrap ((sx x x.a).natAbs : Int) x.n)
def fIneg (x : AluIn) : AluOut := plain (wrap (-(x.a : Int)) x.n)
def fIadds (x : AluIn) : AluOut :=
  flagged (if unsignedForm x then satN ((x.a : Int) + x.b) 32 else satS (sx x x.a + sx x x.b) 32)
def fIsubs (x : AluIn) : AluOut :=
  flagged (if unsignedForm x then satN ((x.a : Int) - x.b) 32 else satS (sx x x.a - sx x x.b) 32)
def fAnd (x : AluIn) : AluOut := plain (x.a &&& x.b)
def fOr (x : AluIn) : AluOut := plain (x.a ||| x.b)
def fXor (x : AluIn) : AluOut := plain (x.a ^^^ x.b)

/-- NOT at a width. -/
def notN (v n : Nat) : Nat := (2 ^ n - 1) ^^^ v

def fAndn (x : AluIn) : AluOut := plain (x.a &&& notN x.b x.n)
def fNot (x : AluIn) : AluOut := plain (notN x.a x.n)
def fPopc (x : AluIn) : AluOut := plain (((List.range x.n).filter fun i => x.a.testBit i).length)

/-- Zeros below the lowest 1 of `n` bits. -/
def trailingZeros (a n : Nat) : Nat :=
  match (List.range n).find? fun i => a.testBit i with
  | some i => i
  | none => n

/-- Zeros above the highest 1 of `n` bits. -/
def leadingZeros (a n : Nat) : Nat :=
  match (List.range n).find? fun i => a.testBit (n - 1 - i) with
  | some i => i
  | none => n

/-- Bit `j` moved to bit `n - 1 - j`. -/
def reverseBits (a n : Nat) : Nat := (List.range n).foldl (fun acc j => acc + b2n (a.testBit j) <<< (n - 1 - j)) 0

def fClz (x : AluIn) : AluOut := plain (leadingZeros x.a x.n)
def fCtz (x : AluIn) : AluOut := plain (trailingZeros x.a x.n)
def fBrev (x : AluIn) : AluOut := plain (reverseBits x.a x.n)

/-! ### Shifts (R95, R101): a shift amount at or above the width is taken whole -/

def shlN (a s n : Nat) : Nat := if s ≥ n then 0 else a <<< s % 2 ^ n
def shrN (a s n : Nat) : Nat := if s ≥ n then 0 else a >>> s
def sarN (a s n : Nat) : Nat := wrap (sext a n / 2 ^ min s n) n
def rolN (a s n : Nat) : Nat := let k := s % n; (a <<< k % 2 ^ n) ||| a >>> (n - k)

def fShl (x : AluIn) : AluOut := plain (shlN x.a x.b x.n)
def fShr (x : AluIn) : AluOut := plain (shrN x.a x.b x.n)
def fSar (x : AluIn) : AluOut := plain (sarN x.a x.b x.n)
def fRol (x : AluIn) : AluOut := plain (rolN x.a x.b x.n)

/-- BFX (R96): bits at or above the width read as 0. -/
def fBfx (x : AluIn) : AluOut :=
  let len := min x.c x.n
  let f := if x.b ≥ x.n then 0 else x.a >>> x.b % 2 ^ len
  plain (if x.mod % 2 = 1 ∧ len ≠ 0 then wrap (sext f len) x.n else f)

/-- BFI (R96). -/
def fBfi (x : AluIn) : AluOut :=
  let pos := field x.c 7 0
  let len := min (field x.c 15 8) x.n
  let mask := (2 ^ len - 1) <<< pos % 2 ^ x.n
  plain ((x.a &&& notN mask x.n) ||| (x.b <<< pos % 2 ^ x.n &&& mask))

/-- ICMP (R97). -/
def fIcmp (x : AluIn) : AluOut :=
  let u := x.mod / 8 % 2 == 1
  let a : Int := if u then x.a else sx x x.a
  let b : Int := if u then x.b else sx x x.b
  let r := match x.mod % 8 with
    | 0 => decide (a = b)
    | 1 => decide (a ≠ b)
    | 2 => decide (a < b)
    | 3 => decide (a ≤ b)
    | 4 => decide (a > b)
    | _ => decide (a ≥ b)
  plain (b2n r)

/-- SEL (R98). -/
def fSel (x : AluIn) : AluOut := plain (if x.c % 2 = 1 then x.a else x.b)

/-- MOV (R99). -/
def fMov (x : AluIn) : AluOut := plain x.a

/-- PLOG (R100). -/
def fPlog (x : AluIn) : AluOut := plain (b2n (x.mod.testBit (4 * (x.a % 2) + 2 * (x.b % 2) + x.c % 2)))

/-! ### 64-bit pairs (R101) -/

def fAdd64 (x : AluIn) : AluOut := plain (wrap ((x.a : Int) + x.b) 64)
def fSub64 (x : AluIn) : AluOut := plain (wrap ((x.a : Int) - x.b) 64)
def fShl64 (x : AluIn) : AluOut := plain (shlN x.a x.b 64)
def fShr64 (x : AluIn) : AluOut := plain (shrN x.a x.b 64)
def fMul32w (x : AluIn) : AluOut :=
  let a := x.a % 2 ^ 32
  let b := x.b % 2 ^ 32
  plain (if x.mod % 2 = 1 then wrap (sext a 32 * sext b 32) 64 else a * b)

/-! ### Packed integers (R102 to R107) -/

/-- Element `j` of width `m`. -/
def elem (v m j : Nat) : Nat := v >>> (m * j) % 2 ^ m

/-- Elements joined, element 0 lowest, with the flags of all. -/
def joinElems (m : Nat) (f : Nat → Nat × Nat) (count : Nat) : Nat × Nat :=
  (List.range count).foldl (fun acc j => (acc.1 + (f j).1 <<< (m * j), acc.2 ||| (f j).2)) (0, 0)

/-- The element-by-element sum or difference of R102. -/
def packedSum (x : AluIn) (m : Nat) (sub : Bool) : AluOut :=
  let one (j : Nat) : Nat × Nat :=
    let a := elem x.a m j
    let b := elem x.b m j
    let comb (p q : Int) : Int := if sub then p - q else p + q
    match x.mod with
    | 0 => (wrap (comb a b) m, 0)
    | 1 => satS (comb (sext a m) (sext b m)) m
    | _ => satN (comb a b) m
  flagged (joinElems m one (32 / m))

def fPadd16 (x : AluIn) : AluOut := packedSum x 16 false
def fPsub16 (x : AluIn) : AluOut := packedSum x 16 true
def fPadd8 (x : AluIn) : AluOut := packedSum x 8 false

/-- PMUL16 (R103). -/
def fPmul16 (x : AluIn) : AluOut :=
  let one (j : Nat) : Nat × Nat :=
    let a := elem x.a 16 j
    let b := elem x.b 16 j
    match x.mod with
    | 0 => satS (sext a 16 * sext b 16) 16
    | 1 => satN ((a : Int) * b) 16
    | _ => satS ((sext a 16 * sext b 16 + 2 ^ 14) / 2 ^ 15) 16
  flagged (joinElems 16 one 2)

/-- The exact sum of products of packed elements. -/
def dotSum (f : Nat → Int) (count : Nat) : Int := (List.range count).foldl (fun acc j => acc + f j) 0

/-- PMAC16 (R104). -/
def fPmac16 (x : AluIn) : AluOut :=
  if x.mod % 2 = 1 then flagged (satN (dotSum (fun j => (elem x.a 16 j : Int) * elem x.b 16 j) 2 + x.c) 32)
  else flagged (satS (dotSum (fun j => sext (elem x.a 16 j) 16 * sext (elem x.b 16 j) 16) 2 + sext x.c 32) 32)

/-- PDOT8 (R104). -/
def fPdot8 (x : AluIn) : AluOut :=
  match x.mod with
  | 0 => flagged (satS (dotSum (fun j => sext (elem x.a 8 j) 8 * sext (elem x.b 8 j) 8) 4 + sext x.c 32) 32)
  | 1 => flagged (satN (dotSum (fun j => (elem x.a 8 j : Int) * elem x.b 8 j) 4 + x.c) 32)
  | _ => flagged (satS (dotSum (fun j => sext (elem x.a 8 j) 8 * (elem x.b 8 j : Int)) 4 + sext x.c 32) 32)

/-- PMIN16 and PMAX16 (R105). -/
def packedPick (x : AluIn) (greater : Bool) : AluOut :=
  let one (j : Nat) : Nat × Nat :=
    let a := elem x.a 16 j
    let b := elem x.b 16 j
    let le := if unsignedForm x then decide (a ≤ b) else decide (sext a 16 ≤ sext b 16)
    (if le != greater then a else b, 0)
  flagged (joinElems 16 one 2)

def fPmin16 (x : AluIn) : AluOut := packedPick x false
def fPmax16 (x : AluIn) : AluOut := packedPick x true

/-- SHRR(x, s) of R106; a shift of 40 or more of a value of at most 32 bits gives 0. -/
def shrr (v : Int) (s : Nat) : Int :=
  if s = 0 then v else if s ≥ 40 then 0 else (v + 2 ^ (s - 1)) / 2 ^ s

/-- SHRR (R106). -/
def fShrr (x : AluIn) : AluOut :=
  match x.mod with
  | 0 => plain (wrap (shrr (sext x.a 32) x.b) 32)
  | 1 => plain (wrap (shrr (x.a : Int) x.b) 32)
  | _ => flagged (joinElems 16 (fun j => (wrap (shrr (sext (elem x.a 16 j) 16) x.b) 16, 0)) 2)

/-- SATN (R107). -/
def fSatn (x : AluIn) : AluOut :=
  let v := sext x.a 32
  let signed (n : Nat) : AluOut := let r := satS v n; .ok (wrap (sext r.1 n) 32) r.2 none
  match x.mod with
  | 0 => signed 16
  | 1 => signed 8
  | 2 => flagged (satN v 16)
  | _ => flagged (satN v 8)

end Sys2Proof.Machine
end

