-- ==== Sys2Proof/Machine/MemBodies.lean ====
section
/-! DEFINITION. The effects of LD, ST, LDS, STS and PFCH in a lane and in the cue thread (R142, R147, R150 to R154, R212,
R213, R238, R284, R357 to R359, R366, R367), and the home accesses that other families share (R156, R235). -/

namespace Sys2Proof.Machine

/-- Bytes of a width (R150). -/
def widthBytes (mode : Nat) : Nat :=
  match mode % 8 with
  | 0 => 4
  | 1 => 1
  | 2 => 1
  | 3 => 2
  | 4 => 2
  | 5 => 8
  | 6 => 16
  | _ => 4

/-- A loaded value extended to `n` bits as its width says (R150). -/
def extendLoad (mode n : Nat) (bs : List Byte) : Nat :=
  let x := ofBytes bs
  match mode % 8 with
  | 1 => wrap (sext x 8) n
  | 3 => wrap (sext x 16) n
  | _ => x

/-- The memory offset of an operand in lane mode (R130). -/
def laneOff (s : State) (fr : Frame) (cast lane : Nat) : Int := (laneSrc s fr cast lane .b : Int) + immOf fr.op

/-- A commit inside a scene that has no room for one more store or renewal (R212, R366). -/
inductive RoomStep where
  | ok (s : State)
  | fault (f : FaultInfo)
  | page (k : PageKey)
  | held
  | stop (f : Fault)

/-- Commit the thread's scene as a commit point would, and open the implicit scene with this instruction as entry. -/
def makeRoom (s : State) (fr : Frame) (cast lane : Nat) : RoomStep :=
  let t := getThread s fr.core cast lane
  if exhausted t then .fault (plainFault fr 0x06 0)
  else match sceneReady s fr.core t with
    | .ready =>
      if !mayStamp s (sceneStamps s fr.core t) then .held
      else
      let s1 := commitThreads s fr.core [(cast, lane)]
      .ok (modThread s1 fr.core cast lane fun t => passBoundary s1 (openImplicit (coreBill s1 fr.core) t fr.pc))
    | .held => .held
    | .page k => .page k
    | .stop f => .stop f

/-- A step that follows once there is room. -/
def withRoom (r : RoomStep) (k : State → LaneStep) (s : State) : LaneStep :=
  match r with
  | .ok s1 => k s1
  | .fault f => .fault f
  | .page p => .page s p
  | .held => .hold s
  | .stop f => .stop f

/-- Has the store buffer of a cast's partition no free entry (R212)? -/
def bufferFull (s : State) (core cast : Nat) : Bool := bufferUse s core (getCast s core cast).part ≥ 2048

/-- Enter a store in the thread's buffer: room, then the scene's budget (R212, R213). A store that finds no free entry when its
own scene has committed waits for one. -/
def bufferStore (s : State) (fr : Frame) (cast lane : Nat) (kind : BufKind) (off : Nat) (bs : List Byte) : LaneStep :=
  withRoom (if bufferFull s fr.core cast then makeRoom s fr cast lane else .ok s) (fun s1 =>
    let sc := (getThread s1 fr.core cast lane).scene
    if bufferFull s1 fr.core cast then .hold s1
    else if sc.count ≥ sc.budget then .fault (plainFault fr 0x0C sc.budget)
    else
      let st : BufStore := { seq := s1.issued, pc := fr.pc, kind, off, bytes := bs }
      .done (modThread s1 fr.core cast lane fun t =>
        { t with scene := { t.scene with count := t.scene.count + 1, stores := t.scene.stores ++ [st] } }) {}) s

/-- Is some byte of a load that the thread's own stores do not give poisoned? -/
def loadPoisoned (same : BufStore → Bool) (off n : Nat) (stores : List BufStore) (bad : Nat → Bool) : Bool :=
  (span off n).any fun o => bad o && !forwards same o stores

/-- Put the value of a home access that was sent in clk `sent` on its way back to its thread (R156, R167). -/
def sendResponseSince (s : State) (sent : Nat) (r : Response) : State :=
  { s with responses := s.responses ++ [{ r with ctx := coreCtx s (agentCore r.agent), sent }] }

/-- Put the value of a home access on its way back to its thread. -/
def sendResponse (s : State) (r : Response) : State := sendResponseSince s (coreClk s (agentCore r.agent)) r

/-- The value that a load returns: through a shared-volatile capability the logged one in rehearsal mode, and one that is recorded
(R147, R396). -/
def returnLoad {α : Type} (s : State) (c : Cap) (who : Agent) (n value : Nat) (hold : State → α) (k : State → Nat → α) : α :=
  if capHas c 7 then
    match nextValue s who n with
    | .ended => hold (haltDivergence s who)
    | .value x => k (noteValue s who n x) x
    | .live => k (noteValue s who n value) value
  else k s value

/-- The load's event for the stride prefetcher, in the group's lowest active lane (R284). -/
def noteTraining (s : State) (fr : Frame) (cast lane : Nat) (c : Cap) (off : Int) : State :=
  if fr.lead = some (cast, lane) && fr.op.mod.toNat / 8 % 4 ≠ 1 && !capHas c 7 then
    modThread s fr.core cast lane fun t =>
      if t.scene.training.length < 4 then
        { t with scene := { t.scene with
            training := t.scene.training ++ [{ seq := s.issued, pc := fr.pc, cap := c, off := off.toNat }] } }
      else t
  else s

/-- The bytes of a home read by a core for the instruction at `pc`, a home access with its signature (R287): the core's own
copy of the line is written back and dropped first, and the read waits until the home has applied every write of the core to
the line (R234, R238); then the vector is merged and the check made (R244, R354). None while it waits. -/
def homeRead (s : State) (core ctx : Nat) (pc : Word) (p : TlbEntry) (off n : Nat) : State × Option (List Byte) :=
  let key := pageByte p off
  let line := key / 64
  let s1 := ejectLine s core line
  if (ownWrites s1 core line).isEmpty then
    let s2 := readHome (mergeRead (spendToken s1 core) (dieOfCore core) line) line p.cls ctx (some (sigL2 pc)) false
    (s2, some (homeBytes s2 key n))
  else (s1, none)

/-- Is a byte of a page poisoned at its home? -/
def homePoison (s : State) (p : TlbEntry) (off : Nat) : Bool := p.poisoned || nmem (pageByte p off / 64) s.poison

/-- The floor of an LD (R358): the lowest rung it accepts. -/
def floorRung (op : Op) : Nat := 2 - op.fslot.toNat % 4

/-- The tiles a scene renews: is this one among them? -/
def renews (rs : List (Cap × Nat)) (oid n : Nat) : Bool := rs.any fun r => capOid r.1 == oid && r.2 == n

/-- Enter a tile in the scene's renewals (R366). -/
def addRenewal (s : State) (fr : Frame) (cast lane : Nat) (c : Cap) (n : Nat) : RoomStep :=
  let t := getThread s fr.core cast lane
  let add (s : State) : State := modThread s fr.core cast lane fun t =>
    { t with scene := { t.scene with renewals := t.scene.renewals ++ [(c, n)] } }
  if renews t.scene.renewals (capOid c) n then .ok s
  else if t.scene.renewals.length < 16 then .ok (add s)
  else match makeRoom s fr cast lane with
    | .ok s1 => .ok (add s1)
    | r => r

/-- LD through a Fugitive capability (R359). -/
def ldFugitive (fr : Frame) (cast lane : Nat) (c : Cap) (off : Int) (s : State) : LaneStep :=
  let fn := coreFn s fr.core
  let ctx := coreCtx s fr.core
  let mode := fr.op.mod.toNat
  let n := widthBytes mode
  let v := viaOf fr .a 1
  let q : Port := { fn, ctx, core := some fr.core }
  let who := Agent.lane fr.core cast lane
  match accessFug s fr.core fn ctx v c off n [0] (getThread s fr.core cast lane).denied with
  | .fault f => .fault f
  | .page s1 k => .page s1 k
  | .stop f => .stop f
  | .ok s1 f =>
    let e := (effective c off).toNat
    let tile := e / 512
    let oid := capOid c
    let b := e / 64 % 8
    if kclassFail (coreBill s1 fr.core).kclass (mode / 32 % 4) 3 then .fault (memFault v 0x04 c e 0x80)
    else if descRung (fugDesc s1 q oid f tile) b > floorRung fr.op then
      if fr.op.fslot.toNat / 4 % 2 = 1 then .fault (memFault v 0x04 c e 0x100)
      else returnLoad s1 c who n 0 .hold fun s2 value =>
        .done (noteTraining s2 fr cast lane c off)
          { destEff fr value with p := if fr.op.grd = 7 then [] else [(fr.op.grd.toNat, fr.op.gneg)] }
    else
      let x := readFugBlock s1 fr.core fn ctx oid f e fr.pc
      let stores := (getThread s1 fr.core cast lane).scene.stores
      if x.poison && loadPoisoned (toObject oid) e n stores (fun _ => true) then .faultAt x.state (memFault v 0x05 c e)
      else
        let bs := forward (toObject oid) e ((x.bytes.drop (e % 64)).take n) stores
        let missed := (blockLine s1 q oid f tile b).bind (farLine x.state fr.core)
        returnLoad x.state c who n (extendLoad mode 32 bs) .hold fun s2 value =>
          let s3 := noteAccess (noteTraining s2 fr cast lane c off) fr.core cast lane
            { oid, off := e, size := n, kind := .read, value := BitVec.ofNat 32 value, pc := fr.pc }
          withRoom (if mode / 128 % 2 = 1 then addRenewal s3 fr cast lane c tile else .ok s3)
            (fun s4 => .done s4 { destEff fr value with missed }) s

/-- LD through a shared-volatile capability: a home access, whose value returns later (R147, R156, R238). -/
def ldVolatile (fr : Frame) (cast lane : Nat) (c : Cap) (e : Nat) (p : TlbEntry) (s : State) : LaneStep :=
  let who := Agent.lane fr.core cast lane
  let mode := fr.op.mod.toNat
  let n := widthBytes mode
  let line := pageByte p e / 64
  let far := outsideL2 s line
  let stores := (getThread s fr.core cast lane).scene.stores
  match homeRead s fr.core (coreCtx s fr.core) fr.pc p e n with
  | (s1, none) => .hold s1
  | (s1, some bs) =>
    if loadPoisoned (toObject (capOid c)) e n stores (homePoison s1 p) then .faultAt s1 (memFault (viaOf fr .a 1) 0x05 c e)
    else
      let send (value : Nat) : LaneStep :=
        let s2 := noteAccess (noteValue s1 who n value) fr.core cast lane
          { oid := capOid c, off := e, size := n, kind := .read, value := BitVec.ofNat 32 value, pc := fr.pc }
        let regs := (destEff fr value).v.map fun r => (r.1, BitVec.ofNat 64 r.2.toNat)
        .done (sendResponse s2 { agent := who, regs, flag := none, acquire := none, pc := fr.pc, line := some line, far })
          { wait := .response, missed := if far then some line else none }
      match nextValue s who n with
      | .ended => .hold (haltDivergence s who)
      | .value x => send x
      | .live => send (extendLoad mode 32 (forward (toObject (capOid c)) e bs stores))

/-- LD in a lane (R151). -/
def bodyLd : Body := fun fr cast lane s =>
  let c := laneCap s fr.core cast fr.op.a.toNat
  let off := laneOff s fr cast lane
  let fn := coreFn s fr.core
  let ctx := coreCtx s fr.core
  let mode := fr.op.mod.toNat
  let n := widthBytes mode
  let v := viaOf fr .a 1
  if isFug s fn c then ldFugitive fr cast lane c off s
  else match accessOne s fr.core fn ctx v c off n [0] (getThread s fr.core cast lane).denied with
    | .fault f => .fault f
    | .page s1 k => .page s1 k
    | .stop f => .stop f
    | .ok s1 p =>
      let e := (effective c off).toNat
      if kclassFail (coreBill s1 fr.core).kclass (mode / 32 % 4) p.cls then .fault (memFault v 0x04 c e 0x80)
      else if capHas c 7 then ldVolatile fr cast lane c e p s1
      else
        let line := pageByte p e / 64
        let cm := mode / 8 % 4
        let s2 := loadLine s1 fr.core line p.cls ctx fr.pc (cm ≠ 1) (cm = 2)
        let stores := (getThread s2 fr.core cast lane).scene.stores
        let w := loadView s2 fr.core line
        if loadPoisoned (toObject (capOid c)) e n stores (fun _ => p.poisoned || w.poison) then
          .faultAt s2 (memFault v 0x05 c e)
        else
          let bs := forward (toObject (capOid c)) e (takeBytes w.data (pageByte p e % 64) n) stores
          let s3 := noteAccess (noteTraining s2 fr cast lane c off) fr.core cast lane
            { oid := capOid c, off := e, size := n, kind := .read, value := BitVec.ofNat 32 (ofBytes bs), pc := fr.pc }
          .done s3 { destEff fr (extendLoad mode 32 bs) with missed := farLine s2 fr.core line }

/-- ST in a lane (R152, R367). -/
def bodySt : Body := fun fr cast lane s =>
  let c := laneCap s fr.core cast fr.op.a.toNat
  let off := laneOff s fr cast lane
  let fn := coreFn s fr.core
  let ctx := coreCtx s fr.core
  let n := widthBytes fr.op.mod.toNat
  let v := viaOf fr .a 2
  let denied := (getThread s fr.core cast lane).denied
  let bs := toBytes n (laneSrc s fr cast lane .c)
  let e := effective c off
  if isFug s fn c then
    match accessFug s fr.core fn ctx v c off n [1] denied with
    | .fault f => .fault f
    | .page s1 k => .page s1 k
    | .stop f => .stop f
    | .ok s1 f =>
      if descSt (fugDesc s1 (corePort s1 fr.core) (capOid c) f (e.toNat / 512)) ≠ 0 then .fault (memFault v 0x04 c e 0x100)
      else bufferStore s1 fr cast lane (.mem c false) e.toNat bs
  else match accessOne s fr.core fn ctx v c off n [1] denied with
    | .fault f => .fault f
    | .page s1 k => .page s1 k
    | .stop f => .stop f
    | .ok s1 _ => bufferStore s1 fr cast lane (.mem c false) e.toNat bs

/-- The scratchpad offset of LDS, STS and ATOMS (R150, R151). -/
def spadOff (s : State) (fr : Frame) (cast lane : Nat) : Int := (laneSrc s fr cast lane .a : Int) + immOf fr.op

/-- Is a scratchpad access of `n` bytes out of bounds or misaligned (R142, R151)? -/
def spadFails (s : State) (core : Nat) (off : Int) (n : Nat) : Bool :=
  decide (off < 0 ∨ off + n > spadSize (coreBill s core) ∨ off % (n : Int) ≠ 0)

/-- LDS in a lane (R142, R143, R151). -/
def bodyLds : Body := fun fr cast lane s =>
  let n := widthBytes fr.op.mod.toNat
  let off := spadOff s fr cast lane
  if spadFails s fr.core off n then .fault (spadFault fr 0x02 1 off)
  else
    let o := off.toNat
    let c := getCore s fr.core
    if rangeBusy c o n then .hold s
    else
      let stores := (getThread s fr.core cast lane).scene.stores
      if loadPoisoned toSpad o n stores (fun i => nmem (i / 64) c.spadPoison) then .fault (spadFault fr 0x05 1 off)
      else .done s (destEff fr (extendLoad fr.op.mod.toNat 32 (forward toSpad o (bytesAt o n c.spad) stores)))

/-- STS in a lane (R150, R152). -/
def bodySts : Body := fun fr cast lane s =>
  let n := widthBytes fr.op.mod.toNat
  let off := spadOff s fr cast lane
  if spadFails s fr.core off n then .fault (spadFault fr 0x02 2 off)
  else bufferStore s fr cast lane .spad off.toNat (toBytes n (laneSrc s fr cast lane .b))

/-- PFCH in a lane (R154). -/
def bodyPfch : Body := fun fr cast lane s =>
  let c := laneCap s fr.core cast fr.op.a.toNat
  .done (prefetchAt s fr.core (coreFn s fr.core) (coreCtx s fr.core) c (effective c (laneOff s fr cast lane)) fr.pc
    (fr.op.mod = 0)) {}

/-! ### The cue thread -/

/-- The page that the host has refused to the cue thread. -/
def cueDenied (s : State) (core : Nat) : Option PageKey :=
  match getCue s core with
  | some q => q.denied
  | none => none

/-- The memory offset of an operand in cue mode (R130). -/
def cueOff (fr : Frame) (b : DWord) : Int := (b.toNat : Int) + immOf fr.op

/-- The stores to memory that wait in the command buffer, as stores of a scene (R184, R234). -/
def bufferedStores (s : State) (core : Nat) : List BufStore :=
  match getCue s core with
  | none => []
  | some q => q.buf.filterMap fun cmd =>
    match cmd.instr with
    | .st op =>
      let c := cueCap s core op.a.toNat
      let fr := frameAt core cmd.pc .st op
      some { seq := cmd.id, pc := cmd.pc, kind := .mem c false, off := (effective c (cueOff fr cmd.b)).toNat,
             bytes := toBytes (widthBytes op.mod.toNat) cmd.c.toNat }
    | _ => none

/-- Do two offsets of objects lie in one line, as far as their pages tell? -/
def sameLine (s : State) (core : Nat) (a b : Nat × Nat) : Bool :=
  match resolve s (corePort s core) a.1 a.2, resolve s (corePort s core) b.1 b.2 with
  | some x, some y => x / 64 == y / 64
  | _, _ => a.1 == b.1

/-- Must a load of the cue thread at offset `e` of an object wait for a buffered command: an acquire, an atomic on the line, a queue
operation on the object, or a STEP of it, whose effect the load must see (R234, R241, R248; DESIGN CHOICE, log 17)? -/
def commandBars (s : State) (core oid e : Nat) (cmd : Command) : Bool :=
  match opcOf cmd.instr with
  | none => false
  | some (o, op) =>
    let c := cueCap s core op.a.toNat
    match o with
    | .acq => true
    | .qdeq => true
    | .atom => op.mod.toNat.testBit 4
        || sameLine s core (oid, e) (capOid c, (effective c (cueOff (frameAt core cmd.pc o op) cmd.b)).toNat)
    | .qenq => capOid c == oid
    | .step => capOid c == oid
    | _ => false

/-- Is a STEP of the cue thread on an object at work (R248)? -/
def stepRuns (s : State) (core oid : Nat) : Bool :=
  (getCore s core).xfers.any fun x => x.kind == .step && x.agent == .cue core && (match x.src with
    | .mem c _ => capOid c == oid
    | _ => false)

/-- Must a load of the cue thread at offset `e` of an object wait: for a buffered command, for a STEP at work? -/
def loadWaits (s : State) (core oid e : Nat) (q : Cue) : Bool := q.buf.any (commandBars s core oid e) || stepRuns s core oid

/-- LD of the cue thread through a Fugitive capability, under stores that wait in the buffer (R359). -/
def cueLdFug (fr : Frame) (c : Cap) (off : Int) (stores : List BufStore) (s : State) : CueStep :=
  let fn := coreFn s fr.core
  let ctx := coreCtx s fr.core
  let mode := fr.op.mod.toNat
  let n := widthBytes mode
  let v := viaOf fr .a 1
  let e := (effective c off).toNat
  match accessFug s fr.core fn ctx v c off n [0] (cueDenied s fr.core) with
  | .fault f => .fault f
  | .page s1 k => .page s1 k
  | .stop f => .stop f
  | .ok s1 f =>
    let renew := mode / 128 % 2 = 1
    let rung := descRung (fugDesc s1 (corePort s1 fr.core) (capOid c) f (e / 512)) (e / 64 % 8)
    if kclassFail (coreBill s1 fr.core).kclass (mode / 32 % 4) 3 then .fault (memFault v 0x04 c e 0x80)
    else if rung > floorRung fr.op then
      if fr.op.fslot.toNat / 4 % 2 = 1 then .fault (memFault v 0x04 c e 0x100)
      else returnLoad s1 c (.cue fr.core) n 0 .hold fun s2 value => .done s2 (some (BitVec.ofNat 64 value)) none
    else
      let x := readFugBlock s1 fr.core fn ctx (capOid c) f e fr.pc
      if x.poison && loadPoisoned (toObject (capOid c)) e n stores (fun _ => true) then
        .faultAt x.state (memFault v 0x05 c e)
      else if renew && !mayStamp s1 [dieOfCore fr.core] then .hold s1
      else
        let bs := forward (toObject (capOid c)) e ((x.bytes.drop (e % 64)).take n) stores
        returnLoad x.state c (.cue fr.core) n (extendLoad mode 64 bs) .hold fun s2 value =>
          .done (if renew then performRenewal s2 fr.core c (e / 512) else s2) (some (BitVec.ofNat 64 value)) none

/-- LD of the cue thread that is no home access (R151). -/
def cueLd : CueBody := fun fr _ b _ s =>
  let c := cueCap s fr.core fr.op.a.toNat
  let off := cueOff fr b
  let fn := coreFn s fr.core
  let ctx := coreCtx s fr.core
  let mode := fr.op.mod.toNat
  let n := widthBytes mode
  let v := viaOf fr .a 1
  let e := (effective c off).toNat
  let stores := bufferedStores s fr.core
  let wait := match getCue s fr.core with
    | some q => loadWaits s fr.core (capOid c) e q || (mode / 128 % 2 = 1 && !q.checks.isEmpty)
    | none => false
  if wait then .hold s
  else if isFug s fn c then cueLdFug fr c off stores s
  else match accessOne s fr.core fn ctx v c off n [0] (cueDenied s fr.core) with
    | .fault f => .fault f
    | .page s1 k => .page s1 k
    | .stop f => .stop f
    | .ok s1 p =>
      if kclassFail (coreBill s1 fr.core).kclass (mode / 32 % 4) p.cls then .fault (memFault v 0x04 c e 0x80)
      else
        let line := pageByte p e / 64
        let cm := mode / 8 % 4
        let s2 := loadLine s1 fr.core line p.cls ctx fr.pc (cm ≠ 1) (cm = 2)
        let w := loadView s2 fr.core line
        if loadPoisoned (toObject (capOid c)) e n stores (fun _ => p.poisoned || w.poison) then
          .faultAt s2 (memFault v 0x05 c e)
        else
          let bs := forward (toObject (capOid c)) e (takeBytes w.data (pageByte p e % 64) n) stores
          .done s2 (some (BitVec.ofNat 64 (extendLoad mode 64 bs))) none

/-- LD of the cue thread through a shared-volatile capability, once nothing precedes it (R147, R184). -/
def cueLdVolatile : CueBody := fun fr _ b _ s =>
  let c := cueCap s fr.core fr.op.a.toNat
  let off := cueOff fr b
  let mode := fr.op.mod.toNat
  let n := widthBytes mode
  let v := viaOf fr .a 1
  let who := Agent.cue fr.core
  if isFug s (coreFn s fr.core) c then cueLdFug fr c off [] s
  else match accessOne s fr.core (coreFn s fr.core) (coreCtx s fr.core) v c off n [0] (cueDenied s fr.core) with
  | .fault f => .fault f
  | .page s1 k => .page s1 k
  | .stop f => .stop f
  | .ok s1 p =>
    let e := (effective c off).toNat
    let line := pageByte p e / 64
    let far := outsideL2 s1 line
    if kclassFail (coreBill s1 fr.core).kclass (mode / 32 % 4) p.cls then .fault (memFault v 0x04 c e 0x80)
    else
      match homeRead s1 fr.core (coreCtx s1 fr.core) fr.pc p e n with
      | (s2, none) => .hold s2
      | (s2, some bs) =>
        if (span e n).any (homePoison s2 p) then .faultAt s2 (memFault v 0x05 c e)
        else
          let send (value : Nat) : CueStep :=
            .await (sendResponse (noteValue s2 who n value)
              { agent := who, regs := [(fr.op.d.toNat, BitVec.ofNat 64 value)], flag := none, acquire := none, pc := fr.pc
                line := some line, far })
          match nextValue s1 who n with
          | .ended => .hold (haltDivergence s1 who)
          | .value x => send x
          | .live => send (extendLoad mode 64 bs)

/-- ST of the cue thread (R152, R184). -/
def cueSt : CueBody := fun fr _ b x s =>
  let c := cueCap s fr.core fr.op.a.toNat
  let off := cueOff fr b
  let fn := coreFn s fr.core
  let ctx := coreCtx s fr.core
  let n := widthBytes fr.op.mod.toNat
  let v := viaOf fr .a 2
  let e := effective c off
  let st : BufStore := { seq := 0, pc := fr.pc, kind := .mem c false, off := e.toNat, bytes := toBytes n x.toNat }
  if isFug s fn c then
    match accessFug s fr.core fn ctx v c off n [1] (cueDenied s fr.core) with
    | .fault f => .fault f
    | .page s1 k => .page s1 k
    | .stop f => .stop f
    | .ok s1 f =>
      if descSt (fugDesc s1 (corePort s1 fr.core) (capOid c) f (e.toNat / 512)) ≠ 0 then .fault (memFault v 0x04 c e 0x100)
      else .done (landStore s1 fr.core st) none none
  else match accessOne s fr.core fn ctx v c off n [1] (cueDenied s fr.core) with
    | .fault f => .fault f
    | .page s1 k => .page s1 k
    | .stop f => .stop f
    | .ok s1 _ =>
      match storeReady s1 fr.core st with
      | .ready => if capHas c 7 && !mayStamp s1 [storeDie s1 fr.core st] then .hold s else .done (landStore s1 fr.core st) none none
      | .held => .hold s
      | .page k => .page s1 k
      | .stop f => .stop f

/-- PFCH of the cue thread (R154). -/
def cuePfch : CueBody := fun fr _ b _ s =>
  let c := cueCap s fr.core fr.op.a.toNat
  .done (prefetchAt s fr.core (coreFn s fr.core) (coreCtx s fr.core) c (effective c (cueOff fr b)) fr.pc (fr.op.mod = 0))
    none none

end Sys2Proof.Machine
end

