-- ==== Sys2Proof/Machine/Pair.lean ====
section
/-! DEFINITION. What each opcode that can be the second operation of a pair does in a lane (R48 to R50). -/

namespace Sys2Proof.Machine

/-- MOVL in a lane (R99). -/
def bodyMovl : Body := fun fr _ _ s => .done s (destEff fr (wrap (immOf fr.op) 32))

/-- The index that VIDX gives a thread (R99). -/
def threadIndex (b : Playbill) (cast lane sel : Nat) : Nat :=
  match sel with
  | 0 => gidx b cast lane
  | 1 => lane
  | _ => cast

/-- VIDX in a lane (R99). -/
def bodyVidx : Body := fun fr cast lane s =>
  .done s (destEff fr (threadIndex (coreBill s fr.core) cast lane fr.op.mod.toNat))

/-- The second operation of a pair in a lane: an integer, a floating-point or a memory instruction. Pairs of other opcodes
are no instruction (R48). -/
def secondBody (t : Second) : Body :=
  match t.opc with
  | .iadd => aluBody fIadd
  | .isub => aluBody fIsub
  | .imul => aluBody fImul
  | .imulh => aluBody fImulh
  | .imad => aluBody fImad
  | .imin => aluBody fImin
  | .imax => aluBody fImax
  | .iabs => aluBody fIabs
  | .ineg => aluBody fIneg
  | .iadds => aluBody fIadds
  | .isubs => aluBody fIsubs
  | .icmp => aluBody fIcmp
  | .sel => aluBody fSel
  | .mov => aluBody fMov
  | .and => aluBody fAnd
  | .or => aluBody fOr
  | .xor => aluBody fXor
  | .andn => aluBody fAndn
  | .not => aluBody fNot
  | .shl => aluBody fShl
  | .shr => aluBody fShr
  | .sar => aluBody fSar
  | .rol => aluBody fRol
  | .bfx => aluBody fBfx
  | .bfi => aluBody fBfi
  | .popc => aluBody fPopc
  | .clz => aluBody fClz
  | .ctz => aluBody fCtz
  | .brev => aluBody fBrev
  | .plog => aluBody fPlog
  | .padd16 => aluBody fPadd16
  | .psub16 => aluBody fPsub16
  | .pmul16 => aluBody fPmul16
  | .pmac16 => aluBody fPmac16
  | .padd8 => aluBody fPadd8
  | .pdot8 => aluBody fPdot8
  | .shrr => aluBody fShrr
  | .satn => aluBody fSatn
  | .pmin16 => aluBody fPmin16
  | .pmax16 => aluBody fPmax16
  | .add64 => aluBody fAdd64
  | .sub64 => aluBody fSub64
  | .shl64 => aluBody fShl64
  | .shr64 => aluBody fShr64
  | .mul32w => aluBody fMul32w
  | .movl => bodyMovl
  | .vidx => bodyVidx
  | .fadd => aluBody fFadd
  | .fsub => aluBody fFsub
  | .fmul => aluBody fFmul
  | .ffma => aluBody fFfma
  | .fmin => aluBody fFmin
  | .fmax => aluBody fFmax
  | .fabs => aluBody fFabs
  | .fneg => aluBody fFneg
  | .fcmp => aluBody fFcmp
  | .fclass => aluBody fFclass
  | .frcp => aluBody fFrcp
  | .frsq => aluBody fFrsq
  | .fsqrt => aluBody fFsqrt
  | .fexp2 => aluBody fFexp2
  | .flog2 => aluBody fFlog2
  | .ftanh => aluBody fFtanh
  | .frnd => aluBody fFrnd
  | .fscale => aluBody fFscale
  | .cvt => aluBody fCvt
  | .cvtd => aluBody fCvtd
  | .hadd2 => aluBody fHadd2
  | .hmul2 => aluBody fHmul2
  | .hfma2 => aluBody fHfma2
  | .fdot2 => aluBody fFdot2
  | .ld => bodyLd
  | .st => bodySt
  | .lds => bodyLds
  | .sts => bodySts
  | .pfch => bodyPfch
  | _ => fun fr _ _ _ => .fault (illegalFault fr (encodeWord0 fr.o fr.op))

/-- The answer of an instruction that nobody executes: nothing happens. -/
def idle (s : State) : Out := .next s

/-- An instruction of register operands for whoever executes it: lanes, with a pair's second operation, or the cue thread. -/
def execAlu (o : Opc) (f : AluIn → AluOut) (op : Op) (s : State) : Out :=
  match s.actor with
  | .lanes core ths => runLanes o op false (aluBody f) secondBody core ths s
  | .cue core _ => runCueNow o op (aluCue f) core s
  | .none => idle s

/-- An instruction of lanes. -/
def execLane (o : Opc) (commits : Bool) (body : Body) (op : Op) (s : State) : Out :=
  match s.actor with
  | .lanes core ths => runLanes o op commits body secondBody core ths s
  | .cue core _ => runCueNow o op (fun fr _ _ _ _ => .fault (illegalFault fr (encodeWord0 o op))) core s
  | .none => idle s

/-- A gathering instruction. -/
def execGather (o : Opc) (g : GatherSpec) (op : Op) (s : State) : Out :=
  match s.actor with
  | .lanes core ths => reachGather o op g core ths s
  | .cue core _ => runCueNow o op (fun fr _ _ _ _ => .fault (illegalFault fr (encodeWord0 o op))) core s
  | .none => idle s

/-- An instruction of the cue thread that executes at once; no lane may execute it. -/
def execCue (o : Opc) (body : CueBody) (op : Op) (s : State) : Out :=
  match s.actor with
  | .lanes core ths => runLanes o op false (fun fr _ _ _ => .fault (illegalFault fr (encodeWord0 o op))) secondBody core ths s
  | .cue core _ => runCueNow o op body core s
  | .none => idle s

/-- An instruction of lanes and of the cue thread, which executes it at once. -/
def execBoth (o : Opc) (commits : Bool) (body : Body) (cue : CueBody) (op : Op) (s : State) : Out :=
  match s.actor with
  | .lanes core ths => runLanes o op commits body secondBody core ths s
  | .cue core _ => runCueNow o op cue core s
  | .none => idle s

/-- An instruction of lanes and of the cue thread, which buffers it. -/
def execBuffered (o : Opc) (commits : Bool) (body : Body) (cue : CueBody) (op : Op) (s : State) : Out :=
  match s.actor with
  | .lanes core ths => runLanes o op commits body secondBody core ths s
  | .cue core hold => runCueBuffered o op cue core hold s
  | .none => idle s

end Sys2Proof.Machine
end

