-- ==== Sys2Proof/Machine/Fetch.lean ====
section
/-! DEFINITION. Fetch and the turns that run words: the instruction caches, the checks of R34, which groups may issue (R33,
R34, R55, R166, R175 to R181, R226, R249). -/

namespace Sys2Proof.Machine

/-- What a fetch gives. -/
inductive FetchStep where
  | ok (s : State) (ws : List Word)
  | fault (f : FaultInfo)
  | page (s : State) (k : PageKey)
  | stop (f : Fault)

/-- Fetch as an access: capability register 0x7C, ACC 0b11 (R217, R219). No operation is known yet: OP is 0 (DESIGN CHOICE, log 69). -/
def viaFetch : Via := { reg := 0x7C, acc := 3, opcode := 0 }

/-- Does the instruction cache entry hold the word at an offset? -/
def codeAt (fn oid off : Nat) (w : CodeWord) : Bool := w.fn == fn && w.oid == oid && w.off == off

/-- The word that a thread of a code epoch still holds of code marked stale since (R226): the oldest such. -/
def heldCode (c : Core) (fn oid off epoch : Nat) : Option Word :=
  ((c.code.filter fun w => codeAt fn oid off w && (match w.stale with
    | some t => epoch < t
    | none => false)).foldl (fun (best : Option (Nat × Word)) w =>
      match best, w.stale with
      | some (t, x), some u => if u < t then some (u, w.word) else some (t, x)
      | none, some u => some (u, w.word)
      | b, none => b) none).map Prod.snd

/-- The word that the cache holds unmarked. -/
def freshCode (c : Core) (fn oid off : Nat) : Option Word :=
  (c.code.find? fun w => codeAt fn oid off w && w.stale.isNone).map CodeWord.word

/-- Put a word in the instruction cache, unmarked. -/
def putCode (fn oid off : Nat) (word : Word) (c : Core) : Core :=
  { c with code := { fn, oid, off, word, stale := none } :: c.code.filter fun w => !(codeAt fn oid off w && w.stale.isNone) }

/-- A request of an instruction cache for a line leaves the core's port, unless one for the line is on its way (R167, R269, R272). -/
def fetchRequest (s : State) (core ctx line : Nat) : State :=
  if (getCore s core).misses.any fun m => m.line == line && !m.share then s
  else openRequest (spendToken s core) core line ctx

/-- Fill a word from its home, whose L2 installs the line without a signature (DESIGN CHOICE, log 79). -/
def fillCode (s : State) (core fn ctx : Nat) (cap : Cap) (pc off : Nat) (denied : Option PageKey) : FetchStep :=
  let oid := capOid cap
  match translate s core fn ctx oid off with
  | (.valid p, s1) =>
    if classFail cap p.tier p.cls then .fault (memFault viaFetch 0x04 cap pc)
    else
      let key := pageByte p off
      let s2 := readHome (fetchRequest s1 core ctx (key / 64)) (key / 64) p.cls ctx none false
      if p.poisoned || nmem (key / 64) s2.poison then .fault (memFault viaFetch 0x05 cap pc)
      else
        let w : Word := BitVec.ofNat 32 (homeNat s2 key 4)
        .ok (modCore s2 core (putCode fn oid off w)) [w]
  | (p, s1) =>
    match missingPage (α := Unit) s1 fn ctx viaFetch cap pc denied off p with
    | .ok s2 _ => .ok s2 []
    | .fault f => .fault f
    | .page s2 k => .page s2 k
    | .stop f => .stop f

/-- Fetch through a Fugitive capability: fetch is none of the accesses that R368 admits, so it raises the faults of R360 or the class
fault. DEDUCED, log 86. -/
def fetchFug (s : State) (core fn ctx : Nat) (cap : Cap) (pc off : Nat) (denied : Option PageKey) : FetchStep :=
  match accessFug s core fn ctx viaFetch cap ((off : Int) - capLower cap) 4 [2] denied with
  | .ok _ _ => .fault (memFault viaFetch 0x04 cap pc)
  | .fault f => .fault f
  | .page s1 k => .page s1 k
  | .stop f => .stop f

/-- One word of the instruction at `pc` for a thread of a code epoch. An unmarked word whose home has changed is read afresh
or not: a free choice (DESIGN CHOICE, log 10). -/
def fetchWord (s : State) (core fn ctx : Nat) (cap : Cap) (epoch pc off : Nat) (denied : Option PageKey) : FetchStep :=
  if isFug s fn cap then fetchFug s core fn ctx cap pc off denied
  else if boundsFail s fn cap off 4 false then .fault (memFault viaFetch 0x02 cap pc)
  else if !capHas cap 2 then .fault (memFault viaFetch 0x03 cap pc)
  else
    match heldCode (getCore s core) fn (capOid cap) off epoch with
    | some w => .ok s [w]
    | none =>
      match freshCode (getCore s core) fn (capOid cap) off with
      | none => fillCode s core fn ctx cap pc off denied
      | some w =>
        match resolve s { fn, ctx, core := some core } (capOid cap) off with
        | none => .ok s [w]
        | some key =>
          if homeNat s key 4 = w.toNat || Config.freeBit s.tick off then .ok s [w]
          else fillCode s core fn ctx cap pc off denied

/-- `n` words from `off`. -/
def fetchMore (s : State) (core fn ctx : Nat) (cap : Cap) (epoch pc : Nat) (denied : Option PageKey) :
    Nat → Nat → FetchStep
  | 0, _ => .ok s []
  | n + 1, off =>
    match fetchWord s core fn ctx cap epoch pc off denied with
    | .ok s1 ws =>
      match fetchMore s1 core fn ctx cap epoch pc denied n (off + 4) with
      | .ok s2 more => .ok s2 (ws ++ more)
      | r => r
    | r => r

/-- The object offset from which a PC of 32 bits counts: 0 for the code of every launch that R255 admits; a predicate's program may
stand higher (R395; DESIGN CHOICE, log 22). -/
def codeBase (cap : Cap) : Nat := capLower cap / 2 ^ 32 * 2 ^ 32

/-- The words of the instruction at `pc` (R32, R34): the first, then as many more as its LEN says. -/
def fetchAt (s : State) (core epoch : Nat) (pc : Word) (denied : Option PageKey) : FetchStep :=
  let fn := coreFn s core
  let ctx := coreCtx s core
  let cap := (coreBill s core).code
  let at' := codeBase cap + pc.toNat
  match fetchWord s core fn ctx cap epoch at' at' denied with
  | .ok s1 (w :: _) =>
    match fetchMore s1 core fn ctx cap epoch at' denied (formWords (formOfLen (wordField w 0 2)) - 1) (at' + 4) with
    | .ok s2 ws => .ok s2 (w :: ws)
    | r => r
  | r => r

/-! ### Which threads may issue -/

/-- Are the threads of a list strictly ascending by cast and lane? -/
def ascending : List (Nat × Nat) → Bool
  | [] => true
  | [_] => true
  | a :: b :: rest => (decide (a.1 < b.1) || (a.1 == b.1 && decide (a.2 < b.2))) && ascending (b :: rest)

/-- Is the thread filed in a bin not yet drawn (R181)? -/
def filed (p : Partition) (th : Nat × Nat) : Bool := p.bins.any fun e => e.2.threads.contains th

/-- May a thread issue (R52, R178, R179, R181, R395)? -/
def threadMayIssue (s : State) (core : Nat) (th : Nat × Nat) : Bool :=
  let t := getThread s core th.1 th.2
  let p := getPart s core (getCast s core th.1).part
  t.live && t.wait == .ready && t.performed.isEmpty && decide (t.rest ≤ coreClk s core) && p.active.any (fun e => e.1 == th.1)
    && !(p.swapping.any fun e => e.1 == th.1) && !filed p th

/-- The context of a core runs. -/
def contextRuns (s : State) (core : Nat) : Bool :=
  (getCore s core).launch.isSome && (getContext s (coreCtx s core)).run == .running

/-- May the threads issue as one group: of one cast, or of one drawn bin, at one PC (R175, R177)? -/
def groupMayIssue (s : State) (core : Nat) (ths : List (Nat × Nat)) : Bool :=
  match ths with
  | [] => false
  | th :: _ =>
    let t := getThread s core th.1 th.2
    let part := (getCast s core th.1).part
    contextRuns s core && ascending ths && ths.all (threadMayIssue s core)
      && ths.all (fun x => (getThread s core x.1 x.2).pc == t.pc && (getThread s core x.1 x.2).codeEpoch == t.codeEpoch)
      && (ths.all (fun x => x.1 == th.1)
        || (ths.all (fun x => (getCast s core x.1).part == part)
            && (getPart s core part).drawn.any fun g => ths.all g.contains))

/-- What a turn comes to: an instruction to execute, or an outcome at once. -/
inductive Issue where
  | run (i : Instr) (s : State)
  | settled (o : Out)

/-- The fault of words that are no instruction (R55). -/
def undecodable (ws : List Word) : FaultInfo :=
  let w := ws.headD 0
  { code := 0x01, info := w, opcode := wordField w 9 8 }

/-- A thread of a cluster's context issues: from the first issue on the deficit falls (R268). -/
def noteIssue (s : State) (core : Nat) : State :=
  let n := clusterOfCore core
  if (getCluster s n).issued then s else modCluster s n fun c => { c with issued := true }

/-- The turn of an issue group. -/
def issueLanes (s : State) (core : Nat) (ths : List (Nat × Nat)) : Issue :=
  if !groupMayIssue s core ths then .settled (.next s)
  else
    let th := ths.headD (0, 0)
    let t := getThread s core th.1 th.2
    match fetchAt s core t.codeEpoch t.pc t.denied with
    | .ok s1 ws =>
      match decodeWords ws with
      | .ok i => .run i { noteIssue s1 core with actor := .lanes core ths }
      | .error _ => .settled (.next (faultAll s1 core ths (undecodable ws)))
    | .fault f => .settled (.next (faultAll s core ths f))
    | .page s1 k => .settled (.next (ths.foldl (fun s th => restartThread s core th.1 th.2 k) s1))
    | .stop f => .settled (.fault f)

/-- The turn of a cue thread. -/
def issueCue (s : State) (core : Nat) (hold : Bool) : Issue :=
  match getCue s core with
  | none => .settled (.next s)
  | some q =>
    if !(contextRuns s core && cueMayIssue q) then .settled (.next s)
    else
      match fetchAt s core q.codeEpoch q.pc q.denied with
      | .ok s1 ws =>
        match decodeWords ws with
        | .ok i => .run i { noteIssue s1 core with actor := .cue core hold }
        | .error _ => .settled (.next (cueFault s1 core (undecodable ws)))
      | .fault f => .settled (.next (cueFault s core f))
      | .page s1 k => .settled (.next (modCue s1 core fun q => { q with page := some k }))
      | .stop f => .settled (.fault f)

end Sys2Proof.Machine
end

