-- ==== Sys2Proof/Machine/Partitions.lean ====
section
/-! DEFINITION. Which casts can issue, and swaps of the active set (R178 to R181). -/

namespace Sys2Proof.Machine

/-- Is a thread's next instruction held: by a load whose miss is open, by a range, a full table or another interlock met at its last
trial or in the last clk of its die (R179, R181, R394)? -/
def stallHolds (s : State) (core : Nat) (t : Thread) : Bool :=
  match t.stalled with
  | 0 => false
  | 3 => farOpen s core t.missed
  | _ => true

/-- Is a thread of a pending cast able to issue (R181)? -/
def threadAble (s : State) (core : Nat) (p : Partition) (cast : Nat) (e : Nat × Thread) : Bool :=
  e.2.live && e.2.wait == .ready && e.2.performed.isEmpty && decide (e.2.rest ≤ coreClk s core) && !stallHolds s core e.2
    && !p.unfiled.contains (cast, e.1) && !filed p (cast, e.1) && contextRuns s core

/-- Has a cast a thread able to issue? -/
def castAble (s : State) (core : Nat) (p : Partition) (cast : Nat) : Bool :=
  (enum 0 (getCast s core cast).threads).any (threadAble s core p cast)

/-- Casts swapped: one leaves the active set, a pending one takes its place after 8 clk (R179). -/
def swapCasts (s : State) (core part out inn : Nat) : State :=
  let clk := coreClk s core
  let p := unfileCast (getPart s core part) out
  let p1 := { p with
    active := (p.active.filter fun e => !(e.1 == out)) ++ [(inn, clk + 8)]
    pending := (p.pending.filter fun e => !(e.1 == inn)) ++ [(out, clk)]
    swapping := (p.swapping.filter fun e => !(e.1 == out || e.1 == inn)) ++ [(out, clk + 8), (inn, clk + 8)]
    due := p.due.filter fun n => !(n == inn) }
  refileCast (setPart s core part p1) core inn

/-- The oldest pending cast with a thread able to issue. -/
def nextPending (s : State) (core part : Nat) : Option Nat :=
  let p := getPart s core part
  (p.pending.find? fun e => !(p.swapping.any fun x => x.1 == e.1) && castAble s core p e.1).map Prod.fst

/-- Swaps whose 8 clk are over end. -/
def endSwaps (clk : Nat) (p : Partition) : Partition := { p with swapping := p.swapping.filter fun e => clk < e.2 }

end Sys2Proof.Machine
end

