-- ==== Sys2Proof/Machine/Control.lean ====
section
/-! DEFINITION. The control instructions (R40, R149, R171, R176, R182 to R188, R197, R200, R209, R223, R224). -/

namespace Sys2Proof.Machine

/-! ### Targets (R40) -/

/-- Where a branch goes. -/
inductive Jump where
  | to (pc : Word)
  | fault (f : FaultInfo)
  deriving DecidableEq, Repr

/-- The bounds fault of a target outside the code object (R40, R219). -/
def targetFault (s : State) (fr : Frame) (target : Int) : FaultInfo :=
  { code := 0x02, info := 0x7C, opcode := (opRow fr.o).code, acc := 3, half := fr.half
    faddr := BitVec.ofNat 64 (oidOff (capOid (coreBill s fr.core).code) (wrap (codeBase (coreBill s fr.core).code + target) 40)) }

/-- Does the target lie outside the bounds of the code object? -/
def targetOut (s : State) (core : Nat) (target : Int) : Bool :=
  boundsFail s (coreFn s core) (coreBill s core).code (codeBase (coreBill s core).code + target) 4 false

/-- A target, checked for alignment and then for bounds. -/
def jumpTo (s : State) (fr : Frame) (target : Int) : Jump :=
  if target % 4 ≠ 0 then .fault (illegalFault fr (encodeWord0 fr.o fr.op))
  else if targetOut s fr.core target then .fault (targetFault s fr target)
  else .to (BitVec.ofInt 32 target)

/-- The offset of BRA and CALL: {D, A} in words in base form, else the immediate. -/
def branchOffset (op : Op) : Int :=
  match op.form with
  | .base => 4 * sext (op.d.toNat * 128 + op.a.toNat) 14
  | .ext | .lit | .extLit => immOf op

/-- The target of BRA and CALL. -/
def labelTarget (fr : Frame) : Int := (fr.pc.toNat : Int) + branchOffset fr.op

/-- A lane goes to a target. -/
def laneJump (s : State) (fr : Frame) (target : Int) : LaneStep :=
  match jumpTo s fr target with
  | .to pc => .done s { goto := some pc }
  | .fault f => .fault f

/-- The cue thread goes to a target. -/
def cueJump (s : State) (fr : Frame) (target : Int) : CueStep :=
  match jumpTo s fr target with
  | .to pc => .done s none (some pc)
  | .fault f => .fault f

/-! ### NOP, BRA, JMPI -/

def bodyNop : Body := fun _ _ _ s => .done s {}
def cueNop : CueBody := fun _ _ _ _ s => .done s none none

/-- NOP (R200). -/
def execNop (op : Op) (s : State) : Out := execBoth .nop false bodyNop cueNop op s

def bodyBra : Body := fun fr _ _ s => laneJump s fr (labelTarget fr)
def cueBra : CueBody := fun fr _ _ _ s => cueJump s fr (labelTarget fr)

/-- BRA (R200). -/
def execBra (op : Op) (s : State) : Out := execBoth .bra false bodyBra cueBra op s

def bodyJmpi : Body := fun fr cast lane s => laneJump s fr (laneSrc s fr cast lane .a)
def cueJmpi : CueBody := fun fr a _ _ s => cueJump s fr a.toNat

/-- JMPI (R200). -/
def execJmpi (op : Op) (s : State) : Out := execBoth .jmpi false bodyJmpi cueJmpi op s

/-! ### BRC (R182 to R185, R200, R282) -/

/-- Does a BRC branch on this condition? -/
def brcTaken (onZero : Bool) (x : Nat) : Bool := (x == 0) == onZero

/-- BRC in a lane: a misaligned offset is illegal whether or not the branch is taken. -/
def bodyBrc : Body := fun fr cast lane s =>
  let target : Int := (fr.pc.toNat : Int) + immOf fr.op
  if target % 4 ≠ 0 then .fault (illegalFault fr (encodeWord0 fr.o fr.op))
  else if brcTaken (fr.op.mod.toNat % 2 == 1) (laneSrc s fr cast lane .a) then laneJump s fr target
  else .done s {}

/-- The condition of a BRC of the cue thread: a constant, a register, or the result that a buffered command will give. -/
def brcCond (q : Cue) (fr : Frame) : Cond :=
  if fr.op.asel then .known (BitVec.ofNat 64 (cueSrc q.c fr .a))
  else match sfind fr.op.a.toNat q.pend with
    | some id => .fromCommand id
    | none => .known (sget 0 fr.op.a.toNat q.c)

/-- BRC of the cue thread: predicted, with a checkpoint; a fifth waits to issue. -/
def runBrcCue (op : Op) (core : Nat) (s : State) : Out :=
  match getCue s core with
  | none => .next s
  | some q =>
    let fr := frameAt core q.pc .brc op
    let target : Int := (fr.pc.toNat : Int) + immOf op
    if !cueMayIssue q then .next s
    else if !legalIn (cueEnv s core) .brc op || target % 4 ≠ 0 then
      .next (cueFault s core (illegalFault fr (encodeWord0 .brc op)))
    else if q.checks.length ≥ 4 then .next s
    else
      let (id, s1) := takeFresh s
      let bank := (getCore s1 core).bank
      let predicted := predictTaken bank q.pc
      let check : Checkpoint :=
        { id, pc := q.pc, cond := brcCond q fr, onZero := op.mod.toNat % 2 == 1, predicted, index := brcIndex bank q.pc,
          target, next := fr.next, c := q.c, pend := q.pend, dqTail := (getCore s1 core).dqTail,
          logged := q.logged }
      .next (setCue s1 core { cueAdvance q (if predicted then BitVec.ofInt 32 target else fr.next) with
        checks := q.checks ++ [check], denied := none })

/-- BRC (R200). -/
def execBrc (op : Op) (s : State) : Out :=
  match s.actor with
  | .lanes core ths => runLanes .brc op false bodyBrc secondBody core ths s
  | .cue core _ => runBrcCue op core s
  | .none => idle s

/-- The thread goes on from a BRC that resolved as predicted. -/
def confirmBrc (q : Cue) (rest : List Checkpoint) : Cue :=
  { q with checks := rest, beyond := if rest.isEmpty then 0 else q.beyond }

/-- Everything younger than a mispredicted BRC is undone (R185). -/
def squashBrc (q : Cue) (k : Checkpoint) (taken : Bool) : Cue :=
  { q with
    pc := if taken then BitVec.ofInt 32 k.target else k.next
    c := k.c, pend := k.pend, checks := [], beyond := 0, parked := none, page := none, denied := none
    logged := k.logged
    buf := q.buf.filter fun x => x.id < k.id }

/-- The decision queue without the entries pushed after a BRC; a cast placed since then sees what is pushed next. -/
def squashQueue (k : Checkpoint) (c : Core) : Core :=
  let kept := max k.dqTail c.dqSaved
  let casts : Store Cast := c.casts.map fun e => (e.1, { e.2 with dqPtr := min e.2.dqPtr kept })
  { c with dq := c.dq.filter (fun e => e.pos < kept), dqTail := k.dqTail, casts }

/-- Does an older PBKSAVE.core stand in the buffer, which reads the bank before a younger BRC trains it (R299)? -/
def bankAwaited (q : Cue) (k : Checkpoint) : Bool :=
  q.buf.any fun x => decide (x.id < k.id) && (match x.instr with
    | .pbksave op => op.mod == 0
    | _ => false)

/-- What the bank holds before a BRC trains it is kept while an older command is not performed: a pre-emption that goes back to the command
gives it back (R186, R299). -/
def keepTraining (q : Cue) (k : Checkpoint) (b : CoreBank) : Cue :=
  let after (id : Nat) : Bool := q.buf.any fun x => decide (x.id < id)
  let old := q.trained.filter fun e => after e.1
  { q with trained := if after k.id then (k.id, k.index, sget 1 k.index b.bp, b.hist) :: old else old }

/-- The oldest BRC resolves once its condition has its value and an older PBKSAVE has read the bank: it trains the predictor, keeps
or undoes what follows, and raises its bounds fault (R183, R185, R283, R299). -/
def execBrcResolve (core : Nat) (s : State) : Out :=
  match getCue s core with
  | none => .next s
  | some q =>
    match q.checks with
    | [] => .next s
    | k :: rest =>
      match k.cond with
      | .fromCommand _ => .next s
      | .known x =>
        if bankAwaited q k then .next s
        else
        let taken := brcTaken k.onZero x.toNat
        let s1 := modCore s core fun c => { c with bank := trainBrc c.bank k.index k.predicted taken }
        let q1 := keepTraining q k (getCore s core).bank
        let s2 := if taken = k.predicted then modCore (setCue s1 core (confirmBrc q1 rest)) core (unhold k.id)
          else modCore (setCue s1 core (squashBrc q1 k taken)) core fun c => unhold k.id (squashQueue k c)
        if taken && targetOut s core k.target then
          .next (takeCueFault s2 core
            { code := 0x02, info := 0x7C, opcode := (opRow .brc).code, acc := 3
              faddr := BitVec.ofNat 64
                (oidOff (capOid (coreBill s core).code) (wrap (codeBase (coreBill s core).code + k.target) 40)) })
        else .next (settleParked s2 core)

/-! ### CALL, CALLI, RET (R171) -/

/-- A call-state fault with the depth of the return stack (R217). -/
def callStateFault (fr : Frame) (t : Thread) : FaultInfo := plainFault fr 0x08 t.stack.length

/-- Push the next PC and go to a target. -/
def callTo (s : State) (fr : Frame) (cast lane : Nat) (target : Int) : LaneStep :=
  let t := getThread s fr.core cast lane
  if t.stack.length ≥ 16 then .fault (callStateFault fr t)
  else match jumpTo s fr target with
    | .fault f => .fault f
    | .to pc => .done (modThread s fr.core cast lane fun t => { t with stack := fr.next :: t.stack }) { goto := some pc }

def bodyCall : Body := fun fr cast lane s => callTo s fr cast lane (labelTarget fr)

/-- CALL (R171). -/
def execCall (op : Op) (s : State) : Out := execLane .call false bodyCall op s

def bodyCalli : Body := fun fr cast lane s => callTo s fr cast lane (laneSrc s fr cast lane .a)

/-- CALLI (R171). -/
def execCalli (op : Op) (s : State) : Out := execLane .calli false bodyCalli op s

def bodyRet : Body := fun fr cast lane s =>
  let t := getThread s fr.core cast lane
  match t.stack with
  | [] => .fault (callStateFault fr t)
  | top :: rest =>
    match jumpTo s fr top.toNat with
    | .fault f => .fault f
    | .to pc => .done (modThread s fr.core cast lane fun t => { t with stack := rest }) { goto := some pc }

/-- RET (R171). DEDUCED, log 37. -/
def execRet (op : Op) (s : State) : Out := execLane .ret false bodyRet op s

/-! ### REFORM, CASTSYNC, YIELD, ORDY -/

def bodyReform : Body := fun fr cast lane s => .done (fileLane s fr.core cast lane fr.next) {}

/-- REFORM (R176). -/
def execReform (op : Op) (s : State) : Out := execLane .reform false bodyReform op s

/-- CASTSYNC (R200). -/
def gatherCastsync : GatherSpec := { commits := false, body := fun _ _ _ s => .done s [] }

def execCastsync (op : Op) (s : State) : Out := execGather .castsync gatherCastsync op s

/-- The casts of a group leave the active set where a pending cast can issue (R179, R200). -/
def yieldCasts (core : Nat) : List Nat → State → State
  | [], s => s
  | cast :: rest, s =>
    let part := (getCast s core cast).part
    match nextPending s core part with
    | some inn => yieldCasts core rest (swapCasts s core part cast inn)
    | none => yieldCasts core rest s

/-- YIELD of the cue thread: it waits until no BRC is unresolved. -/
def cueYield : CueBody := fun fr _ _ _ s =>
  match getCue s fr.core with
  | some q => if q.checks.isEmpty then .done s none none else .hold s
  | none => .done s none none

/-- YIELD (R200). DEDUCED, log 44. -/
def execYield (op : Op) (s : State) : Out :=
  match s.actor with
  | .lanes core ths =>
    match runLanes .yield op false bodyNop secondBody core ths s with
    | .next s1 => .next (yieldCasts core (groupCasts ths) s1)
    | r => r
  | .cue core _ => runCueNow .yield op cueYield core s
  | .none => idle s

/-! ### SCENE (R57, R209) -/

/-- The live-in set of vector registers that SCENE declares (R57). -/
def sceneLive (b : Playbill) (op : Op) : BitVec 128 :=
  let lit := op.lit.toNat
  let all := 2 ^ b.vregs - 1
  match op.mod.toNat / 32 % 4 with
  | 0 => BitVec.ofNat 128 lit
  | 1 => BitVec.ofNat 128 (lit + all / 2 ^ 64 * 2 ^ 64)
  | _ => BitVec.ofNat 128 (lit * 2 ^ 64 + all % 2 ^ 64)

/-- SCENE in a lane whose scene has committed: the new scene opens at the SCENE itself. A scene that restarts there keeps the page
that the host has refused it (R140). -/
def bodyScene : Body := fun fr cast lane s =>
  .moved (modThread s fr.core cast lane fun t =>
    let t1 := afterWord s fr {} none false t
    { openScene t1 fr.pc (sceneLive (coreBill s fr.core) fr.op) fr.op.word2 (fr.op.mod.toNat % 32) with
      denied := if t.scene.entry = fr.pc then t.denied else none })

/-- SCENE (R209). -/
def execScene (op : Op) (s : State) : Out := execLane .scene true bodyScene op s

/-! ### EXIT (R197) -/

def bodyExit : Body := fun fr cast lane s => .moved (exitThread s fr.core cast lane (laneSrc s fr cast lane .a % 65536))
def cueExit : CueBody := fun fr a _ _ s => .ended (endCue s fr.core (a.toNat % 65536))

/-- EXIT (R197). -/
def execExit (op : Op) (s : State) : Out := execBuffered .exit true bodyExit cueExit op s

/-! ### WAIT (R149) -/

/-- WAIT's limit. -/
def waitLimit (op : Op) : Nat := (immOf op).toNat

def bodyWait : Body := fun fr cast lane s =>
  let t := getThread s fr.core cast lane
  let n := fr.op.a.toNat
  if sget 0 n t.w ≤ waitLimit fr.op then .done s {}
  else .done s { wait := .counter n (waitLimit fr.op) fr.next, goto := some fr.pc }

def cueWait : CueBody := fun fr _ _ _ s =>
  match getCue s fr.core with
  | some q => if q.counter ≤ waitLimit fr.op then .done s none none else .hold s
  | none => .done s none none

/-- WAIT (R149). -/
def execWait (op : Op) (s : State) : Out := execBuffered .wait false bodyWait cueWait op s

/-- A lane's WAIT ends when its counter has fallen (R149). The cue thread's WAIT is a buffered command. -/
def execWaitWake (who : Agent) (s : State) : Out :=
  match who with
  | .lane core cast lane =>
    let t := getThread s core cast lane
    match t.wait with
    | .counter w m next =>
      if t.live && sget 0 w t.w ≤ m then
        .next (setThread s core cast lane { t with wait := .ready, pc := next })
      else .next s
    | _ => .next s
  | .cue _ => .next s

/-! ### TRAP, BRKPT, RESUME (R223, R224) -/

def bodyTrap : Body := fun fr cast lane s => .fault (plainFault fr 0x0D (laneSrc s fr cast lane .a % 2 ^ 32))
def cueTrap : CueBody := fun fr a _ _ _ => .fault (plainFault fr 0x0D (a.toNat % 2 ^ 32))

/-- TRAP (R223). -/
def execTrap (op : Op) (s : State) : Out := execBuffered .trap false bodyTrap cueTrap op s

def bodyBrkpt : Body := fun fr _ _ _ => .fault (plainFault fr 0x0E 0)
def cueBrkpt : CueBody := fun fr _ _ _ _ => .fault (plainFault fr 0x0E 0)

/-- BRKPT (R223). -/
def execBrkpt (op : Op) (s : State) : Out := execBoth .brkpt false bodyBrkpt cueBrkpt op s

/-- May the thread return from its handler: INH is 1 and the return stack is not empty (R224)? -/
def mayResume (t : Thread) : Bool := t.inh && !t.stack.isEmpty

/-- RESUME in a lane: the faults of a thread that may not return; else the return, its handler's scene having committed. DEDUCED, log 38. -/
def bodyResume : Body := fun fr cast lane s =>
  let t := getThread s fr.core cast lane
  if !t.inh then .fault (illegalFault fr (encodeWord0 fr.o fr.op))
  else if t.stack.isEmpty then .fault (callStateFault fr t)
  else .moved (resumeThread (modThread s fr.core cast lane (afterWord s fr {} none false)) fr.core cast lane)

/-- RESUME (R224): the checks come before the commit. -/
def execResume (op : Op) (s : State) : Out :=
  match s.actor with
  | .lanes core ths =>
    let able := ths.filter fun th => mayResume (getThread s core th.1 th.2)
    let rest := ths.filter fun th => !mayResume (getThread s core th.1 th.2)
    let go (s1 : State) : Out :=
      if rest.isEmpty then .next s1 else runLanes .resume op false bodyResume secondBody core rest s1
    if able.isEmpty then go s
    else match runLanes .resume op true bodyResume secondBody core able s with
      | .next s1 => go s1
      | r => r
  | .cue core _ => runCueNow .resume op (fun fr _ _ _ _ => .fault (illegalFault fr (encodeWord0 .resume op))) core s
  | .none => idle s

end Sys2Proof.Machine
end

