-- ==== Sys2Proof/Machine/Barrier.lean ====
section
/-! DEFINITION. Ensembles and barriers, releases and acquires (R159, R192 to R196, R239, R240, R398). -/

namespace Sys2Proof.Machine

/-- The scope code of ARRIVE and BWAIT. -/
def barrierScope (op : Op) : Nat := op.mod.toNat / 2 % 8

/-- The ensemble that an E register names, if its member bit is 1 (R192). -/
def ensembleOf (c : Cast) (n : Nat) : Option Nat :=
  let e := (c.ens.getD n 0).toNat
  if e ≥ 256 then some (e % 256) else none

/-- An ensemble of the launch that a core holds. -/
def coreEnsemble (s : State) (core ens : Nat) : Ensemble := sget {} ens (coreLaunch s core).ensembles

/-- The key of the launch that a core holds. -/
def coreKey (s : State) (core : Nat) : Nat := launchKey (coreLaunch s core).ctx (coreLaunch s core).number

/-- A thread's release (R159, R239): done, or held until its marker is reached. -/
def laneRelease (s : State) (core cast lane scope : Nat) (k : State → LaneStep) : LaneStep :=
  let r := release s core scope (getThread s core cast lane).marker
  let s1 := modThread r.state core cast lane fun t => { t with marker := r.marker }
  if r.finished then k s1 else .hold s1

/-- The cue thread's release, as its oldest command. -/
def cueRelease (s : State) (core scope : Nat) (k : State → CueStep) : CueStep :=
  match getCue s core with
  | none => .hold s
  | some q =>
    let r := release s core scope q.marker
    let s1 := modCue r.state core fun q => { q with marker := r.marker }
    if r.finished then k s1 else .hold s1

/-- One arrival at a barrier (R194); none is an over-arrival. -/
def arriveOnce (drop : Bool) (e : Ensemble) : Option Ensemble :=
  if e.expected = 0 ∨ (drop ∧ e.next = 0) then none
  else
    let arrived := e.arrived + 1
    let next := if drop then e.next - 1 else e.next
    if arrived = e.expected then some { e with phase := e.phase + 1, arrived := 0, expected := next, next }
    else some { e with arrived, next }

def bodyArrive : Body := fun fr cast lane s =>
  match ensembleOf (getCast s fr.core cast) fr.op.a.toNat with
  | none => .fault (illegalFault fr (encodeWord0 fr.o fr.op))
  | some n =>
    laneRelease s fr.core cast lane (barrierScope fr.op) fun s1 =>
      match arriveOnce (fr.op.mod.toNat % 2 == 1) (coreEnsemble s1 fr.core n) with
      | none => .faultAt s1 (plainFault fr 0x07 n)
      | some e => .done (modEnsemble s1 (coreKey s1 fr.core) n fun _ => e) {}

/-- ARRIVE (R194). -/
def execArrive (op : Op) (s : State) : Out := execLane .arrive true bodyArrive op s

/-- Does the wait of a BWAIT go on (R195)? -/
def barrierWaits (odd : Bool) (e : Ensemble) : Bool := e.phase % 2 == b2n odd && e.expected != 0

def bodyBwait : Body := fun fr cast _ s =>
  match ensembleOf (getCast s fr.core cast) fr.op.a.toNat with
  | none => .fault (illegalFault fr (encodeWord0 fr.o fr.op))
  | some n =>
    let odd := fr.op.mod.toNat % 2 == 1
    if barrierWaits odd (coreEnsemble s fr.core n) then
      .done s { wait := .barrier n odd (barrierScope fr.op) fr.next, goto := some fr.pc }
    else
      let s1 := acquire s fr.core (barrierScope fr.op)
      if acquired s1 fr.core (barrierScope fr.op) then .done s1 {} else .hold s1

/-- BWAIT (R195). -/
def execBwait (op : Op) (s : State) : Out := execLane .bwait false bodyBwait op s

/-- A lane's BWAIT ends when the phase has the other parity or no arrival is expected: its acquire (R195). -/
def execBwaitWake (who : Agent) (s : State) : Out :=
  match who with
  | .lane core cast lane =>
    let t := getThread s core cast lane
    match t.wait with
    | .barrier n odd scope next =>
      if t.live && contextRuns s core && !barrierWaits odd (coreEnsemble s core n) then
        let s1 := acquire s core scope
        .next (if acquired s1 core scope then modThread s1 core cast lane fun t => { t with wait := .ready, pc := next } else s1)
      else .next s
    | _ => .next s
  | .cue _ => .next s

def bodyRel : Body := fun fr cast lane s =>
  laneRelease s fr.core cast lane (fr.op.mod.toNat % 8) fun s1 => .done s1 {}

def cueRel : CueBody := fun fr _ _ _ s => cueRelease s fr.core (fr.op.mod.toNat % 8) fun s1 => .done s1 none none

/-- REL (R159). -/
def execRel (op : Op) (s : State) : Out := execBuffered .rel true bodyRel cueRel op s

/-- ACQ waits until the write-backs of its invalidation are applied (R398). -/
def bodyAcq : Body := fun fr _ _ s =>
  let s1 := acquire s fr.core (fr.op.mod.toNat % 8)
  if acquired s1 fr.core (fr.op.mod.toNat % 8) then .done s1 {} else .hold s1

def cueAcq : CueBody := fun fr _ _ _ s =>
  let s1 := acquire s fr.core (fr.op.mod.toNat % 8)
  if acquired s1 fr.core (fr.op.mod.toNat % 8) then .done s1 none none else .hold s1

/-- ACQ (R159). -/
def execAcq (op : Op) (s : State) : Out := execBuffered .acq false bodyAcq cueAcq op s

end Sys2Proof.Machine
end

