-- ==== Sys2Proof/Machine/MemInstr.lean ====
section
/-! DEFINITION. The memory instructions of lanes and the cue thread: LD, ST, LDS, STS, PFCH, LDK, ICINV (R147, R150 to R154,
R166). -/

namespace Sys2Proof.Machine

/-- Is the capability of an LD of the cue thread shared-volatile (R147, R184)? -/
def cueVolatile (s : State) (core : Nat) (op : Op) : Bool := capHas (cueCap s core op.a.toNat) 7

/-- LD (R150, R151, R184, R358, R359). -/
def execLd (op : Op) (s : State) : Out :=
  match s.actor with
  | .lanes core ths => runLanes .ld op false bodyLd secondBody core ths s
  | .cue core hold =>
    if cueVolatile s core op then runCueBuffered .ld op cueLdVolatile core hold s else runCueNow .ld op cueLd core s
  | .none => idle s

/-- ST (R150, R152, R367). -/
def execSt (op : Op) (s : State) : Out := execBuffered .st false bodySt cueSt op s

/-- LDS (R142, R150, R151). -/
def execLds (op : Op) (s : State) : Out := execLane .lds false bodyLds op s

/-- STS (R142, R150, R152). -/
def execSts (op : Op) (s : State) : Out := execLane .sts false bodySts op s

/-- PFCH (R154). -/
def execPfch (op : Op) (s : State) : Out := execBoth .pfch false bodyPfch cuePfch op s

/-! ### Reads that an instruction makes once for its cast -/

/-- What a read in a lane's name gives: the bytes, the tag, and the line for whose fill from beyond L2 its lanes wait (R179). -/
inductive CastRead where
  | ok (s : State) (bs : List Byte) (tag : Bool) (missed : Option Nat)
  | fault (f : FaultInfo)
  | faultAt (s : State) (f : FaultInfo)
  | page (s : State) (k : PageKey)
  | hold (s : State)
  | stop (f : Fault)

/-- Read `n` bytes with their granule's tag in the name of a lane (R147, R153, R157, R235): through L1, or at the home for a
shared-volatile capability, whose values are recorded. -/
def castRead (s : State) (fr : Frame) (cast lane n : Nat) : CastRead :=
  let c := laneCap s fr.core cast fr.op.a.toNat
  let off := laneOff s fr cast lane
  let ctx := coreCtx s fr.core
  let v := { viaOf fr .a 1 with cwide := true }
  let who := Agent.lane fr.core cast lane
  match accessOne s fr.core (coreFn s fr.core) ctx v c off n [0] (getThread s fr.core cast lane).denied with
  | .fault f => .fault f
  | .page s1 k => .page s1 k
  | .stop f => .stop f
  | .ok s1 p =>
    let e := (effective c off).toNat
    let line := pageByte p e / 64
    let granule := pageByte p e / 16 % 4
    let give (s : State) (bs : List Byte) (tag : Bool) : CastRead :=
      .ok (noteAccess s fr.core cast lane
        { oid := capOid c, off := e, size := n, kind := .read, value := BitVec.ofNat 32 (ofBytes bs), pc := fr.pc }) bs tag
        (farLine s fr.core line)
    if kclassFail (coreBill s1 fr.core).kclass 0 p.cls then .fault (memFault v 0x04 c e 0x80)
    else if capHas c 7 then
      match homeRead (openRequest s1 fr.core line ctx) fr.core ctx fr.pc p e n with
      | (_, none) => .hold (ejectLine s1 fr.core line)
      | (s2, some bs) =>
        if (span e n).any (homePoison s2 p) then .faultAt s2 (memFault v 0x05 c e)
        else match nextValue s2 who n with
          | .ended => .hold (haltDivergence s2 who)
          | .value x => give (noteValue s2 who n x) (toBytes n x) (x != 0)
          | .live =>
            let tag := (homeTags s2 line).getLsbD granule
            give (noteValue s2 who n (if n = 16 && !tag then 0 else ofBytes bs)) bs tag
    else
      let s2 := loadLine s1 fr.core line p.cls ctx fr.pc true false
      let w := loadView s2 fr.core line
      if p.poisoned || w.poison then .faultAt s2 (memFault v 0x05 c e)
      else give s2 (takeBytes w.data (pageByte p e % 64) n) (w.tags.getLsbD granule)

/-- A gathering instruction that makes one read for the lanes `act` of its cast and uses what it gives. -/
def castReadStep (act : List Nat) (r : CastRead) (k : State → List Byte → Bool → State) : GatherStep :=
  match r with
  | .ok s bs tag missed => .done (k s bs tag) (act.map fun l => (l, { missed }))
  | .fault f => .fault f
  | .faultAt s f => .faultAt s f
  | .page s k => .page s k
  | .hold s => .hold s
  | .stop f => .stop f

/-- Write `n` uniform registers of a cast from kX. -/
def setUniform (s : State) (core cast x value n : Nat) : State :=
  modCast s core cast fun c => { c with k := (splitWords x value n).foldl (fun k e => sset 0 e.1 e.2 k) c.k }

/-- Write a capability register of a cast. -/
def setCapReg (s : State) (core cast x : Nat) (c : Cap) : State :=
  modCast s core cast fun t => { t with a := sset 0 x c t.a }

/-- LDK (R153). -/
def gatherLdk : GatherSpec :=
  { commits := true
    body := fun fr cast act s =>
      match act with
      | [] => .done s []
      | lane :: _ =>
        let n := if fr.op.mod = 0 then 1 else 2
        castReadStep act (castRead s fr cast lane (4 * n)) fun s1 bs _ =>
          setUniform s1 fr.core cast fr.op.d.toNat (ofBytes bs) n }

def execLdk (op : Op) (s : State) : Out := execGather .ldk gatherLdk op s

/-! ### ICINV (R166) -/

/-- Mark bytes of an object stale in every instruction cache. -/
def markStale (s : State) (fn oid lo n : Nat) : State :=
  let mark := s.icEpoch + 1
  let touch (w : CodeWord) : CodeWord :=
    if w.fn == fn && w.oid == oid && overlaps w.off 4 lo n && w.stale.isNone then { w with stale := some mark } else w
  let cores : Store Core := s.cores.map fun e => (e.1, { e.2 with code := e.2.code.map touch })
  { s with icEpoch := mark, cores }

/-- What ICINV comes to. -/
inductive IcStep where
  | done (s : State)
  | fault (f : FaultInfo)
  | page (s : State) (k : PageKey)
  | stop (f : Fault)

/-- A page that ICINV's checks lack. -/
def icinvMissing (s : State) (q : Port) (v : Via) (c : Cap) (e : Int) (denied : Option PageKey) (o : Nat) (p : PageState) : IcStep :=
  match missingPage (α := Unit) s q.fn q.ctx v c e denied o p with
  | .ok s1 _ => .done s1
  | .fault f => .fault f
  | .page s1 k => .page s1 k
  | .stop f => .stop f

/-- Offsets of the descriptors and the blocks under `n` view bytes of a region. -/
def viewOffsets (s : State) (q : Port) (oid : Nat) (f : FugHdr) (e n : Nat) : List Nat :=
  (List.range ((e + n - 1) / 64 - e / 64 + 1)).flatMap fun i => fugTileOffsets s q oid f ((e / 64 + i) / 8) ((e / 64 + i) % 8)

/-- ICINV through a Fugitive capability: the bounds fault of R360, the rights fault, the translation of the bytes, then the class
fault of R368 (R131). -/
def icinvFug (s : State) (q : Port) (v : Via) (c : Cap) (e : Int) (n : Nat) (denied : Option PageKey) : IcStep :=
  if e < capLower c ∨ e + n > capUpper c then .fault (memFault v 0x02 c e)
  else match firstMissing s q (capOid c) (fugHeaderOffsets s q (capOid c)) with
    | some (o, p) => icinvMissing s q v c e denied o p
    | none => match fugHeader s q (capOid c) with
      | none => .fault (memFault v 0x02 c e)
      | some f =>
        if e + n > 512 * f.ntile then .fault (memFault v 0x02 c e)
        else if !capHas c 2 then .fault (memFault v 0x03 c e)
        else match firstMissing s q (capOid c) (viewOffsets s q (capOid c) f e.toNat n) with
          | some (o, p) => icinvMissing s q v c e denied o p
          | none => .fault (memFault v 0x04 c e)

/-- Does the class of some page, as it translates, break R129 (R131, R138)? -/
def classFails (s : State) (q : Port) (c : Cap) (os : List Nat) : Bool :=
  os.any fun o => match lookup s q (capOid c) o with
    | .valid p => classFail c p.tier p.cls
    | _ => false

/-- ICINV of `n` bytes: the checks of R131 with the execute right, then the marks. -/
def icinvAt (s : State) (core : Nat) (v : Via) (c : Cap) (off : Int) (n : Nat) (denied : Option PageKey) : IcStep :=
  let q := corePort s core
  let e := effective c off
  if n = 0 then .done s
  else if isFug s q.fn c then icinvFug s q v c e n denied
  else match checkCap s q.fn v c off n false [2] with
    | some f => .fault f
    | none =>
      match firstMissing s q (capOid c) (pageSamples e.toNat n) with
      | some (o, p) => icinvMissing s q v c e denied o p
      | none =>
        if classFails s q c (pageSamples e.toNat n) then .fault (memFault v 0x04 c e)
        else .done (markStale (visitAll s q (capOid c) (pageSamples e.toNat n)) q.fn (capOid c) e.toNat n)

def bodyIcinv : Body := fun fr cast lane s =>
  match icinvAt s fr.core (viaOf fr .a 3) (laneCap s fr.core cast fr.op.a.toNat)
      (laneOff s fr cast lane) (laneSrc s fr cast lane .c) (getThread s fr.core cast lane).denied with
  | .done s1 => .done s1 {}
  | .fault f => .fault f
  | .page s1 k => .page s1 k
  | .stop f => .stop f

def cueIcinv : CueBody := fun fr _ b c s =>
  match icinvAt s fr.core (viaOf fr .a 3) (cueCap s fr.core fr.op.a.toNat) (cueOff fr b)
      c.toNat (cueDenied s fr.core) with
  | .done s1 => .done s1 none none
  | .fault f => .fault f
  | .page s1 k => .page s1 k
  | .stop f => .stop f

/-- ICINV (R166). -/
def execIcinv (op : Op) (s : State) : Out := execBuffered .icinv false bodyIcinv cueIcinv op s

end Sys2Proof.Machine
end

