-- ==== Sys2Proof/Machine/Slots.lean ====
section
/-! DEFINITION. Wait counters, replay slots, ranges and transfers in flight, as every asynchronous instruction takes them
(R143, R148, R158, R230). -/

namespace Sys2Proof.Machine

/-- Add to a wait counter of a thread (R148). -/
def raiseCounter (s : State) (who : Agent) (n : Nat) : State :=
  match who with
  | .lane core cast lane => modThread s core cast lane fun t => { t with w := sset 0 n (sget 0 n t.w + 1) t.w }
  | .cue core => modCue s core fun q => { q with counter := q.counter + 1 }

/-- Subtract from a wait counter of a thread (R148). -/
def lowerCounter (s : State) (who : Agent) (n : Nat) : State :=
  match who with
  | .lane core cast lane => modThread s core cast lane fun t => { t with w := sset 0 n (sget 0 n t.w - 1) t.w }
  | .cue core => modCue s core fun q => { q with counter := q.counter - 1 }

/-- Is a thread's counter at 255 (R148)? -/
def counterFull (s : State) (who : Agent) (n : Nat) : Bool :=
  match who with
  | .lane core cast lane => decide (sget 0 n (getThread s core cast lane).w ≥ 255)
  | .cue core => match getCue s core with
    | some q => decide (q.counter ≥ 255)
    | none => false

/-- Replay slots in use on a core (R230): a WLOAD holds none. -/
def slotsUsed (c : Core) : Nat := (c.xfers.filter fun x => !(x.kind == .wload)).length

/-- Must an operation of these threads wait to issue: a counter at 255, too few slots, no range (R143, R148, R230)? -/
def issueHeld (s : State) (core : Nat) (whos : List Agent) (ctr slots : Nat) (range : Bool) : Bool :=
  let c := getCore s core
  whos.any (fun w => counterFull s w ctr) || decide (slotsUsed c + slots > 64) || (range && decide (c.ranges.length ≥ 16))

/-- Enter bytes `[lo, hi)` in the range of a number on a core, which grows to hold them. -/
def enterRange (id lo hi : Nat) (c : Core) : Core :=
  if c.ranges.any fun r => r.id == id then
    { c with ranges := c.ranges.map fun r => if r.id = id then { r with lo := min r.lo lo, hi := max r.hi hi } else r }
  else { c with ranges := c.ranges ++ [{ id, lo, hi }] }

/-- Does a kind of operation count on no counter? -/
def uncounted (k : XferKind) : Bool :=
  match k with
  | .step | .fade | .atom | .qenq | .qdeq => true
  | _ => false

/-- Is a kind of operation an atomic or a queue operation on a peer module's line? -/
def remoteKind (k : XferKind) : Bool :=
  match k with
  | .atom | .qenq | .qdeq => true
  | _ => false

/-- The threads whose counters count a transfer: none for STEP, FADE, atomics and queue operations. -/
def xferAgents (x : Xfer) : List Agent :=
  if uncounted x.kind then []
  else match x.agent with
    | .lane core cast _ => x.lanes.map fun l => .lane core cast l
    | .cue core => [.cue core]

/-- Add to the counters of some threads, or subtract. -/
def raiseAll (s : State) (whos : List Agent) (n : Nat) : State := whos.foldl (fun s w => raiseCounter s w n) s
def lowerAll (s : State) (whos : List Agent) (n : Nat) : State := whos.foldl (fun s w => lowerCounter s w n) s

/-- Put a transfer in flight on a core under the next free number: its counters rise. -/
def startXfer (s : State) (core : Nat) (x : Xfer) : State :=
  let (id, s1) := takeFresh s
  modCore (raiseAll s1 (xferAgents x) x.ctr) core fun c =>
    { c with xfers := c.xfers ++
        [{ x with id, ctx := coreCtx s core, fn := coreFn s core, asked := coreClk s core, launch := (getCore s core).launch }] }

/-- Does a core still hold the launch of an operation, whose threads then are the core's (R12)? -/
def holdsLaunch (s : State) (core : Nat) (launch : Option Nat) : Bool := (getCore s core).launch == launch

/-- The number of the instruction that an issue group executes together, and a number of its own for a cast's instruction. -/
def wordGroup (s : State) : Nat := 2 * s.issued
def takeGroup (s : State) : Nat × State := (2 * s.fresh + 1, (takeFresh s).2)

/-- The active lanes of a group as agents. -/
def activeAgents (s : State) (core : Nat) (op : Op) (ths : List (Nat × Nat)) : List Agent :=
  (ths.filter fun th => guardOf s core th.1 th.2 op).map fun th => .lane core th.1 th.2

/-- A trailing length or other immediate, at the width of the mode. -/
def lengthOf (op : Op) (cue : Bool) : Nat := wrap (immOf op) (if cue then 64 else 32)

end Sys2Proof.Machine
end

