-- ==== Sys2Proof/Machine/Atomics.lean ====
section
/-! DEFINITION. ATOM and ATOMS (R139, R140, R142, R155, R156, R230, R240, R396). -/

namespace Sys2Proof.Machine

/-- The operation of MOD[3:0], and the order bits. -/
def atomKind (mod : Nat) : Nat := mod % 16
def atomAcquires (mod : Nat) : Bool := mod.testBit 4
def atomReleases (mod : Nat) : Bool := mod.testBit 5

/-- Bytes of the location. -/
def atomBytes (mod : Nat) : Nat := if atomKind mod = 11 then 8 else 4

/-- The new value at the location, with the flags of `.fadd` (R155). -/
def atomNew (kind old v compare : Nat) : Nat × Nat :=
  let a := sext old 32
  let b := sext v 32
  match kind with
  | 0 => (wrap ((old : Int) + v) 32, 0)
  | 1 => (if b < a then v else old, 0)
  | 2 => (if b > a then v else old, 0)
  | 3 => (min old v, 0)
  | 4 => (max old v, 0)
  | 5 => (old &&& v, 0)
  | 6 => (old ||| v, 0)
  | 7 => (old ^^^ v, 0)
  | 8 => (v, 0)
  | 9 => (if old = compare then v else old, 0)
  | 10 =>
    match addF { n := 32, a := 0, b := 0, c := 0, mod := 0 } fp32 old v with
    | .ok d flags _ => (d, flags)
    | _ => (old, 0)
  | _ => (wrap ((old : Int) + v) 64, 0)

/-- Write bytes of a line at its home as the core's next home write, performed at once (R244). DESIGN CHOICE, log 13. -/
def homeWriteNow (s : State) (core ctx : Nat) (p : TlbEntry) (off : Nat) (bs : List Byte) : State :=
  let key := pageByte p off
  writeHome (stampNow s (stampDie core (key / 64)) (key / 64)) (key / 64) (byteMask (key % 64) bs.length) (placeBytes (key % 64) bs) 0
    false p.cls ctx

/-- What performing an atomic comes to. -/
inductive AtomStep where
  /-- The old value that returns, the flags, the line and whether it missed L2. -/
  | done (s : State) (old flags line : Nat) (far : Bool)
  /-- It goes to the peer module that holds its line. -/
  | remote (s : State) (p : TlbEntry)
  | fault (f : FaultInfo)
  | faultAt (s : State) (f : FaultInfo)
  | page (s : State) (k : PageKey)
  | hold (s : State)
  | stop (f : Fault)

/-- Perform an atomic at the home of its line, whose page is `p` (R156): in rehearsal mode with the logged old value (R396). The
location is read, with the vector it carries back, before the write is stamped (R244). -/
def atomHome (s : State) (core ctx : Nat) (pc : Word) (v : Via) (c : Cap) (p : TlbEntry) (e mod x compare : Nat) (who : Agent) :
    AtomStep :=
  let n := atomBytes mod
  let line := pageByte p e / 64
  let far := outsideL2 s line
  match homeRead s core ctx pc p e n with
  | (s1, none) => .hold s1
  | (s1, some bs) =>
    if !homeWriteReady s1 (stampDie core (pageByte p e / 64)) (pageByte p e / 64) then .hold s
    else if homePoison s1 p e then .faultAt s1 (memFault v 0x05 c e)
    else
      let go (old : Nat) : AtomStep :=
        let new := atomNew (atomKind mod) old x compare
        .done (noteReturn (homeWriteNow s1 core ctx p e (toBytes n new.1)) who old) old new.2 line far
      match nextValue s1 who n with
      | .ended => .hold (haltDivergence s1 who)
      | .value old => go (old % 2 ^ (8 * n))
      | .live => go (ofBytes bs)

/-- An ATOM of a thread: its access, then its performance at the home, or at the peer module that holds the line (R139). -/
def atomAt (s : State) (core : Nat) (pc : Word) (v : Via) (c : Cap) (off : Int) (mod x compare : Nat) (who : Agent)
    (denied : Option PageKey) : AtomStep :=
  let ctx := coreCtx s core
  match accessOne s core (coreFn s core) ctx v c off (atomBytes mod) [3] denied with
  | .fault f => .fault f
  | .page s1 k => .page s1 k
  | .stop f => .stop f
  | .ok s1 p =>
    let e := (effective c off).toNat
    if isPeerLine (pageByte p e / 64) then .remote s1 p else atomHome s1 core ctx pc v c p e mod x compare who

/-- v and the compare value of an ATOM in a lane: C, or the pair vX, vX+1 of `.cas`. -/
def atomOperands (mod c half : Nat) : Nat × Nat :=
  if atomKind mod = 9 then (c / 2 ^ half, c % 2 ^ half) else (c, 0)

/-- The scope whose acquire follows an ATOM, if any. -/
def atomAcquire (mod scope : Nat) : Option Nat := if atomAcquires mod then some scope else none

/-- An atomic or queue operation leaves for the peer module that holds its line: it holds a replay slot until it is performed
(R230). -/
def startRemote (s : State) (fr : Frame) (who : Agent) (kind : XferKind) (c : Cap) (e dreg scope : Nat) (x compare : Nat)
    (group : Nat) : State :=
  startXfer s fr.core
    { id := 0, kind, agent := who, mod := fr.op.mod.toNat, src := .mem c e, dst := .book, len := 0, pc := fr.pc, group
      reg := (viaOf fr .a 2).reg, dreg, scope, operand := BitVec.ofNat 64 x, compare := BitVec.ofNat 64 compare }

/-- The wait of a lane whose operation a peer module performs. -/
def remoteEff (fr : Frame) : Eff := { wait := .remote fr.next, goto := some fr.pc }

def bodyAtom : Body := fun fr cast lane s =>
  let mod := fr.op.mod.toNat
  let scope := fr.op.fslot.toNat
  let perform (s : State) : LaneStep :=
    let c := laneCap s fr.core cast fr.op.a.toNat
    let off := laneOff s fr cast lane
    let e := (effective c off).toNat
    let who := Agent.lane fr.core cast lane
    let x := atomOperands mod (laneSrc s fr cast lane .c) 32
    match atomAt s fr.core fr.pc (viaOf fr .a 2) c off mod x.1 x.2 who (getThread s fr.core cast lane).denied with
    | .done s1 old flags line far =>
      let s2 := noteAccess s1 fr.core cast lane
        { oid := capOid c, off := e, size := atomBytes mod, kind := .atomic, value := BitVec.ofNat 32 old, pc := fr.pc }
      let regs := (destEff fr old).v.map fun r => (r.1, BitVec.ofNat 64 r.2.toNat)
      .done (sendResponse s2 { agent := who, regs, flag := none, acquire := atomAcquire mod scope, pc := fr.pc, line := some line, far })
        { flags, wait := .response }
    | .remote s1 _ =>
      if issueHeld s1 fr.core [] 0 1 false then .hold s1
      else .done (startRemote s1 fr who .atom c e fr.op.d.toNat scope x.1 x.2 (wordGroup s1)) (remoteEff fr)
    | .fault f => .fault f
    | .faultAt s1 f => .faultAt s1 f
    | .page s1 k => .page s1 k
    | .hold s1 => .hold s1
    | .stop f => .stop f
  if atomReleases mod then laneRelease s fr.core cast lane scope perform else perform s

def cueAtom : CueBody := fun fr _ b c s =>
  let mod := fr.op.mod.toNat
  let scope := fr.op.fslot.toNat
  let perform (s : State) : CueStep :=
    let cap := cueCap s fr.core fr.op.a.toNat
    let who := Agent.cue fr.core
    let y := atomOperands mod c.toNat 32
    let x := if atomBytes mod = 4 then y.1 % 2 ^ 32 else y.1
    match atomAt s fr.core fr.pc (viaOf fr .a 2) cap (cueOff fr b) mod x y.2 who (cueDenied s fr.core) with
    | .done s1 old _ line far =>
      .await (sendResponse s1 { agent := who, regs := [(fr.op.d.toNat, BitVec.ofNat 64 old)], flag := none
                                acquire := atomAcquire mod scope, pc := fr.pc, line := some line, far })
    | .remote s1 _ =>
      if issueHeld s1 fr.core [] 0 1 false then .hold s1
      else .await (startRemote s1 fr who .atom cap (effective cap (cueOff fr b)).toNat fr.op.d.toNat scope x y.2 (wordGroup s1))
    | .fault f => .fault f
    | .faultAt s1 f => .faultAt s1 f
    | .page s1 k => .page s1 k
    | .hold s1 => .hold s1
    | .stop f => .stop f
  if atomReleases mod then cueRelease s fr.core scope perform else perform s

/-- The active lanes of a group whose location lies on a peer module: each needs a replay slot (R230). -/
def remoteLanes (s : State) (core : Nat) (op : Op) (ths : List (Nat × Nat)) : Nat :=
  let fr := frameAt core (groupPc s core ths) .atom op
  (ths.filter fun th => guardOf s core th.1 th.2 op
    && (let c := laneCap s core th.1 op.a.toNat
        let e := (effective c (laneOff s fr th.1 th.2)).toNat
        match lookup s (corePort s core) (capOid c) e with
        | .valid p => isPeerLine (pageByte p e / 64)
        | _ => false)).length

/-- An instruction that waits to issue while its core has fewer free replay slots than its lanes need together (R230). -/
def execSlotted (o : Opc) (need : State → Nat → Op → List (Nat × Nat) → Nat) (body : Body) (cue : CueBody) (op : Op) (s : State) : Out :=
  match s.actor with
  | .lanes core ths =>
    if issueHeld s core [] 0 (need s core op ths) false then .next (markHeld s core (holdReason s core o true) false ths)
    else runLanes o op true body secondBody core ths s
  | .cue core hold => runCueBuffered o op cue core hold s
  | .none => idle s

/-- ATOM (R155, R156). -/
def execAtom (op : Op) (s : State) : Out := execSlotted .atom remoteLanes bodyAtom cueAtom op s

/-- ATOMS in a lane: at the core's scratchpad. -/
def bodyAtoms : Body := fun fr cast lane s =>
  let off := spadOff s fr cast lane
  if spadFails s fr.core off 4 then .fault (spadFault fr 0x02 2 off)
  else
    let o := off.toNat
    let c := getCore s fr.core
    let who := Agent.lane fr.core cast lane
    if rangeBusy c o 4 then .hold s
    else if nmem (o / 64) c.spadPoison then .fault (spadFault fr 0x05 2 off)
    else
      let go (old : Nat) : LaneStep :=
        let new := atomNew (atomKind fr.op.mod.toNat) old (laneSrc s fr cast lane .b) (laneSrc s fr cast lane .c)
        let s1 := modCore s fr.core fun c => { c with spad := putBytes o (toBytes 4 new.1) c.spad }
        .done (noteReturn s1 who old) { destEff fr old with flags := new.2 }
      match nextValue s who 4 with
      | .ended => .hold (haltDivergence s who)
      | .value old => go (old % 2 ^ 32)
      | .live => go (ofBytes (bytesAt o 4 c.spad))

/-- ATOMS (R155, R156). -/
def execAtoms (op : Op) (s : State) : Out := execLane .atoms true bodyAtoms op s

end Sys2Proof.Machine
end

