-- ==== Sys2Proof/Machine/CapInstr.lean ====
section
/-! DEFINITION. The capability instructions (R132, R133, R157). -/

namespace Sys2Proof.Machine

/-- CAPLD: the capability when the granule's tag is 1, the null capability otherwise. -/
def gatherCapld : GatherSpec :=
  { commits := true
    body := fun fr cast act s =>
      match act with
      | [] => .done s []
      | lane :: _ =>
        castReadStep act (castRead s fr cast lane 16) fun s1 bs tag =>
          setCapReg s1 fr.core cast fr.op.d.toNat (if tag then BitVec.ofNat 128 (ofBytes bs) else 0) }

/-- CAPLD (R157). -/
def execCapld (op : Op) (s : State) : Out := execGather .capld gatherCapld op s

/-- CAPST in a lane: a 16-byte store that sets the granule's tag when it is performed. -/
def bodyCapst : Body := fun fr cast lane s =>
  let c := laneCap s fr.core cast fr.op.a.toNat
  let off := laneOff s fr cast lane
  let v := viaOf fr .a 2
  match accessOne s fr.core (coreFn s fr.core) (coreCtx s fr.core) v c off 16 [1, 4]
      (getThread s fr.core cast lane).denied with
  | .fault f => .fault f
  | .page s1 k => .page s1 k
  | .stop f => .stop f
  | .ok s1 p =>
    let e := (effective c off).toNat
    if p.cls ≠ 2 then .fault (memFault v 0x04 c e)
    else bufferStore s1 fr cast lane (.mem c true) e (toBytes 16 (laneCap s fr.core cast fr.op.c.toNat).toNat)

/-- CAPST (R157). -/
def execCapst (op : Op) (s : State) : Out := execLane .capst false bodyCapst op s

/-- A capability derived from `src`: bounds `[src.LOWER + b, src.LOWER + b + c)`, rights without `mask`, a least class (R132,
R157). -/
def narrow (src : Cap) (b c mask lc : Nat) : Cap :=
  mkCap (capLower src + b) (capLower src + b + c) (capOid src) (capRights src &&& (255 - mask)) lc

/-- Do the new bounds pass the source's? -/
def narrowOut (src : Cap) (b c : Nat) : Bool := capLower src + b + c > capUpper src

/-- The least class that CAPMK gives. -/
def newLc (src : Cap) (mod : Nat) : Nat := if mod = 0 then capLc src else mod

/-- Does CAPMK's class rule fail? -/
def capmkClassFail (src : Cap) (mod : Nat) : Bool :=
  classRank (newLc src mod) < classRank (capLc src) || (capLc src == 3 && mod != 0)

/-- CAPNAR. -/
def gatherCapnar : GatherSpec :=
  { commits := true
    body := fun fr cast act s =>
      match act with
      | [] => .done s []
      | lane :: _ =>
        let src := laneCap s fr.core cast fr.op.a.toNat
        let b := laneSrc s fr cast lane .b
        let c := laneSrc s fr cast lane .c
        if narrowOut src b c then .fault (memFault (viaOf fr .a 0) 0x02 src (capLower src + b : Nat))
        else .done (setCapReg s fr.core cast fr.op.d.toNat (narrow src b c fr.op.mod.toNat (capLc src))) [] }

/-- CAPNAR (R157). -/
def execCapnar (op : Op) (s : State) : Out := execGather .capnar gatherCapnar op s

/-- CAPMK. -/
def gatherCapmk : GatherSpec :=
  { commits := true
    body := fun fr cast act s =>
      match act with
      | [] => .done s []
      | lane :: _ =>
        let src := laneCap s fr.core cast fr.op.a.toNat
        let b := laneSrc s fr cast lane .b
        let c := laneSrc s fr cast lane .c
        let mod := fr.op.mod.toNat
        let v := viaOf fr .a 0
        if narrowOut src b c then .fault (memFault v 0x02 src (capLower src + b : Nat))
        else if capmkClassFail src mod then .fault (memFault v 0x04 src (capLower src + b : Nat))
        else .done (setCapReg s fr.core cast fr.op.d.toNat (narrow src b c 0 (newLc src mod))) [] }

/-- CAPMK (R157). -/
def execCapmk (op : Op) (s : State) : Out := execGather .capmk gatherCapmk op s

/-- What CAPINFO writes. -/
def capInfo (c : Cap) (sel : Nat) : Nat :=
  match sel with
  | 0 => capLower c
  | 1 => capUpper c
  | 2 => capUpper c - capLower c
  | 3 => capOid c
  | _ => capLc c * 256 + capRights c

def bodyCapinfo : Body := fun fr cast _ s =>
  .done s (destEff fr (capInfo (laneCap s fr.core cast fr.op.a.toNat) fr.op.mod.toNat))

def cueCapinfo : CueBody := fun fr _ _ _ s =>
  .done s (some (BitVec.ofNat 64 (capInfo (cueCap s fr.core fr.op.a.toNat) fr.op.mod.toNat))) none

/-- CAPINFO (R157). -/
def execCapinfo (op : Op) (s : State) : Out := execBoth .capinfo false bodyCapinfo cueCapinfo op s

end Sys2Proof.Machine
end

