-- ==== Sys2Proof/Machine/Copies.lean ====
section
/-! DEFINITION. The issue of copies: COPY, GATHERB, COPYX (R141, R143, R148, R158 to R163, R230, R374). -/

namespace Sys2Proof.Machine

/-! ### COPY (R160) -/

/-- What the checks of a copy give: nothing, or the first fault. -/
def copyFault (s : State) (fr : Frame) (c : Cap) (m sp n : Nat) : Option FaultInfo :=
  let out := fr.op.mod.toNat % 2 == 1
  let macc := if out then 2 else 1
  let sacc := if out then 1 else 2
  let v := viaOf fr .a macc
  if m % 4 ≠ 0 ∨ n % 4 ≠ 0 then some (memFault v 0x02 c (effective c m))
  else if sp % 4 ≠ 0 ∨ sp + n > spadSize (coreBill s fr.core) then some (spadFault fr 0x02 sacc sp)
  else checkEngine s fr.core (coreFn s fr.core) (coreCtx s fr.core) v c m n [if out then 1 else 0] [6]

/-- A COPY whose checks have passed. -/
def copyXfer (who : Agent) (lanes : List Nat) (op : Op) (pc : Word) (c : Cap) (m sp n range ctr : Nat) : Xfer :=
  let out := op.mod.toNat % 2 == 1
  let mem := Side.mem c (capLower c + m)
  { id := 0, kind := if out then .copyOut else .copyIn, agent := who, lanes, ctr, mod := op.mod.toNat, pc
    group := range, src := if out then .spad sp else mem, dst := if out then mem else .spad sp, len := n, range := some range }

/-- COPY by a thread: a length of 0 is complete at once. The lanes of one word share its number and its range. -/
def issueCopy (s : State) (fr : Frame) (who : Agent) (lanes : List Nat) (c : Cap) (m sp n : Nat) : State :=
  if n = 0 then s
  else startXfer (modCore s fr.core (enterRange (wordGroup s) sp (sp + n))) fr.core
    (copyXfer who lanes fr.op fr.pc c m sp n (wordGroup s) fr.op.d.toNat)

def bodyCopy : Body := fun fr cast lane s =>
  let c := laneCap s fr.core cast fr.op.a.toNat
  let m := laneSrc s fr cast lane .b
  let sp := laneSrc s fr cast lane .c
  let n := lengthOf fr.op false
  match copyFault s fr c m sp n with
  | some f => .fault f
  | none => .done (issueCopy s fr (.lane fr.core cast lane) [lane] c m sp n) {}

def cueCopy : CueBody := fun fr _ b x s =>
  let c := cueCap s fr.core fr.op.a.toNat
  let n := lengthOf fr.op true
  match copyFault s fr c b.toNat x.toNat n with
  | some f => .fault f
  | none =>
    if issueHeld s fr.core [.cue fr.core] 0 1 (n != 0) then .hold s
    else .done (issueCopy s fr (.cue fr.core) [] c b.toNat x.toNat n) none none

/-- An instruction of the copy engine, which waits to issue while its lanes cannot all issue (R143, R148, R230). -/
def execEngine (o : Opc) (range : Bool) (body : Body) (cue : CueBody) (op : Op) (s : State) : Out :=
  match s.actor with
  | .lanes core ths =>
    let whos := activeAgents s core op ths
    if issueHeld s core whos op.d.toNat whos.length range then .next (markHeld s core (holdReason s core o true) false ths)
    else runLanes o op true body secondBody core ths s
  | .cue core hold => runCueBuffered o op cue core hold s
  | .none => idle s

/-- COPY (R160). -/
def execCopy (op : Op) (s : State) : Out := execEngine .copy (lengthOf op false != 0) bodyCopy cueCopy op s

/-! ### COPYX (R163, R374) -/

/-- Is the last byte of a range beyond the tiles of a Fugitive region, as far as its header can be read? -/
def beyondTiles (s : State) (q : Port) (oid stop : Nat) : Bool :=
  match fugHeader s q oid with
  | some f => decide (stop > 512 * f.ntile)
  | none => false

/-- The checks of one side of a COPYX at issue. A Fugitive region whose header's pages are missing passes here, and its units wait for
them (R141; DESIGN CHOICE, log 65). -/
def copyxSide (s : State) (q : Port) (v : Via) (c : Cap) (off n : Nat) (right : Nat) : Option FaultInfo :=
  let fn := q.fn
  let e := capLower c + off
  if isFug s fn c then
    if e + n > capUpper c || headerInvalid s q (capOid c) || beyondTiles s q (capOid c) (e + n) then some (memFault v 0x02 c e)
    else if !(capHas c right && capHas c 5) then some (memFault v 0x03 c e)
    else if objTier (getObject s fn (capOid c)) = 2 then some (memFault v 0x04 c e)
    else none
  else match checkCap s fn v c off n false [right, 5] with
    | some f => some f
    | none =>
      let o := getObject s fn (capOid c)
      if classFail c (objTier o) (objClass o) then some (memFault v 0x04 c e) else none

/-- What the checks of a COPYX give. DESIGN CHOICE, log 39. -/
def copyxFault (s : State) (fr : Frame) (dst src : Cap) (off n : Nat) : Option FaultInfo :=
  let fn := coreFn s fr.core
  let q := corePort s fr.core
  let vs := viaOf fr .b 1
  let vd := viaOf fr .a 2
  let mode := fr.op.mod.toNat
  if off % 64 ≠ 0 ∨ n % 64 ≠ 0 then some (memFault vs 0x02 src (effective src off))
  else match copyxSide s q vs src off n 0 with
    | some f => some f
    | none =>
      match copyxSide s q vd dst off n 1 with
      | some f => some f
      | none =>
        if (mode == 1) != isFug s fn src then some (memFault vs 0x04 src (effective src off))
        else if (mode == 2) != isFug s fn dst then some (memFault vd 0x04 dst (effective dst off))
        else none

/-- Does the destination lie above an overlapping source in one object (R158, R163)? -/
def copyxDescends (dst src : Cap) (off n : Nat) : Bool :=
  let d := capLower dst + off
  let e := capLower src + off
  capOid dst == capOid src && overlaps d n e n && decide (d > e)

def issueCopyx (s : State) (fr : Frame) (who : Agent) (lanes : List Nat) (dst src : Cap) (off n : Nat) : State :=
  if n = 0 then s
  else startXfer s fr.core
    { id := 0, kind := .copyx, agent := who, lanes, ctr := fr.op.d.toNat, mod := fr.op.mod.toNat, pc := fr.pc, group := wordGroup s
      src := .mem src (capLower src + off), dst := .mem dst (capLower dst + off), len := n
      descending := copyxDescends dst src off n }

def bodyCopyx : Body := fun fr cast lane s =>
  let dst := laneCap s fr.core cast fr.op.a.toNat
  let src := laneCap s fr.core cast fr.op.b.toNat
  let off := laneSrc s fr cast lane .c
  let n := lengthOf fr.op false
  match copyxFault s fr dst src off n with
  | some f => .fault f
  | none => .done (issueCopyx s fr (.lane fr.core cast lane) [lane] dst src off n) {}

def cueCopyx : CueBody := fun fr _ _ c s =>
  let dst := cueCap s fr.core fr.op.a.toNat
  let src := cueCap s fr.core fr.op.b.toNat
  let n := lengthOf fr.op true
  match copyxFault s fr dst src c.toNat n with
  | some f => .fault f
  | none =>
    if issueHeld s fr.core [.cue fr.core] 0 1 false then .hold s
    else .done (issueCopyx s fr (.cue fr.core) [] dst src c.toNat n) none none

/-- COPYX (R163, R374). -/
def execCopyx (op : Op) (s : State) : Out := execEngine .copyx false bodyCopyx cueCopyx op s

/-! ### GATHERB (R161, R162) -/

/-- The geometry of a GATHERB: words in a row, rows, pitches in words. -/
structure Geo where
  nlen : Nat
  nrow : Nat
  pitch : Nat
  bpitch : Nat
  deriving DecidableEq, Repr

/-- The geometry that the immediate gives. -/
def geoOf (op : Op) : Geo :=
  let g := lengthOf op false
  let nlen := g % 256
  let nrow := g / 256 % 256 + 1
  let pitch := nlen + wrap (1 - (nlen : Int)) 5
  { nlen, nrow, pitch, bpitch := nrow * pitch + wrap (1 - (nrow : Int)) 5 }

/-- Bytes of a block in memory. -/
def Geo.block (g : Geo) : Nat := g.nrow * g.nlen * 4

/-- The scratchpad byte of row `k` of lane `j`. -/
def Geo.row (g : Geo) (base j k : Nat) : Nat := base + 4 * (j * g.bpitch + k * g.pitch)

/-- The end of lane `j`'s last row. -/
def Geo.endOf (g : Geo) (base j : Nat) : Nat := g.row base j (g.nrow - 1) + 4 * g.nlen

/-- The memory offset of a lane's block. -/
def gatherOff (s : State) (fr : Frame) (cast lane : Nat) (g : Geo) : Nat := laneSrc s fr cast lane .b * g.block

/-- Is a lane's block out of bounds (R162)? Block index 0xFFFFFFFF always is (R339). A block of an object whose V is 0 counts as out of
bounds too (DESIGN CHOICE, log 70). -/
def gatherOut (s : State) (fr : Frame) (cast lane : Nat) (g : Geo) (c : Cap) : Bool :=
  laneSrc s fr cast lane .b == 0xFFFFFFFF || boundsFail s (coreFn s fr.core) c (effective c (gatherOff s fr cast lane g)) g.block false

/-- The checks of R162, in their order, with the header check of R360. DEDUCED, log 45. -/
def gatherFault (s : State) (fr : Frame) (cast : Nat) (act : List Nat) (g : Geo) (c : Cap) (base : Nat) :
    Option FaultInfo :=
  let v := viaOf fr .a 1
  let at' (l : Nat) : Int := effective c (gatherOff s fr cast l g)
  let fug := isFug s (coreFn s fr.core) c
  let o := getObject s (coreFn s fr.core) (capOid c)
  let lead := act.headD 0
  if base % 128 ≠ 0 ∨ g.endOf base (act.getLastD 0) > spadSize (coreBill s fr.core) then some (spadFault fr 0x02 2 base)
  else
    match (if fr.op.mod = 0 then act.find? fun l => gatherOut s fr cast l g c else none) with
    | some l => some (memFault v 0x02 c (at' l))
    | none =>
      if fug && headerInvalid s (corePort s fr.core) (capOid c) then some (memFault v 0x02 c (at' lead))
      else if !(capHas c 0 && capHas c 6) then some (memFault v 0x03 c (at' lead))
      else if capLc c = 3 ∨ classFail c (objTier o) (objClass o) then some (memFault v 0x04 c (at' lead))
      else none

/-- One lane's rows as a transfer. -/
def gatherXfer (s : State) (fr : Frame) (cast lane : Nat) (g : Geo) (c : Cap) (base group : Nat) : Xfer :=
  let out := gatherOut s fr cast lane g c
  { id := 0, kind := .gather, agent := .lane fr.core cast lane, lanes := [lane], ctr := fr.op.d.toNat
    mod := fr.op.mod.toNat, pc := fr.pc, group
    src := if out then .zeros c (capLower c + gatherOff s fr cast lane g) else .mem c (capLower c + gatherOff s fr cast lane g)
    dst := .spad (g.row base lane 0)
    len := g.block, rows := g.nrow, rowBytes := 4 * g.nlen, pitch := 4 * g.pitch
    range := some group }

/-- The lanes whose rows are transferred: a lane skipped under `.skip` is complete at once (R230). -/
def gatherMoves (s : State) (fr : Frame) (cast : Nat) (act : List Nat) (g : Geo) (c : Cap) : List Nat :=
  act.filter fun l => !(fr.op.mod == 2 && gatherOut s fr cast l g c)

def gatherGatherb : GatherSpec :=
  { commits := true
    body := fun fr cast act s =>
      match act with
      | [] => .done s []
      | lead :: _ =>
        let g := geoOf fr.op
        let c := laneCap s fr.core cast fr.op.a.toNat
        let base := laneSrc s fr cast lead .c
        match gatherFault s fr cast act g c base with
        | some f => .fault f
        | none =>
          let moves := gatherMoves s fr cast act g c
          if moves.isEmpty then .done s []
          else if issueHeld s fr.core (act.map fun l => .lane fr.core cast l) fr.op.d.toNat act.length true then .hold s
          else
            let (group, s0) := takeGroup s
            let s1 := moves.foldl (fun s l => modCore s fr.core (enterRange group (g.row base l 0) (g.endOf base l))) s0
            .done ((moves.map fun l => gatherXfer s fr cast l g c base group).foldl (fun s x => startXfer s fr.core x) s1) [] }

/-- GATHERB (R161, R162). -/
def execGatherb (op : Op) (s : State) : Out := execGather .gatherb gatherGatherb op s

end Sys2Proof.Machine
end

