-- ==== Sys2Proof/Machine/Reduction.lean ====
section
/-! DEFINITION. Accumulator elements and the merge of a CRED round (R302, R335 to R337). -/

namespace Sys2Proof.Machine

/-! ### The accumulator store (R302) -/

/-- The key of an element, and of a row. -/
def zKey (tile row col : Nat) : Nat := tile * 2048 + row * 32 + col
def zRow (tile row : Nat) : Nat := tile * 64 + row

/-- An accumulator element. -/
def zElem (c : Cluster) (tile row col : Nat) : Word := sget 0 (zKey tile row col) c.z

/-- Set the elements of a row from column `n` on. -/
def putRow (tile row : Nat) : List Nat → Nat → Store Word → Store Word
  | [], _, z => z
  | x :: xs, n, z => putRow tile row xs (n + 1) (sset 0 (zKey tile row n) (BitVec.ofNat 32 x) z)

/-! ### Merging the contributions of a round (R335 to R337) -/

/-- A row of a partial result: maximum, sum and accumulator elements. -/
structure PartRow where
  m : Nat
  l : Nat
  acc : List Nat
  deriving DecidableEq, Repr

/-- The row of a lane outside L. -/
def emptyRow : PartRow := { m := 0xFF800000, l := 0, acc := List.replicate 32 0 }

/-- FMAX of two FP32 codes (R111): −0 lies below +0. -/
def maxBits (x y : Nat) : Nat :=
  let u := decodeFmt fp32 x
  let v := decodeFmt fp32 y
  if isNan u || isNan v then fmtNan fp32
  else if cmpF u v = 0 then (if fNeg u then y else x)
  else if cmpF u v = 1 then x else y

/-- `Rescale` (R336): the factor of a part whose maximum is `x` under the merged maximum `m`. -/
def rescaleTo (x m : Nat) : FVal :=
  let u := decodeFmt fp32 x
  let v := decodeFmt fp32 m
  if isNan u || isNan v then .nan
  else if cmpF u v = 0 then .fin false 1 1
  else match u, v with
    | .fin _ _ _, .fin _ _ _ =>
      match sumF false [u, negF v] with
      | .fin neg n d => let p := expFrac neg n d; decodeFmt fp32 (roundF fp32 .rne (.fin false p.1 p.2) 0).bits
      | _ => .fin false 0 1
    | _, _ => .fin false 0 1

/-- `Fused` (R336). -/
def fused (p : Nat) (f : FVal) (q : Nat) (g : FVal) : Nat :=
  (roundF fp32 .rne (sumF false [mulF (decodeFmt fp32 p) f, mulF (decodeFmt fp32 q) g]) 0).bits

/-- `Merge` (R336). -/
def mergeRows (a b : PartRow) : PartRow :=
  let m := maxBits a.m b.m
  let fa := rescaleTo a.m m
  let fb := rescaleTo b.m m
  { m, l := fused a.l fa b.l fb, acc := List.zipWith (fun x y => fused x fa y fb) a.acc b.acc }

/-- Row `i` of a contribution, with zX as it stands (R335). -/
def postedRow (c : Cluster) (x : Contribution) (i : Nat) : PartRow :=
  if x.lanes.contains i then
    { m := (sget 0 i x.m).toNat, l := (sget 0 i x.l).toNat, acc := (List.range 32).map fun n => (zElem c x.tile i n).toNat }
  else emptyRow

/-- The merged row of the contributions in ascending position. -/
def mergedRow (c : Cluster) (posts : List Contribution) (i : Nat) : PartRow :=
  match posts with
  | [] => emptyRow
  | x :: rest => rest.foldl (fun acc y => mergeRows acc (postedRow c y i)) (postedRow c x i)

/-- Is a merged row poisoned? -/
def mergedPoison (c : Cluster) (posts : List Contribution) (i : Nat) : Bool :=
  posts.any fun x => x.lanes.contains i && nmem (zRow x.tile i) c.zPoison

/-- Contributions by list position. -/
def insertPost (x : Contribution) : List Contribution → List Contribution
  | [] => [x]
  | y :: rest => if x.position < y.position then x :: y :: rest else y :: insertPost x rest

/-- Write a merged row of the lead (R337). -/
def writeMerged (tile i : Nat) (r : PartRow) (bad : Bool) (c : Cluster) : Cluster :=
  { c with
    z := sset 0 (zKey (tile + 1) i 1) (BitVec.ofNat 32 r.l)
      (sset 0 (zKey (tile + 1) i 0) (BitVec.ofNat 32 r.m) (putRow tile i r.acc 0 c.z))
    zPoison := nset (zRow (tile + 1) i) bad (nset (zRow tile i) bad c.zPoison) }

/-- The cluster after a round's writes: those of the lead, if any contribution has lanes. -/
def mergeRound (posts : List Contribution) (c : Cluster) : Cluster :=
  match posts.find? fun x => !x.lanes.isEmpty with
  | none => c
  | some lead =>
    lead.lanes.foldl (fun acc i => writeMerged lead.tile i (mergedRow c posts i) (mergedPoison c posts i) acc) c

/-- The contribution that a request posted to an open round of its cluster, with the round. -/
def roundOf (c : Cluster) (request : Nat) : Option (Round × Contribution) :=
  c.rounds.findSome? fun r => (r.posts.find? fun x => x.request == request).map fun x => (r, x)

/-- An element of a tile once a round is merged: that of the lead's rows changes, every other keeps its value `x` (R337). -/
def mergedElem (c : Cluster) (posts : List Contribution) (mine : Contribution) (tile lane col x : Nat) : Nat :=
  match posts.find? fun y => !y.lanes.isEmpty with
  | none => x
  | some lead =>
    if lead.request ≠ mine.request || !lead.lanes.contains lane then x
    else
      let r := mergedRow c posts lane
      if tile = lead.tile then r.acc.getD col 0
      else if tile = lead.tile + 1 then (if col = 0 then r.m else if col = 1 then r.l else x)
      else x

/-- Has every cast of the ensemble that has a live thread posted (R335)? Position j stands on core j of the cluster; a cast that is
still in the image memory has live threads, and has not posted (R276). -/
def roundFull (s : State) (cluster : Nat) (r : Round) : Bool :=
  let l := getLaunch s r.launch
  (enum 0 (sget {} r.ens l.ensembles).casts).all fun e =>
    let core := 4 * cluster + e.1
    (r.posts.any fun x => x.cast == e.2)
      || !(l.waiting.contains e.2
        || ((getCore s core).launch == some r.launch && (sget {} e.2 (getCore s core).casts).threads.any Thread.live))

end Sys2Proof.Machine
end

