-- ==== Sys2Proof/Machine/Matrix.lean ====
section
/-! DEFINITION. The matrix engine: MMA, MMAS, ZCLR, ZLD, ZST, ZMOV, WLOAD, ORDY, SPCOMP, the reservation table, grants and the
completion of passes (R302 to R325). -/

namespace Sys2Proof.Machine

/-! ### The weight buffer (R306) -/

/-- Has a block of granules a poisoned one? -/
def granulesPoisoned (c : Cluster) (first n : Nat) : Bool := nmeets first n c.weightsPoison

/-! ### The reservation table (R311 to R313) -/

/-- The tiles that a request writes or reads. -/
def requestTiles (r : Request) : List Nat :=
  match r.kind with
  | .cred _ => [r.tile, r.tile + 1]
  | _ => [r.tile]

/-- Does an earlier request of the table name one of its tiles? -/
def requestHeld (c : Cluster) (r : Request) : Bool :=
  c.table.any fun x => x.id < r.id && (requestTiles x).any (requestTiles r).contains

/-- Must a cast wait to post: a full table or a counter at 255 (R148, R311)? -/
def postHeld (s : State) (core cast : Nat) (lanes : List Nat) (ctr : Nat) : Bool :=
  decide ((getCluster s (clusterOfCore core)).table.length ≥ 32)
    || lanes.any fun l => counterFull s (.lane core cast l) ctr

/-- Post a request; the counters of its lanes rise. -/
def postRequest (s : State) (core cast : Nat) (lanes : List Nat) (ctr tile : Nat) (high : Bool) (kind : ReqKind) : State :=
  let (id, s1) := takeFresh s
  let s2 := raiseAll s1 (lanes.map fun l => .lane core cast l) ctr
  modCluster s2 (clusterOfCore core) fun c =>
    { c with table := c.table ++
        [{ id, core, cast, lanes, ctr, tile, high, posted := coreClk s core, kind, launch := (getCore s core).launch }] }

/-- A request completes: it leaves the table, and the counters fall where its core still holds its launch. -/
def dropRequest (s : State) (cluster : Nat) (r : Request) : State :=
  let s1 := modCluster s cluster fun c => { c with table := c.table.filter fun x => !(x.id == r.id) }
  if holdsLaunch s r.core r.launch then lowerAll s1 (r.lanes.map fun l => .lane r.core r.cast l) r.ctr else s1

/-! ### MMA and MMAS (R308 to R310) -/

/-- The slots of a pass. -/
def slotA (s : State) (core : Nat) (op : Op) : DWord := slotOf s core op
def slotB (s : State) (core : Nat) (op : Op) : DWord := (coreBill s core).slots.getD (op.mod.toNat % 8) 0

/-- Does A come from the scratchpad? -/
def fromSpad (op : Op) : Bool := op.mod.toNat.testBit 3

/-- Scale bytes that follow a row's codes. -/
def rowScales (p : PassShape) (sa : DWord) : Nat := if slotSch sa = 1 then p.groups else 0

/-- The shape of a pass, none where its slots or its scale registers are illegal (R303, R305). -/
def legalShape (s : State) (core : Nat) (sparse : Bool) (op : Op) : Option PassShape :=
  let sa := slotA s core op
  match passShape sparse sa (slotB s core op) with
  | none => none
  | some p =>
    if !fromSpad op && slotSch sa == 1
        && op.a.toNat + (if sparse then 32 else 16) + ceilDiv p.groups 4 > (coreBill s core).vregs then none
    else some p

/-- `n` bytes of a lane's registers from register `a` on. -/
def registerRow (s : State) (core cast lane a n : Nat) : List Byte :=
  (toBytes (4 * ceilDiv n 4) (joinWords (readV s core cast lane) a (ceilDiv n 4))).take n

/-- The bytes of a lane's row of A as they stand: in its registers, or in the scratchpad. -/
def rowBytesOf (s : State) (fr : Frame) (cast lane : Nat) (p : PassShape) (sa : DWord) : List Byte :=
  let n := p.rowBytes + rowScales p sa
  if fromSpad fr.op then bytesAt (laneSrc s fr cast lane .a) n (getCore s fr.core).spad
  else registerRow s fr.core cast lane fr.op.a.toNat n

/-- A fault of the weight buffer (R310). -/
def weightFault (fr : Frame) (code gb : Nat) : FaultInfo :=
  { plainFault fr code 0x7E with faddr := BitVec.ofNat 64 (oidOff 0xFFFFFE (64 * gb)) }

/-- The first of some lanes whose row is misaligned or ends beyond S. -/
def rowOut (s : State) (fr : Frame) (cast : Nat) (act : List Nat) (n : Nat) : Option Nat :=
  act.find? fun l =>
    let o := laneSrc s fr cast l .a
    o % 4 ≠ 0 ∨ o + n > spadSize (coreBill s fr.core)

/-- The first of some lanes whose row touches a poisoned segment. -/
def rowPoisoned (s : State) (fr : Frame) (cast : Nat) (act : List Nat) (n : Nat) : Option Nat :=
  act.find? fun l =>
    let o := laneSrc s fr cast l .a
    nmeets (o / 64) ((o + n - 1) / 64 - o / 64 + 1) (getCore s fr.core).spadPoison

/-- The checks of R310 after the slots. -/
def passFault (s : State) (fr : Frame) (cast : Nat) (act : List Nat) (sparse : Bool) (p : PassShape) (gb : Nat) :
    Option FaultInfo :=
  let n := p.rowBytes + rowScales p (slotA s fr.core fr.op)
  let g := p.granules sparse (slotB s fr.core fr.op)
  let spad := fromSpad fr.op
  match (if spad then rowOut s fr cast act n else none) with
  | some l => some (spadFault fr 0x02 1 (laneSrc s fr cast l .a))
  | none =>
    match (if spad then rowPoisoned s fr cast act n else none) with
    | some l => some (spadFault fr 0x05 1 (laneSrc s fr cast l .a))
    | none =>
      if gb + g > 32768 then some (weightFault fr 0x02 gb)
      else if granulesPoisoned (getCluster s (clusterOfCore fr.core)) gb g then some (weightFault fr 0x05 gb)
      else none

/-- The bytes of a block as they stand. -/
def blockBytes (c : Cluster) (gb g : Nat) : List Byte := bytesAt (64 * gb) (64 * g) c.weights

/-- MMA and MMAS: the checks, then the request with its operands as they stand. After a resume a pass waits until the weight buffer is
reloaded, before its block is checked (R324). -/
def gatherPass (sparse : Bool) : GatherSpec :=
  { commits := true
    body := fun fr cast act s =>
      match act with
      | [] => .done s []
      | lead :: _ =>
        match legalShape s fr.core sparse fr.op with
        | none => .fault (illegalFault fr (encodeWord0 fr.o fr.op))
        | some p =>
          if !(getCluster s (clusterOfCore fr.core)).refill.isEmpty then .hold s
          else
          let gb := laneSrc s fr cast lead .b
          match passFault s fr cast act sparse p gb with
          | some f => .fault f
          | none =>
            if postHeld s fr.core cast act fr.op.c.toNat then .hold s
            else
              let rows : Store (List Byte) :=
                act.map fun l => (l, rowBytesOf s fr cast l p (slotA s fr.core fr.op))
              let block := blockBytes (getCluster s (clusterOfCore fr.core)) gb (p.granules sparse (slotB s fr.core fr.op))
              let offsets : Store Nat := if fromSpad fr.op then act.map fun l => (l, laneSrc s fr cast l .a) else []
              .done (postRequest s fr.core cast act fr.op.c.toNat fr.op.d.toNat (fr.op.mod.toNat.testBit 5)
                (.pass sparse fr.op gb rows block offsets)) [] }

/-- MMA (R309). -/
def execMma (op : Op) (s : State) : Out := execGather .mma (gatherPass false) op s

/-- MMAS (R309). -/
def execMmas (op : Op) (s : State) : Out := execGather .mmas (gatherPass true) op s

/-! ### What a pass computes -/

/-- Codes of which each is the one that stood at issue or the one that stands now (R314). -/
def mixCodes (tick : Nat) : Nat → List Nat → List Nat → List Nat
  | i, x :: xs, y :: ys => (if x = y then y else if Config.freeBit tick i then x else y) :: mixCodes tick (i + 1) xs ys
  | _, _, _ => []

/-- A row of A: its values, from the bytes at issue and those that stand now. -/
def passRow (tick lane : Nat) (p : PassShape) (sa : DWord) (old now : List Byte) : List FVal :=
  let codes (bs : List Byte) := codesOf p.wa p.depth bs
  let scales (bs : List Byte) := codesOf 8 (rowScales p sa) (bs.drop p.rowBytes)
  rowValues sa (mixCodes tick (lane * 4096) (codes old) (codes now))
    (mixCodes tick (lane * 4096 + 1024) (scales old) (scales now))

/-- Column `n` of B. -/
def passColumn (tick n : Nat) (sparse : Option Nat) (p : PassShape) (sb : DWord) (old now : List Byte) :
    List (Option FVal) :=
  let sp := sparse.isSome
  let k := p.colCodes sp
  let m := p.colMeta sp
  let t := p.colScales sb
  let codes (bs : List Byte) := codesOf p.wb (p.kept sp) ((bs.drop (n * k)).take k)
  let bits (bs : List Byte) := codesOf 1 (8 * m) ((bs.drop (32 * k + n * m)).take m)
  let scales (bs : List Byte) := codesOf 8 t ((bs.drop (32 * (k + m) + n * t)).take t)
  let i := (64 + n) * 4096
  columnValues sparse sb (mixCodes tick i (codes old) (codes now)) (mixCodes tick (i + 1024) (bits old) (bits now))
    (mixCodes tick (i + 2048) (scales old) (scales now))

/-- The row that a pass writes for a lane: its 32 elements. Each element of its operands, in registers, in the scratchpad or in the
weight buffer, is read as it stood at issue or as it stands now (R247, R314); `acc` is the row it adds to. -/
def passRowResult (s : State) (cluster : Nat) (r : Request) (sparse : Bool) (op : Op) (gb : Nat) (rows : Store (List Byte))
    (block : List Byte) (offsets : Store Nat) (lane : Nat) (acc : Nat → Nat) : List Nat :=
  let sa := slotA s r.core op
  let sb := slotB s r.core op
  match passShape sparse sa sb with
  | none => []
  | some p =>
    let c := getCluster s cluster
    let old := sget [] lane rows
    let now := if !holdsLaunch s r.core r.launch then old else match sfind lane offsets with
      | some o => bytesAt o old.length (getCore s r.core).spad
      | none => registerRow s r.core r.cast lane op.a.toNat old.length
    let a := passRow s.tick lane p sa old now
    let kind := if sparse then some (if op.mod.toNat.testBit 6 then 8 else 4) else none
    let here := blockBytes c gb (p.granules sparse sb)
    (List.range 32).map fun n =>
      passElem a (passColumn s.tick n kind p sb block here) p.groups
        (if op.mod.toNat.testBit 4 then 0 else acc n)

/-- What a request writes in the row of a lane over a row `acc`, if it is a pass or a ZCLR. -/
def requestRow (s : State) (cluster : Nat) (r : Request) (lane : Nat) (acc : Nat → Nat) : Option (List Nat) :=
  match r.kind with
  | .pass sparse op gb rows block offsets => some (passRowResult s cluster r sparse op gb rows block offsets lane acc)
  | .zclr => some (List.replicate 32 0)
  | _ => none

/-- Does the request's completion clear the poison of the rows it writes? -/
def clearsRows (r : Request) : Bool :=
  match r.kind with
  | .pass _ op _ _ _ _ => op.mod.toNat.testBit 4
  | .zclr => true
  | _ => false

/-- The engine completes a pass or a ZCLR, in one step (R309, R317). -/
def completeRequest (s : State) (cluster : Nat) (r : Request) : State :=
  let old := getCluster s cluster
  let rows := r.lanes.filterMap fun l =>
    (requestRow s cluster r l fun n => (zElem old r.tile l n).toNat).map fun x => (l, x)
  let s1 := modCluster s cluster fun c =>
    { c with
      z := rows.foldl (fun z e => putRow r.tile e.1 e.2 0 z) c.z
      zPoison := if clearsRows r then r.lanes.foldl (fun p l => ndel (zRow r.tile l) p) c.zPoison else c.zPoison }
  dropRequest s1 cluster r

/-! ### Grants (R312) -/

/-- Is the request one of the engine: a pass or a ZCLR? -/
def ofEngine (r : Request) : Bool :=
  match r.kind with
  | .pass _ _ _ _ _ _ | .zclr => true
  | .zld _ | .zst _ | .cred _ => false

/-- The keys of R312, lower first. -/
def grantKey (clk : Nat) (r : Request) : List Nat :=
  [if r.high || clk - r.posted ≥ 1024 then 0 else 1, r.posted, r.core, r.cast, r.id]

/-- Lexicographic order of keys. -/
def keyLt : List Nat → List Nat → Bool
  | [], _ => false
  | _, [] => false
  | x :: xs, y :: ys => x < y || (x == y && keyLt xs ys)

/-- The request that stands first. -/
def firstRequest (clk : Nat) : List Request → Option Request
  | [] => none
  | r :: rest =>
    match firstRequest clk rest with
    | none => some r
    | some x => if keyLt (grantKey clk x) (grantKey clk r) then some x else some r

/-- The arbiter grants the free engine (R312), once the weights are refilled after a resume (R324). -/
def execMatrixGrant (cluster : Nat) (s : State) : Out :=
  let c := getCluster s cluster
  if (c.table.any fun r => r.granted) || !c.refill.isEmpty then .next s
  else
    match firstRequest (getDie s (dieOfCluster cluster)).clk (c.table.filter fun r => ofEngine r && !requestHeld c r) with
    | none => .next s
    | some r =>
      .next (setCluster s cluster
        { c with table := c.table.map fun x => if x.id = r.id then { x with granted := true } else x })

/-- The granted request completes (R309, R317). -/
def execMatrixPassCompletion (cluster : Nat) (s : State) : Out :=
  match (getCluster s cluster).table.find? fun r => r.granted with
  | some r => .next (completeRequest s cluster r)
  | none => .next s

/-! ### ZCLR, ZLD, ZST, ZMOV (R316 to R319) -/

def gatherZclr : GatherSpec :=
  { commits := true
    body := fun fr cast act s =>
      if act.isEmpty then .done s []
      else if postHeld s fr.core cast act fr.op.c.toNat then .hold s
      else .done (postRequest s fr.core cast act fr.op.c.toNat fr.op.d.toNat false .zclr) [] }

/-- ZCLR (R317). -/
def execZclr (op : Op) (s : State) : Out := execGather .zclr gatherZclr op s

/-- The transfer of a tile. -/
def tileXfer (fr : Frame) (cast lead : Nat) (act : List Nat) (c : Cap) (off n group : Nat) (load : Bool) : Xfer :=
  let mem := Side.mem c off
  let tile := Side.tile (fr.op.d.toNat * 8192)
  { id := 0, kind := if load then .zld else .zst, agent := .lane fr.core cast lead, lanes := act, ctr := fr.op.c.toNat
    src := if load then mem else tile, dst := if load then tile else mem, len := n, pc := fr.pc, group }

/-- ZLD and ZST: the whole tile moves; the request stands for the transfer in the order of the tile. -/
def gatherTile (load : Bool) : GatherSpec :=
  { commits := true
    body := fun fr cast act s =>
      match act with
      | [] => .done s []
      | lead :: _ =>
        let c := laneCap s fr.core cast fr.op.a.toNat
        let off := laneOff s fr cast lead
        let n := 128 * (coreBill s fr.core).width
        let v := viaOf fr .a (if load then 1 else 2)
        let check := if off % 128 ≠ 0 then some (memFault v 0x02 c (effective c off))
          else checkEngine s fr.core (coreFn s fr.core) (coreCtx s fr.core) v c off n [if load then 0 else 1] []
        match check with
        | some f => .fault f
        | none =>
          if postHeld s fr.core cast act fr.op.c.toNat || issueHeld s fr.core [] fr.op.c.toNat 1 false then .hold s
          else
            let (group, s1) := takeGroup s
            let s2 := startXfer s1 fr.core (tileXfer fr cast lead act c (effective c off).toNat n group load)
            let (id, s3) := takeFresh s2
            .done (modCluster s3 (clusterOfCore fr.core) fun cl =>
              { cl with table := cl.table ++
                  [{ id, core := fr.core, cast, lanes := act, ctr := fr.op.c.toNat, tile := fr.op.d.toNat, high := false,
                     posted := coreClk s fr.core, kind := if load then .zld s1.fresh else .zst s1.fresh
                     launch := (getCore s fr.core).launch }] }) [] }

/-- ZLD (R318). -/
def execZld (op : Op) (s : State) : Out := execGather .zld (gatherTile true) op s

/-- ZST (R318). -/
def execZst (op : Op) (s : State) : Out := execGather .zst (gatherTile false) op s

/-- Does the request write its tile (R316, R338)? -/
def writesTile (r : Request) : Bool :=
  match r.kind with
  | .pass _ _ _ _ _ _ | .zclr | .zld _ | .cred _ => true
  | .zst _ => false

/-- The requests of a cast that write a tile and have not completed. -/
def pendingWrites (s : State) (core cast tile : Nat) : List Request :=
  (getCluster s (clusterOfCore core)).table.filter fun r =>
    r.core == core && r.cast == cast && (requestTiles r).contains tile && writesTile r

/-- A byte of an object as a core sees it now; none where its page is not valid. -/
def viewByte (s : State) (core : Nat) (q : Port) (oid off : Nat) : Option Nat :=
  (resolve s q oid off).map fun key => field (viewLine s core (key / 64)).data.toNat (8 * (key % 64) + 7) (8 * (key % 64))

/-- The word that a ZLD brings to an element, from its source as it stands now. -/
def loadedWord (s : State) (core xfer lane col : Nat) : Option Nat :=
  match (getCore s core).xfers.find? fun x => x.id == xfer with
  | none => none
  | some x =>
    match x.src with
    | .mem c o =>
      ((List.range 4).foldr (fun i acc =>
        match acc, viewByte s core { fn := x.fn, ctx := x.ctx, core := some core } (capOid c) (o + 128 * lane + 4 * col + i) with
        | some n, some b => some (b + 256 * n)
        | _, _ => none) (some 0))
    | _ => none

/-- Is every earlier request of a contributing cast, and every earlier request of its tiles, complete, but those that `skip` leaves out
(R313, R338)? -/
def roundReady (skip : Request → Bool) (c : Cluster) (r : Round) : Bool :=
  r.posts.all fun x => c.table.all fun q =>
    x.request ≤ q.id || skip q || (r.posts.any fun y => y.request == q.id)
      || !((q.core == x.core && q.cast == x.cast) || (requestTiles q).any [x.tile, x.tile + 1].contains)

/-- An element of a tile after a request that has not completed, from its value `x` before: the element of a pass or a ZCLR in its
lanes, of a ZLD in every lane, of a round that awaits its completion and no request but those of the reading cast, which stand before it
here (R316, R318, R338). -/
def afterRequest (s : State) (cluster tile lane col : Nat) (r : Request) (x : Nat) : Nat :=
  match r.kind with
  | .zld xfer => (loadedWord s r.core xfer lane col).getD x
  | .cred _ =>
    match roundOf (getCluster s cluster) r.id with
    | some (round, mine) =>
      if roundFull s cluster round && roundReady (fun q => q.core == r.core && q.cast == r.cast) (getCluster s cluster) round then
        mergedElem (getCluster s cluster) round.posts mine tile lane col x
      else x
    | none => x
  | _ =>
    if r.lanes.contains lane then
      (match requestRow s cluster r lane (fun _ => x) with
        | some row => row.getD col 0
        | none => x)
    else x

/-- An element read early: after none, some or all of the pending requests, which are performed in posting order (R313, R316; DESIGN
CHOICE, log 29). -/
def earlyElem (s : State) (cluster tile lane col : Nat) : List Request → Nat → Nat
  | [], x => x
  | r :: rest, x =>
    if Config.freeBit s.tick (lane + 64 * rest.length) then earlyElem s cluster tile lane col rest (afterRequest s cluster tile lane col r x)
    else x

/-- An element as a core may see it: as it stands, or as it stood before a round of another core whose writes the core has not acquired
(R313, R338; DESIGN CHOICE, log 29). -/
def seenElem (s : State) (core key x : Nat) : Nat :=
  match (getCluster s (clusterOfCore core)).views.find? fun v => nmem core v.hidden && (sfind key v.old).isSome with
  | some v => if Config.freeBit s.tick key then (sget 0 key v.old).toNat else x
  | none => x

/-- A fault of an accumulator row (R319). -/
def rowFault (fr : Frame) (code tile lane : Nat) : FaultInfo :=
  { plainFault fr code 0x7D with faddr := BitVec.ofNat 64 (oidOff 0xFFFFFD (tile * 8192 + 128 * lane)) }

def bodyZmov : Body := fun fr cast lane s =>
  let x := laneSrc s fr cast lane .a
  let c := laneSrc s fr cast lane .b
  let cl := clusterOfCore fr.core
  let pending := pendingWrites s fr.core cast x
  if c > 31 then .fault (rowFault fr 0x02 x lane)
  else if modeZchk (coreMode s fr.core) && !pending.isEmpty then .fault (plainFault fr 0x0A x)
  else if nmem (zRow x lane) (getCluster s cl).zPoison then .fault (rowFault fr 0x05 x lane)
  else
    .done s (destEff fr (seenElem s fr.core (zKey x lane c) (earlyElem s cl x lane c pending (zElem (getCluster s cl) x lane c).toNat)))

/-- ZMOV (R319). -/
def execZmov (op : Op) (s : State) : Out := execLane .zmov false bodyZmov op s

/-! ### WLOAD (R321 to R323) -/

/-- The source table once a load of a range has taken out the entries it covers. -/
def uncovered (c : Cluster) (first n : Nat) : List WeightSource :=
  c.sources.filter fun e => !(first ≤ e.granule && e.granule + e.count ≤ first + n)

def cueWload : CueBody := fun fr _ b x s =>
  let c := cueCap s fr.core fr.op.a.toNat
  let n := lengthOf fr.op true
  let v := viaOf fr .a 1
  let cluster := clusterOfCore fr.core
  let cl := getCluster s cluster
  let left := uncovered cl (x.toNat / 64) (n / 64)
  let e := effective c b.toNat
  if x.toNat % 64 ≠ 0 ∨ n % 64 ≠ 0 ∨ n < 64 ∨ x.toNat + n > 2 ^ 21 then .fault (memFault v 0x02 c e)
  else match checkEngine s fr.core (coreFn s fr.core) (coreCtx s fr.core) v c b.toNat n [0] [] with
    | some f => .fault f
    | none =>
      if left.length ≥ 64 then .fault (memFault v 0x02 c e)
      else if cl.loads.length ≥ 16 || !cl.refill.isEmpty || counterFull s (.cue fr.core) 0 then .hold s
      else
        let id := s.fresh
        let s1 := startXfer s fr.core
          { id := 0, kind := .wload, agent := .cue fr.core, src := .mem c e.toNat, dst := .weights x.toNat, len := n, pc := fr.pc
            group := 2 * id + 1 }
        .done (modCluster s1 cluster fun cl =>
          { cl with
            loads := cl.loads ++ [{ id, lo := x.toNat, hi := x.toNat + n }]
            sources := left ++ [{ cap := c, off := e.toNat, granule := x.toNat / 64, count := n / 64
                                  fn := coreFn s fr.core, ctx := coreCtx s fr.core }] }) none none

/-- An instruction of the cue thread that enters its command buffer. -/
def execCueBuffered (o : Opc) (cue : CueBody) (op : Op) (s : State) : Out :=
  match s.actor with
  | .lanes core ths => runLanes o op false (fun fr _ _ _ => .fault (illegalFault fr (encodeWord0 o op))) secondBody core ths s
  | .cue core hold => runCueBuffered o op cue core hold s
  | .none => idle s

/-- WLOAD (R321). DEDUCED, log 49. -/
def execWload (op : Op) (s : State) : Out := execCueBuffered .wload cueWload op s

/-! ### ORDY (R315) -/

def gatherOrdy : GatherSpec :=
  { commits := false
    body := fun fr _ act s =>
      let ranges := (getCore s fr.core).ranges.map Range.id
      let loads := (getCluster s (clusterOfCore fr.core)).loads.map Range.id
      if ranges.isEmpty && loads.isEmpty then .done s []
      else
        let e : Eff := { wait := .ordy ranges loads fr.next, goto := some fr.pc }
        .done s (act.map fun l => (l, e)) }

/-- ORDY (R315). -/
def execOrdy (op : Op) (s : State) : Out := execGather .ordy gatherOrdy op s

/-- Lanes of a cast whose ORDY has seen every noted range retire go on. -/
def endOrdy (s : State) (core cast : Nat) : State :=
  let here := (getCore s core).ranges.map Range.id
  let loads := (getCluster s (clusterOfCore core)).loads.map Range.id
  modCast s core cast fun c =>
    { c with threads := c.threads.map fun t =>
        match t.wait with
        | .ordy a b next =>
          if a.any here.contains || b.any loads.contains then t else { t with pc := next, wait := .ready }
        | _ => t }

/-! ### SPCOMP (R325) -/

/-- SPCOMP. -/
def spcompAlu (x : AluIn) : AluOut :=
  match slotFmt x.slot, passClass x.slot with
  | some f, some w =>
    let s48 := x.mod.testBit 1
    if s48 && w == 16 then .illegal
    else plain (spcompRow f w (if s48 then 8 else 4) (x.a + x.b * 2 ^ 32) (x.mod.testBit 0))
  | _, _ => .illegal

/-- SPCOMP (R325). -/
def execSpcomp (op : Op) (s : State) : Out := execAlu .spcomp spcompAlu op s

end Sys2Proof.Machine
end

