-- ==== Sys2Proof/Machine/Attention.lean ====
section
/-! DEFINITION. Attention on a cluster: EXPQ, CRED and its rounds, QCAST (R326, R328, R329, R331 to R338). -/

namespace Sys2Proof.Machine

/-! ### EXPQ (R331 to R333) -/

/-- The probability code of a score `x` under a maximum `m`, with its flag (R333). -/
def pcode (x m : FVal) : Nat × Nat :=
  match x, m with
  | .nan, _ => (0x7F, flagInv)
  | _, .nan => (0x7F, flagInv)
  | .inf true, _ => (0x00, 0)
  | .inf false, .inf false => (0x78, 0)
  | .inf false, _ => (0x7E, flagSat)
  | .fin _ _ _, .inf true => (0x7E, flagSat)
  | .fin _ _ _, .inf false => (0x00, 0)
  | .fin a n d, .fin b k e =>
    match sumF false [.fin a n d, negF (.fin b k e)] with
    | .fin neg u v =>
      if u = 0 then (0x78, 0)
      else
        let p := expFrac neg u v
        match convert .e4m3 .rne 0 (.fin false (p.1 * 256) p.2) 0 with
        | some r => (r.bits, r.flags)
        | none => (0x7E, flagSat)
    | _ => (0x7F, flagInv)

/-- EXPQ of four scores (R332). -/
def expqAlu (x : AluIn) : AluOut :=
  let m := decodeFmt fp32 (x.b % 2 ^ 32)
  let rs := (List.range 4).map fun j => pcode (decodeFmt fp32 (field x.a (32 * j + 31) (32 * j))) m
  let flags := rs.foldl (fun f r => f ||| r.2) 0
  let codes := rs.map Prod.fst
  if x.mod % 2 = 0 then .ok (ofBytes (codes.map (BitVec.ofNat 8))) flags none
  else if codes.contains 0x7F then .ok (fmtNan fp32) flags none
  else .ok (roundF fp32 .rne (scaleF (sumF false (codes.map (decodeFmt .e4m3))) (-8)) 0).bits flags none

/-- EXPQ (R331). -/
def execExpq (op : Op) (s : State) : Out := execAlu .expq expqAlu op s

/-! ### CRED (R334, R335, R337, R338) -/

/-- The ensemble that EN names, where it is a cluster ensemble of the launch. -/
def clusterEnsemble (s : State) (core cast n : Nat) : Option Nat :=
  match (getCast s core cast).ens[n]? with
  | none => none
  | some e =>
    let m := e.toNat
    if m ≥ 256 && (sget {} (m % 256) (coreLaunch s core).ensembles).cluster then some (m % 256) else none

/-- Is it a round of a launch's ensemble? -/
def isRound (launch ens : Nat) (r : Round) : Bool := r.launch == launch && r.ens == ens

/-- Post a contribution to the open round of an ensemble, or open one. DEDUCED, log 50. -/
def addPost (launch ens : Nat) (x : Contribution) (c : Cluster) : Cluster :=
  if c.rounds.any (isRound launch ens) then
    { c with rounds := c.rounds.map fun r => if isRound launch ens r then { r with posts := insertPost x r.posts } else r }
  else { c with rounds := c.rounds ++ [{ launch, ens, posts := [x] }] }

/-- The values of a source by lane, as words. -/
def laneWords (s : State) (fr : Frame) (cast : Nat) (act : List Nat) (f : Field) : Store Word :=
  act.map fun l => (l, BitVec.ofNat 32 (laneSrc s fr cast l f))

/-- What a withdrawal needs of the live lanes of a cast whose L is empty: the scene it gives back, and, by 64 + lane, the scene that
was open at the CRED. -/
def idleScenes (s : State) (fr : Frame) (cast : Nat) : Store Scene :=
  let b := coreBill s fr.core
  let live := liveLanes (getCast s fr.core cast)
  (live.map fun l => (l, (openImplicit b (getThread s fr.core cast l) fr.pc).scene))
    ++ live.map fun l => (64 + l, (getThread s fr.core cast l).scene)

def gatherCred : GatherSpec :=
  { commits := true
    body := fun fr cast act s =>
      let ctr := fr.op.c.toNat
      let tile := fr.op.d.toNat
      let cluster := clusterOfCore fr.core
      match clusterEnsemble s fr.core cast (fr.op.mod.toNat % 4) with
      | none => if act.isEmpty then .done s [] else .fault (illegalFault fr (encodeWord0 fr.o fr.op))
      | some ens =>
        let key := ((getCore s fr.core).launch).getD 0
        let posted := (getCluster s cluster).rounds.any fun r =>
          isRound key ens r && r.posts.any fun x => x.core == fr.core && x.cast == cast
        if posted || postHeld s fr.core cast act ctr then .hold s
        else
          let scenes := if act.isEmpty then idleScenes s fr cast else act.map fun l => (l, (getThread s fr.core cast l).scene)
          let x : Contribution :=
            { core := fr.core, cast, position := ((sget {} ens (coreLaunch s fr.core).ensembles).casts).idxOf cast
              lanes := act, tile, ctr, m := laneWords s fr cast act .a, l := laneWords s fr cast act .b
              request := s.fresh, scenes }
          .done (modCluster (postRequest s fr.core cast act ctr tile false (.cred ens)) cluster (addPost key ens x)) [] }

/-- CRED (R334, R335). -/
def execCred (op : Op) (s : State) : Out := execGather .cred gatherCred op s

/-- Take a round's requests out of the table; their lanes' counters fall. -/
def dropRound (s : State) (cluster : Nat) (r : Round) : State :=
  let s1 := r.posts.foldl (fun s x =>
    match (getCluster s cluster).table.find? fun q => q.id == x.request with
    | some q => dropRequest s cluster q
    | none => s) s
  modCluster s1 cluster fun c => { c with rounds := c.rounds.filter fun q => !(isRound r.launch r.ens q) }

/-- What the other cores of a cluster may see of the lead's rows once a round has written them (R338). -/
def roundView (cluster : Nat) (posts : List Contribution) (c : Cluster) : List TileView :=
  match posts.find? fun x => !x.lanes.isEmpty with
  | none => []
  | some lead =>
    let keys := lead.lanes.flatMap fun i =>
      (List.range 32).map (fun n => zKey lead.tile i n) ++ [zKey (lead.tile + 1) i 0, zKey (lead.tile + 1) i 1]
    [{ lead := lead.core, old := keys.foldl (fun m k => sput k (sget 0 k c.z) m) [], hidden := ndel lead.core (span (4 * cluster) 4) }]

/-- A round that has all its contributions completes in one step: the merge, what other cores may still see, the counters. -/
def completeRound (s : State) (cluster : Nat) (r : Round) : State :=
  let c := getCluster s cluster
  dropRound (setCluster s cluster { mergeRound r.posts c with views := c.views ++ roundView cluster r.posts c }) cluster r

/-- The reduction unit completes a round (R336, R337). -/
def execCredRoundCompletion (cluster ctx launch ens : Nat) (s : State) : Out :=
  let c := getCluster s cluster
  match c.rounds.find? (isRound (launchKey ctx launch) ens) with
  | none => .next s
  | some r =>
    if !roundFull s cluster r || !roundReady (fun _ => false) c r then .next s
    else .next (completeRound s cluster r)

/-! ### QCAST (R328, R329) -/

/-- Does a core hold a live cast of a launch? -/
def coreHolds (s : State) (core key : Nat) : Bool :=
  (getCore s core).launch == some key && (getCore s core).casts.any fun e => castLive e.2

/-- Does the core hold a cast of a cluster ensemble of its launch? -/
def holdsClustered (s : State) (core : Nat) : Bool :=
  (getCore s core).casts.any fun e => castLive e.2
    && (coreLaunch s core).ensembles.any fun x => x.2.cluster && x.2.casts.contains e.1

/-- The target cores: those of the cluster that are not omitted and hold a cast of the launch, and the issuing core. -/
def qcastTargets (s : State) (core mod key : Nat) : List Nat :=
  (List.range 4).filterMap fun j =>
    let x := 4 * clusterOfCore core + j
    if !mod.testBit j && (x == core || coreHolds s x key) then some x else none

/-- The range that a core holds for a QCAST: on the issuing core the source too. -/
def qcastRange (core target a b n : Nat) (targeted : Bool) : Nat × Nat :=
  if target = core then (if targeted then (min a b, max a b + n) else (a, a + n)) else (b, b + n)

def cueQcast : CueBody := fun fr x y _ s =>
  let a := x.toNat
  let b := y.toNat
  let n := lengthOf fr.op true
  let core := fr.core
  let size := spadSize (coreBill s core)
  let key := ((getCore s core).launch).getD 0
  let targets := qcastTargets s core fr.op.mod.toNat key
  let holders := if targets.contains core then targets else core :: targets
  if a % 64 ≠ 0 ∨ b % 64 ≠ 0 ∨ n % 64 ≠ 0 ∨ n < 64 ∨ a + n > size ∨ b + n > size then .fault (spadFault fr 0x02 1 a)
  else if !holdsClustered s core then .fault (spadFault fr 0x03 1 a)
  else if issueHeld s core [.cue core] 0 1 false || holders.any (fun t => (getCore s t).ranges.length ≥ 16) then .hold s
  else
    let (group, s0) := takeGroup s
    let s1 := holders.foldl (fun s t =>
      let r := qcastRange core t a b n (targets.contains core)
      modCore s t (enterRange group r.1 r.2)) s0
    .done (startXfer s1 core
      { id := 0, kind := .qcast, agent := .cue core, mod := fr.op.mod.toNat, group, range := some group
        src := .spad a, dst := .spad b, len := n }) none none

/-- QCAST (R328). -/
def execQcast (op : Op) (s : State) : Out := execCueBuffered .qcast cueQcast op s

end Sys2Proof.Machine
end

