-- ==== Sys2Proof/Machine/KvCache.lean ====
section
/-! DEFINITION. The score accumulator table: SACC and TOPK (R347 to R351). -/

namespace Sys2Proof.Machine

/-- A word of a scratchpad. -/
def spadWord (c : Core) (off : Nat) : Nat := ofBytes (bytesAt off 4 c.spad)

/-- Does a word lie in a poisoned segment (R142)? -/
def spadBad (c : Core) (off : Nat) : Bool := nmem (off / 64) c.spadPoison

/-- Has the lanes' SACC or TOPK passed the poison check already, before the wait for a range in which it stands (R349, R351)? -/
def rangeChecked (s : State) (core cast : Nat) (act : List Nat) : Bool := act.all fun l => (getThread s core cast l).committed

/-! ### SACC (R348, R349) -/

/-- The words that a lane touches, as offset and position. -/
def saccWords (s : State) (fr : Frame) (cast base j lane : Nat) : List Nat :=
  (List.range j).map fun i => base + 4 * (laneSrc s fr cast lane .b + i)

/-- The value of word `i` of a lane: FP32, or an E4M3 code over 256. -/
def saccValue (q4 : Bool) (x i : Nat) : FVal :=
  if q4 then scaleF (decodeFmt .e4m3 (field x (8 * i + 7) (8 * i))) (-8) else decodeFmt fp32 (x % 2 ^ 32)

/-- One addition: the word and the flags it sets. -/
def saccAdd (x : Nat) (y : FVal) : Nat × Nat :=
  let u := decodeFmt fp32 x
  if isNan u || isNan y then (fmtNan fp32, 0)
  else if infClash [u, y] then (fmtNan fp32, flagInv)
  else
    let r := roundF fp32 .rne (sumF false [u, y]) 0
    (r.bits, r.flags)

/-- A lane's additions in ascending token order, on a core; the flags collect. DEDUCED, log 47. -/
def saccLane (q4 : Bool) (x : Nat) : List Nat → Nat → Core → Nat → Core × Nat
  | [], _, c, flags => (c, flags)
  | o :: rest, i, c, flags =>
    let r := saccAdd (spadWord c o) (saccValue q4 x i)
    saccLane q4 x rest (i + 1) { c with spad := putBytes o (toBytes 4 r.1) c.spad } (flags ||| r.2)

/-- The lanes' additions in ascending lane order. -/
def saccLanes (s : State) (fr : Frame) (cast base j : Nat) : List Nat → Core → Core × List (Nat × Eff)
  | [], c => (c, [])
  | l :: rest, c =>
    let r := saccLane (j == 4) (laneSrc s fr cast l .c) (saccWords s fr cast base j l) 0 c 0
    let more := saccLanes s fr cast base j rest r.1
    (more.1, (l, { flags := r.2 }) :: more.2)

def gatherSacc : GatherSpec :=
  { commits := true
    body := fun fr cast act s =>
      match act with
      | [] => .done s []
      | lead :: _ =>
        let c := getCore s fr.core
        let base := laneSrc s fr cast lead .a
        let j := if fr.op.mod = 0 then 1 else 4
        let size := spadSize (coreBill s fr.core)
        let words := act.flatMap fun l => saccWords s fr cast base j l
        if base % 4 ≠ 0 then .fault (spadFault fr 0x02 2 base)
        else match act.find? fun l => base + 4 * (laneSrc s fr cast l .b + j) > size with
          | some l => .fault (spadFault fr 0x02 2 (base + 4 * laneSrc s fr cast l .b : Nat))
          | none =>
            match if rangeChecked s fr.core cast act then none else words.find? (spadBad c) with
            | some o => .fault (spadFault fr 0x05 2 o)
            | none =>
              if words.any fun o => rangeBusy c o 4 then .hold s
              else
                let r := saccLanes s fr cast base j act c
                .done (setCore s fr.core r.1) r.2 }

/-- SACC (R349). -/
def execSacc (op : Op) (s : State) : Out := execGather .sacc gatherSacc op s

/-! ### TOPK (R350, R351) -/

/-- Does score `x` at position `i` rank before score `y` at position `j`? -/
def scoreBefore (x : Nat × Nat) (y : Nat × Nat) : Bool :=
  let u := decodeFmt fp32 x.2
  let v := decodeFmt fp32 y.2
  match isNan u, isNan v with
  | true, true => x.1 < y.1
  | true, false => false
  | false, true => true
  | false, false => if cmpF u v = 0 then x.1 < y.1 else cmpF u v = 1

/-- Put a position among ranked positions. -/
def insertScore (x : Nat × Nat) : List (Nat × Nat) → List (Nat × Nat)
  | [] => [x]
  | y :: rest => if scoreBefore x y then x :: y :: rest else y :: insertScore x rest

/-- The first `n` positions of the ranking. -/
def topPositions (scores : List Nat) (n : Nat) : List Nat :=
  ((((List.range scores.length).map fun i => (i, scores.getD i 0)).foldl (fun acc x => (insertScore x acc).take n) []).map
    Prod.fst)

/-- Each lane with its place in the order of lanes. -/
def rankedLanes (act : List Nat) : List (Nat × Nat) := enum 0 act

def gatherTopk : GatherSpec :=
  { commits := true
    body := fun fr cast act s =>
      match act with
      | [] => .done s []
      | lead :: _ =>
        let c := getCore s fr.core
        let m := fr.op.mod.toNat
        let want := m % 64 + 1
        let base := laneSrc s fr cast lead .a
        let n := laneSrc s fr cast lead .b
        if want > (coreBill s fr.core).width then .fault (illegalFault fr (encodeWord0 fr.o fr.op))
        else if base % 4 ≠ 0 ∨ n > 16384 ∨ base + 4 * n > spadSize (coreBill s fr.core) then .fault (spadFault fr 0x02 1 base)
        else
          let words := (List.range n).map fun i => base + 4 * i
          match if rangeChecked s fr.core cast act then none else words.find? (spadBad c) with
          | some o => .fault (spadFault fr 0x05 1 o)
          | none =>
            if rangeBusy c base (4 * n) then .hold s
            else
              let top := topPositions (words.map (spadWord c)) want
              let chosen := if m.testBit 6 then top.foldr nins [] else top
              .done s ((rankedLanes act).map fun e => (e.2, destEff fr (chosen.getD e.1 0xFFFFFFFF))) }

/-- TOPK (R351). -/
def execTopk (op : Op) (s : State) : Out := execGather .topk gatherTopk op s

end Sys2Proof.Machine
end

