-- ==== Sys2Proof/Machine/System.lean ====
section
/-! DEFINITION. The system instructions: SYSRD, SYSWR, TRACE (R17 to R20, R223, R393). -/

namespace Sys2Proof.Machine

/-- The width of a system register in bits (R17). -/
def sysWidth (n : Nat) : Nat :=
  match n with
  | 0x04 | 0x14 | 0x20 => 64
  | 0x10 => 128
  | _ => 32

/-- The words of a system register; REFBAL takes its channel as the index (R17). -/
def sysWords (n bits : Nat) : Nat := if n = 0x40 then 256 else ceilDiv (sysWidth n) bits

/-- A register held by a context, a launch or a core (R17). -/
def sysShared (s : State) (core n : Nat) : Nat :=
  let c := getContext s (coreCtx s core)
  match n with
  | 0x00 => c.ctxid.toNat
  | 0x01 => c.mode.toNat
  | 0x02 => (coreBill s core).kclass % 4
  | 0x03 => c.ebud.toNat
  | 0x04 => c.stepbase.toNat
  | 0x20 => (getCore s core).cycle.toNat
  | 0x21 => (getCore s core).seqno.toNat
  | _ => 0

/-- A register as a lane reads it. -/
def sysLane (s : State) (core cast lane n : Nat) : Nat :=
  let t := getThread s core cast lane
  match n with
  | 0x08 => t.tstat.toNat
  | 0x09 => t.srstate.toNat
  | 0x10 => t.frec.toNat
  | 0x14 => t.faddr.toNat
  | n => sysShared s core n

/-- Word `b` of `bits` bits of a register's value. -/
def sysWord (s : State) (n bits b value : Nat) : Nat :=
  if n = 0x40 then wrap (getChannel s b).bal bits else field value (bits * b + bits - 1) (bits * b)

def bodySysrd : Body := fun fr cast lane s =>
  let n := fr.op.a.toNat
  let b := laneSrc s fr cast lane .b
  if b ≥ sysWords n 32 then .fault (illegalFault fr (encodeWord0 fr.o fr.op))
  else .done s (destEff fr (sysWord s n 32 b (sysLane s fr.core cast lane n)))

def cueSysrd : CueBody := fun fr _ b _ s =>
  let n := fr.op.a.toNat
  if b.toNat ≥ sysWords n 64 then .fault (illegalFault fr (encodeWord0 fr.o fr.op))
  else .done s (some (BitVec.ofNat 64 (sysWord s n 64 b.toNat (sysShared s fr.core n)))) none

/-- SYSRD (R223). -/
def execSysrd (op : Op) (s : State) : Out := execBoth .sysrd false bodySysrd cueSysrd op s

/-- A write of EBUD (R24). -/
def writeEbud (s : State) (core : Nat) (x : Nat) : State :=
  modContext s (coreCtx s core) fun c => { c with ebud := BitVec.ofNat 32 x }

def bodySyswr : Body := fun fr cast lane s =>
  let x := laneSrc s fr cast lane .c
  if laneSrc s fr cast lane .b ≠ 0 then .fault (illegalFault fr (encodeWord0 fr.o fr.op))
  else
    match fr.op.a.toNat with
    | 0x08 => .done (modThread s fr.core cast lane fun t => { t with tstat := writeTstat t.tstat (BitVec.ofNat 32 x) }) {}
    | 0x09 => .done (modThread s fr.core cast lane fun t => { t with srstate := writeSrstate (BitVec.ofNat 32 x) }) {}
    | _ => .done (writeEbud s fr.core x) {}

def cueSyswr : CueBody := fun fr _ b c s =>
  if b ≠ 0 then .fault (illegalFault fr (encodeWord0 fr.o fr.op)) else .done (writeEbud s fr.core c.toNat) none none

/-- SYSWR (R223): a write of EBUD is a commit point (R210). -/
def execSyswr (op : Op) (s : State) : Out := execBuffered .syswr (op.a == 3) bodySyswr cueSyswr op s

def bodyTrace : Body := fun fr cast lane s =>
  if modeTren (coreMode s fr.core) then
    .done (putRecord s fr.core (coreFn s fr.core)
      (recordOf s fr.core fr.pc.toNat (getThread s fr.core cast lane).scene.entry.toNat (gidx (coreBill s fr.core) cast lane)
        (laneSrc s fr cast lane .a) (laneSrc s fr cast lane .b))) {}
  else .done s {}

def cueTrace : CueBody := fun fr a b _ s =>
  if modeTren (coreMode s fr.core) then
    .done (putRecord s fr.core (coreFn s fr.core)
      (recordOf s fr.core fr.pc.toNat fr.pc.toNat 0xFFFFFFFF a.toNat b.toNat)) none none
  else .done s none none

/-- TRACE (R223, R393). -/
def execTrace (op : Op) (s : State) : Out := execBuffered .trace false bodyTrace cueTrace op s

end Sys2Proof.Machine
end

