-- ==== Sys2Proof/Machine/Book.lean ====
section
/-! DEFINITION. The prompt book's instructions: PBKRD, PBKWR, PBKCLR, PBKSAVE, PBKLOAD (R277, R289, R290, R294 to R298). -/

namespace Sys2Proof.Machine

/-- Entries of a table (R277). -/
def bookEntries (s : State) (core tab : Nat) : Nat :=
  match tab with
  | 0 => 256
  | 1 => 1
  | 2 => 32
  | 3 => 256
  | 4 => 1024
  | 5 => 1
  | 6 => 1
  | 7 => 128
  | _ => (coreBill s core).casts

/-- Bits of an entry (R277). -/
def bookWidth (tab : Nat) : Nat :=
  match tab with
  | 0 => 2
  | 1 => 32
  | 2 => 128
  | 3 => 3
  | 4 => 3
  | 5 => 32
  | 6 => 64
  | 7 => 10
  | _ => 8

/-- The die part of a core's context. -/
def corePart (s : State) (core : Nat) : DiePart := diePart s (dieOfCore core) (coreCtx s core)

/-- An entry of table 7 (R289). -/
def binEntry (s : State) (core i : Nat) : Nat :=
  match sfind (i % 32) (getPart s core (i / 32)).bins with
  | none => 0
  | some b => if b.threads.isEmpty then 0 else 512 + min (coreClk s core - binSince (filedAt s core) b) 511

/-- An entry of table 8 (R290). -/
def rankEntry (s : State) (core cast : Nat) : Nat :=
  let p := getPart s core (getCast s core cast).part
  let a := (p.active.map Prod.fst)
  let q := (p.pending.map Prod.fst)
  if !castLive (sget { threads := [] } cast (getCore s core).casts) then 0
  else if a.contains cast then 128 + a.idxOf cast % 64
  else if q.contains cast then 64 + q.idxOf cast % 64
  else 0

/-- An entry of a table. -/
def bookEntry (s : State) (core tab i : Nat) : Nat :=
  let k := (getCore s core).bank
  match tab with
  | 0 => sget 1 i k.bp
  | 1 => k.hist.toNat
  | 2 => pfEntry k i
  | 3 => sget 1 i k.l1s
  | 4 => sget 1 i (corePart s core).l2s
  | 5 => (corePart s core).duel.toNat
  | 6 => (corePart s core).lot.toNat
  | 7 => binEntry s core i
  | _ => rankEntry s core i

/-- Is entry `a`, word `b` of `bits` bits, in range? -/
def bookRange (s : State) (core tab a b bits : Nat) : Bool :=
  a < bookEntries s core tab && b < ceilDiv (bookWidth tab) bits

def bodyPbkrd : Body := fun fr cast lane s =>
  let tab := fr.op.mod.toNat % 16
  let a := laneSrc s fr cast lane .a
  let b := laneSrc s fr cast lane .b
  if !bookRange s fr.core tab a b 32 then .fault (illegalFault fr (encodeWord0 fr.o fr.op))
  else .done s (destEff fr (field (bookEntry s fr.core tab a) (32 * b + 31) (32 * b)))

def cuePbkrd : CueBody := fun fr a b _ s =>
  let tab := fr.op.mod.toNat % 16
  if !bookRange s fr.core tab a.toNat b.toNat 64 then .fault (illegalFault fr (encodeWord0 fr.o fr.op))
  else .done s (some (BitVec.ofNat 64 (field (bookEntry s fr.core tab a.toNat) (64 * b.toNat + 63) (64 * b.toNat)))) none

/-- PBKRD (R295). -/
def execPbkrd (op : Op) (s : State) : Out := execBoth .pbkrd false bodyPbkrd cuePbkrd op s

/-- Set an entry of a table, with its reserved bits 0 (R296). -/
def setBookEntry (s : State) (core tab i x : Nat) : State :=
  let bank (f : CoreBank → CoreBank) : State := modCore s core fun c => { c with bank := f c.bank }
  let die (f : DiePart → DiePart) : State := setDiePart s (dieOfCore core) (coreCtx s core) (f (corePart s core))
  match tab with
  | 0 => bank fun k => { k with bp := sset 1 i (x % 4) k.bp }
  | 1 => bank fun k => { k with hist := BitVec.ofNat 32 (x % 2 ^ 28) }
  | 2 => bank fun k => pfSet k i (x % 2 ^ 96)
  | 3 => bank fun k => { k with l1s := sset 1 i (x % 8) k.l1s }
  | 4 => die fun p => { p with l2s := sset 1 i (x % 8) p.l2s }
  | 5 => die fun p => { p with duel := BitVec.ofNat 32 (x % 2 ^ 11) }
  | _ => die fun p => { p with lot := BitVec.ofNat 64 (if x % 2 ^ 64 = 0 then 1 else x) }

/-- Replace word `b` of an entry. -/
def writeBook (s : State) (core tab a b bits x : Nat) : State :=
  setBookEntry s core tab a (setField (bookEntry s core tab a) (bits * b + bits - 1) (bits * b) x)

def bodyPbkwr : Body := fun fr cast lane s =>
  let tab := fr.op.mod.toNat % 16
  let a := laneSrc s fr cast lane .a
  let b := laneSrc s fr cast lane .b
  if !bookRange s fr.core tab a b 32 then .fault (illegalFault fr (encodeWord0 fr.o fr.op))
  else .done (writeBook s fr.core tab a b 32 (laneSrc s fr cast lane .c)) {}

def cuePbkwr : CueBody := fun fr a b c s =>
  let tab := fr.op.mod.toNat % 16
  if !bookRange s fr.core tab a.toNat b.toNat 64 then .fault (illegalFault fr (encodeWord0 fr.o fr.op))
  else .done (writeBook s fr.core tab a.toNat b.toNat 64 c.toNat) none none

/-- PBKWR (R296). -/
def execPbkwr (op : Op) (s : State) : Out := execBuffered .pbkwr true bodyPbkwr cuePbkwr op s

/-- A core bank with the tables of a mask cleared (R297). -/
def clearBank (m : Nat) (k : CoreBank) : CoreBank :=
  { bp := if m.testBit 0 then [] else k.bp
    hist := if m.testBit 1 then 0 else k.hist
    pf := if m.testBit 2 then [] else k.pf
    l1s := if m.testBit 3 then [] else k.l1s }

/-- A die part with the tables of a mask cleared. -/
def clearPart (ctx m : Nat) (p : DiePart) : DiePart :=
  { l2s := if m.testBit 4 then [] else p.l2s
    duel := if m.testBit 5 then 0x200 else p.duel
    lot := if m.testBit 6 then (clearedDiePart ctx).lot else p.lot }

/-- PBKCLR's effect. -/
def clearBook (s : State) (core m : Nat) : State :=
  let s1 := modCore s core fun c => { c with bank := clearBank m c.bank }
  if m / 16 % 8 = 0 then s1
  else setDiePart s1 (dieOfCore core) (coreCtx s core) (clearPart (coreCtx s core) m (corePart s core))

def bodyPbkclr : Body := fun fr cast lane s => .done (clearBook s fr.core (laneSrc s fr cast lane .a % 128)) {}
def cuePbkclr : CueBody := fun fr a _ _ s => .done (clearBook s fr.core (a.toNat % 128)) none none

/-- PBKCLR (R297). -/
def execPbkclr (op : Op) (s : State) : Out := execBuffered .pbkclr true bodyPbkclr cuePbkclr op s

/-! ### PBKSAVE and PBKLOAD (R298) -/

/-- The bytes of a part: the core bank, or the die part. -/
def partBytes (s : State) (core : Nat) (die : Bool) : List Byte :=
  if die then dieBytes (corePart s core) else bankBytes (getCore s core).bank

/-- The size of a part. -/
def partSize (die : Bool) : Nat := if die then 512 else 768

/-- What the checks of a transfer give. -/
def pbkFault (s : State) (fr : Frame) (save : Bool) (c : Cap) (off : Int) : Option FaultInfo :=
  let v := viaOf fr .a (if save then 2 else 1)
  if off % 64 ≠ 0 then some (memFault v 0x02 c (effective c off))
  else checkEngine s fr.core (coreFn s fr.core) (coreCtx s fr.core) v c off (partSize (fr.op.mod.toNat.testBit 0)) [if save then 1 else 0] []

/-- Must the transfer wait to issue? -/
def pbkHeld (s : State) (core : Nat) (who : Agent) (ctr : Nat) : Bool :=
  (getCore s core).pbk.isSome || issueHeld s core [who] ctr 1 false

/-- Issue a transfer: it takes the buffer, which a save fills in one step. -/
def issuePbk (s : State) (fr : Frame) (save : Bool) (who : Agent) (lanes : List Nat) (c : Cap) (off : Int) : State :=
  let die := fr.op.mod.toNat.testBit 0
  let mem := Side.mem c (effective c off).toNat
  let buffer : PbkBuffer :=
    { holder := s.fresh, bytes := if save then putBytes 0 (partBytes s fr.core die) [] else [] }
  startXfer (modCore s fr.core fun k => { k with pbk := some buffer }) fr.core
    { id := 0, kind := if save then .pbksave else .pbkload, agent := who, lanes, ctr := fr.op.d.toNat
      mod := fr.op.mod.toNat, pc := fr.pc, group := wordGroup s, src := if save then .book else mem, dst := if save then mem else .book
      len := partSize die }

/-- Does a lower lane of the same instruction still wait for the buffer (R298)? -/
def pbkBehind (s : State) (core cast lane : Nat) (pc : Word) : Bool :=
  (getCore s core).casts.any fun e => (enum 0 e.2.threads).any fun t =>
    (decide (e.1 < cast) || (e.1 == cast && decide (t.1 < lane))) && t.2.live && t.2.committed && t.2.pc == pc

def bodyPbk (save : Bool) : Body := fun fr cast lane s =>
  let c := laneCap s fr.core cast fr.op.a.toNat
  let off := laneOff s fr cast lane
  let who := Agent.lane fr.core cast lane
  match pbkFault s fr save c off with
  | some f => .fault f
  | none =>
    if pbkHeld s fr.core who fr.op.d.toNat || pbkBehind s fr.core cast lane fr.pc then .hold s else .done (issuePbk s fr save who [lane] c off) {}

def cuePbk (save : Bool) : CueBody := fun fr _ b _ s =>
  let c := cueCap s fr.core fr.op.a.toNat
  let off := cueOff fr b
  match pbkFault s fr save c off with
  | some f => .fault f
  | none =>
    if pbkHeld s fr.core (.cue fr.core) 0 then .hold s else .done (issuePbk s fr save (.cue fr.core) [] c off) none none

/-- PBKSAVE (R298). -/
def execPbksave (op : Op) (s : State) : Out := execBuffered .pbksave true (bodyPbk true) (cuePbk true) op s

/-- PBKLOAD (R298). -/
def execPbkload (op : Op) (s : State) : Out := execBuffered .pbkload true (bodyPbk false) (cuePbk false) op s

end Sys2Proof.Machine
end

