-- ==== Sys2Proof/Machine/CrossLane.lean ====
section
/-! DEFINITION. The cross-lane instructions and CVTQ (R121 to R124, R204 to R208). -/

namespace Sys2Proof.Machine

/-- The values of a source in the lanes of L. -/
def laneValues (s : State) (fr : Frame) (cast : Nat) (act : List Nat) (f : Field) : Store Nat :=
  act.map fun l => (l, laneSrc s fr cast l f)

/-- One result a lane. -/
def laneResults (fr : Frame) (act : List Nat) (f : Nat → Nat) : List (Nat × Eff) := act.map fun l => (l, destEff fr (f l))

/-! ### SLIDE (R205) -/

/-- Element `e` of the row of a values, where its lane is in L. -/
def rowElem (m : Nat) (a : Store Nat) (fill : Nat) (e : Nat) : Nat :=
  match sfind (e / m) a with
  | some x => elem x (32 / m) (e % m)
  | none => fill

/-- The element that slides to `e`, or the fill. -/
def slideElem (m width n : Nat) (dn : Bool) (a : Store Nat) (fill e : Nat) : Nat :=
  if dn then (if e + n < m * width then rowElem m a fill (e + n) else fill)
  else (if n ≤ e then rowElem m a fill (e - n) else fill)

def gatherSlide : GatherSpec :=
  { commits := false
    body := fun fr cast act s =>
      let mod := fr.op.mod.toNat
      let m := 2 ^ (mod % 4)
      let a := laneValues s fr cast act .a
      let fill := laneSrc s fr cast (act.headD 0) .b % 2 ^ (32 / m)
      let width := (coreBill s fr.core).width
      .done s (laneResults fr act fun l =>
        (joinElems (32 / m) (fun k => (slideElem m width (mod / 8 + 1) (mod.testBit 2) a fill (m * l + k), 0)) m).1) }

/-- SLIDE (R205). -/
def execSlide (op : Op) (s : State) : Out := execGather .slide gatherSlide op s

/-! ### SHFL and BCAST (R206) -/

def gatherShfl : GatherSpec :=
  { commits := false
    body := fun fr cast act s =>
      let a := laneValues s fr cast act .a
      .done s (laneResults fr act fun l =>
        let b := laneSrc s fr cast l .b
        let j := if fr.op.mod = 0 then b else l ^^^ b
        match sfind j a with
        | some x => x
        | none => sget 0 l a) }

/-- SHFL (R206). -/
def execShfl (op : Op) (s : State) : Out := execGather .shfl gatherShfl op s

def gatherBcast : GatherSpec :=
  { commits := false
    body := fun fr cast act s =>
      let a := laneValues s fr cast act .a
      let j := laneSrc s fr cast (act.headD 0) .b
      .done s (laneResults fr act fun _ => sget 0 j a) }

/-- BCAST (R206). -/
def execBcast (op : Op) (s : State) : Out := execGather .bcast gatherBcast op s

/-! ### REDUCE and SCAN (R207) -/

/-- The identity of an operation. -/
def reduceId (k : Nat) : Nat :=
  match k with
  | 1 => 0x7FFFFFFF
  | 2 => 0x80000000
  | 3 => 0xFFFFFFFF
  | 5 => 0xFFFFFFFF
  | 8 => 0x80000000
  | 9 => 0x7F800000
  | 10 => 0xFF800000
  | _ => 0

/-- An operation on two values, with its flags. -/
def reduceOp (k x y : Nat) : Nat × Nat :=
  let i : AluIn := { n := 32, a := x, b := y, c := 0, mod := 0 }
  let of (r : AluOut) : Nat × Nat := match r with
    | .ok d flags _ => (d, flags)
    | .trap => (0, 0)
    | .illegal => (0, 0)
  match k with
  | 0 => of (fIadd i)
  | 1 => of (fImin i)
  | 2 => of (fImax i)
  | 3 => (min x y, 0)
  | 4 => (max x y, 0)
  | 5 => (x &&& y, 0)
  | 6 => (x ||| y, 0)
  | 7 => (x ^^^ y, 0)
  | 8 => of (fFadd i)
  | 9 => of (fFmin i)
  | _ => of (fFmax i)

/-- One level of the tree: neighbours combined. -/
def reducePairs (k : Nat) : List Nat → List Nat × Nat
  | x :: y :: rest =>
    let r := reduceOp k x y
    let more := reducePairs k rest
    (r.1 :: more.1, r.2 ||| more.2)
  | l => (l, 0)

/-- The tree of REDUCE, level by level (R207). -/
def reduceTree (k : Nat) : Nat → List Nat → Nat × Nat
  | 0, l => (l.headD 0, 0)
  | n + 1, l =>
    if l.length ≤ 1 then (l.headD 0, 0)
    else
      let r := reducePairs k l
      let more := reduceTree k n r.1
      (more.1, r.2 ||| more.2)

/-- Every lane's contribution. -/
def contributions (k width : Nat) (a : Store Nat) : List Nat := (List.range width).map fun j => sget (reduceId k) j a

def gatherReduce : GatherSpec :=
  { commits := false
    body := fun fr cast act s =>
      let k := fr.op.mod.toNat % 16
      let r := reduceTree k 6 (contributions k (coreBill s fr.core).width (laneValues s fr cast act .a))
      .done s (act.map fun l => (l, { destEff fr r.1 with flags := r.2 })) }

/-- REDUCE (R207). -/
def execReduce (op : Op) (s : State) : Out := execGather .reduce gatherReduce op s

/-- The running results of SCAN: value before, value after and the flags of each step. -/
def scanSteps (k : Nat) : Nat → Nat → List Nat → List ((Nat × Nat) × (Nat × Nat))
  | _, _, [] => []
  | x, fl, y :: rest =>
    let r := reduceOp k x y
    ((x, fl), r) :: scanSteps k r.1 r.2 rest

def gatherScan : GatherSpec :=
  { commits := false
    body := fun fr cast act s =>
      let k := fr.op.mod.toNat % 16
      let excl := fr.op.mod.toNat.testBit 4
      let l := scanSteps k (reduceId k) 0 (contributions k (coreBill s fr.core).width (laneValues s fr cast act .a))
      .done s (act.map fun i =>
        let x := l.getD i ((0, 0), (0, 0))
        let r := if excl then x.1 else x.2
        (i, { destEff fr r.1 with flags := r.2 })) }

/-- SCAN (R207). -/
def execScan (op : Op) (s : State) : Out := execGather .scan gatherScan op s

/-! ### VOTE, MATCH, KMOV (R208) -/

/-- A lane mask written to a lane: with W = 64 two registers. -/
def maskEff (fr : Frame) (width mask : Nat) : Eff :=
  { v := splitWords fr.op.d.toNat mask (if width = 64 then 2 else 1) }

/-- The mask of the lanes that pass a test. -/
def lanesWhere (act : List Nat) (p : Nat → Bool) : Nat := act.foldl (fun m l => if p l then m + 2 ^ l else m) 0

def gatherVote : GatherSpec :=
  { commits := false
    body := fun fr cast act s =>
      let q (l : Nat) : Bool := laneSrc s fr cast l .a == 1
      let e : Eff := match fr.op.mod.toNat with
        | 0 => maskEff fr (coreBill s fr.core).width (lanesWhere act q)
        | 1 => destEff fr (b2n (act.any q))
        | 2 => destEff fr (b2n (act.all q))
        | _ => destEff fr (act.filter q).length
      .done s (act.map fun l => (l, e)) }

/-- VOTE (R208). -/
def execVote (op : Op) (s : State) : Out := execGather .vote gatherVote op s

def gatherMatch : GatherSpec :=
  { commits := false
    body := fun fr cast act s =>
      let a := laneValues s fr cast act .a
      let width := (coreBill s fr.core).width
      .done s (act.map fun l => (l, maskEff fr width (lanesWhere act fun j => sget 0 j a == sget 0 l a))) }

/-- MATCH (R208). -/
def execMatchLanes (op : Op) (s : State) : Out := execGather .matchLanes gatherMatch op s

def gatherKmov : GatherSpec :=
  { commits := true
    body := fun fr cast act s =>
      if act.isEmpty then .done s []
      else
        let l := if fr.op.mod = 0 then act.headD 0 else act.getLastD 0
        .done (setUniform s fr.core cast fr.op.d.toNat (laneSrc s fr cast l .a) 1) [] }

/-- KMOV (R208). -/
def execKmov (op : Op) (s : State) : Out := execGather .kmov gatherKmov op s

/-! ### CVTQ (R121 to R124) -/

/-- The elements of the row: `e[2i]` is a and `e[2i + 1]` is b of lane i; +0 outside L. -/
def quantRow (s : State) (fr : Frame) (cast width : Nat) (act : List Nat) : List FVal :=
  (List.range (2 * width)).map fun j =>
    if act.contains (j / 2) then readF fp32 fr.op.fzi (laneSrc s fr cast (j / 2) (if j % 2 = 0 then .a else .b))
    else .fin false 0 1

/-- The threshold of variable blocks (R122). -/
def quantThreshold (slot : DWord) (f : Fmt) : Int := if slotVthr slot = 0 then emaxOf f - eminOf f else slotVthr slot

/-- The blocks of variable length, from the elements of the current block on. -/
def varBlocks (t : Int) : List FVal → List FVal → List (List FVal)
  | cur, [] => [cur]
  | cur, x :: rest =>
    let logs := (cur ++ [x]).filterMap expOf
    let spread : Int := match logs.max?, logs.min? with
      | some hi, some lo => hi - lo
      | _, _ => 0
    if cur.length ≥ 64 || ((expOf x).isSome && spread > t) then cur :: varBlocks t [x] rest
    else varBlocks t (cur ++ [x]) rest

/-- The list cut into pieces of 32. -/
def blocksOf32 : Nat → List FVal → List (List FVal)
  | 0, _ => []
  | n + 1, l => if l.isEmpty then [] else l.take 32 :: blocksOf32 n (l.drop 32)

/-- The blocks of a row (R122). -/
def quantBlocks (slot : DWord) (f : Fmt) (row : List FVal) : List (List FVal) :=
  match slotSch slot, row with
  | 1, _ => blocksOf32 4 row
  | 2, x :: rest => varBlocks (quantThreshold slot f) [x] rest
  | _, _ => [row]

/-- For every element: does it start a block, and its block's scale (R123). -/
def quantMarks (f : Fmt) (blocks : List (List FVal)) : List (Bool × Nat) :=
  blocks.flatMap fun b =>
    let scl := blockScale (emaxOf f) b
    (enum 0 b).map fun e => (e.1 == 0, scl)

/-- Has the slot block scales? -/
def slotBlocks (slot : DWord) : Bool := slotSch slot == 1 || slotSch slot == 2

/-- An element divided by what its code leaves out (R124). -/
def quantElem (slot : DWord) (scl : Nat) (x : FVal) : FVal :=
  if slotBlocks slot then unscale scl x
  else if slotSch slot = 3 then divFrac x (tscaleFrac slot).1 (tscaleFrac slot).2
  else x

/-- The code of an element with its flags and SRSTATE; none where it overflows under the trapping policy. -/
def quantCode (x : AluIn) (f : Fmt) (pol scl sr : Nat) (v : FVal) : Option Rounded :=
  if slotBlocks x.slot && scl == 0xFF then some ⟨0, 0, sr⟩
  else (convert f (rmIn x) pol (quantElem x.slot scl v) sr).map (writeF f x.fzo)

/-- A lane's two codes: the result, the flags and SRSTATE. -/
def quantLane (x : AluIn) (f : Fmt) (pol : Nat) (m0 m1 : Bool × Nat) (v0 v1 : FVal) : Option (Nat × Nat × Nat) :=
  match quantCode x f pol m0.2 x.sr v0 with
  | none => none
  | some r0 =>
    match quantCode x f pol m1.2 r0.sr v1 with
    | none => none
    | some r1 =>
      let w := fmtBits f
      some (r0.bits % 2 ^ w + (r1.bits % 2 ^ w) <<< w, r0.flags ||| r1.flags, r1.sr)

/-- INV in a lane that supplied a NaN to a block scale (R123). -/
def quantInvalid (slot : DWord) (v0 v1 : FVal) : Nat := if slotBlocks slot && (isNan v0 || isNan v1) then 2 else 0

/-- The scales and block starts of a lane (R121). -/
def quantScales (slot : DWord) (m0 m1 : Bool × Nat) : Nat :=
  if slotBlocks slot then m0.2 + m1.2 <<< 8 + b2n m0.1 <<< 16 + b2n m1.1 <<< 17 else 0

/-- Every lane's result, or none where some element traps. -/
def quantLanes (f : Nat → Option (Nat × Nat × Nat)) : List Nat → Option (List (Nat × (Nat × Nat × Nat)))
  | [] => some []
  | l :: rest =>
    match f l, quantLanes f rest with
    | some r, some more => some ((l, r) :: more)
    | _, _ => none

def gatherCvtq : GatherSpec :=
  { commits := false
    body := fun fr cast act s =>
      let slot := slotOf s fr.core fr.op
      let x (l : Nat) : AluIn := laneIn s fr cast l
      match slotFmt slot, slotPolicy (x (act.headD 0)) with
      | some f, some pol =>
        let row := quantRow s fr cast (coreBill s fr.core).width act
        let marks := quantMarks f (quantBlocks slot f row)
        let v (j : Nat) : FVal := row.getD j (.fin false 0 1)
        let m (j : Nat) : Bool × Nat := marks.getD j (false, 0)
        if fr.op.mod.toNat.testBit 3 then
          .done s (act.map fun l =>
            (l, { destEff fr (quantScales slot (m (2 * l)) (m (2 * l + 1))) with
                  flags := quantInvalid slot (v (2 * l)) (v (2 * l + 1)) }))
        else
          match quantLanes (fun l => quantLane (x l) f pol (m (2 * l)) (m (2 * l + 1)) (v (2 * l)) (v (2 * l + 1))) act with
          | none => .fault (plainFault fr 0x09 fr.op.fslot.toNat)
          | some rs =>
            .done s (rs.map fun r =>
              (r.1, { destEff fr r.2.1 with
                      flags := r.2.2.1 ||| quantInvalid slot (v (2 * r.1)) (v (2 * r.1 + 1))
                      sr := if r.2.2.2 = (x r.1).sr then none else some (BitVec.ofNat 32 r.2.2.2) }))
      | _, _ => if act.isEmpty then .done s [] else .fault (illegalFault fr (encodeWord0 fr.o fr.op)) }

/-- CVTQ (R121 to R124). -/
def execCvtq (op : Op) (s : State) : Out := execGather .cvtq gatherCvtq op s

end Sys2Proof.Machine
end

