-- ==== Sys2Proof/Machine/Queues.lean ====
section
/-! DEFINITION. Edge queues and the decision queue (R187 to R190, R201 to R203, R251). -/

namespace Sys2Proof.Machine

/-! ### Ranges of an object at their homes -/

/-- What a read of a range at its homes gives. -/
inductive RangeRead where
  | ok (s : State) (bs : List Byte) (bad : Bool)
  | missing (s : State) (o : Nat) (p : PageState)
  /-- A write of the core to one of its lines is still to be applied (R234). -/
  | waits (s : State)

/-- Read the parts of a range at their homes, each as a home access of the core for the instruction at `pc`. -/
def readRange (s : State) (core : Nat) (pc : Word) (oid : Nat) : List (Nat × Nat) → RangeRead
  | [] => .ok s [] false
  | c :: rest =>
    match translate s core (coreFn s core) (coreCtx s core) oid c.1 with
    | (.valid p, s1) =>
      match homeRead s1 core (coreCtx s core) pc p c.1 c.2 with
      | (s2, none) => .waits s2
      | (s2, some bs) =>
        let bad := (span c.1 c.2).any (homePoison s2 p)
        match readRange s2 core pc oid rest with
        | .ok s3 more b => .ok s3 (bs ++ more) (bad || b)
        | r => r
    | (p, s1) => .missing s1 c.1 p

/-- May home writes to the parts of a range be performed at once? -/
def rangeReady (s : State) (core oid : Nat) (cs : List (Nat × Nat)) : Bool :=
  cs.all fun c =>
    match (translate s core (coreFn s core) (coreCtx s core) oid c.1).1 with
    | .valid p => homeWriteReady s (stampDie core (pageByte p c.1 / 64)) (pageByte p c.1 / 64)
    | _ => true

/-- Write a range at its homes. -/
def writeRange (s : State) (core oid : Nat) : List (Nat × Nat) → List Byte → State
  | [], _ => s
  | c :: rest, bs =>
    match translate s core (coreFn s core) (coreCtx s core) oid c.1 with
    | (.valid p, s1) =>
      writeRange (homeWriteNow s1 core (coreCtx s core) p c.1 (bs.take c.2)) core oid rest (bs.drop c.2)
    | (_, s1) => writeRange s1 core oid rest (bs.drop c.2)

/-! ### Edge queues (R201 to R203) -/

/-- A queue header (R201). -/
structure QHead where
  head : Nat
  tail : Nat
  lcap : Nat
  full : Nat
  free : Nat
  deriving DecidableEq, Repr

/-- The header's fields. -/
def queueHead (x : Nat) : QHead :=
  { head := field x 255 192, tail := field x 191 128, lcap := field x 68 64, full := field x 63 32, free := field x 31 0 }

/-- Is the header sound (R202)? -/
def queueSound (x : Nat) : Bool :=
  let q := queueHead x
  field x 511 256 == 0 && field x 127 69 == 0 && q.lcap ≤ 20 && q.free + q.full == 2 ^ q.lcap
    && (q.tail + 2 ^ 64 - q.head) % 2 ^ 64 == q.full

/-- The header as a number. -/
def packQueue (q : QHead) : Nat :=
  q.free + q.full <<< 32 + q.lcap <<< 64 + (q.tail % 2 ^ 64) <<< 128 + (q.head % 2 ^ 64) <<< 192

/-- The three queue instructions. -/
inductive QKind where
  | enq | deq | stat
  deriving DecidableEq, Repr

/-- The offset of a slot from the header. -/
def slotOff (q : QHead) (k : Nat) : Nat := 64 + 8 * (k % 2 ^ q.lcap)

/-- One enqueue: the header, the slot writes as offset and value, the flag. `flag` is the recorded flag, if any. -/
def enqueueOne (q : QHead) (x : Nat) (flag : Option Nat) : QHead × List (Nat × Nat) × Nat :=
  let put := q.free ≠ 0 ∧ flag ≠ some 0
  let answer := match flag with
    | some f => f
    | none => b2n (q.free != 0)
  if put then
    ({ q with tail := (q.tail + 1) % 2 ^ 64, free := q.free - 1, full := q.full + 1 }, [(slotOff q q.tail, x)], answer)
  else (q, [], answer)

/-- Enqueue values in turn. -/
def enqueueAll (q : QHead) : List (Nat × Option Nat) → QHead × List (Nat × Nat) × List Nat
  | [] => (q, [], [])
  | (x, flag) :: rest =>
    let r := enqueueOne q x flag
    let more := enqueueAll r.1 rest
    (more.1, r.2.1 ++ more.2.1, r.2.2 :: more.2.2)

/-- The slot that each of some values takes, from the header. -/
def enqueueSlots (q : QHead) : List (Nat × Option Nat) → List (Option Nat)
  | [] => []
  | (x, flag) :: rest =>
    let r := enqueueOne q x flag
    r.2.1.head?.map Prod.fst :: enqueueSlots r.1 rest

/-- The offsets of the next `k` slots to dequeue, from the header. -/
def dequeueSlots (q : QHead) (k : Nat) : List Nat := (List.range k).map fun i => slotOff q (q.head + i)

/-- The header after `k` dequeues. -/
def dequeued (q : QHead) (k : Nat) : QHead :=
  { q with head := (q.head + k) % 2 ^ 64, full := q.full - k, free := q.free + k }

/-- What a queue instruction comes to. -/
inductive QStep where
  /-- A value for every thread. -/
  | done (s : State) (rs : List Nat)
  /-- Too few entries. -/
  | short (s : State)
  | fault (f : FaultInfo)
  | faultAt (s : State) (f : FaultInfo)
  | page (s : State) (k : PageKey)
  | hold (s : State)
  | stop (f : Fault)

/-- A page missing under a queue instruction. -/
def queueMissing (s : State) (core : Nat) (v : Via) (c : Cap) (e : Nat) (denied : Option PageKey) (o : Nat) (p : PageState) :
    QStep :=
  match missingPage (α := Unit) s (coreFn s core) (coreCtx s core) v c e denied o p with
  | .ok s1 _ => .hold s1
  | .fault f => .fault f
  | .page s1 k => .page s1 k
  | .stop f => .stop f

/-- Read slots of a queue at their homes, each 8 bytes: their values. -/
def readSlots (s : State) (core : Nat) (pc : Word) (v : Via) (c : Cap) (e : Nat) (denied : Option PageKey) (k : State → List Nat → QStep) :
    List Nat → List Nat → QStep
  | [], acc => k s acc
  | o :: rest, acc =>
    match readRange s core pc (capOid c) (rangeChunks (e + o) 8) with
    | .missing s1 o' p => queueMissing s1 core v c e denied o' p
    | .waits s1 => .hold s1
    | .ok s1 bs bad =>
      if bad then .faultAt s1 (memFault v 0x05 c (e + o : Nat)) else readSlots s1 core pc v c e denied k rest (acc ++ [ofBytes bs])

/-- The threads' recorded values where their context replays: none in service, none inside when a log ends. -/
def recordedValues (s : State) : List Agent → Option (List (Option Nat))
  | [] => some []
  | who :: rest =>
    match nextValue s who 8, recordedValues s rest with
    | .live, some l => some (none :: l)
    | .value x, some l => some (some x :: l)
    | _, _ => none

/-- The value a thread returns: the recorded one where there is one. -/
def orRecorded (l : List (Option Nat)) (xs : List Nat) : List Nat := List.zipWith (fun o x => o.getD x) l xs

/-- Log the returned values of some threads. -/
def noteReturns (s : State) (whos : List Agent) (rs : List Nat) : State :=
  (whos.zip rs).foldl (fun s e => noteReturn s e.1 e.2) s

/-- The first agent whose log has ended halts its context. -/
def haltFirst (s : State) (whos : List Agent) : State :=
  match whos.find? fun w => nextValue s w 8 == .ended with
  | some w => haltDivergence s w
  | none => s

/-- The accesses of lanes that a queue instruction performs together: each lane's of the header, and of the slot it uses. QENQ and
QDEQ count as atomics, QSTAT as a read (R235, R395; DESIGN CHOICE, log 87). -/
def noteQueue (s : State) (pc : Word) (kind : QKind) (oid e : Nat) (whos : List Agent) (slots : List (Option Nat)) (values : List Nat) :
    State :=
  let what := if kind = .stat then AccessKind.read else .atomic
  (whos.zip (slots.zip values)).foldl (fun s x => match x.1 with
    | .cue _ => s
    | .lane core cast lane =>
      let note (s : State) (off size : Nat) : State :=
        noteAccess s core cast lane { oid, off, size, kind := what, value := BitVec.ofNat 32 x.2.2, pc }
      let s1 := note s e 32
      match x.2.1 with
      | some o => note s1 (e + o) 8
      | none => s1) s

/-- The checks of a queue instruction that precede the read of its header (R202): the offset, then Access without translation. An
operation that an image held has made its checks of rights (R232). -/
def queueFault (s : State) (core : Nat) (kind : QKind) (v : Via) (c : Cap) (imm : Int) (checked : Bool := false) : Option FaultInfo :=
  let e := effective c imm
  let rights := if checked then [] else if kind = .stat then [0] else [0, 1, 3]
  let o := getObject s (coreFn s core) (capOid c)
  if imm % 64 ≠ 0 then some (memFault v 0x02 c e)
  else match checkCap s (coreFn s core) v c imm 64 false rights with
    | some f => some f
    | none => if isFug s (coreFn s core) c || classFail c (objTier o) (objClass o) then some (memFault v 0x04 c e) else none

/-- Does a queue's header lie on a peer module, in a page that is valid (R139)? -/
def remoteHeader (s : State) (core : Nat) (c : Cap) (imm : Int) : Bool :=
  let e := (effective c imm).toNat
  match lookup s (corePort s core) (capOid c) e with
  | .valid p => isPeerLine (pageByte p e / 64)
  | _ => false

/-- The line of a queue's header, if its page is valid, and whether it misses L2. -/
def headerFrom (s : State) (core : Nat) (c : Cap) (imm : Int) : Option Nat × Bool :=
  let line := (resolve s (corePort s core) (capOid c) (effective c imm).toNat).map fun k => k / 64
  (line, line.any (outsideL2 s))

/-- A queue instruction at its header, in one step for its threads (R202, R203): `xs` are the values to enqueue, one a
thread. -/
def queueAt (s : State) (core : Nat) (pc : Word) (kind : QKind) (v : Via) (c : Cap) (imm : Int) (wantFree : Bool)
    (whos : List Agent) (xs : List Nat) (denied : Option PageKey) (checked : Bool := false) : QStep :=
  let e := effective c imm
  let oid := capOid c
  let note (s : State) (slots : List (Option Nat)) (values : List Nat) : State := noteQueue s pc kind oid e.toNat whos slots values
  match queueFault s core kind v c imm checked with
  | some f => .fault f
  | none =>
    match readRange s core pc oid (rangeChunks e.toNat 64) with
    | .missing s1 at' p => queueMissing s1 core v c e.toNat denied at' p
    | .waits s1 => .hold s1
    | .ok s1 bs bad =>
      let x := ofBytes bs
      let q := queueHead x
      if bad then .faultAt s1 (memFault v 0x05 c e)
      else if !queueSound x || boundsFail s1 (coreFn s core) c e (64 + 8 * 2 ^ q.lcap) false then
        .fault (memFault v 0x02 c e)
      else match recordedValues s1 whos with
        | none => .hold (haltFirst s1 whos)
        | some logged =>
          match kind with
          | .stat =>
            let rs := orRecorded logged (whos.map fun _ => if wantFree then q.free else q.full)
            .done (note (noteReturns s1 whos rs) (whos.map fun _ => none) rs) rs
          | .deq =>
            let k := whos.length
            if q.full < k then .short s1
            else readSlots s1 core pc v c e.toNat denied (fun s2 values =>
              if !rangeReady s2 core oid (rangeChunks e.toNat 32) then .hold s
              else
                let rs := orRecorded logged values
                let s3 := writeRange s2 core oid (rangeChunks e.toNat 32) (toBytes 32 (packQueue (dequeued q k)))
                .done (note (noteReturns s3 whos rs) ((dequeueSlots q k).map some) rs) rs) (dequeueSlots q k) []
          | .enq =>
            let r := enqueueAll q (xs.zip logged)
            readSlots s1 core pc v c e.toNat denied (fun s2 _ =>
              if !(rangeReady s2 core oid (rangeChunks e.toNat 32)
                  && r.2.1.all fun w => rangeReady s2 core oid (rangeChunks (e.toNat + w.1) 8)) then .hold s
              else
                let s3 := r.2.1.foldl (fun s w =>
                  writeRange s core oid (rangeChunks (e.toNat + w.1) 8) (toBytes 8 w.2)) s2
                let s4 := writeRange s3 core oid (rangeChunks e.toNat 32) (toBytes 32 (packQueue r.1))
                .done (note (noteReturns s4 whos r.2.2) (enqueueSlots q (xs.zip logged)) xs) r.2.2) (r.2.1.map Prod.fst) []

/-- The lanes of a cast as agents. -/
def laneAgents (core cast : Nat) (ls : List Nat) : List Agent := ls.map fun l => .lane core cast l

/-- The kind of a queue operation on a peer module's header; QSTAT is a plain home access. -/
def remoteQueue (kind : QKind) : Option XferKind :=
  match kind with
  | .enq => some .qenq
  | .deq => some .qdeq
  | .stat => none

/-- A queue instruction for the lanes of a cast: one access in the lowest lane's name; values return later. One whose header
lies on a peer module leaves for it, with a replay slot for each lane (R139, R230). DEDUCED, log 43. -/
def sharedQueue (kind : QKind) (perform : Option Nat × Bool → Frame → Nat → List Nat → State → List Nat → GatherStep)
    (short : Frame → List Nat → State → GatherStep) : GatherBody := fun fr cast act s =>
  match act with
  | [] => .done s []
  | lane :: _ =>
    let t := getThread s fr.core cast lane
    let v := viaOf fr .a (if kind = .stat then 1 else 2)
    let c := laneCap s fr.core cast fr.op.a.toNat
    let imm := immOf fr.op
    let here : GatherStep :=
      match queueAt s fr.core fr.pc kind v c imm (fr.op.mod.toNat % 2 == 1) (laneAgents fr.core cast act)
          (act.map fun l => laneSrc s fr cast l .b) t.denied with
      | .done s1 rs => perform (headerFrom s fr.core c imm) fr cast act s1 rs
      | .short s1 => short fr act s1
      | .fault f => .fault f
      | .faultAt s1 f => .faultAt s1 f
      | .page s1 k => .page s1 k
      | .hold s1 => .hold s1
      | .stop f => .stop f
    match remoteQueue kind with
    | none => here
    | some k =>
      if (queueFault s fr.core kind v c imm).isSome || !remoteHeader s fr.core c imm then here
      else if issueHeld s fr.core [] 0 act.length false then .hold s
      else
        let g := takeGroup s
        .done (act.foldl (fun s l => startRemote s fr (.lane fr.core cast l) k c (effective c imm).toNat fr.op.d.toNat 0
          (laneSrc s fr cast l .b) 0 g.1) g.2) (act.map fun l => (l, remoteEff fr))

/-- Send every lane its value, from the line of the header. -/
def sendValues (acquire : Option Nat) : Option Nat × Bool → Frame → Nat → List Nat → State → List Nat → GatherStep :=
    fun at' fr cast act s rs =>
  let e : Eff := { wait := .response }
  let one (s : State) (x : Nat × Nat) : State :=
    let eff := destEff fr x.2
    sendResponse s
      { agent := .lane fr.core cast x.1, regs := eff.v.map fun r => (r.1, BitVec.ofNat 64 r.2.toNat)
        flag := eff.p.head?, acquire, pc := fr.pc, line := at'.1, far := at'.2 }
  .done ((act.zip rs).foldl one s) (act.map fun l => (l, e))

/-- QENQ: a release of module scope, then the enqueues. -/
def gatherQenq : GatherSpec :=
  { commits := true
    body := fun fr cast act s =>
      match act with
      | [] => .done s []
      | lane :: _ =>
        let r := release s fr.core 0 (getThread s fr.core cast lane).marker
        let s1 := modThread r.state fr.core cast lane fun t => { t with marker := r.marker }
        if r.finished then sharedQueue .enq (sendValues none) (fun _ _ s => .hold s) fr cast act s1 else .hold s1 }

/-- QDEQ: with too few entries the lanes wait together. -/
def gatherQdeq : GatherSpec :=
  { commits := true
    body := sharedQueue .deq (sendValues (some 0)) fun fr act s =>
      let e : Eff := { wait := .qdeq (act.foldl (fun m l => m + 2 ^ l) 0), goto := some fr.pc }
      .done s (act.map fun l => (l, e)) }

/-- QSTAT. -/
def gatherQstat : GatherSpec := { commits := false, body := sharedQueue .stat (sendValues none) fun _ _ s => .hold s }

/-- A queue instruction of the cue thread. -/
def cueQueue (kind : QKind) (acquire : Option Nat) : CueBody := fun fr _ b _ s =>
  let who := Agent.cue fr.core
  let v := viaOf fr .a (if kind = .stat then 1 else 2)
  let c := cueCap s fr.core fr.op.a.toNat
  let imm := immOf fr.op
  let here : CueStep :=
    match queueAt s fr.core fr.pc kind v c imm (fr.op.mod.toNat % 2 == 1) [who] [b.toNat] (cueDenied s fr.core) with
    | .done s1 rs =>
      let at' := headerFrom s fr.core c imm
      .await (sendResponse s1 { agent := who, regs := [(fr.op.d.toNat, BitVec.ofNat 64 (rs.headD 0))], flag := none, acquire
                                pc := fr.pc, line := at'.1, far := at'.2 })
    | .short s1 => .hold s1
    | .fault f => .fault f
    | .faultAt s1 f => .faultAt s1 f
    | .page s1 k => .page s1 k
    | .hold s1 => .hold s1
    | .stop f => .stop f
  match remoteQueue kind with
  | none => here
  | some k =>
    if (queueFault s fr.core kind v c imm).isSome || !remoteHeader s fr.core c imm then here
    else if issueHeld s fr.core [] 0 1 false then .hold s
    else .await (startRemote s fr who k c (effective c imm).toNat fr.op.d.toNat 0 b.toNat 0 (wordGroup s))

def cueQenq : CueBody := fun fr a b c s => cueRelease s fr.core 0 fun s1 => cueQueue .enq none fr a b c s1

/-- A queue instruction for lanes together, or for the cue thread's buffer. -/
def execQueue (o : Opc) (g : GatherSpec) (cue : CueBody) (op : Op) (s : State) : Out :=
  match s.actor with
  | .lanes core ths => runShared o op g core ths s
  | .cue core hold => runCueBuffered o op cue core hold s
  | .none => idle s

/-- QENQ (R202). -/
def execQenq (op : Op) (s : State) : Out := execQueue .qenq gatherQenq cueQenq op s

/-- QDEQ (R202). -/
def execQdeq (op : Op) (s : State) : Out := execQueue .qdeq gatherQdeq (cueQueue .deq (some 0)) op s

/-- QSTAT (R202). -/
def execQstat (op : Op) (s : State) : Out := execQueue .qstat gatherQstat (cueQueue .stat none) op s

/-! ### Operations on a peer module's lines (R139, R230, R233) -/

/-- The thread of a remote operation goes on as after a home access: its value is on its way, its scene's entry is the next
instruction (R210). A cue thread's command stays the oldest of its buffer until then. -/
def remoteMoved (s : State) (who : Agent) : State :=
  match who with
  | .lane core cast lane => modThread s core cast lane fun t =>
      match t.wait with
      | .remote next => openImplicit (coreBill s core) { t with wait := .response, pc := next } next
      | _ => t
  | .cue _ => s

/-- The operations of one instruction that wait together on a core: those of the same kind and number that are not refused. -/
def remoteGroup (s : State) (core : Nat) (x : Xfer) : List Xfer :=
  (getCore s core).xfers.filter fun y => y.kind == x.kind && y.group == x.group && y.refused.isNone

/-- Operations leave their core's list. -/
def dropXfers (s : State) (core : Nat) (ids : List Nat) : State :=
  modCore s core fun c => { c with xfers := c.xfers.filter fun y => !(ids.contains y.id) }

/-- The registers and the flag that an operation's value reaches (R229): DREG in the thread's own register space. -/
def remoteResponse (x : Xfer) (value : Nat) : Response :=
  let lane := match x.agent with
    | .lane _ _ _ => true
    | .cue _ => false
  let words := if x.kind == .atom then atomBytes x.mod / 4 else 1
  { agent := x.agent
    regs := if lane && x.kind == .qenq then []
      else if lane then (splitWords x.dreg value words).map fun r => (r.1, BitVec.ofNat 64 r.2.toNat)
      else [(x.dreg, BitVec.ofNat 64 value)]
    flag := if lane && x.kind == .qenq then some (x.dreg, value % 2 == 1) else none
    acquire := match x.kind with
      | .atom => atomAcquire x.mod x.scope
      | .qdeq => some 0
      | _ => none
    pc := x.pc }

/-- Operations are performed with these values: each value returns to its thread. -/
def remoteDone (s : State) (core : Nat) (xs : List Xfer) (rs : List Nat) : State :=
  let s1 := (xs.zip rs).foldl (fun s e =>
    let line := match e.1.src with
      | .mem c o => (resolve s { fn := e.1.fn, ctx := e.1.ctx, core := some core } (capOid c) o).map fun k => k / 64
      | _ => none
    sendResponseSince (remoteMoved s e.1.agent) e.1.asked { remoteResponse e.1 e.2 with line, far := true }) s
  dropXfers s1 core (xs.map Xfer.id)

/-- Operations fault at the peer: each of their threads takes the fault. -/
def remoteFault (s : State) (core : Nat) (xs : List Xfer) (f : FaultInfo) : State :=
  let s1 := xs.foldl (fun s x => match x.agent with
    | .lane c k l => takeFault s c k l f
    | .cue c => takeCueFault s c f) s
  dropXfers s1 core (xs.map Xfer.id)

/-- An atomic is performed at the peer's home of its line. -/
def performAtom (s : State) (core : Nat) (x : Xfer) (c : Cap) (e : Nat) : Out :=
  let v : Via := { reg := x.reg, acc := 2, opcode := 0xC5 }
  match translate s core x.fn x.ctx (capOid c) e with
  | (.valid p, s1) =>
    match atomHome s1 core x.ctx x.pc v c p e x.mod x.operand.toNat x.compare.toNat x.agent with
    | .done s2 old flags _ _ =>
      let s3 := match x.agent with
        | .lane k cast lane =>
          modThread (noteAccess s2 k cast lane
            { oid := capOid c, off := e, size := atomBytes x.mod, kind := .atomic, value := BitVec.ofNat 32 old, pc := x.pc })
            k cast lane fun t => { t with tstat := t.tstat ||| BitVec.ofNat 32 flags }
        | .cue _ => s2
      .next (remoteDone s3 core [x] [old])
    | .faultAt s2 f => .next (remoteFault s2 core [x] f)
    | .hold s2 => .next s2
    | _ => .next s1
  | _ => .next s

/-- The queue operations of one instruction are performed at the peer's home of their header, in one step. -/
def performQueue (s : State) (core : Nat) (xs : List Xfer) (x : Xfer) (c : Cap) (e : Nat) : Out :=
  let kind := if x.kind == .qenq then QKind.enq else .deq
  let v : Via := { reg := x.reg, acc := 2, opcode := if x.kind == .qenq then 0x0E else 0x0F }
  match queueAt s core x.pc kind v c ((e : Int) - capLower c) false (xs.map Xfer.agent) (xs.map fun y => y.operand.toNat) none
      x.resumed with
  | .done s1 rs => .next (remoteDone s1 core xs rs)
  | .fault f => .next (remoteFault s core xs f)
  | .faultAt s1 f => .next (remoteFault s1 core xs f)
  | .page s1 _ => .next s1
  | .hold s1 => .next s1
  | .short s1 => .next s1
  | .stop f => .fault f

/-- A remote operation is performed, with those of the same instruction. -/
def performRemote (s : State) (core : Nat) (x : Xfer) : Out :=
  match x.src with
  | .mem c e => if x.kind == .atom then performAtom s core x c e else performQueue s core (remoteGroup s core x) x c e
  | _ => .next s

/-! ### The decision queue (R187 to R190) -/

/-- The casts that a DQPUSH targets: resident casts `base + j` for the 1 bits of the mask (R188). -/
def pushTargets (c : Core) (b : Nat) : NSet :=
  ((List.range 32).filter fun j => b.testBit j && castLive (sget { threads := [] } (b / 2 ^ 32 + j) c.casts)).map
    fun j => b / 2 ^ 32 + j

/-- What holds a new entry: every unresolved BRC and every WAIT of the command buffer. -/
def pushHolds (q : Cue) : NSet :=
  (q.checks.map Checkpoint.id ++ (q.buf.filter fun c => match opcOf c.instr with
    | some (o, _) => o == .wait
    | none => false).map Command.id).foldr nins []

/-- A push at a position that a pre-emption has saved (R186, R190): its entry stands in the queue, or has retired, and nothing is
queued again. None where the repeated path pushes something else; the saved entries from there on are then dropped. DEDUCED,
log 17. -/
def pushSaved (c : Core) (a b : Nat) : Option Core :=
  match c.dq.find? fun e => e.pos == c.dqTail with
  | none => some { c with dqTail := c.dqTail + 1 }
  | some e =>
    if e.value.toNat = a ∧ e.targets.all (fun k => decide (b / 2 ^ 32 ≤ k) && b.testBit (k - b / 2 ^ 32) && decide (k < b / 2 ^ 32 + 32))
    then some { c with dqTail := c.dqTail + 1 } else none

/-- The queue without the saved entries that the cue thread has not pushed again. -/
def dropSaved (c : Core) : Core := { c with dq := c.dq.filter fun e => decide (e.pos < c.dqTail), dqSaved := c.dqTail }

/-- DQPUSH: the state and the flag. -/
def pushDecision (s : State) (core : Nat) (a b : Nat) (logged : Option Nat) : State × Nat :=
  match getCue s core with
  | none => (s, 1)
  | some q =>
    let c0 := getCore s core
    let targets := pushTargets c0 b
    let answer (f : Nat) : Nat := logged.getD f
    let again := if c0.dqTail < c0.dqSaved then pushSaved c0 a b else none
    let c := if c0.dqTail < c0.dqSaved then dropSaved c0 else c0
    if again.isSome then (setCore s core (again.getD c0), answer 1)
    else if targets.isEmpty then (s, answer 1)
    else if c.dq.length ≥ 256 ∨ logged = some 0 then (s, answer 0)
    else
      let e : DqEntry := { pos := c.dqTail, value := BitVec.ofNat 64 a, targets, holds := pushHolds q, pushed := coreClk s core }
      (setCore s core { c with dq := c.dq ++ [e], dqTail := c.dqTail + 1 }, answer 1)

def cueDqpush : CueBody := fun fr a b _ s =>
  let who := Agent.cue fr.core
  let go (logged : Option Nat) : CueStep :=
    let r := pushDecision s fr.core a.toNat b.toNat logged
    .done (noteReturn r.1 who r.2) (some (BitVec.ofNat 64 r.2)) none
  match nextValue s who 8 with
  | .ended => .hold (haltDivergence s who)
  | .value x => go (some x)
  | .live => go none

/-- DQPUSH (R188). -/
def execDqpush (op : Op) (s : State) : Out := execCue .dqpush cueDqpush op s

/-- The oldest entry that a cast can pop (R189, R190). -/
def poppable (s : State) (core cast : Nat) : Option DqEntry :=
  let ptr := (getCast s core cast).dqPtr
  (getCore s core).dq.find? fun e => ptr ≤ e.pos && nmem cast e.targets && e.holds.isEmpty && e.pushed < coreClk s core

/-- The cast pops an entry. -/
def popEntry (s : State) (core cast : Nat) (e : DqEntry) : State :=
  let s1 := modCast s core cast fun c => { c with dqPtr := e.pos + 1 }
  modCore s1 core fun c =>
    { c with dq := dropRetired (c.dq.map fun x => if x.pos = e.pos then { x with targets := ndel cast x.targets } else x) }

/-- DQPOP: with no entry to pop the lanes wait. -/
def gatherDqpop : GatherSpec :=
  { commits := true
    body := fun fr cast act s =>
      if act.isEmpty then .done s []
      else match poppable s fr.core cast with
        | none =>
          let e : Eff := { wait := .dqpop, goto := some fr.pc }
          .done s (act.map fun l => (l, e))
        | some x =>
          .done (setUniform (popEntry s fr.core cast x) fr.core cast fr.op.d.toNat x.value.toNat
            (if fr.op.mod = 0 then 2 else 1)) [] }

/-- DQPOP (R189). -/
def execDqpop (op : Op) (s : State) : Out := execGather .dqpop gatherDqpop op s

/-! ### Waits that end -/

/-- The instruction that a waiting lane stands at, read again through the instruction cache. -/
def waitingInstr (s : State) (core cast lane : Nat) : Option Instr :=
  let t := getThread s core cast lane
  match fetchAt s core t.codeEpoch t.pc t.denied with
  | .ok _ ws => match decodeWords ws with
    | .ok i => some i
    | .error _ => none
  | _ => none

/-- Lanes that wait at an instruction made once for them perform it again, their commit being done. -/
def retryShared (g : GatherSpec) (cwide : Bool) (core cast : Nat) (lanes : List Nat) (s : State) : Out :=
  match lanes with
  | [] => .next s
  | l :: _ =>
    match (waitingInstr s core cast l).bind opcOf with
    | some (o, op) => gatherEffect (frameAt core (getThread s core cast l).pc o op) g cwide cast lanes [] s
    | none => .next s

/-- The lanes of a cast that wait in this way. -/
def lanesWaiting (s : State) (core cast : Nat) (w : Wait) : List Nat :=
  ((enum 0 (getCast s core cast).threads).filter fun e => e.2.live && e.2.wait == w).map Prod.fst

/-- A cast's DQPOP ends once an entry is visible (R189). -/
def execDqpopWake (core cast : Nat) (s : State) : Out :=
  if contextRuns s core && (poppable s core cast).isSome then
    retryShared gatherDqpop true core cast (lanesWaiting s core cast .dqpop) s
  else .next s

/-- A QDEQ is tried again (R202). The cue thread's QDEQ is a buffered command. -/
def execQdeqWake (who : Agent) (s : State) : Out :=
  match who with
  | .lane core cast lane =>
    match (getThread s core cast lane).wait with
    | .qdeq group => if contextRuns s core then retryShared gatherQdeq false core cast (lanesWaiting s core cast (.qdeq group)) s
                     else .next s
    | _ => .next s
  | .cue _ => .next s

end Sys2Proof.Machine
end

