-- ==== Sys2Proof/Machine/Reliability.lean ====
section
/-! DEFINITION. STEP, FADE and the fader, CLASSMAP and the class groups of frame pools (R353, R365, R369 to R376, R389). -/

namespace Sys2Proof.Machine

/-! ### Regions (R360, R369) -/

/-- What the checks of STEP and FADE give. -/
inductive RegionCheck where
  | ok (s : State) (f : FugHdr)
  | fault (x : FaultInfo)
  | missing (o : Nat) (p : PageState)

/-- The checks of R369, in their order; the bookkeeping they read is checked (R354). A region in host memory, which holds Bare data
only, fails the class check (R353). -/
def checkRegion (s : State) (q : Port) (v : Via) (c : Cap) : RegionCheck :=
  let oid := capOid c
  let o := getObject s q.fn oid
  let e := effective c 0
  if capLower c ≥ capUpper c then .fault (memFault v 0x02 c e)
  else if !capHas c 1 then .fault (memFault v 0x03 c e)
  else if capLc c ≠ 3 ∨ (objValid o ∧ (objClass o ≠ 3 ∨ objTier o = 2)) then .fault (memFault v 0x04 c e)
  else match firstMissing s q oid (if objValid o then fugHeaderOffsets s q oid else []) with
    | some (x, p) => .missing x p
    | none =>
      match fugHeader s q oid with
      | some f => .ok (readBooks (spendPort s q) q oid f 0 0) f
      | none => .fault (memFault v 0x02 c e)

/-- Is a transfer a job of the fader on the region? -/
def faderJob (fn oid : Nat) (x : Xfer) : Bool :=
  (x.kind == .step || x.kind == .fade) && x.fn == fn && (match x.src with
    | .mem c _ => capOid c == oid
    | _ => false)

/-- Is a job of the fader on the region older than number `n` in flight? -/
def faderBusy (s : State) (fn oid n : Nat) : Bool :=
  s.cores.any fun e => e.2.xfers.any fun x => faderJob fn oid x && x.id < n

/-- A job of the fader: on tiles `[first, first + n)`, or for STEP on the whole region. DESIGN CHOICE, log 48. -/
def startFader (s : State) (fr : Frame) (who : Agent) (kind : XferKind) (c : Cap) (first n : Nat) : State :=
  startXfer s fr.core
    { id := 0, kind, agent := who, mod := fr.op.mod.toNat, group := wordGroup s, src := .mem c 0, dst := .mem c 0, len := n
      tile := first }

/-! ### STEP (R369) -/

def bodyStep : Body := fun fr cast lane s =>
  let c := laneCap s fr.core cast fr.op.a.toNat
  let v := viaOf fr .a 2
  let fn := coreFn s fr.core
  match checkRegion s (corePort s fr.core) v c with
  | .fault f => .fault f
  | .missing o p =>
    match missingPage (α := Unit) s fn (coreCtx s fr.core) v c (effective c 0) (getThread s fr.core cast lane).denied o p with
    | .ok s1 _ => .hold s1
    | .fault f => .fault f
    | .page s1 k => .page s1 k
    | .stop f => .stop f
  | .ok s0 _ =>
    laneRelease s0 fr.core cast lane 0 fun s1 =>
      if issueHeld s1 fr.core [] 0 1 false then .hold s1
      else .done (startFader s1 fr (.lane fr.core cast lane) .step c 0 0) { wait := .response }

def cueStep : CueBody := fun fr _ _ _ s =>
  let c := cueCap s fr.core fr.op.a.toNat
  let v := viaOf fr .a 2
  let fn := coreFn s fr.core
  match checkRegion s (corePort s fr.core) v c with
  | .fault f => .fault f
  | .missing o p =>
    match missingPage (α := Unit) s fn (coreCtx s fr.core) v c (effective c 0) (cueDenied s fr.core) o p with
    | .ok s1 _ => .hold s1
    | .fault f => .fault f
    | .page s1 k => .page s1 k
    | .stop f => .stop f
  | .ok s0 _ =>
    cueRelease s0 fr.core 0 fun s1 =>
      if issueHeld s1 fr.core [] 0 1 false then .hold s1 else .await (startFader s1 fr (.cue fr.core) .step c 0 0)

/-- STEP (R369). -/
def execStep (op : Op) (s : State) : Out :=
  execSlotted .step (fun s core op ths => (activeAgents s core op ths).length) bodyStep cueStep op s

/-! ### FADE (R370) -/

/-- Is chunk `c` free? -/
def chunkFree (bitmap c : Nat) : Bool := bitmap.testBit c

/-- The lowest chunk from which four are free. -/
def freeRun (bitmap nchunk : Nat) : Option Nat :=
  (List.range (nchunk - 3)).find? fun c => (List.range 4).all fun i => chunkFree bitmap (c + i)

/-- A chunk run for each of some tiles, in their order. -/
def planFresh (nchunk : Nat) : List Nat → Nat → Option (List (Nat × Nat))
  | [], _ => some []
  | n :: rest, bitmap =>
    match freeRun bitmap nchunk with
    | none => none
    | some c =>
      match planFresh nchunk rest (setField bitmap (c + 3) c 0) with
      | some l => some ((n, c) :: l)
      | none => none

/-- An absent tile takes four chunks of zeros. -/
def freshTile (s : State) (q : Port) (oid n c : Nat) : State :=
  match fugHeader s q oid with
  | none => s
  | some f =>
    let s1 := fugChunks (spendPort s q) q oid f c 4 false
    let s2 := writeObject s1 q oid (f.poff + 128 * c) (List.replicate 512 0)
    fugPutDesc s2 q oid f n (c * 2 ^ 24)

/-- The absent tiles of a range. -/
def absentTiles (s : State) (q : Port) (oid : Nat) (f : FugHdr) (b c : Nat) : List Nat :=
  (span b c).filter fun n => descSt (fugDesc s q oid f n) == 3

/-- The object offsets that a plan of chunk runs writes, as far as their pages go. -/
def planOffsets (f : FugHdr) (plan : List (Nat × Nat)) : List Nat :=
  plan.flatMap fun e => [f.poff + 128 * e.2, f.poff + 128 * e.2 + 511]

/-- What a FADE comes to at its issue. -/
inductive FadeStep where
  /-- Nothing is left to do. -/
  | done (s : State)
  /-- The fader works on it. -/
  | job (s : State)
  | fault (f : FaultInfo)
  | page (s : State) (k : PageKey)
  | hold (s : State)
  | stop (f : Fault)

/-- FADE of tiles `[b, b + c)` (R370). -/
def fadeAt (s : State) (fr : Frame) (who : Agent) (cap : Cap) (b c : Nat) (denied : Option PageKey) : FadeStep :=
  let fn := coreFn s fr.core
  let ctx := coreCtx s fr.core
  let oid := capOid cap
  let v := viaOf fr .a 2
  let q := corePort s fr.core
  let missing (o : Nat) (p : PageState) : FadeStep :=
    match missingPage (α := Unit) s fn ctx v cap (effective cap 0) denied o p with
    | .ok s1 _ => .hold s1
    | .fault f => .fault f
    | .page s1 k => .page s1 k
    | .stop f => .stop f
  match checkRegion s q v cap with
  | .fault f => .fault f
  | .missing o p => missing o p
  | .ok s f =>
    if b + c > f.ntile then .fault (memFault v 0x02 cap (effective cap 0))
    else if c = 0 then .done s
    else if fr.op.mod.toNat % 4 ≠ 3 then
      if issueHeld s fr.core [] 0 1 false then .hold s else .job (startFader s fr who .fade cap b c)
    else if faderBusy s fn oid s.fresh then .hold s
    else match firstMissing s q oid (pageSamples (f.doff + 16 * b) (16 * c)) with
      | some (o, p) => missing o p
      | none =>
        match planFresh f.nchunk (absentTiles s q oid f b c) (fugNat s q oid f.boff (bitmapBytes f)) with
        | none => .fault (memFault v 0x02 cap (effective cap 0))
        | some plan =>
          match firstMissing s q oid (planOffsets f plan) with
          | some (o, p) => missing o p
          | none => .done (plan.foldl (fun s e => freshTile s q oid e.1 e.2) (readBooks (spendPort s q) q oid f b c))

def bodyFade : Body := fun fr cast lane s =>
  match fadeAt s fr (.lane fr.core cast lane) (laneCap s fr.core cast fr.op.a.toNat) (laneSrc s fr cast lane .b)
      (laneSrc s fr cast lane .c) (getThread s fr.core cast lane).denied with
  | .done s1 => .done s1 {}
  | .job s1 => .done s1 { wait := .response }
  | .fault f => .fault f
  | .page s1 k => .page s1 k
  | .hold s1 => .hold s1
  | .stop f => .stop f

def cueFade : CueBody := fun fr _ b c s =>
  match fadeAt s fr (.cue fr.core) (cueCap s fr.core fr.op.a.toNat) b.toNat c.toNat (cueDenied s fr.core) with
  | .done s1 => .done s1 none none
  | .job s1 => .await s1
  | .fault f => .fault f
  | .page s1 k => .page s1 k
  | .hold s1 => .hold s1
  | .stop f => .stop f

/-- FADE (R370). -/
def execFade (op : Op) (s : State) : Out := execBuffered .fade true bodyFade cueFade op s

/-! ### The fader (R365, R369, R371) -/

/-- Replace a transfer of a core, or take it out. -/
def putXfer (s : State) (core : Nat) (x : Xfer) : State :=
  modCore s core fun c => { c with xfers := c.xfers.map fun y => if y.id = x.id then x else y }
def dropXfer (s : State) (core id : Nat) : State :=
  modCore s core fun c => { c with xfers := c.xfers.filter fun y => !(y.id == id) }

/-- A transfer of a core by number. -/
def findXfer (s : State) (core id : Nat) : Option Xfer := (getCore s core).xfers.find? fun x => x.id == id

/-- A thread that waits for its own operation to complete goes on: a lane issues, the cue thread's oldest command is done. -/
def endWait (s : State) (who : Agent) : State :=
  match who with
  | .lane core cast lane => modThread s core cast lane fun t => if t.wait = .response then { t with wait := .ready } else t
  | .cue core =>
    match getCue s core with
    | none => s
    | some q =>
      match q.buf with
      | [] => s
      | cmd :: _ => if q.response then finishCommand s core cmd none else s

/-- A job of the fader is complete; the thread of a resumed job is past its instruction and waits for something else (R371). -/
def endFader (s : State) (core : Nat) (x : Xfer) : State :=
  let s1 := dropXfer s core x.id
  if x.resumed || !holdsLaunch s core x.launch then s1 else endWait s1 x.agent

/-- The job goes on to its next tile, or is complete. -/
def nextTile (s : State) (core : Nat) (x : Xfer) : State :=
  if x.len ≤ 1 then endFader s core x else putXfer s core { x with tile := x.tile + 1, len := x.len - 1 }

/-- A tile's descriptor once STEP has aged it (R369). -/
def agedDesc (d : Nat) : Nat :=
  if descRnw d then setField d 16 16 0 else setField d 13 0 (min (descAge d + 1) 0x3FFF)

/-- The port of a transfer of a core. -/
def xferPort (core : Nat) (x : Xfer) : Port := { fn := x.fn, ctx := x.ctx, core := some core }

/-- The descriptor with which a job meets a tile, aged by STEP, and the rung to which the job takes the tile (R369, R370). -/
def metDesc (x : Xfer) (d : Nat) : Nat := if x.kind = .step then agedDesc d else d
def fadeGoal (x : Xfer) (f : FugHdr) (d : Nat) : Nat :=
  if descNxt d ≠ 0 then descTgt d
  else if x.kind = .step then fadeRung f (descAge (metDesc x d))
  else x.mod % 4 + 1

/-- One turn of the fader on tile `n` whose re-encoding has not begun. -/
def faderTile (s : State) (core : Nat) (x : Xfer) (oid : Nat) (f : FugHdr) : State :=
  let n := x.tile
  let q := xferPort core x
  let d := fugDesc s q oid f n
  let step := x.kind == .step
  if step && descSt d == 3 then nextTile s core x
  else
    let s1 := if step then fugPutDesc s q oid f n (metDesc x d) else s
    let r := fadeGoal x f d
    if r > descSt d then addSteps (fadeBlock s1 q oid f n 0 r) x.ctx 0 1 else nextTile s1 core x

/-- The fader waits for a page, which it requests where it is absent (DESIGN CHOICE, log 48). -/
def faderWaits (s : State) (x : Xfer) (oid o : Nat) (p : PageState) : State :=
  match p with
  | .absent => requestPage s (pageKeyOf s x.fn oid o) x.ctx
  | _ => s

/-- One turn of the fader on a job: the step at the header, a tile's age check with its first block, or the next block. A job whose
region has lost its valid header ends; a page that is missing is waited for. -/
def faderTurn (s : State) (core : Nat) (x : Xfer) : State :=
  match x.src with
  | .mem c _ =>
    let oid := capOid c
    let q := xferPort core x
    match firstMissing s q oid (fugHeaderOffsets s q oid) with
    | some (o, p) => faderWaits s x oid o p
    | none =>
      match fugHeader s q oid with
      | none => endFader s core x
      | some f =>
        if x.kind = .step ∧ !x.started then
          let s1 := readBooks s q oid f 0 0
          putXfer (addSteps (fugPutHeader s1 q oid (setField f.raw 63 0 (f.stepn + 1))) x.ctx 1 0) core
            { x with started := true, len := f.ntile }
        else
          let d := fugDesc s q oid f x.tile
          match firstMissing s q oid (fugFadeOffsets s q oid f x.tile (descNxt d) (fadeGoal x f d)) with
          | some (o, p) => faderWaits s x oid o p
          | none =>
            let s1 := readBooks s q oid f x.tile 1
            if descNxt d = 0 then faderTile s1 core x oid f
            else
              let s2 := fadeBlock s1 q oid f x.tile (descNxt d) (descTgt d)
              if descNxt d = 7 then nextTile s2 core x else s2
  | _ => s

/-- Do the transfers of a context move: is its image not being written (R227)? -/
def transfersMove (s : State) (ctx : Nat) : Bool :=
  match (getContext s ctx).run with
  | .saving _ _ _ => false
  | _ => true

/-- FADER_REENCODE (R365): the oldest job of its region has a turn. -/
def execFaderReencode (core job : Nat) (s : State) : Out :=
  match findXfer s core job with
  | none => .next s
  | some x =>
    match x.src with
    | .mem c _ =>
      if transfersMove s x.ctx && faderJob x.fn (capOid c) x && !faderBusy s x.fn (capOid c) x.id then .next (faderTurn s core x) else .next s
    | _ => .next s

/-! ### Class groups and pools (R352, R353, R389; DESIGN CHOICE, log 32) -/

/-- Raw units of a class group, and the data units among them. -/
def groupUnits (cls : Nat) : Nat :=
  match cls with
  | 0 => 1
  | 2 => 8
  | _ => 32
def dataUnits (cls : Nat) : Nat := if cls = 0 then 1 else groupUnits cls - 1

/-- The key of a raw unit's first byte. -/
def unitKey (tier u : Nat) : Nat := if tier = 1 then 2 ^ 40 + u * 2 ^ 16 else u * 2 ^ 21

/-- The raw unit that holds a key. -/
def unitOf (tier key : Nat) : Nat := if tier = 1 then (key - 2 ^ 40) / 2 ^ 16 else key / 2 ^ 21

/-- A pool's entry: origin of its list, count, tier. -/
def poolEntry (s : State) (b : Nat) : Nat := homeNat s (s.poolBase.toNat + 16 * b) 16
def poolOrigin (x : Nat) : Nat := field x 127 76
def poolCount (x : Nat) : Nat := field x 63 32
def poolTier (x : Nat) : Nat := x % 4

/-- The free raw units of a pool. -/
def poolUnits (s : State) (b : Nat) : List Nat :=
  let x := poolEntry s b
  (List.range (poolCount x)).map fun i => homeNat s (poolOrigin x + 4 * i) 4

/-- Write bytes at their homes under one key, line by line. -/
def putKeyBytes (s : State) : List (Nat × Nat) → List Byte → State
  | [], _ => s
  | c :: rest, bs =>
    putKeyBytes (writeHome s (c.1 / 64) (byteMask (c.1 % 64) c.2) (placeBytes (c.1 % 64) (bs.take c.2)) 0 false 0 0) rest
      (bs.drop c.2)

/-- Write a pool's list and count. -/
def putPool (s : State) (b : Nat) (units : List Nat) : State :=
  let x := poolEntry s b
  let bs := units.flatMap fun u => toBytes 4 u
  let s1 := putKeyBytes s (rangeChunks (poolOrigin x) bs.length) bs
  putKeyBytes s1 (rangeChunks (s.poolBase.toNat + 16 * b) 16) (toBytes 16 (setField x 63 32 units.length))

/-- The first units of the class groups that lie whole in a list, in the order of the list. -/
def wholeGroups (g : Nat) (units : List Nat) : List Nat :=
  units.filter fun u => u % g == 0 && (span u g).all units.contains

/-- The class groups that hold `pages` units of data, if the pool has them. -/
def takeGroups (s : State) (b tier cls pages : Nat) : Option (List Nat) :=
  let n := ceilDiv pages (dataUnits cls)
  let gs := wholeGroups (groupUnits cls) (poolUnits s b)
  if poolTier (poolEntry s b) ≠ tier ∨ gs.length < n then none else some (gs.take n)

/-- An extent: object offset, key, pages, PSN. -/
structure Extent where
  off : Nat
  key : Nat
  pages : Nat
  bad : Bool
  deriving DecidableEq, Repr

/-- The extents of an object (R135). -/
def extentsOf (s : State) (o : BitVec 128) : List Extent :=
  (List.range (objNext o)).map fun i =>
    let x := homeNat s (objRoot o + 16 * i) 16
    { off := field x 127 88, key := field x 87 48 * 4096, pages := field x 47 24, bad := x.testBit 0 }

/-- The bytes of an extent list. -/
def extentBytes (es : List Extent) : List Byte :=
  es.flatMap fun e => toBytes 16 (b2n e.bad + e.pages <<< 24 + (e.key / 4096) <<< 48 + e.off <<< 88)

/-- Set MIG in every extent of an object. -/
def markMigrating (s : State) (o : BitVec 128) : State :=
  (List.range (objNext o)).foldl (fun s i =>
    let key := objRoot o + 16 * i
    let x := homeNat s key 1
    putKeyBytes s [(key, 1)] (toBytes 1 (x ||| 2))) s

/-- Remove the translations of an object in every TLB. -/
def dropTranslations (s : State) (fn oid : Nat) : State :=
  let keep (e : TlbEntry) : Bool := !(e.fn == fn && e.oid == oid)
  let cores : Store Core := s.cores.map fun e => (e.1, { e.2 with tlb := e.2.tlb.filter keep })
  let dies : Store Die := s.dies.map fun e => (e.1, { e.2 with tlb := e.2.tlb.filter keep })
  { s with cores, dies }

/-- Does an extent hold a line? -/
def inExtents (tier : Nat) (es : List Extent) (line : Nat) : Bool :=
  es.any fun e => e.key ≤ line * 64 && line * 64 < e.key + e.pages * tierPage tier

/-- Drain the dirty lines of some extents from every L1 and L2 to memory: L1's written bytes leave as write-backs, which the end of the
move awaits. -/
def drainExtents (s : State) (tier : Nat) (es : List Extent) : State :=
  let s1 := allCores.foldl (fun s core =>
    ((getCore s core).l1.filter fun e => inExtents tier es e.1).foldl (fun s e => ejectLine s core e.1) s) s
  (List.range 4).foldl (fun s die =>
    ((getDie s die).l2.filter fun e => e.2.dirty && inExtents tier es e.1).foldl (fun s e =>
      modDie (putMemLine s e.1 e.2.data e.2.tags) die fun d => { d with l2 := sput e.1 { e.2 with dirty := false } d.l2 }) s) s1

/-- The raw units of class groups that hold the pages of extents. -/
def heldUnits (tier cls : Nat) (es : List Extent) : List Nat :=
  let g := groupUnits cls
  let firsts := es.flatMap fun e => (List.range e.pages).map fun p => unitOf tier (e.key + p * tierPage tier) / g * g
  (firsts.foldr nins []).flatMap fun u => span u g

/-- The data units of class groups, in order. -/
def dataOf (cls : Nat) (groups : List Nat) : List Nat := groups.flatMap fun u => span u (dataUnits cls)

/-- One extent per run of contiguous units, from an object offset on. -/
def runsOf (tier : Nat) : Nat → List Nat → List Extent
  | _, [] => []
  | off, u :: rest =>
    match runsOf tier (off + tierPage tier) rest with
    | [] => [{ off, key := unitKey tier u, pages := 1, bad := false }]
    | e :: es =>
      if e.key = unitKey tier u + tierPage tier then { off, key := unitKey tier u, pages := e.pages + 1, bad := false } :: es
      else { off, key := unitKey tier u, pages := 1, bad := false } :: e :: es

/-- The key of an offset in some extents, and whether its page is poisoned. -/
def extentKey (tier : Nat) (es : List Extent) (off : Nat) : Option (Nat × Bool) :=
  (es.find? fun e => e.off ≤ off && off < e.off + e.pages * tierPage tier).map fun e => (e.key + (off - e.off), e.bad)

/-- Move one line, read in one context's name and written in one's: its data or zeros; poison travels, tags are cleared (R355, R375). -/
def moveLine (keep : Bool) (old new : Option (Nat × Bool)) (oldCls newCls rctx ctx : Nat) (s : State) : State :=
  match new with
  | none => s
  | some d =>
    match old with
    | some a =>
      if keep then
        let s1 := readHome s (a.1 / 64) oldCls rctx none false
        writeHome s1 (d.1 / 64) fullMask (homeData s1 (a.1 / 64)) 0 (a.2 || nmem (a.1 / 64) s1.poison) newCls ctx
      else writeHome s (d.1 / 64) fullMask 0 0 false newCls ctx
    | none => writeHome s (d.1 / 64) fullMask 0 0 false newCls ctx

/-- Pages of an object from an offset on. -/
def pagesFrom (o : BitVec 128) (first : Nat) : Nat :=
  ceilDiv (objSize o) (tierPage (objTier o)) - first / tierPage (objTier o)

/-- Take class groups out of a pool's list. -/
def reserveGroups (s : State) (pool cls : Nat) (groups : List Nat) : State :=
  let taken := groups.flatMap fun u => span u (groupUnits cls)
  putPool s pool ((poolUnits s pool).filter fun u => !taken.contains u)

/-- The units that an object gives back when its bytes from page offset `first` on move. -/
def freedUnits (tier cls first : Nat) (old : List Extent) : List Nat :=
  let kept := (old.filter fun e => e.off < first).map fun e =>
    { e with pages := min e.pages ((first - e.off) / tierPage tier) }
  let moved := old.filterMap fun e =>
    if e.off + e.pages * tierPage tier ≤ first then none
    else
      let skip := (first - e.off) / tierPage tier
      some { e with key := e.key + skip * tierPage tier, pages := e.pages - skip }
  let stay := heldUnits tier cls kept
  (heldUnits tier cls moved).filter fun u => !stay.contains u

/-- An object's bytes from page offset `first` on move into class groups of `cls`, taken before; the extent list and the
object's entry are rewritten, the old units return to the pool (R375, R384). -/
def regroup (s : State) (fn oid first cls newCls pool : Nat) (groups : List Nat) (keep : Bool) (rctx ctx : Nat) : State :=
  let o := getObject s fn oid
  let tier := objTier o
  let old := extentsOf s o
  let new := runsOf tier first ((dataOf cls groups).take (pagesFrom o first))
  let s1 := (span (first / 64) (ceilDiv (objSize o) 64 - first / 64)).foldl (fun s i =>
    moveLine keep (extentKey tier old (64 * i)) (extentKey tier new (64 * i)) (objClass o) cls rctx ctx s) s
  let s2 := putPool s1 pool (poolUnits s1 pool ++ freedUnits tier (objClass o) first old)
  let list := ((old.filter fun e => e.off < first).map fun e =>
    { e with pages := min e.pages ((first - e.off) / tierPage tier) }) ++ new
  let root := Config.freePage s.tick % 2 ^ 40
  let bs := extentBytes list
  let s3 := putKeyBytes s2 (rangeChunks (root * 4096) bs.length) bs
  setObject s3 fn oid (BitVec.ofNat 128
    (setField (setField (setField o.toNat 5 4 newCls) 47 32 list.length) 87 48 root))

/-! ### CLASSMAP (R375, R376) -/

/-- What a CLASSMAP comes to at its issue. -/
inductive MapStep where
  | done (s : State)
  | job (s : State)
  | fault (f : FaultInfo)
  /-- An earlier CLASSMAP of the object is in progress. -/
  | hold

/-- CLASSMAP after its release: the checks, then the job, which sets MIG and drains the object. -/
def classmapAt (s : State) (fr : Frame) (who : Agent) (c : Cap) (b : Nat) (keep : Bool) : MapStep :=
  let fn := coreFn s fr.core
  let oid := capOid c
  let o := getObject s fn oid
  let cls := fr.op.mod.toNat % 4
  let bad := memFault (viaOf fr .a 2) 0x04 c (effective c 0)
  if !objValid o || capLower c != 0 || capUpper c != objSize o || !capHas c 1 || !capHas c 5 || objTier o ≥ 2 || objPaged o
      || objClass o == 3 || capLc c == 3 then .fault bad
  else if s.classJobs.any fun j => j.fn == fn && j.oid == oid then .hold
  else if objClass o = cls then .done s
  else match takeGroups s b (objTier o) cls (pagesFrom o 0) with
    | none => .fault bad
    | some groups =>
      let es := extentsOf s o
      let s1 := drainExtents (dropTranslations (markMigrating (reserveGroups s b cls groups) o) fn oid) (objTier o) es
      let (id, s2) := takeFresh s1
      .job { s2 with classJobs := s2.classJobs ++
        [{ id, agent := some who, ctx := coreCtx s fr.core, fn, oid, cls, pool := b, groups, keep }] }

def bodyClassmap : Body := fun fr cast lane s =>
  if !modePriv (coreMode s fr.core) then .fault (illegalFault fr (encodeWord0 fr.o fr.op))
  else
    laneRelease s fr.core cast lane 6 fun s1 =>
      match classmapAt s1 fr (.lane fr.core cast lane) (laneCap s1 fr.core cast fr.op.a.toNat)
          (laneSrc s1 fr cast lane .b % 256) (laneSrc s1 fr cast lane .c % 2 == 1) with
      | .done s2 => .done s2 {}
      | .job s2 => .done s2 { wait := .response }
      | .fault f => .faultAt s1 f
      | .hold => .hold s1

def cueClassmap : CueBody := fun fr _ b c s =>
  if !modePriv (coreMode s fr.core) then .fault (illegalFault fr (encodeWord0 fr.o fr.op))
  else
    cueRelease s fr.core 6 fun s1 =>
      match classmapAt s1 fr (.cue fr.core) (cueCap s1 fr.core fr.op.a.toNat) (b.toNat % 256) (c.toNat % 2 == 1) with
      | .done s2 => .done s2 none none
      | .job s2 => .await s2
      | .fault f => .faultAt s1 f
      | .hold => .hold s1

/-- CLASSMAP (R375). -/
def execClassmap (op : Op) (s : State) : Out := execBuffered .classmap true bodyClassmap cueClassmap op s

/-- CLASSMAP_COMPLETION (R375): once no write to the object's old lines is in flight. The new extents carry MIG 0. -/
def execClassmapCompletion (job : Nat) (s : State) : Out :=
  match s.classJobs.find? fun j => j.id == job with
  | none => .next s
  | some j =>
    let o := getObject s j.fn j.oid
    let es := extentsOf s o
    if s.homeWrites.any fun w => !w.applied && inExtents (objTier o) es w.line then .next s
    else
      let s1 := regroup { s with classJobs := s.classJobs.filter fun x => !(x.id == job) } j.fn j.oid 0 j.cls j.cls j.pool
        j.groups j.keep (if j.agent.isNone then 0 else j.ctx) j.ctx
      .next (match j.agent with
        | some who => endWait s1 who
        | none => s1)

end Sys2Proof.Machine
end

