-- ==== Sys2Proof/Machine/Launch.lean ====
section
/-! DEFINITION. Launches before they are placed: playbills and their checks, queues, packets, refusals, draws, LAUNCH (R253
to R261, R265, R379). -/

namespace Sys2Proof.Machine

/-! ### Reads of the front end (R254, R259) -/

/-- What a read of an object at its homes gives the front end. -/
inductive FrontRead where
  | ok (s : State) (bs : List Byte)
  /-- Not all of it lies below the object's SIZE, or the object is unbound. -/
  | outside
  | poisoned (s : State)
  /-- A page is missing. -/
  | waits (s : State)

/-- Raise the page request of the first absent page of a range (R140). -/
def requestRange (s : State) (q : Port) (oid off n : Nat) : State :=
  match firstMissing s q oid ((rangeChunks off n).map Prod.fst) with
  | some (x, .absent) => requestPage s (pageKeyOf s q.fn oid x) q.ctx
  | _ => s

/-- Read bytes of an object at their homes. DEDUCED, log 53. -/
def frontRead (s : State) (fn oid off n : Nat) : FrontRead :=
  let o := getObject s fn oid
  let q := outerPort fn
  if !objValid o || off + n > objSize o then .outside
  else if !rangeMapped s q oid off n then .waits (requestRange s q oid off n)
  else
    let s1 := checkRange s q oid off n
    if objectPoisoned s1 q oid off n then .poisoned s1 else .ok s1 ((readObject s1 q oid off n).getD [])

/-! ### Playbills (R79, R132, R191, R192, R253, R255, R256, R326) -/

/-- A number in a record. -/
def recNat (bs : List Byte) (off n : Nat) : Nat := ofBytes ((bs.drop off).take n)

/-- A playbill from its 512 bytes (R253). -/
def parseBill (bs : List Byte) : Playbill :=
  { ver := BitVec.ofNat 32 (recNat bs 0 4), cuePc := BitVec.ofNat 32 (recNat bs 4 4)
    lanePc := BitVec.ofNat 32 (recNat bs 8 4), trapPc := BitVec.ofNat 32 (recNat bs 12 4)
    code := BitVec.ofNat 128 (recNat bs 0x10 16), casts := recNat bs 0x20 4, width := recNat bs 0x24 1
    vregs := recNat bs 0x25 1, scratch := recNat bs 0x26 1, kclass := recNat bs 0x27 1 % 4, tickets := recNat bs 0x28 2
    ctxid := recNat bs 0x2A 2 % 4096, ensCap := BitVec.ofNat 128 (recNat bs 0x30 16)
    doneCap := BitVec.ofNat 128 (recNat bs 0x40 16)
    slots := (List.range 8).map fun n => BitVec.ofNat 64 (recNat bs (0x50 + 8 * n) 8)
    args := (List.range 16).map fun n => BitVec.ofNat 128 (recNat bs (0x100 + 16 * n) 16) }

/-- Are the reserved fields and bytes of a playbill 0? -/
def billReserved (bs : List Byte) : Bool :=
  recNat bs 0x27 1 / 4 == 0 && recNat bs 0x2A 2 / 4096 == 0 && recNat bs 0x2C 4 == 0 && recNat bs 0x90 112 == 0

/-- Does a slot descriptor keep to R79? -/
def slotSound (d : DWord) : Bool :=
  let x := d.toNat
  let e := slotEfmt d
  let sch := slotSch d
  let t := slotTscale d
  let isInt := slotIsInt d
  let small := e == 1 || e == 2 || (5 ≤ e && e ≤ 8)
  field x 31 29 == 0 && field x 23 16 == 0 && field x 6 4 == 0 && e ≤ 10
    && (if e = 8 then field x 9 7 ≥ 1 else field x 11 7 == 0)
    && (!(sch == 1 || sch == 2) || small)
    && (!isInt || slotOvp d == 0 || slotOvp d == 3)
    && (if sch = 3 then t == 0 || (t < 2 ^ 31 && 1 ≤ t / 2 ^ 23 && t / 2 ^ 23 ≤ 254) else t == 0)
    && (sch == 2 || slotVthr d == 0)
    && (e != 0 || x == 0)

/-- Does `[lo, lo + n)` lie within a capability's bounds and its object's SIZE? -/
def capCovers (s : State) (fn : Nat) (c : Cap) (lo n : Nat) : Bool :=
  let o := getObject s fn (capOid c)
  objValid o && capLower c ≤ lo && lo + n ≤ capUpper c && lo + n ≤ objSize o

/-- Does CODE serve every entry point (R255)? -/
def codeSound (s : State) (fn : Nat) (b : Playbill) : Bool :=
  let pcs := [b.cuePc, b.lanePc] ++ (if b.trapPc = 0xFFFFFFFF then [] else [b.trapPc])
  capReserved b.code == 0 && capHas b.code 2 && pcs.all fun pc => pc.toNat % 4 == 0 && capCovers s fn b.code pc.toNat 4

/-- Is an argument capability taken (R132)? -/
def argSound (s : State) (fn : Nat) (c : Cap) : Bool :=
  c == 0 || (capReserved c == 0 && capLower c ≤ capUpper c && objValid (getObject s fn (capOid c)))

/-- One entry of an ensemble table (R191): number, list, reports, cluster, RECOFF. -/
structure EnsEntry where
  index : Nat
  casts : List Nat
  reports : Bool
  cluster : Bool
  recOff : Nat
  deriving DecidableEq, Repr

/-- Does the list rise strictly and stay below the number of casts? -/
def listSound (casts : Nat) (l : List Nat) : Bool := rising l && l.all fun c => c < casts

/-- What reading an ensemble table gives. -/
inductive TableRead where
  | ok (s : State) (es : List EnsEntry)
  | bad (s : State)
  | waits (s : State)

/-- Read the entries of a table, in ascending order, from the table's bytes. -/
def readEntries (fn : Nat) (cap : Cap) (casts : Nat) (bs : List Byte) : List Nat → State → TableRead
  | [], s => .ok s []
  | i :: rest, s =>
    let x := recNat bs (16 * i) 16
    let n := field x 47 24
    let off := field x 87 48
    if field x 23 3 ≠ 0 then .bad s
    else if x % 2 = 0 then (if x = 0 then readEntries fn cap casts bs rest s else .bad s)
    else if n = 0 || off % 4 != 0 || !capCovers s fn cap off (4 * n) || (x.testBit 1 && n > 4)
        || (x.testBit 2 && field x 127 88 % 32 != 0) then .bad s
    else match frontRead s fn (capOid cap) off (4 * n) with
      | .outside => .bad s
      | .poisoned s1 => .bad s1
      | .waits s1 => .waits s1
      | .ok s1 ls =>
        let l := (List.range n).map fun k => recNat ls (4 * k) 4
        if !listSound casts l then .bad s1
        else match readEntries fn cap casts bs rest s1 with
          | .ok s2 es => .ok s2 ({ index := i, casts := l, reports := x.testBit 2, cluster := x.testBit 1
                                   recOff := field x 127 88 } :: es)
          | r => r

/-- How many entries list a cast. -/
def listings (es : List EnsEntry) (c : Nat) : Nat := (es.filter fun e => e.casts.contains c).length

/-- The conditions of R192 and R326 on whole tables. -/
def tableSound (b : Playbill) (es : List EnsEntry) : Bool :=
  let named := es.flatMap EnsEntry.casts
  let clusters := es.filter EnsEntry.cluster
  (named.all fun c => listings es c ≤ 4) && ((clusters.flatMap EnsEntry.casts).all fun c => listings clusters c ≤ 1)
    && (es.all fun e => !e.reports || b.doneCap != 0)

/-- Read the ensemble table of a playbill. -/
def readTable (s : State) (fn : Nat) (b : Playbill) : TableRead :=
  let c := b.ensCap
  if c = 0 then .ok s []
  else if capReserved c ≠ 0 || !capCovers s fn c (capLower c) 4096 || !capHas c 0
      || classFail c (objTier (getObject s fn (capOid c))) (objClass (getObject s fn (capOid c))) then .bad s
  else match frontRead s fn (capOid c) (capLower c) 4096 with
    | .outside => .bad s
    | .poisoned s1 => .bad s1
    | .waits s1 => .waits s1
    | .ok s1 bs =>
      match readEntries fn c b.casts bs (List.range 256) s1 with
      | .ok s2 es => if tableSound b es then .ok s2 es else .bad s2
      | r => r

/-- Does DONECAP pass its checks (R255)? -/
def doneSound (s : State) (fn : Nat) (b : Playbill) (es : List EnsEntry) : Bool :=
  let c := b.doneCap
  capReserved c == 0 && capHas c 1 && objClass (getObject s fn (capOid c)) == 2 && capCovers s fn c (capLower c) 32
    && es.all fun e => !e.reports || capCovers s fn c (capLower c + e.recOff) 32

/-- The clusters of a function's partition on a die, ascending. -/
def partitionOn (s : State) (fn die : Nat) : List Nat :=
  (span (16 * die) 16).filter fun n => (getFunc s fn).pclu.toNat.testBit n

/-- What the third stage of R256 gives: the ensembles of a launch to place, or the reason of a refusal. -/
inductive BillCheck where
  | ok (s : State) (es : List EnsEntry)
  | refuse (s : State) (code : Nat) (es : List EnsEntry)
  | waits (s : State)

/-- A refusal for a reason that the checks meet before the ensemble table: DONECAP's own checks name the table's RECOFFs, so the
table is read for them (R255, R257). A table that breaks R192 gives none (DESIGN CHOICE, log 53). -/
def refuseEarly (s : State) (fn code : Nat) (b : Playbill) : BillCheck :=
  if b.doneCap = 0 then .refuse s code []
  else match readTable s fn b with
    | .ok s1 es => .refuse s1 code es
    | .bad s1 => .refuse s1 code []
    | .waits s1 => .waits s1

/-- The checks of a drawn playbill, in the order of R256. -/
def checkBill (s : State) (fn die ctx : Nat) (bs : List Byte) : BillCheck :=
  let b := parseBill bs
  if b.ver ≠ 0x00010000 || !billReserved bs then refuseEarly s fn 0x01 b
  else if b.ctxid = 0 || b.ctxid ≠ ctx then refuseEarly s fn 0x02 b
  else if b.casts = 0 || b.casts * b.width > 2 ^ 32 - 64 || !(b.width == 16 || b.width == 32 || b.width == 64)
      || b.vregs < 16 || b.vregs > 128 || b.vregs % 8 != 0 || b.scratch > 7 then refuseEarly s fn 0x03 b
  else if !b.slots.all slotSound then refuseEarly s fn 0x05 b
  else if !codeSound s fn b then refuseEarly s fn 0x06 b
  else if !b.args.all (argSound s fn) then refuseEarly s fn 0x07 b
  else match readTable s fn b with
    | .waits s1 => .waits s1
    | .bad s1 => .refuse s1 0x08 []
    | .ok s1 es =>
      if b.doneCap ≠ 0 && !doneSound s1 fn b es then .refuse s1 0x09 es
      else if (partitionOn s1 fn die).isEmpty then .refuse s1 0x0A es
      else .ok s1 es

/-! ### Queues (R257 to R260) -/

/-- A queue of a die. -/
def getQueue (s : State) (die queue : Nat) : Queue := sget {} queue (getDie s die).queues

/-- Replace a queue. -/
def setQueue (s : State) (die queue : Nat) (q : Queue) : State :=
  modDie s die fun d => { d with queues := sput queue q d.queues }

/-- The function that owns a queue. -/
def queueFn (q : Queue) : Nat := if q.pf then physFn else q.vf.toNat

/-- Units that the ring holds. -/
def ringUnits (q : Queue) : Nat := 2 ^ (q.lsize.toNat + 4)

/-- The object and the offset of unit `k`. -/
def unitAt (q : Queue) (k : Nat) : Nat × Nat :=
  (field q.base.toNat 63 40, field q.base.toNat 39 0 + 16 * (k % ringUnits q))

/-- Units pending. -/
def pendingUnits (q : Queue) : Nat := (q.tail - q.head).toNat

/-- Is the queue read and drawn: enabled, not halted, its function not stopped (R258, R274)? -/
def queueRuns (s : State) (q : Queue) : Bool := q.en && !q.halt && !(getFunc s (queueFn q)).stopped

/-- A completion record (R198). -/
def recordBits256 (done core seq cyc scope cueor nexit thmin nnz stmin stor : Nat) : Nat :=
  stor % 2 ^ 16 + (stmin % 2 ^ 16) <<< 16 + (nnz % 2 ^ 32) <<< 32 + (thmin % 2 ^ 32) <<< 64 + (nexit % 2 ^ 32) <<< 96
    + (cueor % 2 ^ 16) <<< 128 + (scope % 2 ^ 16) <<< 144 + (cyc % 2 ^ 32) <<< 160 + (seq % 2 ^ 32) <<< 192
    + (core % 2 ^ 16) <<< 224 + (done % 2 ^ 16) <<< 240

/-- May a core perform a store of a range at its homes now: is every page valid, and every earlier home write of the die applied
(R243, R244)? -/
def recordReady (s : State) (core : Nat) (q : Port) (oid off n : Nat) : Bool :=
  (rangeChunks off n).all fun c =>
    match resolve s q oid c.1 with
    | some k => homeWriteReady s (stampDie core (k / 64)) (k / 64)
    | none => false

/-- Stamp a store of a range as home writes of a core (R244). -/
def stampRange (s : State) (core : Nat) (q : Port) (oid off n : Nat) : State :=
  (rangeChunks off n).foldl (fun s c =>
    match resolve s q oid c.1 with
    | some k => stampNow s (stampDie core (k / 64)) (k / 64)
    | none => s) s

/-- Write a record in the name of a core, at an offset from DONECAP's LOWER, as one store with a release of system scope; SEQNO
of the core increases (R198, R199). Answers whether it is written: it waits for its page and for earlier home writes. -/
def putCompletion (s : State) (core : Nat) (q : Port) (done : Cap) (off bits : Nat) : State × Bool :=
  let oid := capOid done
  let lo := capLower done + off
  if !recordReady s core q oid lo 32 then (requestRange s q oid lo 32, false)
  else
    let s1 := writeSystem (stampRange (spendToken s core) core q oid lo 32) q oid lo (toBytes 32 bits)
    (modCore s1 core fun c => { c with seqno := c.seqno + 1 }, true)

/-- A launch is refused in its playbill: the completion record, if DONECAP passes its checks (R257), and whether the refusal
need not wait for it. -/
def refusalRecord (s : State) (die fn ctx code : Nat) (b : Playbill) (es : List EnsEntry) : State × Bool :=
  if b.doneCap ≠ 0 && doneSound s fn b es then
    let core := 64 * die
    let c := getCore s core
    putCompletion s core { fn, ctx, core := none } b.doneCap 0
      (recordBits256 2 core c.seqno.toNat c.cycle.toNat 0x100 0 0 0xFFFFFFFF 0 0 code)
  else (s, true)

/-- Halt a queue with a reason, and the event of type 0x02 to its function, whose DETAIL holds the die at bit 0, the queue at
bit 8 and RCODE at bit 16 (R257, R383; DESIGN CHOICE, log 71). A refused doorbell value leaves the packet at the head as it is. -/
def refuseQueue (s : State) (die queue code : Nat) (skip : Option Nat) : State :=
  let q := getQueue s die queue
  let s1 := setQueue s die queue
    { q with halt := true, rcode := BitVec.ofNat 8 code, skip, ready := if skip.isNone then q.ready else none }
  postEvent s1 (queueFn q) 0x02 0 0 q.ctx.toNat (die + queue <<< 8 + code <<< 16)

/-- What stands at the head of a queue. -/
inductive Head where
  | none
  | waits
  | nop (units : Nat)
  /-- Counters as object, offset and value. -/
  | waitset (units : Nat) (counters : List (Nat × Nat × Nat))
  | launch (ref : DWord) (tickets : Nat)
  | refuse (code : Nat) (skip : Nat)
  | refuseBill (code : Nat) (bill : List Byte)

/-- Read units `[k, k + n)` of a queue: none where one cannot be read. DEDUCED, log 52. -/
def readUnits (q : Queue) : Nat → Nat → State → State × Option (Option (List (List Byte)))
  | 0, _, s => (s, some (some []))
  | n + 1, k, s =>
    let u := unitAt q k
    match frontRead s (queueFn q) u.1 u.2 16 with
    | .outside => (s, some none)
    | .poisoned s1 => (s1, some none)
    | .waits s1 => (s1, none)
    | .ok s1 bs =>
      match readUnits q n (k + 1) s1 with
      | (s2, some (some l)) => (s2, some (some (bs :: l)))
      | r => r

/-- Is UNITS a length that R260 gives for the type? -/
def unitsLegal (type n units : Nat) : Bool :=
  match type with
  | 0 => units ≥ 1
  | 1 => units == 1
  | 2 => 1 ≤ n && n ≤ 12 && units == n + 1
  | _ => false

/-- Is the first unit in order (reason 0x0C)? -/
def unitSound (x : Nat) : Bool :=
  let type := field x 7 0
  let n := field x 19 16
  unitsLegal type n (field x 15 8) && field x 63 20 == 0 && (type == 2 || n == 0) && (type == 1 || field x 127 64 == 0)

/-- A counter of a WAITSET: object, offset, value. -/
def counterOf (bs : List Byte) : Nat × Nat × Nat :=
  let x := ofBytes bs
  (field x 63 40, field x 39 0, field x 127 64)

/-- Is a counter reference a multiple of 8, bound and within bounds? -/
def counterSound (s : State) (fn : Nat) (c : Nat × Nat × Nat) : Bool :=
  let o := getObject s fn c.1
  c.2.1 % 8 == 0 && objValid o && c.2.1 + 8 ≤ objSize o

/-- The checks of a playbill reference, then of its TICKETS (reasons 0x0B and 0x04). -/
def launchHead (s : State) (fn ref : Nat) : State × Head :=
  let oid := field ref 63 40
  let off := field ref 39 0
  let o := getObject s fn oid
  if off % 64 ≠ 0 ∨ objClass o ≠ 2 then (s, .refuse 0x0B 1)
  else match frontRead s fn oid off 512 with
    | .outside => (s, .refuse 0x0B 1)
    | .poisoned s1 => (s1, .refuse 0x0B 1)
    | .waits s1 => (s1, .waits)
    | .ok s1 bs =>
      let t := recNat bs 0x28 2
      if t = 0 then (s1, .refuseBill 0x04 bs) else (s1, .launch (BitVec.ofNat 64 ref) t)

/-- Read and check the packet at the head of a queue, once all its units are pending (R256, R260). -/
def headOf (s : State) (q : Queue) : State × Head :=
  let head := q.head.toNat
  if pendingUnits q = 0 then (s, .none)
  else match readUnits q 1 head s with
    | (s1, some (some [bs])) =>
      let x := ofBytes bs
      let type := field x 7 0
      let n := field x 19 16
      let units := field x 15 8
      if !unitSound x then (s1, .refuse 0x0C (if unitsLegal type n units then units else 1))
      else if pendingUnits q < units then (s1, .waits)
      else match readUnits q (units - 1) (head + 1) s1 with
        | (s2, some (some more)) =>
          let cs := more.map counterOf
          if type = 0 then (s2, .nop units)
          else if type = 1 then launchHead s2 (queueFn q) (field x 127 64)
          else if cs.all (counterSound s2 (queueFn q)) then (s2, .waitset units cs)
          else (s2, .refuse 0x0C units)
        | (s2, some none) => (s2, .refuse 0x0E units)
        | (s2, none) => (s2, .waits)
    | (s1, some _) => (s1, .refuse 0x0E 1)
    | (s1, none) => (s1, .waits)

/-- PACKET_AT_HEAD (R256, R260): a NOP is consumed, a LAUNCH that passes stands ready for the draws, a packet that fails is
refused. -/
def execPacketAtHead (die queue : Nat) (s : State) : Out :=
  let q := getQueue s die queue
  if !queueRuns s q || q.ready.isSome then .next s
  else
    let r := headOf s q
    .next (match r.2 with
      | .none => r.1
      | .waits => r.1
      | .waitset _ _ => r.1
      | .nop n => setQueue r.1 die queue { q with head := q.head + BitVec.ofNat 32 n }
      | .launch ref t => setQueue r.1 die queue { q with ready := some (ref, t) }
      | .refuse code skip => refuseQueue r.1 die queue code (some skip)
      | .refuseBill code bs =>
        match refuseEarly r.1 (queueFn q) code (parseBill bs) with
        | .refuse s1 _ es =>
          let w := refusalRecord s1 die (queueFn q) q.ctx.toNat code (parseBill bs) es
          if w.2 then refuseQueue w.1 die queue code (some 1) else w.1
        | .waits s1 => s1
        | .ok s1 _ => s1)

/-- Has a home read of every counter returned at least its value? -/
def countersReached (fn : Nat) : List (Nat × Nat × Nat) → State → State × Bool
  | [], s => (s, true)
  | c :: rest, s =>
    match frontRead s fn c.1 c.2.1 8 with
    | .ok s1 bs => if ofBytes bs ≥ c.2.2 then countersReached fn rest s1 else (s1, false)
    | .poisoned s1 => (s1, false)
    | .waits s1 => (s1, false)
    | .outside => (s, false)

/-- WAITSET_CONSUME (R260). -/
def execWaitsetConsume (die queue : Nat) (s : State) : Out :=
  let q := getQueue s die queue
  if !queueRuns s q || q.ready.isSome then .next s
  else
    let r := headOf s q
    match r.2 with
    | .waitset n cs =>
      let c := countersReached (queueFn q) cs r.1
      .next (if c.2 then setQueue c.1 die queue { q with head := q.head + BitVec.ofNat 32 n } else c.1)
    | .none => .next s
    | .waits => .next s
    | .nop _ => .next s
    | .launch _ _ => .next s
    | .refuse _ _ => .next s
    | .refuseBill _ _ => .next s

/-- A doorbell rings (R259): the value becomes TAIL, or halts the queue. -/
def ringDoorbell (s : State) (die queue : Nat) (value : Word) : State :=
  let q := getQueue s die queue
  if q.src then s
  else if (value - q.head).toNat ≤ ringUnits q then setQueue s die queue { q with tail := value }
  else refuseQueue s die queue 0x0D (if q.halt then q.skip else none)

/-- QUEUE_DOORBELL (R259): it covers every earlier write of the host, and so waits behind those that wait for their pages. -/
def execQueueDoorbell (die queue : Nat) (value : Word) (s : State) : Out :=
  .next (if s.hostWaiting.isEmpty then ringDoorbell s die queue value
    else { s with hostWaiting := s.hostWaiting ++ [.door die queue value] })

/-- QUEUE_HALT_CLEAR (R257): HEAD moves past a refused packet. -/
def execQueueHaltClear (die queue : Nat) (s : State) : Out :=
  let q := getQueue s die queue
  if q.halt then
    .next (setQueue s die queue { q with halt := false, head := q.head + BitVec.ofNat 32 (q.skip.getD 0), skip := none })
  else .next s

/-- QUEUE_ENABLE (R258): values 12 to 15 of LSIZE keep EN at 0. -/
def execQueueEnable (die queue : Nat) (s : State) : Out :=
  let q := getQueue s die queue
  .next (setQueue s die queue
    { q with en := decide (q.lsize.toNat < 12), head := 0, tail := 0, halt := false, rcode := 0, ready := none, skip := none })

/-! ### Turns of contexts and functions (R268) -/

/-- Does a core of the cluster hold a launch? -/
def clusterHeld (s : State) (cluster : Nat) : Bool :=
  (List.range 4).any fun j => (getCore s (4 * cluster + j)).launch.isSome

/-- Is a launch still to be placed: fresh casts, saved ones, or saved cores? -/
def toPlace (l : Launch) : Bool := !l.ended && (l.next < l.bill.casts || !l.waiting.isEmpty || !l.saved.isEmpty)

/-- Does a saved context wait for its turn on a cluster: one that its casts stood on or, where the partition holds none of those, any
of the partition? -/
def waitsFor (s : State) (cluster ctx : Nat) : Bool :=
  let c := getContext s ctx
  let here (n : Nat) : Bool := (partitionOn s c.fn (dieOfCluster n)).contains n
  c.run == .parked && ((c.homes.any fun k => clusterOfCore k == cluster)
    || (here cluster && !c.homes.any fun k => here (clusterOfCore k)))

/-- Has a context work for a cluster: a launch to place on its die, casts on it, or saved casts that wait for their turn on it? -/
def contextWork (s : State) (cluster ctx : Nat) : Bool :=
  let c := getContext s ctx
  ((partitionOn s c.fn (dieOfCluster cluster)).contains cluster && c.run == .running
      && s.launches.any fun e => e.2.ctx == ctx && e.2.die == dieOfCluster cluster && toPlace e.2)
    || (List.range 4).any (fun j => (getCore s (4 * cluster + j)).launch.isSome && coreCtx s (4 * cluster + j) == ctx)
    || waitsFor s cluster ctx

/-- The contexts of a function, ascending. -/
def contextsOf (s : State) (fn : Nat) : List Nat := (s.contexts.filter fun e => e.2.fn == fn).map Prod.fst

/-- Has a function work for a cluster? -/
def functionWork (s : State) (cluster fn : Nat) : Bool := (contextsOf s fn).any (contextWork s cluster)

/-- The functions after one, in ascending order, coming round to itself. -/
def functionsAfter (fn : Nat) : List Nat := (List.range 17).map fun i => (fn + 1 + i) % 17

/-- The quantum of a function in clk. -/
def quantum (s : State) (fn : Nat) : Int := (getFunc s fn).weight * 65536

/-- Deficits with those of functions that have no work for the cluster at 0 where they were above it. -/
def idleDeficits (s : State) (cluster : Nat) (d : Store Int) : Store Int :=
  (List.range 17).foldl (fun d fn => if functionWork s cluster fn then d else sset 0 fn (min (sget 0 fn d) 0) d) d

/-- The next function of a list with work whose deficit, with its quantum added, is above 0; each one passed keeps its quantum. -/
def nextFunction (s : State) (cluster : Nat) : Nat → List Nat → Store Int → Option (Nat × Store Int)
  | 0, _, _ => none
  | _ + 1, [], _ => none
  | n + 1, fn :: rest, d =>
    if !functionWork s cluster fn then nextFunction s cluster n (rest ++ [fn]) d
    else
      let d1 := sset 0 fn (sget 0 fn d + quantum s fn) d
      if sget 0 fn d1 > 0 then some (fn, d1) else nextFunction s cluster n (rest ++ [fn]) d1

/-- Functions that a round robin passes at most before one has a deficit above 0. -/
def roundsOf (d : Store Int) : Nat := 17 * (2 + (d.map fun e => (-e.2).toNat / 65536).foldl max 0)

/-- The next context of a function with work, in ascending ID after its last, coming round. -/
def nextContext (s : State) (cluster fn : Nat) : Option Nat :=
  let l := (contextsOf s fn).filter (contextWork s cluster)
  match sfind fn (getCluster s cluster).lastCtx with
  | none => l.head?
  | some after => match l.find? fun c => c > after with
    | some c => some c
    | none => l.head?

/-- The function and the context whose turn it is on a cluster that no launch holds, with the deficits as they then stand: the
function whose turn it was goes on while it has work and a deficit above 0 (DESIGN CHOICE, log 2). -/
def turnFor (s : State) (cluster : Nat) : Option (Nat × Nat × Store Int) :=
  let c := getCluster s cluster
  let d := idleDeficits s cluster c.deficit
  let stays := match c.turnFn with
    | some fn => if functionWork s cluster fn && sget 0 fn d > 0 then some (fn, d) else none
    | none => none
  match (match stays with
    | some x => some x
    | none => nextFunction s cluster (roundsOf d) (functionsAfter (c.turnFn.getD 16)) d) with
  | none => none
  | some (fn, d1) =>
    let same := match c.turnCtx with
      | some x => stays.isSome && contextWork s cluster x && (getContext s x).fn == fn
      | none => false
    match if same then c.turnCtx else nextContext s cluster fn with
    | none => none
    | some ctx => some (fn, ctx, d1)

/-- The turn of a cluster is a context's. -/
def setTurn (fn ctx : Nat) (d : Store Int) (c : Cluster) : Cluster :=
  { c with turnFn := some fn, turnCtx := some ctx, lastCtx := sput fn ctx c.lastCtx, deficit := d }

/-- The turn passes as `turnFor` says. -/
def giveTurn (s : State) (cluster : Nat) : State :=
  match turnFor s cluster with
  | none => s
  | some (fn, ctx, d) => modCluster s cluster (setTurn fn ctx d)

/-- A context takes a free cluster: in its own turn, or, where a cast of another of its clusters has its turn, with that one. -/
def claimTurn (s : State) (cluster ctx : Nat) : State :=
  match turnFor s cluster with
  | some (fn, c, d) => modCluster s cluster (if c = ctx then setTurn fn ctx d else fun x => setTurn (getContext s ctx).fn ctx x.deficit x)
  | none => modCluster s cluster fun x => setTurn (getContext s ctx).fn ctx x.deficit x

/-- Is it a context's turn on a cluster: it holds the cluster, or the turn of the free cluster is its own, or no context has work for
that cluster (DESIGN CHOICE, log 2)? -/
def turnOf (s : State) (cluster ctx : Nat) : Bool :=
  if clusterHeld s cluster then (getCluster s cluster).ctx == some ctx
  else match turnFor s cluster with
    | some x => x.2.1 == ctx
    | none => true

/-! ### Draws (R261) -/

/-- The eligible queues of a context on a die, ascending, with their tickets: those bound to the context, by its function (DESIGN
CHOICE, log 83). -/
def eligibleQueues (s : State) (die ctx : Nat) : List (Nat × Nat) :=
  (List.range 64).filterMap fun n =>
    let q := getQueue s die n
    if queueRuns s q && q.ctx.toNat == ctx && queueFn q == (getContext s ctx).fn then q.ready.map fun r => (n, r.2) else none

/-- The queue at which the running sum of tickets first exceeds `u`. -/
def winnerOf (u : Nat) : List (Nat × Nat) → Option Nat
  | [] => none
  | (n, t) :: rest => if u < t then some n else winnerOf (u - t) rest

/-- An ensemble of a launch as it starts (R193, R198). -/
def newEnsemble (w : Nat) (e : EnsEntry) : Ensemble :=
  let n := e.casts.length * w
  { reports := e.reports, cluster := e.cluster, recOff := e.recOff, casts := e.casts, expected := n, next := n, live := n }

/-- The ensembles of a launch and the entry of the whole kernel. -/
def newEnsembles (b : Playbill) (es : List EnsEntry) : Store Ensemble :=
  sput kernelScope { reports := b.doneCap != 0, live := b.casts * b.width }
    (es.foldl (fun m e => sput e.index (newEnsemble b.width e) m) [])

/-- A draw as a recording context logs it: the playbill in 64 entries, then the lottery state (R396; DESIGN CHOICE, log 35). -/
def recordDraw (s : State) (ctx : Nat) (bs : List Byte) (lot : Nat) : State :=
  let s1 := (List.range 64).foldl (fun s j => appendLog s ctx (logEntry 0xFFFFFFFE j (recNat bs (8 * j) 8))) s
  appendLog s1 ctx (logEntry 0xFFFFFFFE 64 lot)

/-- A drawn launch that has passed its checks: its number, its record; its packet is consumed. -/
def startLaunch (s : State) (die queue ctx : Nat) (bs : List Byte) (es : List EnsEntry) : State :=
  let c := getContext s ctx
  let b := parseBill bs
  let number := c.launches % 65536
  let s1 := setContext s ctx { c with launches := (number + 1) % 65536 }
  let q := getQueue s1 die queue
  let s2 := setQueue s1 die queue { q with head := q.head + 1, ready := none }
  setLaunch s2 (launchKey ctx number) { ctx, number, die, queue, bill := b, ensembles := newEnsembles b es }

/-- LAUNCH_DRAW (R256, R257, R261). -/
def execLaunchDraw (die ctx : Nat) (s : State) : Out :=
  let c := getContext s ctx
  let clusters := partitionOn s c.fn die
  let placing := s.launches.any fun e => e.2.ctx == ctx && e.2.die == die && toPlace e.2
  if (sfind ctx s.contexts).isNone || c.run ≠ .running || placing
      || !(clusters.isEmpty || clusters.any fun n => turnOf s n ctx) then .next s
  else
    let qs := eligibleQueues s die ctx
    let p := diePart s die ctx
    let lot := xorshift64 p.lot.toNat
    match winnerOf (lot % (qs.map Prod.snd).foldl (· + ·) 0) qs with
    | none => .next s
    | some n =>
      let drawn (s : State) : State := setDiePart s die ctx { diePart s die ctx with lot := BitVec.ofNat 64 lot }
      let ref := (((getQueue s die n).ready).getD (0, 0)).1.toNat
      match frontRead s c.fn (field ref 63 40) (field ref 39 0) 512 with
      | .waits s1 => .next s1
      | .outside => .next (refuseQueue (drawn s) die n 0x0B (some 1))
      | .poisoned s1 => .next (refuseQueue (drawn s1) die n 0x0B (some 1))
      | .ok s1 bs =>
        match checkBill s1 c.fn die ctx bs with
        | .waits s2 => .next s2
        | .refuse s2 code es =>
          let w := refusalRecord s2 die c.fn ctx code (parseBill bs) es
          .next (if w.2 then refuseQueue (drawn w.1) die n code (some 1) else w.1)
        | .ok s2 es => .next (startLaunch (recordDraw (drawn s2) ctx bs p.lot.toNat) die n ctx bs es)

/-! ### LAUNCH (R265) -/

/-- The packet of a playbill. -/
def launchPacket (oid off : Nat) : List Byte := toBytes 16 (1 + 1 <<< 8 + oidOff oid off <<< 64)

/-- Does the front end put no packet into a queue: it is full, or the log says that it was? -/
def launchTurnedAway (q : Queue) (logged : Option Nat) : Bool := pendingUnits q == ringUnits q || logged == some 0

/-- The front end's step of a LAUNCH: the flag, and the packet at TAIL. -/
def enqueueLaunch (s : State) (die queue ctx oid off : Nat) (logged : Option Nat) : State × Nat :=
  let q := getQueue s die queue
  if launchTurnedAway q logged then (s, logged.getD 0)
  else
    let u := unitAt q q.tail.toNat
    let s1 := writeObject s { fn := queueFn q, ctx, core := none } u.1 u.2 (launchPacket oid off)
    (setQueue s1 die queue { q with tail := q.tail + 1 }, logged.getD 1)

/-- Is the unit at TAIL within a bound ring object while its page is not valid? LAUNCH then waits for the page; it never waits on a
full queue (R265). -/
def unitMissing (s : State) (q : Queue) : Bool :=
  let u := unitAt q q.tail.toNat
  let o := getObject s (queueFn q) u.1
  objValid o && u.2 + 16 ≤ objSize o && !rangeMapped s (outerPort (queueFn q)) u.1 u.2 16

/-- The checks of LAUNCH on its playbill reference. -/
def launchAccess (s : State) (fr : Frame) (c : Cap) (off : Int) : Acc Unit :=
  let fn := coreFn s fr.core
  let v := viaOf fr .a 1
  let e := effective c off
  if off % 64 ≠ 0 then .fault (memFault v 0x02 c e)
  else match accessOne s fr.core fn (coreCtx s fr.core) v c off 512 [0] (cueDenied s fr.core) with
    | .fault f => .fault f
    | .page s1 k => .page s1 k
    | .stop f => .stop f
    | .ok s1 _ =>
      match firstMissing s1 (corePort s fr.core) (capOid c) (pageSamples e.toNat 512) with
      | some (x, p) => missingPage s1 fn (coreCtx s fr.core) v c e (cueDenied s fr.core) x p
      | none => if objClass (getObject s1 fn (capOid c)) ≠ 2 then .fault (memFault v 0x04 c e) else .ok s1 ()

def cueLaunch : CueBody := fun fr _ b _ s =>
  let c := cueCap s fr.core fr.op.a.toNat
  let off := cueOff fr b
  let e := effective c off
  let die := dieOfCore fr.core
  let ctx := coreCtx s fr.core
  let queue := fr.op.mod.toNat % 64
  let who := Agent.cue fr.core
  match launchAccess s fr c off with
  | .fault f => .fault f
  | .page s1 k => .page s1 k
  | .stop f => .stop f
  | .ok s1 _ =>
    let q := getQueue s1 die queue
    if !q.en || !q.src || q.ctx.toNat != ctx then .fault (memFault (viaOf fr .a 1) 0x03 c e)
    else
      cueRelease s1 fr.core 0 fun s2 =>
        let go (logged : Option Nat) : CueStep :=
          if !launchTurnedAway q logged && unitMissing s2 q then
            .hold (requestRange s2 { fn := queueFn q, ctx, core := none } (unitAt q 0).1 (unitAt q q.tail.toNat).2 16)
          else
            let r := enqueueLaunch s2 die queue ctx (capOid c) e.toNat logged
            .done (noteReturn r.1 who r.2) (some (BitVec.ofNat 64 r.2)) none
        match nextValue s2 who 8 with
        | .ended => .hold (haltDivergence s2 who)
        | .value x => go (some x)
        | .live => go none

/-- LAUNCH (R265). -/
def execLaunch (op : Op) (s : State) : Out := execCueBuffered .launch cueLaunch op s

end Sys2Proof.Machine
end

