-- ==== Sys2Proof/Machine/Image.lean ====
section
/-! DEFINITION. The context image: what it holds, its bytes section by section, and the items that bytes stand for (R6, R29 to
R31, R148, R190, R229 to R231, R264, R289, R290, R293, R298, R320, R323, R330, R371; DESIGN CHOICE, log 19, log 76). -/

namespace Sys2Proof.Machine

/-! ### What an image holds (R29, R231) -/

/-- A cast: its core, its launch number, index, residence (1 active, 2 pending) and rank; its decision-queue pointer counts from
the front of the queue. -/
structure SavedCast where
  core : Nat
  number : Nat
  index : Nat
  residence : Nat
  rank : Nat
  cast : Cast
  deriving DecidableEq, Repr

/-- The playbill that a die is placing: launch number, queue, next cast index (R264). -/
structure Placing where
  number : Nat
  queue : Nat
  next : Nat
  bill : Playbill
  deriving DecidableEq, Repr

/-- A core. Positions of the decision queue count from its front; `range` and `group` of a replay entry are places in the
scoreboard and in the list of replay entries. -/
structure SavedCore where
  core : Nat
  number : Nat
  queue : Nat
  bill : Playbill
  cuePc : Option Word := none
  c : Store DWord := []
  dq : List DqEntry := []
  tail : Nat := 0
  saved : Nat := 0
  ranges : List (Nat × Nat) := []
  placing : Option Placing := none
  /-- HEADs by queue number, where the record carries its die's cursors (R264). -/
  heads : Store Word := []
  /-- The context's next launch number. -/
  launches : Nat := 0
  replay : List Xfer := []
  /-- The transfer buffer, held by the replay entry of this place, and whether it has met poison (R298). -/
  pbk : Option PbkBuffer := none
  pbkPoison : Bool := false
  spad : Store Byte := []
  spadPoison : NSet := []
  /-- The record of a launch that no core holds: one that is drawn and not placed yet, or whose last transfers or completion record are
  awaited. It stands for no core (R6, R29, R264; DESIGN CHOICE, log 19). -/
  bare : Bool := false
  deriving DecidableEq, Repr

/-- A cluster. -/
structure SavedCluster where
  cluster : Nat
  z : Store Word := []
  zPoison : NSet := []
  sources : List WeightSource := []
  deriving DecidableEq, Repr

/-- An image: casts, cores and clusters in ascending order, the ensemble entries by launch number. -/
structure Image where
  casts : List SavedCast := []
  cores : List SavedCore := []
  clusters : List SavedCluster := []
  launches : Store (Store Ensemble) := []
  deriving DecidableEq, Repr

/-- The saved core of a number. -/
def Image.core? (img : Image) (core : Nat) : Option SavedCore := img.cores.find? fun x => x.core == core && !x.bare

/-- Bytes of a saved core's scratchpad. -/
def SavedCore.spadBytes (x : SavedCore) : Nat := if x.bare then 0 else spadSize x.bill

/-- Bytes of register file that a cast occupies (R15). -/
def castSize (b : Playbill) : Nat := b.width * (4 * b.vregs + 64) + 384

/-! ### Bytes of the items -/

/-- Words, capabilities and double words of a register space, in ascending order. -/
def wordsBytes (n : Nat) (m : Store Word) : List Byte := (List.range n).flatMap fun i => toBytes 4 (sget 0 i m).toNat
def dwordsBytes (n : Nat) (m : Store DWord) : List Byte := (List.range n).flatMap fun i => toBytes 8 (sget 0 i m).toNat
def capsBytes (n : Nat) (m : Store Cap) : List Byte := (List.range n).flatMap fun i => toBytes 16 (sget 0 i m).toNat

/-- The registers that bytes stand for. -/
def wordsOf (n : Nat) (bs : List Byte) : Store Word :=
  (List.range n).foldl (fun m i => sset 0 i (BitVec.ofNat 32 (recNat bs (4 * i) 4)) m) []
def dwordsOf (n : Nat) (bs : List Byte) : Store DWord :=
  (List.range n).foldl (fun m i => sset 0 i (BitVec.ofNat 64 (recNat bs (8 * i) 8)) m) []
def capsOf (n : Nat) (bs : List Byte) : Store Cap :=
  (List.range n).foldl (fun m i => sset 0 i (BitVec.ofNat 128 (recNat bs (16 * i) 16)) m) []

/-- A return stack, newest entry first, in 64 bytes. -/
def stackBytes (l : List Word) : List Byte := (List.range 16).flatMap fun i => toBytes 4 (l.getD i 0).toNat
def stackOf (depth : Nat) (bs : List Byte) : List Word := (List.range depth).map fun i => BitVec.ofNat 32 (recNat bs (4 * i) 4)

/-- The register file of a cast: k0–k31, a0–a15, then the vector registers and the return stack of each lane (R15). -/
def registerBytes (b : Playbill) (c : Cast) : List Byte :=
  wordsBytes 32 c.k ++ capsBytes 16 c.a
    ++ (List.range b.width).flatMap fun l =>
      let t := c.threads.getD l { live := false }
      wordsBytes b.vregs t.v ++ stackBytes t.stack

/-- A thread record (R29, R231). -/
def threadBytes (t : Thread) : List Byte :=
  let w := (List.range 8).foldr (fun i x => sget 0 i t.w % 256 + x <<< 8) 0
  toBytes 20 (t.scene.entry.toNat + t.p.toNat <<< 32 + (t.tstat.toNat % 8) <<< 39 + t.stack.length <<< 42 + b2n t.live <<< 47
    + w <<< 48 + t.srstate.toNat <<< 112 + b2n t.inh <<< 144 + b2n t.exh <<< 145 + field t.frec.toNat 11 0 <<< 146)

/-- A thread from its record, its vector registers and its stack, live or exited: it stands at its scene's entry. A thread in its
handler reads SPC from the top of its return stack (R31, R232; DESIGN CHOICE, log 77). -/
def threadOf (b : Playbill) (x : Nat) (regs : List Byte) : Thread :=
  let entry := BitVec.ofNat 32 x
  let stack := stackOf (field x 46 42) (regs.drop (4 * b.vregs))
  let inh := x.testBit 144
  let spc := if inh then (stack.headD 0).toNat else 0
  openImplicit b
    { pc := entry, v := wordsOf b.vregs regs, p := BitVec.ofNat 7 (field x 38 32), stack, tstat := BitVec.ofNat 32 (field x 41 39)
      w := (List.range 8).foldl (fun m i => sset 0 i (field x (48 + 8 * i + 7) (48 + 8 * i)) m) []
      srstate := BitVec.ofNat 32 (field x 143 112), inh, exh := x.testBit 145, live := x.testBit 47
      frec := BitVec.ofNat 128 (field x 157 146 + spc <<< 64) } entry

/-- A cast record (R29, R231, R290). -/
def castBytes (x : SavedCast) : List Byte :=
  let e := (List.range 4).foldr (fun i y => (x.cast.ens.getD i 0).toNat + y <<< 9) 0
  toBytes 16 (e + (x.cast.dqPtr % 512) <<< 36 + (x.cast.part % 4) <<< 45 + (x.residence % 4) <<< 47 + (x.rank % 128) <<< 49
    + (x.index % 2 ^ 32) <<< 56 + (x.number % 65536) <<< 88 + (x.core % 256) <<< 104)

/-- A cast from its record and its threads' bytes. -/
def savedCastOf (b : Playbill) (x : Nat) (regs threads : List Byte) : SavedCast :=
  let size := 4 * b.vregs + 64
  { core := field x 111 104, number := field x 103 88, index := field x 87 56, residence := field x 48 47, rank := field x 55 49
    cast :=
      { part := field x 46 45, k := wordsOf 32 regs, a := capsOf 16 (regs.drop 128), dqPtr := field x 44 36
        ens := (List.range 4).map fun i => BitVec.ofNat 9 (field x (9 * i + 8) (9 * i))
        threads := (List.range b.width).map fun l =>
          threadOf b (recNat threads (20 * l) 20) ((regs.drop (384 + size * l)).take size) } }

/-- The 512 bytes of a playbill (R253). -/
def billBytes (b : Playbill) : List Byte :=
  toBytes 4 b.ver.toNat ++ toBytes 4 b.cuePc.toNat ++ toBytes 4 b.lanePc.toNat ++ toBytes 4 b.trapPc.toNat
    ++ toBytes 16 b.code.toNat ++ toBytes 4 b.casts ++ toBytes 1 b.width ++ toBytes 1 b.vregs ++ toBytes 1 b.scratch
    ++ toBytes 1 b.kclass ++ toBytes 2 b.tickets ++ toBytes 2 b.ctxid ++ toBytes 4 0 ++ toBytes 16 b.ensCap.toNat
    ++ toBytes 16 b.doneCap.toNat ++ (List.range 8).flatMap (fun i => toBytes 8 (b.slots.getD i 0).toNat) ++ toBytes 112 0
    ++ (List.range 16).flatMap fun i => toBytes 16 (b.args.getD i 0).toNat

/-- An entry of the decision queue in 20 bytes: value, base and mask of its targets, and how many WAITs hold it. -/
def dqBytes (e : DqEntry) : List Byte :=
  let base := e.targets.headD 0
  toBytes 8 e.value.toNat ++ toBytes 4 base ++ toBytes 4 (e.targets.foldl (fun m t => m + 2 ^ (t - base)) 0)
    ++ toBytes 1 e.holds.length ++ toBytes 3 0

/-- An entry at position `pos` from its bytes. -/
def dqOf (pos : Nat) (bs : List Byte) : DqEntry :=
  { pos, value := BitVec.ofNat 64 (recNat bs 0 8), pushed := 0
    targets := ((List.range 32).filter fun j => (recNat bs 12 4).testBit j).map fun j => recNat bs 8 4 + j
    holds := (List.range (recNat bs 16 1)).map savedHold }

/-- A list padded or cut to a length of `n` bytes. -/
def padTo (n : Nat) (bs : List Byte) : List Byte := (bs ++ List.replicate n 0).take n

/-- What a core's record keeps of a replay entry beside R229, in 44 bits: its place in the range scoreboard, its group, its operation if
it is of KIND 0x04 (0 an atomic, 1 a QDEQ, 2 + D a QENQ whose flag goes to register D), its capability register and the number of its
launch (DESIGN CHOICE, log 76). -/
def entryNote (x : Xfer) : Nat :=
  let op := match x.kind with
    | .qdeq => 1
    | .qenq => 2 + x.dreg
    | _ => 0
  x.range.getD 31 % 32 + (x.group % 64) <<< 5 + (op % 256) <<< 11 + (x.reg % 64) <<< 19 + (x.launch.getD 0 % 65536) <<< 25

/-- Numbers of `w` bits, the first the lowest. -/
def packBits (w : Nat) (l : List Nat) : Nat := l.foldr (fun x acc => x % 2 ^ w + acc <<< w) 0

/-- A core record of 8 KiB (R29, R231, R264). -/
def coreBytes (x : SavedCore) : List Byte :=
  let p := x.placing
  let flags := b2n x.cuePc.isSome + 2 * b2n p.isSome + 4 * b2n x.pbk.isSome + 8 * b2n x.pbkPoison + 16 * b2n x.bare
  toBytes 2 x.core ++ toBytes 2 x.number ++ toBytes 4 flags ++ toBytes 4 ((x.cuePc.getD 0).toNat)
    ++ toBytes 4 ((p.map Placing.next).getD 0) ++ toBytes 2 ((p.map Placing.number).getD 0) ++ toBytes 1 x.queue
    ++ toBytes 1 ((p.map Placing.queue).getD 0) ++ toBytes 2 x.tail ++ toBytes 2 x.saved ++ toBytes 2 x.dq.length
    ++ toBytes 2 x.ranges.length ++ toBytes 2 x.replay.length ++ toBytes 2 x.launches
    ++ toBytes 8 (x.heads.foldl (fun m e => m + 2 ^ e.1) 0) ++ toBytes 1 ((x.pbk.map PbkBuffer.holder).getD 0)
    ++ toBytes 2 ((x.dq.head?.map DqEntry.pos).getD 0) ++ toBytes 21 0
    ++ dwordsBytes 64 x.c ++ billBytes x.bill ++ billBytes ((p.map Placing.bill).getD {})
    ++ bytesAt 0 768 ((x.pbk.map PbkBuffer.bytes).getD []) ++ wordsBytes 64 x.heads
    ++ padTo 96 (x.ranges.flatMap fun r => toBytes 3 r.1 ++ toBytes 3 r.2) ++ padTo 5120 (x.dq.flatMap dqBytes)
    ++ toBytes 352 (packBits 44 (x.replay.map entryNote))

/-- A capability that reaches every byte of an object: an image names objects and offsets only (R31). -/
def wholeCap (s : State) (fn oid : Nat) : Cap :=
  mkCap 0 (2 ^ 40 - 1) oid 0 (if objClass (getObject s fn oid) = 3 then 3 else 0)

/-! ### Replay entries (R229, R230, R320, R330, R371) -/

/-- KIND of a transfer; 0x00 for one that has none. -/
def kindCode (k : XferKind) : Nat :=
  match k with
  | .copyIn => 0x01
  | .copyOut => 0x02
  | .copyx => 0x03
  | .atom => 0x04
  | .qenq => 0x04
  | .qdeq => 0x04
  | .zld => 0x05
  | .zst => 0x06
  | .qcast => 0x07
  | .step => 0x08
  | .fade => 0x09
  | .gather => 0x0A
  | .pbksave => 0x0B
  | .pbkload => 0x0C
  | .wload => 0x00

/-- {OID, offset} of a side of a remainder whose first byte lies `at'` bytes into it: OID 0xFFFFFF for the scratchpad. -/
def sideWord (side : Side) (at' : Nat) : Nat :=
  match side with
  | .mem c o => oidOff (capOid c) (o + at')
  | .zeros c o => oidOff (capOid c) (o + at')
  | .spad o => oidOff 0xFFFFFF (o + at')
  | _ => oidOff 0xFFFFFF 0

/-- How far a remainder's first byte lies into a transfer. -/
def remainderAt (x : Xfer) : Nat := if x.descending then 0 else x.done

/-- Bits [191:0] of an entry, with DREG above them. -/
def entryBody (x : Xfer) : Nat :=
  let at' := remainderAt x
  let row := if x.rowBytes = 0 then 0 else x.done / x.rowBytes
  let three (a b len low : Nat) : Nat := a <<< 128 + b <<< 64 + (len % 2 ^ 32) <<< 32 + low
  match x.kind with
  | .atom | .qenq | .qdeq =>
    three (sideWord x.src 0) x.operand.toNat x.compare.toNat ((x.scope % 8) <<< 5)
      + (if x.kind = .qenq then 0 else x.dreg % 256) <<< 192
  | .zld | .zst =>
    let lanes := x.lanes.foldl (fun m l => m + 2 ^ l) 0
    match x.src, x.dst with
    | .mem c o, .tile t => three (oidOff (capOid c) (o + at')) lanes x.len ((t + at') <<< 13)
    | .tile t, .mem c o => three (oidOff (capOid c) (o + at')) lanes x.len ((t + at') <<< 13)
    | _, _ => 0
  | .step | .fade => three (sideWord x.src 0) x.tile x.len 0
  | .gather =>
    let zeros := match x.src with
      | .zeros _ _ => true
      | _ => false
    three (sideWord x.src (row * x.rowBytes)) (sideWord x.dst (row * x.pitch)) ((x.rowBytes / 4) <<< 24 + (x.rows - row)) 0
      + b2n zeros <<< 192
  | .pbksave => three 0 (sideWord x.dst at') x.len 0
  | .pbkload => three (sideWord x.src at') 0 x.len 0
  | .copyIn | .copyOut | .copyx | .qcast => three (sideWord x.src at') (sideWord x.dst at') x.len 0
  | .wload => 0

/-- The 32 bytes of a replay entry of a launch with this playbill. -/
def entryBytes (b : Playbill) (x : Xfer) : List Byte :=
  let thread := match x.agent with
    | .lane _ cast lane => if x.kind == .zld || x.kind == .zst then gidx b cast 0 else gidx b cast lane
    | .cue _ => 0xFFFFFFFF
  let cue := match x.agent with
    | .lane _ _ _ => false
    | .cue _ => true
  let mod := if x.kind == .zld || x.kind == .zst then 0 else x.mod
  toBytes 32 (kindCode x.kind <<< 248 + (x.ctr % 8) <<< 245 + b2n cue <<< 244 + (thread % 2 ^ 32) <<< 208 + (mod % 256) <<< 200
    + entryBody x)

/-- {OID, offset} of the first byte of a side of which {OID, offset} `x` names the byte `n` bytes further. -/
def wordBack (x n : Nat) : Nat := x / 2 ^ 40 * 2 ^ 40 + (x % 2 ^ 40 - n)

/-- The side that {OID, offset} names. -/
def sideOf (s : State) (fn x : Nat) : Side :=
  if x / 2 ^ 40 = 0xFFFFFF then .spad (x % 2 ^ 40) else .mem (wholeCap s fn (x / 2 ^ 40)) (x % 2 ^ 40)

/-- The kind of an entry, with the operation that the core's record notes for one of KIND 0x04. -/
def entryKind (code op : Nat) : Option XferKind :=
  match code with
  | 0x01 => some .copyIn
  | 0x02 => some .copyOut
  | 0x03 => some .copyx
  | 0x04 => some (if op = 0 then .atom else if op = 1 then .qdeq else .qenq)
  | 0x05 => some .zld
  | 0x06 => some .zst
  | 0x07 => some .qcast
  | 0x08 => some .step
  | 0x09 => some .fade
  | 0x0A => some .gather
  | 0x0B => some .pbksave
  | 0x0C => some .pbkload
  | _ => none

/-- The sides of a class-crossing copy: the destination's capability keeps how the LOWERs differ, on which tags depend, and the
order of the pieces follows from the overlap of what remains (R163). -/
def crossSides (s : State) (fn a b n : Nat) : Side × Side × Bool :=
  let e := a % 2 ^ 40
  let d := b % 2 ^ 40
  let dst := wholeCap s fn (b / 2 ^ 40)
  (sideOf s fn a, .mem (mkCap ((d + 16 - e % 16) % 16) (2 ^ 40 - 1) (b / 2 ^ 40) 0 (capLc dst)) d,
    a / 2 ^ 40 == b / 2 ^ 40 && overlaps d n e n && decide (d > e))

/-- The transfer that a replay entry with its note stands for, of a launch with this playbill; its PC is not kept, and counts as 0
(DESIGN CHOICE, log 19). -/
def entryOf (s : State) (fn core : Nat) (b : Playbill) (bs : List Byte) (note : Nat) : Option Xfer :=
  let x := ofBytes bs
  let op := field note 18 11
  let thread := field x 239 208
  let mod := field x 207 200
  let lane := thread % b.width
  let agent := if x.testBit 244 then Agent.cue core else .lane core (thread / b.width) lane
  let lanes := if x.testBit 244 then [] else [lane]
  let a := field x 191 128
  let d := field x 127 64
  let n := field x 63 32
  (entryKind (field x 255 248) op).map fun kind =>
    let y : Xfer :=
      { id := 0, kind, agent, lanes, ctr := field x 247 245, mod, src := .book, dst := .book, len := n, resumed := true
        range := if field note 4 0 = 31 then none else some (field note 4 0)
        group := field note 10 5, reg := field note 24 19, launch := some (field note 40 25) }
    match kind with
    | .atom | .qenq | .qdeq =>
      { y with
        lanes := [], src := sideOf s fn a, operand := BitVec.ofNat 64 d, compare := BitVec.ofNat 64 n, len := 0
        dreg := if kind = .qenq then op - 2 else field x 199 192, scope := field x 7 5 }
    | .zld => { y with lanes := (List.range 64).filter d.testBit, src := sideOf s fn a, dst := .tile (field x 31 13) }
    | .zst => { y with lanes := (List.range 64).filter d.testBit, src := .tile (field x 31 13), dst := sideOf s fn a }
    | .step => { y with lanes := [], src := sideOf s fn a, dst := sideOf s fn a, tile := d, started := n != 0 }
    | .fade => { y with lanes := [], src := sideOf s fn a, dst := sideOf s fn a, tile := d }
    | .gather =>
      let nlen := field n 31 24
      let rows := field n 23 0
      { y with
        src := if x.testBit 192 then .zeros (wholeCap s fn (a / 2 ^ 40)) (a % 2 ^ 40) else sideOf s fn a, dst := sideOf s fn d, rows, rowBytes := 4 * nlen
        pitch := 4 * (nlen + wrap (1 - (nlen : Int)) 5), len := 4 * nlen * rows }
    | .pbksave =>
      let done := partSize (mod.testBit 0) - n
      { y with dst := sideOf s fn (wordBack d done), done }
    | .pbkload =>
      let done := partSize (mod.testBit 0) - n
      { y with src := sideOf s fn (wordBack a done), done }
    | .copyx =>
      let z := crossSides s fn a d n
      { y with src := z.1, dst := z.2.1, descending := z.2.2 }
    | .qcast => { y with lanes := [], src := sideOf s fn a, dst := sideOf s fn d }
    | .copyIn | .copyOut => { y with src := sideOf s fn a, dst := sideOf s fn d }
    | .wload => y

/-- The playbill of a launch, by number, in a list of them. -/
def billOf (bills : List (Nat × Playbill)) (number : Nat) : Playbill :=
  ((bills.find? fun e => e.1 == number).map Prod.snd).getD {}

/-- The replay entries of a core from its part of the section, with what its record notes of each. -/
def entriesOf (s : State) (fn core : Nat) (bills : List (Nat × Playbill)) (record bs : List Byte) : List Xfer :=
  let notes := recNat record 7840 352
  (List.range (recNat record 28 2)).filterMap fun i =>
    let note := field notes (44 * i + 43) (44 * i)
    entryOf s fn core (billOf bills (field note 40 25)) ((bs.drop (32 * i)).take 32) note

/-! ### Clusters and launches -/

/-- An entry of the weight-source table (R323). -/
def sourceBytes (w : WeightSource) : List Byte :=
  toBytes 32 (oidOff (capOid w.cap) w.off <<< 192 + (w.granule % 2 ^ 15) <<< 177 + (w.count % 2 ^ 16) <<< 161 + 1)

/-- The sources of a cluster from its table. -/
def sourcesOf (s : State) (fn ctx : Nat) (bs : List Byte) : List WeightSource :=
  (List.range 64).filterMap fun i =>
    let x := recNat bs (32 * i) 32
    if x.testBit 0 then
      some { cap := wholeCap s fn (field x 255 232), off := field x 231 192, granule := field x 191 177, count := field x 176 161
             fn, ctx }
    else none

/-- An ensemble entry in 40 bytes (R29). -/
def ensembleBytes (e : Ensemble) : List Byte :=
  toBytes 4 e.phase ++ toBytes 4 e.expected ++ toBytes 4 e.arrived ++ toBytes 4 e.next ++ toBytes 4 e.nexit ++ toBytes 4 e.nnz
    ++ toBytes 4 e.thmin.toNat ++ toBytes 4 e.live ++ toBytes 2 e.stmin ++ toBytes 2 e.stor ++ toBytes 2 e.cueor
    ++ toBytes 1 (b2n e.written + 2 * b2n e.closer.isSome) ++ toBytes 1 (e.closer.getD 0)

/-- The counts of an ensemble entry. -/
def countsOf (bs : List Byte) : Ensemble :=
  { phase := recNat bs 0 4, expected := recNat bs 4 4, arrived := recNat bs 8 4, next := recNat bs 12 4, nexit := recNat bs 16 4
    nnz := recNat bs 20 4, thmin := BitVec.ofNat 32 (recNat bs 24 4), live := recNat bs 28 4, stmin := recNat bs 32 2
    stor := recNat bs 34 2, cueor := recNat bs 36 2, written := (recNat bs 38 1).testBit 0
    closer := if (recNat bs 38 1).testBit 1 then some (recNat bs 39 1) else none }

/-- The 257 entries of a launch. -/
def launchBytes (m : Store Ensemble) : List Byte := (List.range 257).flatMap fun i => ensembleBytes (sget {} i m)
def launchOf (bs : List Byte) : Store Ensemble :=
  (List.range 257).foldl (fun m i => sset {} i (countsOf ((bs.drop (40 * i)).take 40)) m) []

/-! ### The sections (R29, R231) -/

/-- The playbill of a saved core, and those of the launches by number. -/
def Image.bill (img : Image) (core : Nat) : Playbill := ((img.core? core).map SavedCore.bill).getD {}
def Image.bills (img : Image) : List (Nat × Playbill) := img.cores.map fun x => (x.number, x.bill)

/-- The sections before the book, in the order of R29. -/
def Image.sections (img : Image) : List (List Byte) :=
  [img.casts.flatMap fun x => registerBytes (img.bill x.core) x.cast,
    img.casts.flatMap fun x => (List.range (img.bill x.core).width).flatMap fun l =>
      threadBytes (x.cast.threads.getD l { live := false }),
    img.casts.flatMap castBytes,
    img.cores.flatMap coreBytes,
    img.cores.flatMap fun x => x.replay.flatMap fun y => entryBytes (billOf img.bills (y.launch.getD 0)) y,
    img.cores.flatMap fun x => bytesAt 0 x.spadBytes x.spad,
    img.clusters.flatMap fun x => wordsBytes 131072 x.z,
    img.clusters.flatMap fun x => padTo 2048 (x.sources.flatMap sourceBytes),
    img.launches.flatMap fun e => launchBytes e.2]

/-- The poisoned 64-byte units of the scratchpads' section and of the accumulators' (DESIGN CHOICE, log 19). -/
def spadMarks : Nat → List SavedCore → NSet
  | _, [] => []
  | at', x :: rest => x.spadPoison.map (fun g => at' + g) ++ spadMarks (at' + x.spadBytes / 64) rest
def tileMarks : Nat → List SavedCluster → NSet
  | _, [] => []
  | at', x :: rest => x.zPoison.flatMap (fun r => [at' + 2 * r, at' + 2 * r + 1]) ++ tileMarks (at' + 8192) rest

/-- Round up to a multiple of 4 KiB. -/
def toPage (n : Nat) : Nat := ceilDiv n 4096 * 4096

/-- The offsets at which sections of these lengths start, from an offset on. -/
def sectionStarts : Nat → List Nat → List Nat
  | _, [] => []
  | at', n :: rest => at' :: sectionStarts (at' + toPage n) rest

/-- Bytes of the book's section (R293). -/
def bookSize : Nat := 198656

/-- The lengths of the ten sections. -/
def Image.lengths (img : Image) : List Nat :=
  [(img.casts.map fun x => castSize (img.bill x.core)).sum, (img.casts.map fun x => 20 * (img.bill x.core).width).sum,
    16 * img.casts.length, 8192 * img.cores.length, (img.cores.map fun x => 32 * x.replay.length).sum,
    (img.cores.map SavedCore.spadBytes).sum, 524288 * img.clusters.length, 2048 * img.clusters.length,
    10280 * img.launches.length, bookSize]

/-- TOTAL of an image. -/
def Image.total (img : Image) : Nat := (img.lengths.map toPage).foldl (· + ·) 65536

/-- Object IDs that an image names: those of capabilities, transfers and weight sources, ascending (R29, R31). -/
def Image.objects (img : Image) : NSet :=
  let bills := img.cores.flatMap fun x => x.bill :: (x.placing.map Placing.bill).toList
  let caps := bills.flatMap (fun b => [b.code, b.ensCap, b.doneCap] ++ b.args) ++ img.casts.flatMap fun x => x.cast.a.map Prod.snd
  let side (y : Side) : List Nat := match y with
    | .mem c _ => [capOid c]
    | .zeros c _ => [capOid c]
    | _ => []
  let sides := img.cores.flatMap fun x => x.replay.flatMap fun y => side y.src ++ side y.dst
  let sources := img.clusters.flatMap fun x => x.sources.map fun w => capOid w.cap
  ((caps.filter fun c => c != 0).map capOid ++ sides ++ sources).foldr nins []

/-! ### The header (R17, R20, R231) -/

/-- CTXID of a context (R20). -/
def ctxidWord (ctx fn : Nat) : Nat := ctx % 4096 + (if fn = physFn then 2 ^ 16 else (fn % 16) <<< 12)

/-- The function that a CTXID names. -/
def ctxidFn (x : Nat) : Nat := if x.testBit 16 then physFn else field x 15 12

/-- The bytes of the header of a context's image. -/
def headerBytes (c : Context) (ctx : Nat) (img : Image) : List Byte :=
  let objs := img.objects
  toBytes 4 0x00010000 ++ toBytes 4 10 ++ toBytes 8 img.total ++ toBytes 4 c.mode.toNat ++ toBytes 4 (ctxidWord ctx c.fn)
    ++ toBytes 4 c.ebud.toNat ++ toBytes 4 0 ++ toBytes 8 c.stepbase.toNat
    ++ (List.zip (sectionStarts 65536 img.lengths) img.lengths).flatMap (fun e => toBytes 8 e.1 ++ toBytes 8 e.2)
    ++ toBytes 40 0 ++ toBytes 4 objs.length ++ toBytes 12 0 ++ objs.flatMap (toBytes 4)

/-- The entries of SECDIR: offset and length. -/
def secDir (bs : List Byte) : List (Nat × Nat) :=
  (List.range 10).map fun i => (recNat bs (0x28 + 16 * i) 8, recNat bs (0x30 + 16 * i) 8)

/-- OBJLIST with its upper bytes. -/
def objList (bs : List Byte) : List Nat := (List.range (recNat bs 0xF0 4)).map fun i => recNat bs (0x100 + 4 * i) 4

/-! ### The items that an image's bytes stand for -/

/-- The units of `n` bytes of a section. -/
def unitsOf (n : Nat) (bs : List Byte) : List (List Byte) := (List.range (bs.length / n)).map fun i => (bs.drop (n * i)).take n

/-- A core from its record, its replay entries and its scratchpad. -/
def savedCoreOf (s : State) (fn : Nat) (bills : List (Nat × Playbill)) (record entries spad : List Byte) (marks : NSet) : SavedCore :=
  let flags := recNat record 4 4
  let core := recNat record 0 2
  let bill := parseBill ((record.drop 576).take 512)
  let mask := recNat record 32 8
  { core, number := recNat record 2 2, queue := recNat record 18 1, bill
    cuePc := if flags.testBit 0 then some (BitVec.ofNat 32 (recNat record 8 4)) else none
    c := dwordsOf 64 (record.drop 64), tail := recNat record 20 2, saved := recNat record 22 2
    dq := (List.range (recNat record 24 2)).map fun i => dqOf (recNat record 41 2 + i) ((record.drop (2720 + 20 * i)).take 20)
    ranges := (List.range (recNat record 26 2)).map fun i => (recNat record (2624 + 6 * i) 3, recNat record (2627 + 6 * i) 3)
    placing := if flags.testBit 1 then
        some { number := recNat record 16 2, queue := recNat record 19 1, next := recNat record 12 4
               bill := parseBill ((record.drop 1088).take 512) }
      else none
    heads := ((List.range 64).filter mask.testBit).map fun n => (n, BitVec.ofNat 32 (recNat record (2368 + 4 * n) 4))
    launches := recNat record 30 2
    replay := entriesOf s fn core bills record entries
    pbk := if flags.testBit 2 then
        some { holder := recNat record 40 1, bytes := putBytes 0 ((record.drop 1600).take 768) [] }
      else none
    pbkPoison := flags.testBit 3, bare := flags.testBit 4, spad := putBytes 0 spad [], spadPoison := marks }

/-- The cores from their records; `entries` and `spads` are what is left of their sections, `at'` the unit at which the next
scratchpad stands. -/
def savedCoresOf (s : State) (fn : Nat) (bills : List (Nat × Playbill)) (marked : Nat → Bool) :
    List (List Byte) → List Byte → List Byte → Nat → List SavedCore
  | [], _, _, _ => []
  | r :: rest, entries, spads, at' =>
    let size := if (recNat r 4 4).testBit 4 then 0 else spadSize (parseBill ((r.drop 576).take 512))
    let n := 32 * recNat r 28 2
    savedCoreOf s fn bills r (entries.take n) (spads.take size) ((List.range (size / 64)).filter fun g => marked (at' + 64 * g))
      :: savedCoresOf s fn bills marked rest (entries.drop n) (spads.drop size) (at' + size)

/-- The casts from their records and what is left of the register file's and the threads' sections. -/
def savedCastsOf (cores : List SavedCore) : List (List Byte) → List Byte → List Byte → List SavedCast
  | [], _, _ => []
  | r :: rest, regs, threads =>
    let x := ofBytes r
    let b := ((cores.find? fun y => y.core == field x 111 104 && !y.bare).map SavedCore.bill).getD {}
    savedCastOf b x (regs.take (castSize b)) (threads.take (20 * b.width))
      :: savedCastsOf cores rest (regs.drop (castSize b)) (threads.drop (20 * b.width))

/-- The clusters that saved cores stand on, ascending. -/
def clustersIn (cores : List SavedCore) : List Nat :=
  cores.foldr (fun x l => if x.bare then l else nins (clusterOfCore x.core) l) []

/-- The launches that saved cores name, ascending. -/
def numbersIn (cores : List SavedCore) : List Nat :=
  (cores.flatMap fun x => x.number :: (x.placing.map Placing.number).toList).foldr nins []

/-- The image that bytes stand for; `marked` says which bytes are poisoned. -/
def decodeImage (s : State) (fn ctx : Nat) (bs : List Byte) (marked : Nat → Bool) : Image :=
  let dir := secDir bs
  let start (i : Nat) : Nat := (dir.getD i (0, 0)).1
  let sec (i : Nat) : List Byte := (bs.drop (start i)).take (dir.getD i (0, 0)).2
  let records := unitsOf 8192 (sec 3)
  let bills := records.map fun r => (recNat r 2 2, parseBill ((r.drop 576).take 512))
  let cores := savedCoresOf s fn bills marked records (sec 4) (sec 5) (start 5)
  let clusters := (enum 0 (clustersIn cores)).map fun e : Nat × Nat =>
    let at' := 524288 * e.1
    { cluster := e.2, z := wordsOf 131072 ((sec 6).drop at'), sources := sourcesOf s fn ctx (((sec 7).drop (2048 * e.1)).take 2048)
      zPoison := (List.range 4096).filter fun r => marked (start 6 + at' + 128 * r) || marked (start 6 + at' + 128 * r + 64) }
  { cores, clusters, casts := savedCastsOf cores (unitsOf 16 (sec 2)) (sec 0) (sec 1)
    launches := (enum 0 (numbersIn cores)).map fun e => (e.2, launchOf (((sec 8).drop (10280 * e.1)).take 10280)) }

/-! ### A context's image in memory -/

/-- The port, the object and the offset of a context's image (R301). -/
def imagePlace (s : State) (ctx : Nat) : Option (Port × Nat × Nat) :=
  (getContext s ctx).image.map fun i => ({ fn := i.1 / 2 ^ 24, ctx, core := none }, i.1 % 2 ^ 24, i.2)

/-- The bytes of a context's image, if it has one and every page of it is valid. -/
def imageRead (s : State) (ctx : Nat) : Option (List Byte) :=
  match imagePlace s ctx with
  | none => none
  | some (q, oid, off) =>
    match readObject s q oid off 16 with
    | none => none
    | some h => readObject s q oid off (recNat h 8 8)

/-- A context's image as its bytes give it now. -/
def imageOf (s : State) (ctx : Nat) : Option Image :=
  match imagePlace s ctx, imageRead s ctx with
  | some (q, oid, off), some bs =>
    some (decodeImage s (getContext s ctx).fn ctx bs fun i => objectPoisoned s q oid (off + i) 1)
  | _, _ => none

/-- Where the bank of a core stands in a context's image: port, object, offset. -/
def bankPlace (s : State) (ctx core : Nat) : Option (Port × Nat × Nat) :=
  match imagePlace s ctx with
  | none => none
  | some (q, oid, off) =>
    (readObject s q oid off 0x100).map fun h => (q, oid, off + ((secDir h).getD 9 (0, 0)).1 + 768 * core)

/-- Has a context no book: no image, or one whose section is too short (DESIGN CHOICE, log 19)? -/
def noBook (s : State) (ctx : Nat) : Bool :=
  match imagePlace s ctx with
  | none => true
  | some (q, oid, off) => match readObject s q oid off 0x100 with
    | some h => decide (((secDir h).getD 9 (0, 0)).2 < bookSize)
    | none => false

/-- The bank that a context has for a core which does not run it, with its reserved bits 0 (R293): cleared where the context has
no book. None where the image's page is missing. -/
def storedBank (s : State) (ctx core : Nat) : Option CoreBank :=
  if noBook s ctx then some {}
  else match bankPlace s ctx core with
    | none => none
    | some (q, oid, off) => (readObject s q oid off 768).map bankOfBytes

/-- The outgoing bank of a core is written into the book of its owner's image (R301). -/
def storeBank (s : State) (ctx core : Nat) (k : CoreBank) : State :=
  match if noBook s ctx then none else bankPlace s ctx core with
  | none => s
  | some (q, oid, off) => writeObject s q oid off (bankBytes k)

/-- Can the outgoing bank be written: has the context no book, or is its page valid? -/
def bankWritable (s : State) (ctx core : Nat) : Bool :=
  noBook s ctx || (match bankPlace s ctx core with
    | none => false
    | some (q, oid, off) => rangeMapped s q oid off 768)

end Sys2Proof.Machine
end

