-- ==== Sys2Proof/Machine/Placement.lean ====
section
/-! DEFINITION. Placing casts, changes of owner, cores that become free, completion records (R12, R14, R15, R18, R26, R178,
R182, R192, R199, R262, R263, R276, R278, R292, R301, R302, R327). -/

namespace Sys2Proof.Machine

/-! ### Owners (R25, R26, R278, R292, R301) -/

/-- Write back and drop every line of a core's L1. -/
def emptyL1 (s : State) (core : Nat) : State := (getCore s core).l1.foldl (fun s e => ejectLine s core e.1) s

/-- A context arrives on a die: the second level of translations is empty of its entries unless it is resident there (R25). -/
def arriveDie (s : State) (die ctx : Nat) : State :=
  if residentOn s die ctx then s else modDie s die fun d => { d with tlb := d.tlb.filter fun e => !(e.ctx == ctx) }

/-- The bank that a context brings to a core: the staged one, or that of its image (R292, R301). -/
def incomingBank (s : State) (core ctx : Nat) : Option CoreBank :=
  if (getCore s core).staged = some ctx then some (getCore s core).staging else storedBank s ctx core

/-- Can a core pass to a context: is the bank that comes there to read, the one that goes there to be written? -/
def bankReady (s : State) (core ctx : Nat) : Bool :=
  let owner := (getCore s core).owner
  owner == some ctx || ((incomingBank s core ctx).isSome && (match owner with
    | some o => bankWritable s o core
    | none => true))

/-- Is nothing of another context in flight on a core (DEDUCED, log 78)? -/
def ownTransfers (s : State) (core ctx : Nat) : Bool := (getCore s core).xfers.all fun x => x.ctx == ctx

/-- May a context use a cluster: it holds the cluster already, or no launch does and the matrix engine, the weight buffer and the cores
have nothing in flight that another residence of the cluster began (R12; DEDUCED, log 78)? -/
def clusterIdle (s : State) (cluster ctx : Nat) : Bool :=
  let c := getCluster s cluster
  (clusterHeld s cluster && c.ctx == some ctx)
    || (c.table.isEmpty && c.loads.isEmpty && (List.range 4).all fun j => ownTransfers s (4 * cluster + j) ctx)

/-- A core changes owner: L1 and the miss-status entries are emptied, the outgoing bank is written into its owner's image, the banks
swap, translations and code leave (R25, R26). -/
def changeOwner (s : State) (core ctx : Nat) : State :=
  let s1 := emptyL1 s core
  let c := getCore s1 core
  let bank := (incomingBank s1 core ctx).getD {}
  let s2 := match c.owner with
    | some o => storeBank s1 o core c.bank
    | none => s1
  modCore (arriveDie s2 (dieOfCore core) ctx) core fun k =>
    { k with owner := some ctx, bank, staging := c.bank, staged := none, tlb := [], code := []
             misses := k.misses.map fun m => { m with entry := false, share := false } }

/-- OWNER_CHANGE (R301): a core that holds no launch passes to a context of the module. -/
def execOwnerChange (core ctx : Nat) (s : State) : Out :=
  let c := getCore s core
  if c.launch.isSome || c.owner == some ctx || (sfind ctx s.contexts).isNone || !bankReady s core ctx || !ownTransfers s core ctx then
    .next s
  else .next (changeOwner s core ctx)

/-! ### Cores that become free (R12) -/

/-- Has a core done with its launch: no live thread, no cue thread, no cast left to place on the die (R12)? -/
def coreDone (s : State) (core : Nat) : Bool :=
  let c := getCore s core
  c.launch.isSome && !(c.casts.any fun e => castLive e.2) && c.cue.isNone && !toPlace (coreLaunch s core)

/-- A partition that holds no cast; its histogram stays (R394). -/
def emptyPartition (p : Partition) : Partition := { eligible := p.eligible, reasons := p.reasons }

/-- A core gives up its launch. Transfers in flight go on, with their ranges and the transfer buffer. -/
def releaseCore (c : Core) : Core :=
  { c with launch := none, casts := [], parts := c.parts.map fun e => (e.1, emptyPartition e.2)
           cue := none, dq := [], dqTail := 0, dqSaved := 0
           ranges := c.ranges.filter fun r => c.xfers.any fun x => x.range == some r.id
           pbk := c.pbk.filter fun b => c.xfers.any fun x => x.id == b.holder }

/-- Cores of a die that have done with their launches become free. -/
def freeCores (s : State) (die : Nat) : State :=
  (span (64 * die) 64).foldl (fun s core => if coreDone s core then modCore s core releaseCore else s) s

/-! ### What a cast and a core hold at the start (R14, R18, R182, R192, R263, R302) -/

/-- The ensembles that list a cast, ascending, as E0 to E3. -/
def castEnsembles (l : Launch) (i : Nat) : List (BitVec 9) :=
  let es := (l.ensembles.filter fun e => e.1 < 256 && e.2.casts.contains i).map fun e => BitVec.ofNat 9 (256 + e.1)
  (es ++ List.replicate 4 0).take 4

/-- A lane thread at its start. -/
def newThread (s : State) (b : Playbill) (g : Nat) : Thread :=
  let sr := 0x2545F491 ^^^ g
  passBoundary s (openImplicit b { pc := b.lanePc, srstate := BitVec.ofNat 32 (if sr = 0 then 1 else sr) } b.lanePc)

/-- A cast at its start on a core: its read pointer stands at the queue's tail (R187). -/
def newCast (s : State) (core : Nat) (l : Launch) (i : Nat) : Cast :=
  { ens := castEnsembles l i, dqPtr := max (getCore s core).dqTail (getCore s core).dqSaved
    threads := (List.range l.bill.width).map fun lane => newThread s l.bill (gidx l.bill i lane) }

/-- A cluster on which a context holds no launch yet: tiles, weights and sources start empty (R302). -/
def clearCluster (ctx : Nat) (c : Cluster) : Cluster :=
  { c with ctx := some ctx, z := [], zPoison := [], weights := [], weightsPoison := [], loads := [], sources := [], refill := []
           rounds := [], views := [], issued := false }

/-- A core takes a launch: its owner, its L1 emptied, which is an acquire of system scope and takes the new split; no load of the launch
takes an older fill (R263). -/
def takeLaunch (s : State) (core key : Nat) : State :=
  let ctx := (getLaunch s key).ctx
  let s1 := if (getCore s core).owner = some ctx then acquire (emptyL1 s core) core 6 else changeOwner s core ctx
  modCore s1 core fun c => { releaseCore c with launch := some key, spad := [], spadPoison := [] }

/-- A cluster passes to a context that holds no launch on it: the turn is given, tiles and weights start empty (R268, R302). -/
def takeCluster (s : State) (cluster ctx : Nat) : State :=
  if clusterHeld s cluster && (getCluster s cluster).ctx == some ctx then s
  else modCluster (giveTurn s cluster) cluster (clearCluster ctx)

/-- A core receives the first cast of a launch: the scratchpad starts with zeros (DESIGN CHOICE, log 1), the cue thread starts. -/
def prepareCore (s : State) (core key : Nat) : State :=
  let l := getLaunch s key
  let s1 := takeLaunch (takeCluster s (clusterOfCore core) l.ctx) core key
  let s2 := modCore s1 core fun c => { c with cue := some { pc := l.bill.cuePc, codeEpoch := s.icEpoch } }
  modLaunch s2 key fun l => { l with cues := l.cues + 1 }

/-- A cast takes its place in a partition of a core. -/
def putCast (s : State) (core part i : Nat) (x : Cast) : State :=
  let s1 := modCore s core fun c => { c with casts := sput i { x with part } c.casts }
  let p := getPart s1 core part
  refillActive (setPart s1 core part { p with pending := p.pending ++ [(i, coreClk s core)] }) core part

/-! ### Where a cast fits (R12, R15, R262) -/

/-- The resident casts of a core, and of one of its partitions. -/
def residents (c : Core) : Nat := (c.casts.filter fun e => castLive e.2).length
def residentsIn (c : Core) (part : Nat) : Nat := (c.casts.filter fun e => castLive e.2 && e.2.part == part).length

/-- Do casts of a context wait in its image for this cluster, on which they stood, to come back into the partition? -/
def awaitsHome (s : State) (ctx cluster : Nat) : Bool :=
  let c := getContext s ctx
  (c.homes.any fun k => clusterOfCore k == cluster && (sfind k c.moved).isNone)
    && s.launches.any fun e => e.2.ctx == ctx && (!e.2.waiting.isEmpty || !e.2.saved.isEmpty)

/-- May a core take one more cast of a launch? -/
def coreFits (s : State) (key core : Nat) : Bool :=
  let c := getCore s core
  let l := getLaunch s key
  let n := residents c + 1
  !awaitsHome s l.ctx (clusterOfCore core) && turnOf s (clusterOfCore core) l.ctx && clusterIdle s (clusterOfCore core) l.ctx
    && (c.launch == none || c.launch == some key) && bankReady s core l.ctx
    && n * castSize l.bill ≤ 524288 && n * l.bill.width ≤ 2048

/-- The allowed partitions of some cores, in ascending order, with their resident casts. -/
def openParts (s : State) (key : Nat) (cores : List Nat) : List (Nat × Nat × Nat) :=
  (cores.filter (coreFits s key)).flatMap fun core =>
    (List.range 4).filterMap fun p =>
      let n := residentsIn (getCore s core) p
      if n < 64 then some (n, core, p) else none

/-- The partition with the fewest resident casts; of equals, the first. -/
def fewest : List (Nat × Nat × Nat) → Option (Nat × Nat)
  | [] => none
  | x :: rest =>
    match (rest.find? fun y => y.1 < x.1) with
    | none => some (x.2.1, x.2.2)
    | some _ => fewest rest

/-- The place of a cast on one of some cores. -/
def placeFor (s : State) (key : Nat) (cores : List Nat) : Option (Nat × Nat) := fewest (openParts s key cores)

/-- The cores of a partition on a die, ascending. -/
def partitionCores (s : State) (fn die : Nat) : List Nat := (partitionOn s fn die).flatMap fun n => span (4 * n) 4

/-- A cast of a launch is placed: a core that does not hold the launch receives it first. -/
def placeFresh (s : State) (key i : Nat) (at' : Nat × Nat) : State :=
  let s1 := if (getCore s at'.1).launch = some key then s else prepareCore s at'.1 key
  putCast s1 at'.1 at'.2 i (newCast s1 at'.1 (getLaunch s1 key) i)

/-! ### Saved cores, casts and clusters (R30, R148, R232, R276, R324) -/

/-- A saved thread on its core: it has passed a boundary; its pending bit, if the budget was spent meanwhile; what has been
returned to it; the operation on a peer module that it awaits (R218, R226, R232, R396). -/
def wakeThread (s : State) (core cast lane : Nat) (t : Thread) : Thread :=
  let ctx := getContext s (coreCtx s core)
  let remote := (getCore s core).xfers.any fun x =>
    remoteKind x.kind && x.agent == .lane core cast lane && holdsLaunch s core x.launch
  passBoundary s { t with
    exh := t.exh || ctx.spent, logged := sget 0 (gidx (coreBill s core) cast lane) ctx.counts
    wait := if remote then .remote t.pc else t.wait }

/-- A saved cast takes its place in a partition of a core, its decision-queue pointer counted from the core's own front. -/
def putSaved (s : State) (core part : Nat) (x : SavedCast) : State :=
  putCast s core part x.index { x.cast with
    threads := (enum 0 x.cast.threads).map fun e => if e.2.live then wakeThread s core x.index e.1 e.2 else e.2 }

/-- The next numbers of operations are taken. -/
def takeNumbers (s : State) (n : Nat) : State := { s with fresh := s.fresh + n }

/-- A replay entry as a transfer of a core: `first` is the first of the numbers taken for the core's entries, groups and ranges. -/
def replayXfer (s : State) (core first : Nat) (ctx fn : Nat) (e : Nat × Xfer) : Xfer :=
  let x := e.2
  let agent := match x.agent with
    | .lane _ cast lane => Agent.lane core cast lane
    | .cue _ => .cue core
  { x with
    id := first + e.1, agent, group := 2 * (first + x.group) + 1, asked := coreClk s core, ctx, fn
    range := x.range.map fun r => 2 * (first + 128 + r) + 1
    launch := x.launch.map (launchKey ctx) }

/-- The table's request of a transfer of a tile that goes on after a resume (R320). -/
def replayRequest (s : State) (core : Nat) (x : Xfer) : State :=
  if x.kind == .zld || x.kind == .zst then
    let cast := match x.agent with
      | .lane _ cast _ => cast
      | .cue _ => 0
    let tile := match x.src, x.dst with
      | .tile t, _ => t / 8192
      | _, .tile t => t / 8192
      | _, _ => 0
    let (id, s1) := takeFresh s
    modCluster s1 (clusterOfCore core) fun c =>
      { c with table := c.table ++ [{ id, core, cast, lanes := x.lanes, ctr := x.ctr, tile, high := false, posted := coreClk s core, launch := x.launch
                                      kind := if x.kind == .zld then .zld x.id else .zst x.id }] }
  else s

/-- The cue thread of a saved core. Its counter equals the number of its replay entries (R148); one whose atomic or queue
operation is an entry waits for its value (R232). -/
def savedCue (s : State) (core : Nat) (x : SavedCore) (pc : Word) : Cue :=
  let mine := x.replay.filter fun y => y.agent == .cue x.core && y.launch == some x.number
  { pc, c := x.c, codeEpoch := s.icEpoch, counter := (mine.filter fun y => !(uncounted y.kind)).length
    response := mine.any fun y => remoteKind y.kind
    logged := sget 0 (2 ^ 32 + core) (getContext s (coreCtx s core)).counts }

/-- A core that has taken a launch takes what an image saved of a core: cue thread, decision queue, ranges, scratchpad, transfers,
transfer buffer. -/
def restoreCore (s : State) (core : Nat) (x : SavedCore) : State :=
  let first := s.fresh
  let ctx := coreCtx s core
  let fn := coreFn s core
  let xs := (enum 0 x.replay).map (replayXfer s core first ctx fn)
  let s1 := modCore (takeNumbers s 256) core fun c =>
    { c with
      spad := x.spad, spadPoison := x.spadPoison, dq := x.dq, dqTail := x.tail, dqSaved := x.saved, xfers := xs
      ranges := (enum 0 x.ranges).map fun e => { id := 2 * (first + 128 + e.1) + 1, lo := e.2.1, hi := e.2.2 }
      pbk := x.pbk.map fun b => { b with holder := first + b.holder }
      cue := x.cuePc.map (savedCue s core x) }
  let s2 := modCore s1 core fun c => { c with xfers := c.xfers.map fun y =>
    { y with poison := y.poison || (x.pbkPoison && c.pbk.any fun b => b.holder == y.id) } }
  xs.foldl (fun s y => replayRequest s core y) s2

/-- A QCAST that goes on holds, on each other target, the range that the target's scoreboard kept for it (R329, R330). -/
def linkQcast (s : State) (core : Nat) (x : Xfer) : State :=
  match x.dst with
  | .spad b =>
    (List.range 4).foldl (fun s j =>
      let t := 4 * clusterOfCore core + j
      if x.mod.testBit j || t == core then s
      else modCore s t fun c =>
        match c.ranges.find? fun r => r.lo == b && r.hi == b + x.len && !(c.xfers.any fun y => y.range == some r.id) with
        | none => c
        | some r => { c with ranges := c.ranges.map fun y => if y.id = r.id then { y with id := x.range.getD 0 } else y }) s
  | _ => s

/-- Link the multicasts of a cluster's cores. -/
def linkQcasts (s : State) (cluster : Nat) : State :=
  (List.range 4).foldl (fun s j =>
    ((getCore s (4 * cluster + j)).xfers.filter fun x => x.kind == .qcast).foldl (fun s x => linkQcast s (4 * cluster + j) x) s) s

/-- A cluster takes the saved tiles and the weight sources of a cluster (R302, R323). -/
def restoreCluster (x : SavedCluster) (c : Cluster) : Cluster := { c with z := x.z, zPoison := x.zPoison, sources := x.sources }

/-- Start the loads that refill the weight buffer of a cluster, one after the other in the order of the table (R30, R324): they count
on no counter. -/
def refillWeights (s : State) (cluster core : Nat) : State :=
  (getCluster s cluster).sources.foldl (fun s e =>
    let id := s.fresh
    let s1 := startXfer s core
      { id := 0, kind := .wload, agent := .lane core 0 0, src := .mem e.cap e.off, dst := .weights (64 * e.granule)
        len := 64 * e.count, group := 2 * id + 1 }
    modCluster s1 cluster fun c => { c with refill := c.refill ++ [id] }) s

/-- The saved cores of a cluster. -/
def Image.coresOn (img : Image) (cluster : Nat) : List SavedCore :=
  img.cores.filter fun x => clusterOfCore x.core == cluster && !x.bare

/-- Tiles or weights of a saved cluster. -/
def tilesOf (img : Image) (cluster : Nat) : Option SavedCluster :=
  img.clusters.find? fun x => x.cluster == cluster && !(x.z.isEmpty && x.zPoison.isEmpty && x.sources.isEmpty)

/-- A saved core runs again as a core that no launch holds. -/
def moveCore (s : State) (ctx : Nat) (x : SavedCore) (core : Nat) : State :=
  let key := launchKey ctx x.number
  let s1 := if (sfind key s.launches).isSome then
      restoreCore (takeLaunch (takeCluster s (clusterOfCore core) ctx) core key) core x
    else s
  modContext (modLaunch s1 key fun l => { l with saved := ndel x.core l.saved }) ctx fun c => { c with moved := sput x.core core c.moved }

/-- A saved cluster runs again on cluster `n`: its tiles, its cores in their places, its multicasts and its weights. -/
def moveCluster (s : State) (ctx : Nat) (img : Image) (cluster n : Nat) : State :=
  let s0 := if clusterHeld s n then s else modCluster (claimTurn s n ctx) n (clearCluster ctx)
  let s1 := match tilesOf img cluster with
    | some x => modCluster s0 n (restoreCluster x)
    | none => s0
  let s2 := (img.coresOn cluster).foldl (fun s x =>
    let key := launchKey ctx x.number
    let core := 4 * n + x.core % 4
    let s1 := if (sfind key s.launches).isSome then restoreCore (takeLaunch s core key) core x else s
    modContext (modLaunch s1 key fun l => { l with saved := ndel x.core l.saved }) ctx fun c =>
      { c with moved := sput x.core core c.moved }) s1
  let s3 := linkQcasts s2 n
  match (tilesOf img cluster).bind fun _ => (img.coresOn cluster).head? with
  | some x => refillWeights s3 n (4 * n + x.core % 4)
  | none => s3

/-- Does a saved core hold what must travel with its casts: a cue thread, a decision queue, transfers, a scratchpad? -/
def coreCarries (x : SavedCore) : Bool :=
  x.cuePc.isSome || !x.dq.isEmpty || !x.replay.isEmpty || x.pbk.isSome || !x.spad.isEmpty || !x.spadPoison.isEmpty

/-- The cluster ensemble that lists a cast. -/
def clusterList (l : Launch) (i : Nat) : Option (List Nat) :=
  (l.ensembles.find? fun e => e.1 < 256 && e.2.cluster && e.2.casts.contains i).map fun e => e.2.casts

/-- Is a transfer one that ties its core to the cluster: of a tile, or a multicast? -/
def tiedXfer (x : Xfer) : Bool := x.kind == .zld || x.kind == .zst || x.kind == .qcast

/-- Do the saved cores of a cluster travel together, to the same places of one cluster: tiles, weights, a transfer of a tile, a
multicast, a cluster ensemble (R276, R302, R327, R329; DESIGN CHOICE, log 36)? -/
def clusterTied (s : State) (ctx : Nat) (img : Image) (cluster : Nat) : Bool :=
  (tilesOf img cluster).isSome || (img.coresOn cluster).any (fun x => x.replay.any tiedXfer)
    || img.casts.any fun x => clusterOfCore x.core == cluster && castLive x.cast
      && (clusterList (getLaunch s (launchKey ctx x.number)) x.index).isSome

/-- Does a saved core travel, with what it holds or with its cluster? -/
def coreTravels (s : State) (ctx : Nat) (img : Image) (x : SavedCore) : Bool :=
  coreCarries x || clusterTied s ctx img (clusterOfCore x.core)

/-- A saved cast of a launch. -/
def Image.cast? (img : Image) (number i : Nat) : Option SavedCast :=
  img.casts.find? fun x => x.number == number && x.index == i && castLive x.cast

/-- Does a cluster hold tiles, weights or requests? -/
def engineUsed (c : Cluster) : Bool :=
  !(c.z.isEmpty && c.zPoison.isEmpty && c.weights.isEmpty && c.weightsPoison.isEmpty && c.sources.isEmpty && c.table.isEmpty
    && c.loads.isEmpty && c.rounds.isEmpty)

/-- Can a core take a saved core of a context: does no launch hold it, is it the context's turn there, is its bank ready? -/
def coreOpen (s : State) (ctx core : Nat) : Bool :=
  (getCore s core).launch.isNone && turnOf s (clusterOfCore core) ctx && clusterIdle s (clusterOfCore core) ctx && bankReady s core ctx

/-- Can cluster `n` take a saved cluster of a context: are the cores open on which it puts one, and are its own tiles and weights unused
where the saved cluster brings some? -/
def clusterOpen (s : State) (ctx : Nat) (img : Image) (cluster n : Nat) : Bool :=
  turnOf s n ctx && (img.coresOn cluster).all (fun x => coreOpen s ctx (4 * n + x.core % 4))
    && (!clusterHeld s n || (tilesOf img cluster).isNone || !engineUsed (getCluster s n))

/-- Where a saved core that travels finds room among the clusters of a partition: with its whole cluster where it is tied to it, else on
its own (R262, R276). Its state, if it has moved. -/
def travel (s : State) (ctx : Nat) (img : Image) (part : List Nat) (x : SavedCore) : Option State :=
  let home := clusterOfCore x.core
  if clusterTied s ctx img home then
    (part.find? fun n => !awaitsHome s ctx n && clusterOpen s ctx img home n).map fun n => moveCluster s ctx img home n
  else
    ((part.flatMap fun n => span (4 * n) 4).find? fun k => !awaitsHome s ctx (clusterOfCore k) && coreOpen s ctx k).map fun k =>
      moveCore s ctx x k

/-- A saved cluster that stands in the partition again takes its own place; else the first saved core of a launch that finds room in the
partition of its die moves there. -/
def moveSaved (s : State) (key : Nat) (img : Image) : State :=
  let l := getLaunch s key
  let part := partitionOn s (getContext s l.ctx).fn l.die
  match part.find? fun n => awaitsHome s l.ctx n && clusterOpen s l.ctx img n n with
  | some n => moveCluster s l.ctx img n n
  | none => (l.saved.findSome? fun k => (img.core? k).bind (travel s l.ctx img part)).getD s

/-- Where a saved cast may go: the core to which its own has moved or, where nothing travels with it, any core of the partition (R262,
R276). -/
def savedCores (s : State) (key : Nat) (img : Image) (x : SavedCast) : List Nat :=
  let l := getLaunch s key
  match sfind x.core (getContext s l.ctx).moved with
  | some k => [k]
  | none =>
    if ((img.core? x.core).map (coreTravels s l.ctx img)).getD false then [] else partitionCores s (getContext s l.ctx).fn l.die

/-- A saved cast is placed again. On a core that does not hold the launch yet no cue thread starts: that of its own core has ended. -/
def placeSaved (s : State) (key : Nat) (img : Image) (x : SavedCast) : State :=
  match placeFor s key (savedCores s key img x) with
  | none => s
  | some (core, part) =>
    let s1 := if (getCore s core).launch = some key then s
      else takeLaunch (takeCluster s (clusterOfCore core) (getLaunch s key).ctx) core key
    let s2 := putSaved s1 core part x
    let s3 := modLaunch s2 key fun l => { l with waiting := l.waiting.filter fun j => !(j == x.index) }
    modContext s3 (getLaunch s key).ctx fun c => { c with spent := c.spent && heldInImage s3 (getLaunch s key).ctx }

/-- The saved casts that are placed together with cast `i`: those of its cluster ensemble that wait too (R327). -/
def placedWith (l : Launch) (img : Image) (i : Nat) : List SavedCast :=
  (match clusterList l i with
    | some casts => casts.filter l.waiting.contains
    | none => [i]).filterMap (img.cast? l.number)

/-- The next saved core, cluster or cast of a launch takes its place, a cluster ensemble in one step, if it has somewhere to go and its
image can be read. -/
def placeWaiting (s : State) (key : Nat) : State :=
  let l := getLaunch s key
  match imageOf s l.ctx with
  | none => s
  | some img =>
    let s1 := moveSaved s key img
    match ((getLaunch s1 key).waiting.map (placedWith l img)).find? fun xs =>
        !xs.isEmpty && xs.all fun x => (placeFor s1 key (savedCores s1 key img x)).isSome with
    | some xs => xs.foldl (fun s x => placeSaved s key img x) s1
    | none => s1

/-! ### CAST_PLACEMENT (R262, R327) -/

/-- Places for the casts of a cluster ensemble on one cluster: position j on core j. -/
def clusterPlaces (s : State) (key cluster : Nat) (casts : List Nat) : Option (List (Nat × Nat × Nat)) :=
  (enum 0 casts).foldr (fun e acc =>
    match acc, placeFor s key [4 * cluster + e.1] with
    | some l, some p => some ((e.2, p.1, p.2) :: l)
    | _, _ => none) (some [])

/-- The places of a cast, or of its whole cluster ensemble: cast, core, partition. -/
def placesFor (s : State) (key i : Nat) : Option (List (Nat × Nat × Nat)) :=
  let l := getLaunch s key
  let fn := (getContext s l.ctx).fn
  match clusterList l i with
  | none => (placeFor s key (partitionCores s fn l.die)).map fun p => [(i, p.1, p.2)]
  | some casts => (partitionOn s fn l.die).findSome? fun n => clusterPlaces s key n casts

/-- The launch with one more cast of its order placed, the rest of an ensemble placed ahead. -/
def placedLaunch (i : Nat) (placed : List Nat) (l : Launch) : Launch :=
  { l with next := i + 1, ahead := (placed.filter fun j => i < j).foldr nins l.ahead }

/-- The next cast of a launch is placed, if it has somewhere to go: saved ones first. -/
def placeNext (s : State) (key : Nat) : State :=
  let l := getLaunch s key
  if !l.waiting.isEmpty || !l.saved.isEmpty then placeWaiting s key
  else
    let i := l.next
    if nmem i l.ahead then modLaunch s key fun l => { l with next := i + 1, ahead := ndel i l.ahead }
    else match placesFor s key i with
      | none => s
      | some ps => modLaunch (ps.foldl (fun s p => placeFresh s key p.1 p.2) s) key (placedLaunch i (ps.map Prod.fst))

/-- CAST_PLACEMENT (R262, R327). -/
def execCastPlacement (ctx launch : Nat) (s : State) : Out :=
  let key := launchKey ctx launch
  match sfind key s.launches with
  | none => .next s
  | some l =>
    if (getContext s ctx).run ≠ .running || !toPlace l then .next s else .next (placeNext (freeCores s l.die) key)

/-! ### Completion records (R198, R199) -/

/-- Is a thread one of those that an entry's record covers? -/
def covers (casts : Option (List Nat)) : Agent → Bool
  | .lane _ cast _ => match casts with
    | some l => l.contains cast
    | none => true
  | .cue _ => casts.isNone

/-- Is an asynchronous operation of the covered threads unfinished? -/
def asyncBusy (s : State) (key : Nat) (casts : Option (List Nat)) : Bool :=
  let here (core : Nat) : Bool := (getCore s core).launch == some key
  (s.cores.any fun e => e.2.xfers.any fun x => x.launch == some key && covers casts x.agent)
    || (s.clusters.any fun e => e.2.table.any fun r => r.launch == some key && covers casts (.lane r.core r.cast 0))
    || (s.responses.any fun r => here (agentCore r.agent) && covers casts r.agent)
    || (s.classJobs.any fun j => match j.agent with
      | some a => here (agentCore a) && covers casts a
      | none => false)

/-- A core drops its own copies of the lines of a range of an object. -/
def dropOwn (s : State) (core : Nat) (q : Port) (oid off n : Nat) : State :=
  (rangeChunks off n).foldl (fun s c =>
    match resolve s q oid c.1 with
    | some k => ejectLine s core (k / 64)
    | none => s) s

/-- The record of an entry of a launch. -/
def entryRecord (s : State) (core scope : Nat) (e : Ensemble) : Nat :=
  let c := getCore s core
  recordBits256 1 core c.seqno.toNat c.cycle.toNat scope (if scope = kernelScope then e.cueor else 0) e.nexit e.thmin.toNat
    e.nnz e.stmin e.stor

/-- Is every record of a launch that has ended written? -/
def launchOver (l : Launch) : Bool := l.ended && l.ensembles.all fun e => !e.2.reports || e.2.written

/-- An entry's record is done with: the kernel's ends the launch, and the last one removes it. -/
def entryDone (s : State) (key scope : Nat) : State :=
  let s1 := modEnsemble s key scope fun e => { e with written := true }
  let s2 := if scope = kernelScope then modLaunch s1 key fun l => { l with ended := true } else s1
  let l := getLaunch s2 key
  let s3 := freeCores s2 l.die
  if launchOver l then { s3 with launches := sdel key s3.launches } else s3

/-- COMPLETION_RECORD_WRITE (R199): one 32-byte store with a release of system scope, by the core that completed the entry.
The kernel's record ends the launch. -/
def execCompletionRecordWrite (ctx launch scope core : Nat) (s : State) : Out :=
  let key := launchKey ctx launch
  match sfind key s.launches with
  | none => .next s
  | some l =>
    let e := sget {} scope l.ensembles
    let casts := if scope = kernelScope then none else some e.casts
    if e.closer ≠ some core || e.written || l.ended && scope == kernelScope || toPlace l && scope == kernelScope
        || !(e.reports || scope == kernelScope) || asyncBusy s key casts then .next s
    else
      let r := release s core 6 none
      if !r.finished then .next s
      else if !e.reports then .next (entryDone r.state key scope)
      else
        let q : Port := { fn := (getContext s ctx).fn, ctx, core := some core }
        let s1 := dropOwn r.state core q (capOid l.bill.doneCap) (capLower l.bill.doneCap + e.recOff) 32
        let w := putCompletion s1 core q l.bill.doneCap e.recOff (entryRecord s1 core scope e)
        .next (if w.2 then entryDone w.1 key scope else w.1)

end Sys2Proof.Machine
end

