-- ==== Sys2Proof/Machine/Perform.lean ====
section
/-! DEFINITION. Gathering instructions that become complete, and commands that become performable (R172 to R174, R184,
R315). -/

namespace Sys2Proof.Machine

/-- What a gathering instruction does (R172). -/
def gatherOf (o : Opc) : Option GatherSpec :=
  match o with
  | .castsync => some gatherCastsync
  | .slide => some gatherSlide
  | .shfl => some gatherShfl
  | .bcast => some gatherBcast
  | .reduce => some gatherReduce
  | .scan => some gatherScan
  | .vote => some gatherVote
  | .matchLanes => some gatherMatch
  | .kmov => some gatherKmov
  | .cvtq => some gatherCvtq
  | .ldk => some gatherLdk
  | .capld => some gatherCapld
  | .capnar => some gatherCapnar
  | .capmk => some gatherCapmk
  | .dqpop => some gatherDqpop
  | .gatherb => some gatherGatherb
  | .ordy => some gatherOrdy
  | .mma => some (gatherPass false)
  | .mmas => some (gatherPass true)
  | .zclr => some gatherZclr
  | .zld => some (gatherTile true)
  | .zst => some (gatherTile false)
  | .cred => some gatherCred
  | .sacc => some gatherSacc
  | .topk => some gatherTopk
  | _ => none

/-- The gathering instruction that a cast executes next, whose lanes stand complete. -/
def gatherNext (core cast : Nat) (s : State) : Out :=
  match gatherLanes (getCast s core cast) with
  | [] => .next s
  | l :: rest =>
    match (waitingInstr s core cast l).bind opcOf with
    | none => .next s
    | some (o, op) =>
      match gatherOf o with
      | none => .next s
      | some g => runGather o op g true core cast (l :: rest) s

/-- GATHER_COMPLETE (R172, R173): a cast whose live threads all stand at gathering instructions executes the one at the
lowest PC; lanes in ORDY go on when the ranges they noted have retired. -/
def execGatherComplete (core cast : Nat) (s : State) : Out :=
  if !contextRuns s core then .next s else gatherNext core cast (endOrdy s core cast)

/-- What a buffered command of the cue thread does (R184). -/
def commandBody (o : Opc) : Option CueBody :=
  match o with
  | .st => some cueSt
  | .ld => some cueLdVolatile
  | .atom => some cueAtom
  | .qenq => some cueQenq
  | .qdeq => some (cueQueue .deq (some 0))
  | .qstat => some (cueQueue .stat none)
  | .copy => some cueCopy
  | .copyx => some cueCopyx
  | .wload => some cueWload
  | .qcast => some cueQcast
  | .pbksave => some (cuePbk true)
  | .pbkload => some (cuePbk false)
  | .launch => some cueLaunch
  | .rel => some cueRel
  | .acq => some cueAcq
  | .icinv => some cueIcinv
  | .syswr => some cueSyswr
  | .pbkwr => some cuePbkwr
  | .pbkclr => some cuePbkclr
  | .step => some cueStep
  | .fade => some cueFade
  | .classmap => some cueClassmap
  | .trap => some cueTrap
  | .trace => some cueTrace
  | .wait => some cueWait
  | .exit => some cueExit
  | _ => none

/-- Perform the oldest command of a core's buffer, if no unresolved BRC precedes it. -/
def performHead (core : Nat) (s : State) : Out :=
  match getCue s core with
  | none => .next s
  | some q =>
    match q.buf with
    | [] => .next s
    | cmd :: _ =>
      if !headReady q cmd then .next s
      else match (opcOf cmd.instr).bind fun x => commandBody x.1 with
        | some body => performCommand s core cmd body
        | none => .next s

/-- COMMAND_BUFFER_PERFORM (R184). -/
def execCommandBufferPerform (core : Nat) (s : State) : Out := if contextRuns s core then performHead core s else .next s

end Sys2Proof.Machine
end

