-- ==== Sys2Proof/Machine/Engines.lean ====
section
/-! DEFINITION. Transfers in flight: their pieces, refusals, poison, tags and completions (R133, R141, R143, R148, R158 to
R165, R230, R246, R298, R318, R321, R329, R374, R386). -/

namespace Sys2Proof.Machine

/-! ### Pieces (R158) -/

/-- One piece: how many bytes, at which offset from the transfer's first source byte and first destination byte. -/
structure Piece where
  src : Nat
  dst : Nat
  n : Nat
  deriving DecidableEq, Repr

/-- A QCAST whose destination lies above its overlapping source on its own core lands whole (R329). -/
def landsWhole (x : Xfer) : Bool :=
  match x.src, x.dst with
  | .spad a, .spad b => x.kind == .qcast && overlaps a (x.done + x.len) b (x.done + x.len) && decide (b > a)
  | _, _ => false

/-- The next piece of a transfer. -/
def nextPiece (x : Xfer) : Piece :=
  if x.rows ≠ 0 then
    let row := x.done / x.rowBytes
    let off := x.done % x.rowBytes
    { src := x.done, dst := row * x.pitch + off, n := min 64 (x.rowBytes - off) }
  else if landsWhole x then { src := x.done, dst := x.done, n := x.len }
  else if x.descending then { src := x.len - min 64 x.len, dst := x.len - min 64 x.len, n := min 64 x.len }
  else { src := x.done, dst := x.done, n := min 64 x.len }

/-! ### Pages that a piece meets (R138, R141) -/

/-- The offsets of an object that a piece needs translated on one side. -/
def sideOffsets (s : State) (q : Port) (side : Side) (at' n : Nat) : List Nat :=
  match side with
  | .mem c o =>
    let off := o + at'
    if isFug s q.fn c then
      match fugHeader s q (capOid c) with
      | none => fugHeaderOffsets s q (capOid c)
      | some f =>
        if off / 512 < f.ntile then fugTileOffsets s q (capOid c) f (off / 512) (off / 64 % 8) else []
    else (rangeChunks off n).map Prod.fst
  | _ => []

/-- The object of a side. -/
def sideOid : Side → Nat
  | .mem c _ => capOid c
  | _ => 0

/-- What a piece meets on one side: nothing, a page refused for now, or an address that no tier has. -/
inductive PagesMet where
  | clear
  | refused (k : PageKey) (absent : Bool)
  | nowhere
  deriving DecidableEq, Repr

/-- The first page of some offsets that is not valid and that the host has not refused to the transfer. -/
def pagesMet (s : State) (core : Nat) (x : Xfer) (oid : Nat) : List Nat → PagesMet
  | [] => .clear
  | o :: rest =>
    let k := pageKeyOf s x.fn oid o
    match lookup s (xferPort core x) oid o with
    | .valid _ => pagesMet s core x oid rest
    | .migrating => .refused k false
    | .nowhere => .nowhere
    | .absent => if x.denied.contains k then pagesMet s core x oid rest else .refused k true

/-- The offsets that an atomic or a queue operation on a peer's line needs: its location, or its header. -/
def remoteOffsets (x : Xfer) : List Nat :=
  match x.src with
  | .mem _ e => if x.kind == .atom then [e] else (rangeChunks e 64).map Prod.fst
  | _ => []

/-- What the next piece of a transfer meets on both sides. DEDUCED, log 25. -/
def pieceMet (s : State) (core : Nat) (x : Xfer) : PagesMet :=
  let p := nextPiece x
  let q := xferPort core x
  if remoteKind x.kind then pagesMet s core x (sideOid x.src) (remoteOffsets x)
  else
    match pagesMet s core x (sideOid x.src) (sideOffsets s q x.src p.src p.n) with
    | .clear => pagesMet s core x (sideOid x.dst) (sideOffsets s q x.dst p.dst p.n)
    | r => r

/-- Lies some of these offsets on a page that the host has refused to the transfer? -/
def pagesDenied (s : State) (core : Nat) (x : Xfer) (oid : Nat) (os : List Nat) : Bool :=
  os.any fun o => x.denied.contains (pageKeyOf s x.fn oid o) && (match lookup s (xferPort core x) oid o with
    | .valid _ => false
    | _ => true)

/-! ### Reading a piece (R163, R164, R246, R329, R374) -/

/-- What a piece carries: its bytes, which are poisoned, and the tag of the granule each came from. -/
structure Cargo where
  state : State
  bytes : List Byte
  bad : List Bool
  tags : List Bool

/-- A line as the engine of a core reads it: the core's own copy, else the home with its check, signed by the instruction (R246,
R287). A read that finds the line in L1 is no hit of R286 (DESIGN CHOICE, log 79). -/
def engineLine (s : State) (core : Nat) (p : TlbEntry) (line : Nat) (x : Xfer) : State × LineView :=
  match sfind line (getCore s core).l1 with
  | some _ => (s, viewLine s core line)
  | none =>
    let s1 := readHome (spendToken s core) line p.cls x.ctx (some (sigL2 x.pc)) false
    (s1, viewLine s1 core line)

/-- Read parts of an object; a refused page gives poisoned bytes. -/
def readParts (core : Nat) (x : Xfer) (oid : Nat) : List (Nat × Nat) → State → Cargo
  | [], s => ⟨s, [], [], []⟩
  | c :: rest, s =>
    match translate s core x.fn x.ctx oid c.1 with
    | (.valid p, s1) =>
      let key := pageByte p c.1
      let v := engineLine s1 core p (key / 64) x
      let more := readParts core x oid rest v.1
      let bad := v.2.poison || p.poisoned
      ⟨more.state, takeBytes v.2.data (key % 64) c.2 ++ more.bytes, List.replicate c.2 bad ++ more.bad,
        ((List.range c.2).map fun i => v.2.tags.getLsbD ((key % 64 + i) / 16)) ++ more.tags⟩
    | (_, s1) =>
      let more := readParts core x oid rest s1
      ⟨more.state, List.replicate c.2 0 ++ more.bytes, List.replicate c.2 true ++ more.bad,
        List.replicate c.2 false ++ more.tags⟩

/-- Bytes with one poison mark and no tags. -/
def plainCargo (s : State) (bs : List Byte) (bad : Nat → Bool) : Cargo :=
  ⟨s, bs, (List.range bs.length).map bad, bs.map fun _ => false⟩

/-- The bytes of the accumulator store from a byte offset on. -/
def tileBytes (c : Cluster) (off n : Nat) : List Byte :=
  (span (off / 4) (n / 4)).flatMap fun k => toBytes 4 (sget 0 k c.z).toNat

/-- The view of a block for COPYX.view: zeros where the header is not valid or the block is absent, poisoned ones where the host has
refused a page of it (R141, R374). -/
def viewUnit (s : State) (core : Nat) (x : Xfer) (c : Cap) (off : Nat) : Cargo :=
  let q := xferPort core x
  let zeros (bad : Bool) : Cargo := plainCargo s (List.replicate 64 0) fun _ => bad
  if pagesDenied s core x (capOid c) (sideOffsets s q (.mem c off) 0 64) then zeros true
  else
    match fugHeader s q (capOid c) with
    | none => zeros false
    | some f =>
      if off / 512 < f.ntile then
        let b := readBlock (readBooks (spendPort s q) q (capOid c) f (off / 512) 1) q (capOid c) f (off / 512) (off / 64 % 8)
          (some (sigL2 x.pc))
        plainCargo b.state b.bytes fun _ => b.poison
      else zeros false

/-- Read `n` bytes of a side. -/
def readSide (s : State) (core : Nat) (x : Xfer) (at' n : Nat) : Cargo :=
  let k := getCore s core
  match x.src with
  | .mem c o =>
    if isFug s x.fn c then viewUnit s core x c (o + at') else readParts core x (capOid c) (rangeChunks (o + at') n) s
  | .spad o => plainCargo s (bytesAt (o + at') n k.spad) fun i => nmem ((o + at' + i) / 64) k.spadPoison
  | .tile o =>
    let cl := getCluster s (clusterOfCore core)
    plainCargo s (tileBytes cl (o + at') n) fun i => nmem ((o + at' + i) / 128) cl.zPoison
  | .book => plainCargo s (bytesAt at' n ((k.pbk.map PbkBuffer.bytes).getD [])) fun _ => false
  | .weights _ => plainCargo s (List.replicate n 0) fun _ => false
  | .zeros _ _ => plainCargo s (List.replicate n 0) fun _ => false

/-! ### Writing a piece -/

/-- The numbers of the units of `w` bytes that receive a byte of the cargo that satisfies its mark. -/
def markedUnits (w lo : Nat) (marks : List Bool) : NSet :=
  (enum 0 marks).foldl (fun m e => if e.2 then nins ((lo + e.1) / w) m else m) []

/-- The tags of a written line whose granules lie wholly in the destination, carried from their sources. -/
def carryTags (s : State) (line lo : Nat) (tags : List Bool) (first total at' : Nat) : State :=
  let old := homeTags s line
  let new := (enum 0 tags).foldl (fun (m : Nat) e =>
    let g := (lo + e.1) / 16
    let start : Int := (at' + e.1 : Nat) - ((lo + e.1) % 16 : Nat)
    if (first : Int) ≤ start ∧ start + 16 ≤ (first + total : Nat) then setField m g g (b2n e.2) else m) old.toNat
  putHome s line (homeData s line) (BitVec.ofNat 4 new)

/-- What writing parts of an object leaves: the state, and the Bare line that holds zeros for poison brought to it. -/
structure Landing where
  state : State
  zeroed : Option Nat

/-- Write parts of an object at their homes; a refused page takes nothing. A Bare line to which the transfer has brought poison holds
zeros and is charged once (R355). -/
def landParts (core : Nat) (x : Xfer) (oid first : Nat) (carry : Bool) :
    List (Nat × Nat) → List Byte → List Bool → List Bool → Landing → Landing
  | [], _, _, _, r => r
  | c :: rest, bs, bad, tags, r =>
    let r1 : Landing := match translate r.state core x.fn x.ctx oid c.1 with
      | (.valid p, s1) =>
        let key := pageByte p c.1
        let poison := (bad.take c.2).any id || p.poisoned
        if p.cls = 0 ∧ r.zeroed = some (key / 64) then ⟨s1, r.zeroed⟩
        else
          let s2 := writeHome s1 (key / 64) (byteMask (key % 64) c.2) (placeBytes (key % 64) (bs.take c.2)) 0 poison p.cls x.ctx
            (some (sigL2 x.pc))
          let s3 := if carry then carryTags s2 (key / 64) (key % 64) (tags.take c.2) first (x.done + x.len) c.1 else s2
          ⟨s3, if p.cls = 0 ∧ poison then some (key / 64) else r.zeroed⟩
      | (_, s1) => ⟨s1, r.zeroed⟩
    landParts core x oid first carry rest (bs.drop c.2) (bad.drop c.2) (tags.drop c.2) r1

/-- Are tags carried (R163)? -/
def carriesTags (s : State) (x : Xfer) : Bool :=
  match x.src, x.dst with
  | .mem a _, .mem b _ =>
    x.kind == .copyx && objClass (getObject s x.fn (capOid a)) == 2 && objClass (getObject s x.fn (capOid b)) == 2
      && decide (capLower a % 16 = capLower b % 16)
  | _, _ => false

/-- Bytes land in a core's scratchpad: poisoned bytes mark their segments (R164). -/
def landSpad (s : State) (core o : Nat) (bs : List Byte) (marked : NSet) : State :=
  modCore s core fun c =>
    { c with spad := putBytes o bs c.spad, spadPoison := marked.foldl (fun m g => nins g m) c.spadPoison }

/-- The cores that a QCAST writes: those that hold its range, without those it omits (R329). -/
def qcastHolders (s : State) (core : Nat) (x : Xfer) : List Nat :=
  (List.range 4).filterMap fun j =>
    let t := 4 * clusterOfCore core + j
    if !x.mod.testBit j && (getCore s t).ranges.any fun r => some r.id == x.range then some t else none

/-- A QCAST's segments land on every target: bytes and poison bits. DEDUCED, log 51. -/
def landQcast (s : State) (core : Nat) (x : Xfer) (o : Nat) (bs : List Byte) (marked : NSet) : State :=
  (qcastHolders s core x).foldl (fun s t =>
    modCore s t fun c =>
      { c with
        spad := putBytes o bs c.spad
        spadPoison := (span (o / 64) (bs.length / 64)).foldl (fun m g => nset g (nmem g marked) m) c.spadPoison }) s

/-- Words land in the accumulator store: a row's first piece sets or clears its poison, its second adds to it (R318). -/
def landTile (s : State) (cluster o : Nat) (bs : List Byte) (bad : List Bool) : State :=
  modCluster s cluster fun c =>
    { c with
      z := (span 0 (bs.length / 4)).foldl (fun z i =>
        sset 0 (o / 4 + i) (BitVec.ofNat 32 (ofBytes ((bs.drop (4 * i)).take 4))) z) c.z
      zPoison :=
        let row := o / 128
        nset row (bad.any id || (decide (o % 128 ≠ 0) && nmem row c.zPoison)) c.zPoison }

/-- Bytes land in the weight buffer: each granule takes its poison (R321). -/
def landWeights (s : State) (cluster o : Nat) (bs : List Byte) (bad : List Bool) : State :=
  modCluster s cluster fun c =>
    { c with
      weights := putBytes o bs c.weights
      weightsPoison := (span (o / 64) (bs.length / 64)).foldl (fun m g =>
        nset g (nmem g (markedUnits 64 o bad)) m) c.weightsPoison }

/-- Write a piece's cargo at its destination. -/
def writeSide (core : Nat) (x : Xfer) (at' : Nat) (g : Cargo) : Landing :=
  let s := g.state
  match x.dst with
  | .mem c o =>
    if isFug s x.fn c then
      ⟨fugWrite (spendToken s core) (xferPort core x) (capOid c) (o + at') g.bytes (g.bad.any id) (some (sigL2 x.pc)), x.zeroed⟩
    else landParts core x (capOid c) o (carriesTags s x) (rangeChunks (o + at') g.bytes.length) g.bytes g.bad g.tags
      ⟨spendToken s core, x.zeroed⟩
  | .spad o =>
    let marked := markedUnits 64 (o + at') g.bad
    ⟨if x.kind = .qcast then landQcast s core x (o + at') g.bytes marked else landSpad s core (o + at') g.bytes marked, none⟩
  | .tile o => ⟨landTile s (clusterOfCore core) (o + at') g.bytes g.bad, none⟩
  | .weights o => ⟨landWeights s (clusterOfCore core) (o + at') g.bytes g.bad, none⟩
  | .book => ⟨modCore s core fun c =>
      { c with pbk := c.pbk.map fun b => { b with bytes := putBytes at' g.bytes b.bytes } }, none⟩
  | .zeros _ _ => ⟨s, none⟩

/-! ### When a piece may land -/

/-- Does an older range of a core overlap the transfer's own (R143)? Ranges stand in the order they were entered. -/
def rangeBlocked (id : Nat) : List Range → List Range → Bool
  | _, [] => false
  | older, r :: rest =>
    if r.id = id then older.any fun o => overlaps o.lo (o.hi - o.lo) r.lo (r.hi - r.lo)
    else rangeBlocked id (older ++ [r]) rest

/-- The memory destination of a transfer: object and bytes. -/
def memDest (x : Xfer) : Option (Nat × Nat × Nat) :=
  match x.dst with
  | .mem c o => some (capOid c, o, x.done + x.len)
  | _ => none

/-- Is a transfer of the same thread with an overlapping memory destination older (R158)? -/
def destBlocked (c : Core) (x : Xfer) : Bool :=
  match memDest x with
  | none => false
  | some d =>
    c.xfers.any fun y => y.id < x.id && y.agent == x.agent && y.len != 0 && (match memDest y with
      | some e => e.1 == d.1 && overlaps e.2.1 e.2.2 d.2.1 d.2.2
      | none => false)

/-- The request of a tile transfer. -/
def tileRequest (c : Cluster) (id : Nat) : Option Request :=
  c.table.find? fun r => r.kind == .zld id || r.kind == .zst id

/-- Is it the turn of a load that refills the weight buffer: those go one after the other (R324)? -/
def refillTurn (c : Cluster) (id : Nat) : Bool := !c.refill.contains id || c.refill.head? == some id

/-- May the next piece land? -/
def pieceReady (s : State) (core : Nat) (x : Xfer) : Bool :=
  let c := getCore s core
  let cl := getCluster s (clusterOfCore core)
  let tile := match tileRequest cl x.id with
    | some r => !requestHeld cl r
    | none => true
  let ranges := match x.range with
    | none => true
    | some id =>
      !rangeBlocked id [] c.ranges && (x.kind != .qcast || (qcastHolders s core x).all fun t => !rangeBlocked id [] (getCore s t).ranges)
  transfersMove s x.ctx && x.refused.isNone
    && (remoteKind x.kind
      || x.len != 0 && x.kind != .step && x.kind != .fade && tile && ranges && !destBlocked c x && refillTurn cl x.id)

/-- The transfer once a piece has landed. -/
def landed (x : Xfer) (p : Piece) (g : Cargo) (zeroed : Option Nat) (clk : Nat) : Xfer :=
  let bad := match x.dst with
    | .spad o => (markedUnits 64 (o + p.dst) g.bad).foldl (fun m k => nins k m) x.bad
    | _ => x.bad
  { x with len := x.len - p.n, done := x.done + p.n, poison := x.poison || g.bad.any id, bad, zeroed, asked := clk }

/-- The lines that a piece writes at their homes. -/
def destLines (s : State) (core : Nat) (x : Xfer) : List Nat :=
  let p := nextPiece x
  match x.dst with
  | .mem c o =>
    if isFug s x.fn c then []
    else (rangeChunks (o + p.dst) p.n).filterMap fun r => (resolve s (xferPort core x) (capOid c) r.1).map fun k => k / 64
  | _ => []

/-- A request of a core has been served: one that took more clk than its context's slack for its class adds to the core's count of
deadline misses (R167). DESIGN CHOICE, log 31. -/
def noteServed (s : State) (core ctx since : Nat) : State :=
  let c := getContext s ctx
  let k := c.svc % 4
  if coreClk s core - since > (sget 0 k c.slack).toNat then
    modCore s core fun x => { x with dlmiss := sset 0 k (satInc (2 ^ 32 - 1) (sget 0 k x.dlmiss)) x.dlmiss }
  else s

/-- Has a transfer a side in memory? -/
def usesMemory (x : Xfer) : Bool :=
  match x.src, x.dst with
  | .mem _ _, _ => true
  | _, .mem _ _ => true
  | _, _ => false

/-- The next piece of a transfer lands, where nothing holds it and its pages are there. The core's own copies of the lines it writes
have left L1 and reached their homes before. An atomic or queue operation is performed. -/
def landPiece (core id : Nat) (s : State) : Out :=
  match findXfer s core id with
  | none => .next s
  | some x =>
    if !pieceReady s core x then .next s
    else match pieceMet s core x with
      | .nowhere => .fault .noSuchAddress
      | .refused _ _ => .next s
      | .clear =>
        if remoteKind x.kind then performRemote s core x
        else
          let lines := destLines s core x
          let s1 := lines.foldl (fun s l => ejectLine s core l) s
          if lines.any fun l => !(ownWrites s1 core l).isEmpty then .next s1
          else
            let p := nextPiece x
            let g := readSide s1 core x p.src p.n
            let w := writeSide core x p.dst g
            let s2 := putXfer w.state core (landed x p g w.zeroed (coreClk s core))
            .next (if usesMemory x then noteServed s2 core x.ctx x.asked else s2)

/-! ### Refusals (R141) -/

/-- Does a transfer reach a peer module? -/
def reachesPeer (s : State) (x : Xfer) : Bool :=
  let peer (side : Side) : Bool := match side with
    | .mem c _ => objTier (getObject s x.fn (capOid c)) == 3
    | _ => false
  remoteKind x.kind || peer x.src || peer x.dst

/-- RETRY_AFTER_REFUSAL (R141): a request that meets a missing page is refused with a hint; an absent page raises a page
request once. A peer refuses for a page of its own. -/
def execRetryAfterRefusal (core xfer : Nat) (hint : BitVec 8) (s : State) : Out :=
  match findXfer s core xfer with
  | none => .next s
  | some x =>
    if hint = 0 || !pieceReady s core x then .next s
    else
      let y := { x with refused := some (hint.toNat, coreClk s core) }
      match pieceMet s core x with
      | .refused k absent =>
        let asks := absent && !x.requested.contains k
        let s1 := putXfer s core { y with requested := if asks then x.requested ++ [k] else x.requested }
        .next (if asks then raisePage s1 k x.ctx else s1)
      | .clear => .next (if reachesPeer s x then putXfer s core y else s)
      | .nowhere => .next s

/-- RETRY_RESEND (R141): H × 256 clk after the refusal the request is sent again. -/
def execRetryResend (core xfer : Nat) (s : State) : Out :=
  match findXfer s core xfer with
  | none => .next s
  | some x =>
    match x.refused with
    | some (h, t) =>
      if coreClk s core ≥ t + 256 * h then .next (putXfer (spendToken s core) core { x with refused := none }) else .next s
    | none => .next s

/-- PEER_SOURCE_LOST (R386): a request to a peer whose source is lost stays refused until its page is poisoned (DESIGN CHOICE, log 26). -/
def execPeerSourceLost (core xfer : Nat) (s : State) : Out :=
  match findXfer s core xfer with
  | none => .next s
  | some x =>
    if reachesPeer s x && (x.len != 0 || remoteKind x.kind) && x.refused.isNone then
      .next (putXfer s core { x with refused := some (1, coreClk s core) })
    else .next s

/-! ### Completions -/

/-- The scratchpad bytes that a transfer writes. -/
def spadCover (x : Xfer) : List (Nat × Nat) :=
  match x.dst with
  | .spad o =>
    if x.rows ≠ 0 then (List.range x.rows).map fun k => (o + k * x.pitch, x.rowBytes)
    else if x.done = 0 then [] else [(o, x.done)]
  | _ => []

/-- Is every byte of a segment among the covered ones? -/
def segmentCovered (cover : List (Nat × Nat)) (g : Nat) : Bool :=
  (List.range 64).all fun i => cover.any fun r => r.1 ≤ 64 * g + i && 64 * g + i < r.1 + r.2

/-- Segments written whole by some transfers, none of their bytes poisoned, lose their poison bit (R164). -/
def clearSegments (xs : List Xfer) (c : Core) : Core :=
  let cover := xs.flatMap spadCover
  { c with spadPoison := c.spadPoison.filter fun g => !(segmentCovered cover g) || xs.any fun x => nmem g x.bad }

/-- A range retires. -/
def retireRange (id : Nat) (c : Core) : Core := { c with ranges := c.ranges.filter fun r => !(r.id == id) }

/-- Take a transfer out; its counters fall, where the core still holds its launch. -/
def endXfer (s : State) (core : Nat) (x : Xfer) : State :=
  let s1 := dropXfer s core x.id
  if holdsLaunch s core x.launch then lowerAll s1 (xferAgents x) x.ctr else s1

/-- A copy's transfer is over: its segments' poison, its counters, its instruction's range. -/
def endCopy (s : State) (core : Nat) (x : Xfer) : State :=
  let s1 := endXfer (modCore s core (clearSegments [x])) core x
  match x.range with
  | none => s1
  | some r => if (getCore s1 core).xfers.any fun y => y.range == some r then s1 else modCore s1 core (retireRange r)

/-- A gather's transfers are all over: its counters fall together (R148). -/
def endGather (s : State) (core : Nat) (x : Xfer) : State :=
  let xs := (getCore s core).xfers.filter fun y => y.group == x.group
  if xs.all fun y => y.len == 0 then
    let s1 := xs.foldl (fun s y => endXfer s core y) (modCore s core (clearSegments xs))
    match x.range with
    | none => s1
    | some r => modCore s1 core (retireRange r)
  else s

/-- COPY_COMPLETION (R158). -/
def execCopyCompletion (core xfer : Nat) (s : State) : Out :=
  match findXfer s core xfer with
  | none => .next s
  | some x =>
    if x.len ≠ 0 then .next s
    else match x.kind with
      | .copyIn => .next (endCopy s core x)
      | .copyOut => .next (endCopy s core x)
      | .copyx => .next (endCopy s core x)
      | .gather => .next (endGather s core x)
      | _ => .next s

/-- ACCUMULATOR_COPY_COMPLETION (R318). -/
def execAccumulatorCopyCompletion (core xfer : Nat) (s : State) : Out :=
  match findXfer s core xfer with
  | none => .next s
  | some x =>
    if x.len ≠ 0 || !(x.kind == .zld || x.kind == .zst) then .next s
    else
      let cluster := clusterOfCore core
      match tileRequest (getCluster s cluster) x.id with
      | some r => .next (dropRequest (dropXfer s core x.id) cluster r)
      | none => .next (endXfer s core x)

/-- WLOAD_COMPLETION (R321, R322). -/
def execWloadCompletion (core xfer : Nat) (s : State) : Out :=
  match findXfer s core xfer with
  | none => .next s
  | some x =>
    if x.len ≠ 0 || x.kind ≠ .wload then .next s
    else
      let s1 := modCluster s (clusterOfCore core) fun c =>
        { c with loads := c.loads.filter (fun r => !(r.id == x.id)), refill := c.refill.filter fun n => !(n == x.id) }
      .next (endXfer s1 core x)

/-- QCAST_COMPLETION (R329). -/
def execQcastCompletion (core xfer : Nat) (s : State) : Out :=
  match findXfer s core xfer with
  | none => .next s
  | some x =>
    if x.len ≠ 0 || x.kind ≠ .qcast then .next s
    else
      let s1 := (span (4 * clusterOfCore core) 4).foldl (fun s t => modCore s t (retireRange (x.range.getD 0))) s
      .next (endXfer s1 core x)

/-- A part of the book takes the bytes of the transfer buffer, or is cleared where one was poisoned (R298). -/
def replacePart (s : State) (core ctx : Nat) (die bad : Bool) (bs : List Byte) : State :=
  if die then
    setDiePart s (dieOfCore core) ctx (if bad then clearedDiePart ctx else dieOfBytes bs)
  else modCore s core fun c =>
    { c with bank := if bad then {} else bankOfBytes bs, cue := c.cue.map fun q => { q with trained := [] } }

/-- PBK_TRANSFER_COMPLETION (R298). -/
def execPbkTransferCompletion (core xfer : Nat) (s : State) : Out :=
  match findXfer s core xfer with
  | none => .next s
  | some x =>
    if x.len ≠ 0 || !(x.kind == .pbksave || x.kind == .pbkload) then .next s
    else
      let die := x.mod.testBit 0
      let bs := bytesAt 0 (partSize die) (((getCore s core).pbk.map PbkBuffer.bytes).getD [])
      let s1 := if x.kind = .pbkload then replacePart s core x.ctx die x.poison bs else s
      .next (endXfer (modCore s1 core fun c => { c with pbk := c.pbk.filter fun b => !(b.holder == x.id) }) core x)

end Sys2Proof.Machine
end

