-- ==== Sys2Proof/Machine/Flow.lean ====
section
/-! DEFINITION. Events of the memory hierarchy and of the schedulers: fills, write-backs, home writes, responses, restarts,
bins, swaps, tokens, what a die pass counts (R140, R144, R145, R156, R167, R177 to R180, R238, R244, R268, R270, R394). -/

namespace Sys2Proof.Machine

/-! ### L1 and the homes -/

/-- L1_FILL (R144): the open miss of a line is served, with every request that joined it; requests that came later have waited for it
(R168). Every other request of the core for the line is served too, each of them counted (R167). The line was served `back` clk before it
arrives. -/
def execL1Fill (core line back : Nat) (s : State) : Out :=
  .next (((getCore s core).misses.filter fun m => m.line == line).foldl (fun s m => noteServed s core m.ctx (m.opened + back))
    (modCore s core fun c => { c with misses := c.misses.filter fun m => !(m.line == line) }))

/-- RELEASE_FIFO_WRITEBACK (R145). -/
def execReleaseFifoWriteback (core : Nat) (s : State) : Out := .next (popFifo s core)

/-- Is an earlier write of the same core to the same line still to be applied? -/
def writeBlocked (ws : List HomeWrite) (w : HomeWrite) : Bool :=
  ws.any fun x => x.id < w.id && x.core == w.core && x.line == w.line && !x.applied

/-- The port of a home write: its core's translations, its context's object table. -/
def writePort (s : State) (w : HomeWrite) : Port := { fn := (getContext s w.ctx).fn, ctx := w.ctx, core := some w.core }

/-- What a home write does at its home: it writes its bytes, or renews a tile (R366). One that an error has taken writes nothing (R273). -/
def performWrite (s : State) (w : HomeWrite) : State :=
  match w.renew with
  | some r => renewTile s (writePort s w) r.1 r.2
  | none => if w.mask = 0 then s else writeHome s w.line w.mask w.data w.tags w.poison w.cls w.ctx w.sig

/-- Apply a home write: a stamped one stays until its acknowledgement, a write-back is gone. A miss that the core has open for the line
brings it too (R144, R234). -/
def applyWrite (s : State) (w : HomeWrite) : State :=
  let s1 := noteServed (modCore (performWrite s w) w.core (coverMiss w)) w.core w.ctx w.sent
  match w.stamp with
  | some v =>
    noteApplied { s1 with homeWrites := s1.homeWrites.map fun x => if x.id = w.id then { x with applied := true } else x }
      (homeDie (w.line * 64)) v
  | none => { s1 with homeWrites := s1.homeWrites.filter fun x => !(x.id == w.id) }

/-- Does a renewal await a page of its region's bookkeeping? -/
def renewWaits (s : State) (w : HomeWrite) : Bool :=
  match w.renew with
  | some r => (renewMissing s (writePort s w) r.1 r.2).isSome
  | none => false

/-- May a home apply a write now (R244)? -/
def writeReady (s : State) (w : HomeWrite) : Bool :=
  !w.applied && !renewWaits s w && !writeBlocked s.homeWrites w && (match w.stamp with
    | some v => stampReady s (homeDie (w.line * 64)) w.die v
    | none => true)

/-- HOME_WRITE_APPLY (R244). -/
def execHomeWriteApply (index : Nat) (s : State) : Out :=
  match s.homeWrites[index]? with
  | some w => if writeReady s w then .next (applyWrite s w) else .next s
  | none => .next s

/-- The acknowledgement of an applied write reaches its die. -/
def ackWrite (s : State) (w : HomeWrite) : State :=
  let s1 := { s with homeWrites := s.homeWrites.filter fun x => !(x.id == w.id) }
  publishApp (modDie s1 w.die fun d => { d with unacked := d.unacked - 1 }) w.die

/-- HOME_WRITE_ACK (R244). -/
def execHomeWriteAck (index : Nat) (s : State) : Out :=
  match s.homeWrites[index]? with
  | some w => if w.applied then .next (ackWrite s w) else .next s
  | none => .next s

/-! ### Responses and restarts -/

/-- A predicate register file with one bit set or cleared. -/
def putFlag (flag : Option (Nat × Bool)) (p : BitVec 7) : BitVec 7 :=
  match flag with
  | some (n, b) => if b then p ||| BitVec.ofNat 7 (1 <<< n) else p &&& ~~~(BitVec.ofNat 7 (1 <<< n))
  | none => p

/-- The producers that a response's registers and flag replace (R53). -/
def dropProducers (r : Response) (l : List Producer) : List Producer :=
  l.filter fun x => match x.slot with
    | .v n => !(r.regs.any fun e => e.1 == n)
    | .p n => !(r.flag.any fun e => e.1 == n)

/-- A response in its lane: registers and flag, the flag in the scene's snapshot also, since the effect of a commit point stays when a
later scene aborts (R210, R215); the lane goes on. -/
def giveResponse (r : Response) (t : Thread) : Thread :=
  { t with
    v := r.regs.foldl (fun v e => sset 0 e.1 (BitVec.ofNat 32 e.2.toNat) v) t.v
    p := putFlag r.flag t.p
    scene := { t.scene with snapP := putFlag r.flag t.scene.snapP }
    producers := dropProducers r t.producers
    stalled := if t.wait = .response then 0 else t.stalled
    wait := if t.wait = .response then .ready else t.wait }

/-- A response in the cue thread: the oldest command's result, or the register of a replay entry (R232). -/
def giveCue (s : State) (core : Nat) (r : Response) : State :=
  match getCue s core with
  | none => s
  | some q =>
    if !q.response then s
    else match q.buf with
      | [] => setCue s core { q with response := false, c := r.regs.foldl (fun c e => sset 0 e.1 e.2 c) q.c }
      | cmd :: _ => finishCommand s core cmd (r.regs.head?.map Prod.snd)

/-- A value returns to its thread, and its request is served: the acquire first, whose write-backs are applied before the thread goes on; then registers and
flag (R156, R159, R167, R238, R398). -/
def deliverResponse (s : State) (r : Response) : State :=
  let core := agentCore r.agent
  let s1 := match r.acquire with
    | some scope => acquire s core scope
    | none => s
  if !(r.acquire.all fun scope => acquired s1 core scope) then s1
  else
    let s2 := noteServed { s1 with responses := s1.responses.erase r } core r.ctx r.sent
    match r.agent with
    | .lane core cast lane => modThread s2 core cast lane (giveResponse r)
    | .cue core => giveCue s2 core r

/-- The responses on their way to a core. -/
def responsesOf (s : State) (core : Nat) : List Response := s.responses.filter fun r => agentCore r.agent == core

/-- HOME_ACCESS_RESPONSE (R156). -/
def execHomeAccessResponse (core index : Nat) (s : State) : Out :=
  match (responsesOf s core)[index]? with
  | some r => .next (deliverResponse s r)
  | none => .next s

/-- Is a page valid now for a core? -/
def pageValid (s : State) (core : Nat) (k : PageKey) : Bool :=
  match lookup s { fn := k.fn, ctx := coreCtx s core, core := some core } k.oid k.off with
  | .valid _ => true
  | .migrating => false
  | .absent => false
  | .nowhere => false

/-- TRANSLATION_RESTART (R140): the page is valid, or the host has refused it. -/
def execTranslationRestart (who : Agent) (s : State) : Out :=
  match who with
  | .lane core cast lane =>
    match (getThread s core cast lane).wait with
    | .page k => if pageValid s core k then .next (modThread s core cast lane fun t => { t with wait := .ready }) else .next s
    | .refused k => .next (modThread s core cast lane fun t => { t with wait := .ready, denied := some k })
    | _ => .next s
  | .cue core =>
    match getCue s core with
    | none => .next s
    | some q =>
      match q.page with
      | none => .next s
      | some k =>
        if pageValid s core k || q.denied == some k then .next (setCue s core { q with page := none }) else .next s

/-! ### Bins and swaps (R177 to R180) -/

/-- Is a bin ready to be drawn: W threads, or older than 256 clk? -/
def binReady (b : Playbill) (filed : Nat × Nat → Nat) (clk : Nat) (x : Bin) : Bool :=
  decide (x.threads.length ≥ b.width) || decide (clk > binSince filed x + 256)

/-- BIN_DRAW (R177): the bin to draw first among those ready. -/
def execBinDraw (core part bin : Nat) (s : State) : Out :=
  let p := getPart s core part
  let b := coreBill s core
  match oldestBin b (filedAt s core) (p.bins.filter fun e => binReady b (filedAt s core) (coreClk s core) e.2) with
  | some e => if e.1 = bin then .next (setPart s core part (drawBin p bin)) else .next s
  | none => .next s

/-- Does a thread wait on a long-latency dependence (R179): a load that misses L2, a BWAIT, a DQPOP or a QDEQ without entries? -/
def longWait (s : State) (core : Nat) (t : Thread) : Bool :=
  t.live && (match t.wait with
    | .barrier _ _ _ _ | .dqpop | .qdeq _ => true
    | .response => t.stalled == 3
    | .ready => t.stalled == 3 && stallHolds s core t
    | _ => false)

/-- CAST_SWAP (R179): an active cast that cannot issue is swapped with the oldest pending cast that can. -/
def execCastSwap (core out inn : Nat) (s : State) : Out :=
  let part := (getCast s core out).part
  let p := getPart s core part
  let active := p.active.any fun e => e.1 == out
  if active && !(p.swapping.any fun e => e.1 == out) && !castAble s core p out && (getCast s core out).threads.any (longWait s core)
      && nextPending s core part == some inn then .next (swapCasts s core part out inn)
  else .next s

/-- The pending casts that have held a thread able to issue for 192 clk, oldest first (R180). -/
def dueCasts (s : State) (core : Nat) (p : Partition) : List Nat :=
  (p.pending.filter fun e => !(p.swapping.any fun x => x.1 == e.1) && castAble s core p e.1
    && decide (coreClk s core ≥ e.2 + 192)).map Prod.fst

/-- CAST_DUE (R180): the oldest due cast replaces the replaceable active cast that entered the active set earliest. -/
def execCastDue (core part : Nat) (s : State) : Out :=
  let p := getPart s core part
  let clk := coreClk s core
  match dueCasts s core p with
  | [] => .next s
  | inn :: rest =>
    let s1 := setPart s core part { p with due := inn :: rest }
    match p.active.find? fun e => decide (clk ≥ e.2 + 64) && !(p.swapping.any fun x => x.1 == e.1) with
    | some e => .next (swapCasts s1 core part e.1 inn)
    | none => .next s1

/-! ### Tokens (R270) -/

/-- Cores of a die that a function's contexts occupy, and those of them that are backlogged. -/
def functionCores (s : State) (die fn : Nat) (backlogged : Bool) : List Nat :=
  (span (64 * die) 64).filter fun core =>
    let c := getCore s core
    c.launch.isSome && coreFn s core == fn && (!backlogged || c.backlog)

/-- The functions with such cores, and the sum of their weights. -/
def sharers (s : State) (die : Nat) (backlogged : Bool) : List Nat :=
  (List.range 17).filter fun fn => !(functionCores s die fn backlogged).isEmpty
def weightSum (s : State) (fns : List Nat) : Nat := (fns.map fun fn => (getFunc s fn).bwwt).foldl (· + ·) 0

/-- What each bucket of a function receives of a number of tokens. -/
def shareOf (s : State) (die fn total : Nat) (backlogged : Bool) : Nat :=
  let fns := sharers s die backlogged
  let n := (functionCores s die fn backlogged).length
  if n = 0 then 0 else total * (getFunc s fn).bwwt / weightSum s fns / n

/-- TOKEN_REFILL (R270), every 1,024 clk of the die. -/
def execTokenRefill (die : Nat) (s : State) : Out :=
  let d := getDie s die
  if d.clk < d.refilled + 1024 then .next s
  else
    let cores := span (64 * die) 64
    let pool := (cores.map fun core => (getCore s core).tokens).foldl (· + ·) 0
    let give (core : Nat) : Nat :=
      let c := getCore s core
      if c.launch.isNone then 0
      else
        let fn := coreFn s core
        shareOf s die fn 131072 false + (if c.backlog then shareOf s die fn pool true else 0)
    let s1 := cores.foldl (fun acc core => modCore acc core fun c => { c with tokens := give core, backlog := false }) s
    .next (setDie s1 die { d with refilled := d.clk })

/-! ### A die pass (R17, R179, R180, R268, R394) -/

/-- The issue groups that a partition could issue: threads of one cast at one PC, or of one drawn bin. -/
def eligibleGroups (s : State) (core : Nat) (p : Partition) : Nat :=
  let able := if !contextRuns s core then [] else p.active.flatMap fun e =>
    ((enum 0 (getCast s core e.1).threads).filter fun t => threadMayIssue s core (e.1, t.1) && !stallHolds s core t.2).map
      fun t => (e.1, t.1, t.2.pc)
  let keys := able.map fun t =>
    match p.drawn.findIdx? fun g => g.contains (t.1, t.2.1) with
    | some g => (1, g, t.2.2.toNat)
    | none => (0, t.1, t.2.2.toNat)
  (keys.foldl (fun l k => if l.contains k then l else k :: l) []).length

/-- The reason code of a thread that does not issue (R394); one filed in a bin has code 1. DESIGN CHOICE, log 56. -/
def waitReason (s : State) (core : Nat) (t : Thread) : Nat :=
  match t.wait with
  | .ready =>
    if !t.performed.isEmpty then 12
    else if coreClk s core < t.rest then 1
    else if stallHolds s core t then t.stalled else 1
  | .counter _ _ _ => 7
  | .barrier _ _ _ _ => 5
  | .gather => 8
  | .ordy _ _ _ => 9
  | .response => 3
  | .remote _ => 3
  | .qdeq _ => 6
  | .dqpop => 4
  | .page _ => 3
  | .refused _ => 3

/-- The oldest resident cast of a partition: casts are placed in ascending order. DEDUCED, log 56. -/
def oldestCast (s : State) (core : Nat) (p : Partition) : Option Nat :=
  (((p.active ++ p.pending).map Prod.fst).filter fun n => castLive (sget {} n (getCore s core).casts)).min?

/-- The reason of a partition without an eligible group: that of the oldest live thread of its oldest resident cast. -/
def idleReason (s : State) (core : Nat) (p : Partition) : Nat :=
  match oldestCast s core p with
  | none => 0
  | some n =>
    if !contextRuns s core then 12
    else if p.swapping.any fun x => x.1 == n then 11
    else match (getCast s core n).threads.find? Thread.live with
      | some t => waitReason s core t
      | none => 0

/-- The histogram of a partition after `n` clk (R394). -/
def countClk (s : State) (core n : Nat) (p : Partition) : Partition :=
  let k := min 8 (eligibleGroups s core p)
  let bump (w i : Nat) (m : Store Nat) : Store Nat := sset 0 i ((sget 0 i m + n) % 2 ^ w) m
  let r := idleReason s core p
  { p with
    eligible := bump 64 9 (bump 64 k p.eligible)
    reasons := if k = 0 then bump 32 r p.reasons else p.reasons }

/-- A partition after `n` clk: swaps that are over end, a pending cast with no thread able to issue starts its count anew. DEDUCED, log 56. -/
def passPartition (s : State) (core n : Nat) (p : Partition) : Partition :=
  let clk := coreClk s core
  let p1 := endSwaps clk (countClk s core n p)
  { p1 with pending := p1.pending.map fun e => if castAble s core p1 e.1 then e else (e.1, clk) }

/-- A core after `n` clk of its die: CYCLE counts them. -/
def passCore (s : State) (n core : Nat) (c : Core) : Core :=
  let parts : Store Partition := (span 0 4).foldl (fun m i => sput i (passPartition s core n (getPart s core i)) m) []
  { c with cycle := c.cycle + BitVec.ofNat 64 n, parts }

/-- A cluster after `n` clk of its die: the deficit of the function whose turn it is falls from its first issue on, that of a function
without work is 0 where it was above it (R268). -/
def passCluster (s : State) (n : Nat) (e : Nat × Cluster) : Nat × Cluster :=
  let d := match e.2.turnFn with
    | some fn => if clusterHeld s e.1 && e.2.issued then sset 0 fn (sget 0 fn e.2.deficit - n) e.2.deficit else e.2.deficit
    | none => e.2.deficit
  (e.1, { e.2 with deficit := idleDeficits s e.1 d })

/-- `n` clk of a die pass. DESIGN CHOICE, log 24. -/
def elapseDie (s : State) (die n : Nat) : State :=
  let s1 := modDie s die fun d => { d with clk := d.clk + n }
  let cores := (span (64 * die) 64).foldl (fun m i => sput i (passCore s1 n i (getCore s1 i)) m) s1.cores
  let clusters : Store Cluster := s1.clusters.map fun e => if dieOfCluster e.1 == die then passCluster s1 n e else e
  { s1 with cores, clusters }

end Sys2Proof.Machine
end

