-- ==== Sys2Proof/Machine/Preempt.lean ====
section
/-! DEFINITION. Pre-emption and resume: quiescence, the snapshot that the image holds, what a resume restores, the round robin's
pre-emptions (R29 to R31, R148, R186, R190, R227 to R233, R264, R268, R276, R289, R290, R293, R300, R320, R324, R330, R338, R371,
R376; DESIGN CHOICE, log 19). -/

namespace Sys2Proof.Machine

/-! ### Quiescence (R227) -/

/-- The state after an outcome, or as it was where the machine stops. -/
def orStay (s : State) (o : Out) : State :=
  match o with
  | .next s1 => s1
  | .fault _ => s
  | .refused _ => s

/-- Apply a function some times. -/
def rounds (f : State → State) : Nat → State → State
  | 0, s => s
  | n + 1, s => rounds f n (f s)

/-- Every dirty line and every FIFO entry of a core drains. -/
def drainCore (s : State) (core : Nat) : State := modCore (emptyL1 s core) core fun c => { c with fifo := [] }

/-- Each home write in flight that may be applied is applied and acknowledged, oldest first. -/
def settleRound (s : State) : State :=
  s.homeWrites.foldl (fun s w =>
    let s1 := if writeReady s w then applyWrite s w else s
    match s1.homeWrites.find? fun x => x.id == w.id with
    | some x => if x.applied then ackWrite s1 x else s1
    | none => s1) s

/-- Every home write that can reach its home has done so. -/
def settleWrites (s : State) : State := rounds settleRound s.homeWrites.length s

/-- The operations of a core on peer modules' lines are performed, as far as nothing refuses them. -/
def settleRemote (s : State) (core : Nat) : State :=
  ((getCore s core).xfers.filter fun x => remoteKind x.kind && x.refused.isNone).foldl
    (fun s x => orStay s (landPiece core x.id s)) s

/-- One round of a core's rest: its writes reach their homes, responses arrive, BRCs with a known condition resolve, a command that
is no longer speculative is performed. -/
def cueRound (core : Nat) (s : State) : State :=
  let s1 := settleWrites (drainCore (settleRemote s core) core)
  let s2 := (responsesOf s1 core).foldl deliverResponse s1
  let s3 := orStay s2 (execBrcResolve core s2)
  orStay s3 (performHead core s3)

/-- Pieces of a transfer land as far as its pages allow. -/
def landAll (core id n : Nat) (s : State) : State := rounds (fun s => orStay s (landPiece core id s)) n s

/-- The loads that refill a cluster's weight buffer end, before its passes do (R324). -/
def restRefill (s : State) (cluster : Nat) : State :=
  (getCluster s cluster).refill.foldl (fun s id =>
    (span (4 * cluster) 4).foldl (fun s core =>
      match findXfer s core id with
      | some x => let s1 := landAll core id x.len s; orStay s1 (execWloadCompletion core id s1)
      | none => s) s) s

/-- A request of a table moves on where no earlier one holds it: a pass and a ZCLR complete, the pieces of a tile transfer land
(R320). -/
def restRequest (cluster : Nat) (s : State) (r : Request) : State :=
  if requestHeld (getCluster s cluster) r then s
  else match r.kind with
    | .pass _ _ _ _ _ _ => completeRequest s cluster r
    | .zclr => completeRequest s cluster r
    | .zld id => let s1 := landAll r.core id 128 s; orStay s1 (execAccumulatorCopyCompletion r.core id s1)
    | .zst id => let s1 := landAll r.core id 128 s; orStay s1 (execAccumulatorCopyCompletion r.core id s1)
    | .cred _ => s

/-- A round that has all its contributions, and every earlier request complete, completes. -/
def restRound (cluster : Nat) (s : State) (r : Round) : State :=
  if roundFull s cluster r && roundReady (fun _ => false) (getCluster s cluster) r then completeRound s cluster r else s

/-- One round of a cluster's rest. -/
def clusterRound (cluster : Nat) (s : State) : State :=
  let s1 := (getCluster s cluster).table.foldl (restRequest cluster) s
  (getCluster s1 cluster).rounds.foldl (restRound cluster) s1

/-- Is the scene open now the recorded one, with more stores at most? -/
def sceneStays (old now : Scene) : Bool := old.entry == now.entry && old.snapP == now.snapP && old.stores.isPrefixOf now.stores

/-- The scene that a withdrawn contribution gives a lane: that of its CRED. A lane that did not execute it keeps the scene it had open
then, which leads to the CRED again (R338). -/
def withdrawScene (x : Contribution) (lane : Nat) (t : Thread) : Thread :=
  match sfind lane x.scenes with
  | none => t
  | some sc =>
    match sfind (64 + lane) x.scenes with
    | some open' => if sceneStays open' t.scene then t else { t with scene := sc }
    | none => { t with scene := sc }

/-- An open round is withdrawn: each contributing cast stands at its CRED again (R338). -/
def withdrawRound (cluster : Nat) (s : State) (r : Round) : State :=
  let s1 := r.posts.foldl (fun s x =>
    (List.range 64).foldl (fun s l => modThread s x.core x.cast l (withdrawScene x l)) s) s
  dropRound s1 cluster r

/-- A cluster at rest: passes, ZCLRs and full rounds complete, open rounds are withdrawn (R320, R338). -/
def restCluster (s : State) (cluster : Nat) : State :=
  let s1 := restRefill s cluster
  let n := (getCluster s1 cluster).table.length
  let s2 := rounds (clusterRound cluster) (n + 1) s1
  let s3 := rounds (clusterRound cluster) (n + 1) ((getCluster s2 cluster).rounds.foldl (withdrawRound cluster) s2)
  (getCluster s3 cluster).table.foldl (fun s r => if ofEngine r then completeRequest s cluster r else s) s3

/-- Is the fader in the middle of a tile of this job? -/
def midTile (s : State) (core : Nat) (x : Xfer) : Bool :=
  match x.src with
  | .mem c _ =>
    match fugHeader s (xferPort core x) (capOid c) with
    | some f => !faderBusy s x.fn (capOid c) x.id && decide (descNxt (fugDesc s (xferPort core x) (capOid c) f x.tile) ≠ 0)
    | none => false
  | _ => false

/-- The fader stops after the tile it works on (R371). -/
def restFader (s : State) (core : Nat) (x : Xfer) : State :=
  rounds (fun s => match findXfer s core x.id with
    | some y => if midTile s core y then faderTurn s core y else s
    | none => s) 8 s

/-- Is an operation at a peer recorded: has it been refused, or does its page keep it? -/
def remoteRecorded (s : State) (core : Nat) (x : Xfer) : Bool :=
  x.refused.isSome || (match pieceMet s core x with
    | .refused _ _ => true
    | _ => false)

/-- An operation at a peer that is recorded counts as performed in its thread (R233), as does one that comes from a replay entry and is
recorded again; one that only lacks entries is withdrawn, and its thread stands at it again (R300). -/
def restRemote (core : Nat) (s : State) (x : Xfer) : State :=
  if x.resumed || remoteRecorded s core x then remoteMoved s x.agent
  else
    let s1 := dropXfers s core [x.id]
    match x.agent with
    | .lane _ _ _ => s1
    | .cue _ => modCue s1 core fun q => { q with response := false }

/-- A transfer of which every byte has landed completes. -/
def restXfer (core : Nat) (s : State) (x : Xfer) : State :=
  if x.len ≠ 0 then s
  else match x.kind with
    | .copyIn | .copyOut | .copyx | .gather => orStay s (execCopyCompletion core x.id s)
    | .zld | .zst => orStay s (execAccumulatorCopyCompletion core x.id s)
    | .qcast => orStay s (execQcastCompletion core x.id s)
    | .pbksave | .pbkload => orStay s (execPbkTransferCompletion core x.id s)
    | .wload | .step | .fade | .atom | .qenq | .qdeq => s

/-- A transfer as far as its whole rows, or its bytes, have landed. -/
def landedPart (x : Xfer) : Xfer := if x.rowBytes = 0 then x else { x with rows := x.done / x.rowBytes }

/-- The cue thread goes back to the oldest instruction not yet performed (R186, R300). -/
def rewindCue (q : Cue) : Cue :=
  let fresh : Cue := { pc := q.pc, c := q.c, counter := q.counter, codeEpoch := q.codeEpoch, logged := q.logged }
  let toCommand (x : Command) : Cue := { fresh with pc := x.pc, c := x.regs, logged := x.logged }
  let toCheck (k : Checkpoint) : Cue := { fresh with pc := k.pc, c := k.c, logged := k.logged }
  match q.checks, q.buf with
  | [], [] => fresh
  | k :: _, [] => toCheck k
  | [], x :: _ => toCommand x
  | k :: _, x :: _ => if k.id < x.id then toCheck k else toCommand x

/-- The number of the oldest instruction not yet performed, if there is one. -/
def rewindFrom (q : Cue) : Option Nat :=
  match q.checks, q.buf with
  | [], [] => none
  | k :: _, [] => some k.id
  | [], x :: _ => some x.id
  | k :: _, x :: _ => some (min k.id x.id)

/-- The bank without the training of BRCs younger than the instruction to which the cue thread goes back: they will train it again
(R299). -/
def rewindBank (q : Cue) (b : CoreBank) : CoreBank :=
  match rewindFrom q with
  | none => b
  | some n => (q.trained.filter fun e => decide (n < e.1)).foldl (fun b e =>
      { b with bp := sset 1 e.2.1 e.2.2.1 b.bp, hist := BitVec.ofNat 32 (setField b.hist.toNat 23 0 e.2.2.2.toNat) }) b

/-- The tail of the decision queue to which it goes back. -/
def rewindTail (q : Cue) (tail : Nat) : Nat :=
  match q.checks, q.buf with
  | [], [] => tail
  | k :: _, [] => k.dqTail
  | [], x :: _ => x.dqTail
  | k :: _, x :: _ => if k.id < x.id then k.dqTail else x.dqTail

/-- The decision queue at rest: entries that an unresolved BRC holds are gone; those held by WAITs stay, and the cue thread's pushes
up to the old tail will find them (R186, R190). -/
def restQueue (q : Cue) (c : Core) : Core :=
  let checks := q.checks.map Checkpoint.id
  let dq := c.dq.filter fun e => !(e.holds.any checks.contains)
  let saved := match c.dq.find? fun e => e.holds.any checks.contains with
    | some e => e.pos
    | none => max c.dqTail c.dqSaved
  let casts : Store Cast := c.casts.map fun e => (e.1, { e.2 with dqPtr := min e.2.dqPtr saved })
  { c with dq, dqSaved := saved, dqTail := min saved (rewindTail q c.dqTail), casts }

/-- The cue thread at rest: an operation that a replay entry records, a STEP, a FADE or a CLASSMAP that has begun counts as performed
(R233); speculation is undone. -/
def restCue (s : State) (core : Nat) : State :=
  let s1 := match getCue s core with
    | some q => match q.buf with
      | cmd :: _ => if q.response then finishCommand s core cmd none else s
      | [] => s
    | none => s
  match getCue s1 core with
  | none => s1
  | some q => modCore s1 core fun c => { restQueue q c with cue := some (rewindCue q), bank := rewindBank q c.bank }

/-- A lane thread at rest: its scene aborted, its registers outside the live-ins 0 (R29, R30). -/
def restThread (t : Thread) : Thread :=
  { abortThread t with v := t.v.filter (fun e => t.scene.liveV.getLsbD e.1), performed := [], denied := none, rest := 0 }

/-- Every request of a core for a line is served (R167, R227). -/
def serveMisses (s : State) (core : Nat) : State :=
  (getCore s core).misses.foldl (fun s m => noteServed s core m.ctx m.opened) (modCore s core fun c => { c with misses := [] })

/-- Does a transfer write the scratchpad of its own core? A multicast may leave it out (R329). -/
def writesOwn (core : Nat) (x : Xfer) : Bool := !(x.kind == .qcast && x.mod.testBit (core % 4))

/-- A core at rest: commands performed, copies at piece boundaries, its WLOADs abandoned (R186, R227, R324). -/
def restCore (s : State) (core : Nat) : State :=
  let s1 := rounds (cueRound core) 100 s
  let s2 := (getCore s1 core).xfers.foldl (restXfer core) s1
  let s3 := ((getCore s2 core).xfers.filter fun x => x.kind == .step || x.kind == .fade).foldl (fun s x => restFader s core x) s2
  let s4 := ((getCore s3 core).xfers.filter fun x => remoteKind x.kind).foldl (restRemote core) s3
  let s5 := modCore (drainCore (restCue s4 core) core) core fun c =>
    let c1 := (c.xfers.filter (writesOwn core)).foldl (fun c x => clearSegments [landedPart x] c)
      { c with xfers := c.xfers.filter fun x => !(x.kind == .wload) }
    mapLive restThread c1
  serveMisses (settleWrites s5) core

/-- The clusters that hold a context, ascending. -/
def clustersOf (s : State) (ctx : Nat) : List Nat := (coresOf s ctx).foldr (fun c l => nins (clusterOfCore c) l) []

/-- The cores that a context owns, with or without a launch, ascending. -/
def ownedCores (s : State) (ctx : Nat) : List Nat := (s.cores.filter fun e => e.2.owner == some ctx).map Prod.fst

/-- The launches of a context. -/
def launchesOf (s : State) (ctx : Nat) : Store Launch := s.launches.filter fun e => e.2.ctx == ctx

/-- The completion records of a context that are due are written. -/
def restRecords (s : State) (ctx : Nat) : State :=
  (launchesOf s ctx).foldl (fun s e =>
    e.2.ensembles.foldl (fun s x => match x.2.closer with
      | some core => orStay s (execCompletionRecordWrite ctx e.2.number x.1 core s)
      | none => s) s) s

/-- Do casts or cores of a context still wait in its image, of which the next image takes them? -/
def oldNeeded (s : State) (ctx : Nat) : Bool :=
  (launchesOf s ctx).any fun e => !e.2.waiting.isEmpty || !e.2.saved.isEmpty

/-- Can a context come to rest: does no pass wait for weights that are still refilled, can what waits in its image be read (R276, R320,
R324)? -/
def restReady (s : State) (ctx : Nat) : Bool :=
  ((clustersOf s ctx).all fun n => (getCluster s n).refill.isEmpty || !(getCluster s n).table.any ofEngine)
    && (!oldNeeded s ctx || (imageOf s ctx).isSome)

/-- A context comes to rest: nothing of it is in flight but what the image records (R227, R228). A CLASSMAP runs on (R376). DEDUCED,
log 55. -/
def quiesce (s : State) (ctx : Nat) : State :=
  let s1 := (coresOf s ctx).foldl (fun s core => rounds (cueRound core) 100 s) s
  let s2 := (clustersOf s1 ctx).foldl restCluster s1
  let s3 := (coresOf s2 ctx).foldl restCore s2
  let s4 := restRecords (settleWrites ((ownedCores s3 ctx).foldl drainCore s3)) ctx
  { s4 with
    responses := s4.responses.filter fun r => coreCtx s4 (agentCore r.agent) != ctx
    classJobs := s4.classJobs.map fun j => if j.ctx = ctx then { j with agent := none } else j }

/-- Pre-emption of a context begins: it stops, it comes to rest, its image will be written at `place`. -/
def beginPreempt (s : State) (ctx tag : Nat) (asked : Option Nat) (place : Nat × Nat) : State :=
  modContext (quiesce s ctx) ctx fun c => { c with run := .saving tag asked place, held := asked.isNone && c.run == .halted }

/-! ### The snapshot (R29, R231, R264, R290) -/

/-- The casts of a partition in rank order (R290). -/
def rankedCasts (p : Partition) : List Nat := (p.active ++ p.pending).map Prod.fst

/-- The position from which a core's decision queue is counted. -/
def queueBase (c : Core) : Nat := ((c.dq.head?).map fun e => min e.pos c.dqTail).getD c.dqTail

/-- A cast of a core. -/
def snapCast (s : State) (core : Nat) (e : Nat × Cast) : SavedCast :=
  let p := getPart s core e.2.part
  { core, number := (coreLaunch s core).number, index := e.1, residence := if p.active.any (fun a => a.1 == e.1) then 1 else 2
    rank := (rankedCasts p).idxOf e.1, cast := { e.2 with dqPtr := e.2.dqPtr - queueBase (getCore s core) } }

/-- The live casts of a core. -/
def snapCasts (s : State) (core : Nat) : List SavedCast :=
  ((getCore s core).casts.filter fun e => castLive e.2).map (snapCast s core)

/-- The first place in a list at which something holds. -/
def placeOf {α : Type} (p : α → Bool) (l : List α) : Nat := (l.findIdx? p).getD 255

/-- A core: of the launch that it holds or, where only transfers of one go on, of theirs (R12). -/
def snapCore (s : State) (core : Nat) : SavedCore :=
  let c := getCore s core
  let key := (c.launch.or (c.xfers.findSome? Xfer.launch)).getD 0
  let l := getLaunch s key
  let base := queueBase c
  let xs := c.xfers.filter fun x => !(x.kind == .wload)
  { core, number := l.number, queue := l.queue, bill := l.bill, cuePc := c.cue.map Cue.pc, c := (c.cue.map Cue.c).getD []
    dq := c.dq.map fun e => { e with pos := e.pos - base }
    tail := c.dqTail - base, saved := max c.dqTail c.dqSaved - base, ranges := c.ranges.map fun r => (r.lo, r.hi)
    replay := xs.map fun x =>
      { x with range := x.range.bind fun r => c.ranges.findIdx? fun y => y.id == r, group := placeOf (fun y => y.group == x.group) xs
               launch := some (x.launch.getD key % 65536) }
    pbk := c.pbk.map fun b => { b with holder := placeOf (fun x => x.id == b.holder) xs }
    pbkPoison := c.pbk.any fun b => xs.any fun x => x.id == b.holder && x.poison
    spad := c.spad, spadPoison := c.spadPoison }

/-- A cluster. -/
def snapCluster (s : State) (cluster : Nat) : SavedCluster :=
  let c := getCluster s cluster
  { cluster, z := c.z, zPoison := c.zPoison, sources := c.sources }

/-- The playbill that a die is placing for a context (R264). -/
def placingOn (s : State) (ctx die : Nat) : Option Placing :=
  ((launchesOf s ctx).find? fun e => e.2.die == die && !e.2.ended && e.2.next < e.2.bill.casts).map fun e =>
    { number := e.2.number, queue := e.2.queue, next := e.2.next, bill := e.2.bill }

/-- HEADs of the queues of a die that are bound to a context (R264). -/
def headsOn (s : State) (ctx die : Nat) : Store Word :=
  ((List.range 64).filter fun n => let q := getQueue s die n; q.en && q.ctx.toNat == ctx && queueFn q == (getContext s ctx).fn).map
    fun n => (n, (getQueue s die n).head)

/-- The records of launches that no core's record names: drawn and not placed yet, or waiting for transfers or completion records (DESIGN
CHOICE, log 19). -/
def bareCores (s : State) (ctx : Nat) (cores : List SavedCore) : List SavedCore :=
  ((launchesOf s ctx).filter fun e => !launchOver e.2 && !cores.any fun x => x.number == e.2.number).map fun e =>
    { core := 64 * e.2.die, number := e.2.number, queue := e.2.queue, bill := e.2.bill, bare := true }

/-- Is a record the one of its die that carries the queue cursors: that of the lowest core, or the first where the die has none (R264)? -/
def carriesCursors (cores : List SavedCore) (x : SavedCore) : Bool :=
  let l := cores.filter fun y => dieOfCore y.core == dieOfCore x.core
  match (l.find? fun y => !y.bare).or l.head? with
  | some y => y.core == x.core && y.bare == x.bare && y.number == x.number
  | none => false

/-- The cores of an image with the cursors of each die (R264). -/
def withCursors (s : State) (ctx : Nat) (cores : List SavedCore) : List SavedCore :=
  cores.map fun x =>
    let die := dieOfCore x.core
    if carriesCursors cores x then
      { x with placing := placingOn s ctx die, heads := headsOn s ctx die, launches := (getContext s ctx).launches }
    else { x with placing := none, heads := [], launches := 0 }

/-- Insert an item into a list in ascending order of a key. -/
def insertBy {α : Type} (key : α → Nat) (x : α) : List α → List α
  | [] => [x]
  | y :: rest => if key x < key y then x :: y :: rest else y :: insertBy key x rest

/-- What still waits in a context's image to be placed: its casts, their cores and clusters (R276). A cast whose core has moved goes with
it; a pending bit that a charge gave the context's threads meanwhile is theirs (R218). -/
def oldCasts (s : State) (ctx : Nat) (old : Image) : List SavedCast :=
  (old.casts.filter fun x =>
      castLive x.cast && (getLaunch s (launchKey ctx x.number)).waiting.contains x.index).map fun x =>
    let spent := (getContext s ctx).spent
    { x with
      core := (sfind x.core (getContext s ctx).moved).getD x.core
      cast := { x.cast with threads := x.cast.threads.map fun t => { t with exh := t.exh || (t.live && spent) } } }
def oldCores (s : State) (ctx : Nat) (old : Image) : List SavedCore :=
  old.cores.filter fun x => !x.bare && (sfind x.core (getContext s ctx).moved).isNone
    && ((getLaunch s (launchKey ctx x.number)).saved.contains x.core || (oldCasts s ctx old).any fun y => y.core == x.core)

/-- The image of a context at rest. -/
def makeImage (s : State) (ctx : Nat) : Image :=
  let live := coresOf s ctx
  let old := if oldNeeded s ctx then (imageOf s ctx).getD {} else {}
  let left := oldCores s ctx old
  let real := left.foldl (fun l x => insertBy SavedCore.core x l) (live.map (snapCore s))
  let cores := withCursors s ctx ((bareCores s ctx real).foldl (fun l x => insertBy SavedCore.core x l) real)
  { casts := (oldCasts s ctx old).foldl (fun l x => insertBy (fun y => y.core * 2 ^ 32 + y.index) x l) (live.flatMap (snapCasts s))
    cores
    clusters := (old.clusters.filter fun x => left.any fun y => clusterOfCore y.core == x.cluster).foldl
      (fun l x => insertBy SavedCluster.cluster x l) ((clustersOf s ctx).map (snapCluster s))
    launches := (numbersIn cores).map fun n => (n, (getLaunch s (launchKey ctx n)).ensembles) }

/-- Values returned so far to the threads of a context, by global index, and to its cue threads (R396). R29 gives the image no place for
them: they stay in the module with the context (DESIGN CHOICE, log 80). -/
def returnCounts (s : State) (ctx : Nat) : Store Nat :=
  (coresOf s ctx).foldl (fun m core =>
    let c := getCore s core
    let b := coreBill s core
    let m1 := c.casts.foldl (fun m e =>
      (enum 0 e.2.threads).foldl (fun m t => if t.2.live then sset 0 (gidx b e.1 t.1) t.2.logged m else m) m) m
    sset 0 (2 ^ 32 + core) ((c.cue.map Cue.logged).getD 0) m1) (getContext s ctx).counts

/-- The bytes of the book's section (R293): the banks of the cores that the context owns, every other bank as the context's last image
holds it, the die parts. -/
def bookBytes (s : State) (ctx : Nat) : List Byte :=
  let none' := noBook s ctx
  (List.range 256).flatMap (fun core =>
    if (getCore s core).owner = some ctx then bankBytes (getCore s core).bank
    else if none' then bankBytes {}
    else ((bankPlace s ctx core).bind fun p => readObject s p.1 p.2.1 p.2.2 768).getD (bankBytes {}))
    ++ (List.range 4).flatMap fun die => dieBytes (diePart s die ctx)

/-- The port, the object and the offset of an image place. -/
def placePort (ctx : Nat) (place : Nat × Nat) : Port × Nat × Nat :=
  ({ fn := place.1 / 2 ^ 24, ctx, core := none }, place.1 % 2 ^ 24, place.2)

/-- Mark 64-byte units of an image as poisoned: they are written again with their bytes (DESIGN CHOICE, log 19). -/
def markUnits (q : Port) (oid start : Nat) (bs : List Byte) (units : NSet) (s : State) : State :=
  units.foldl (fun s g => writeObject s q oid (start + 64 * g) ((bs.drop (64 * g)).take 64) true) s

/-- Write an image: header, sections, book, poison marks (R231). -/
def writeImage (s : State) (ctx : Nat) (place : Nat × Nat) (img : Image) : State :=
  let p := placePort ctx place
  let starts := sectionStarts 65536 img.lengths
  let put (s : State) (at' : Nat) (bs : List Byte) : State := writeObject s p.1 p.2.1 (p.2.2 + at') bs
  let book := bookBytes s ctx
  let s1 := (List.zip starts img.sections).foldl (fun s e => put s e.1 e.2) (put s 0 (headerBytes (getContext s ctx) ctx img))
  let s2 := put s1 (starts.getLastD 0) book
  let s3 := markUnits p.1 p.2.1 (p.2.2 + starts.getD 5 0) (img.sections.getD 5 []) (spadMarks 0 img.cores) s2
  markUnits p.1 p.2.1 (p.2.2 + starts.getD 6 0) (img.sections.getD 6 []) (tileMarks 0 img.clusters) s3

/-- A core gives up a context whose image is written. -/
def vacateCore (s : State) (ctx core : Nat) : State :=
  modCore s core fun c =>
    if c.owner = some ctx then
      { releaseCore c with
        owner := none, spad := [], spadPoison := [], xfers := [], ranges := [], pbk := none, tlb := [], code := [], misses := [] }
    else c

/-- What leaves the module with a written image: translations, cores, clusters, the launches that the image's core records carry. A bank
staged for the context is that of its old image. -/
def leaveModule (s : State) (ctx : Nat) (img : Image) : State :=
  let s1 := (clustersOf s ctx).foldl (fun s n => modCluster s n fun x => { x with ctx := none, table := [], rounds := [], loads := [], views := [], issued := false }) s
  let s2 := (ownedCores s1 ctx).foldl (fun s core => vacateCore s ctx core) s1
  let keys := img.launches.map fun e => launchKey ctx e.1
  { s2 with
    launches := s2.launches.filter fun e => !(keys.contains e.1)
    dies := s2.dies.map fun e => (e.1, { e.2 with tlb := e.2.tlb.filter fun t => !(t.ctx == ctx) })
    cores := s2.cores.map fun e => (e.1, if e.2.staged = some ctx then { e.2 with staged := none } else e.2) }

/-- Can the banks be read that the new image takes over from the old one (R293)? -/
def bookReady (s : State) (ctx : Nat) : Bool :=
  noBook s ctx || (List.range 256).all fun core => (getCore s core).owner == some ctx || bankWritable s ctx core

/-- Is the place of an image bound and mapped as far as the image reaches, and what it takes over from the old image to be read? -/
def placeReady (s : State) (ctx : Nat) (place : Nat × Nat) (img : Image) : Bool :=
  let p := placePort ctx place
  rangeMapped s p.1 p.2.1 p.2.2 img.total && (!oldNeeded s ctx || (imageOf s ctx).isSome) && bookReady s ctx

/-- The first missing page of a context's image is requested. -/
def requestImage (s : State) (ctx : Nat) : State :=
  match imagePlace s ctx with
  | none => s
  | some (q, oid, off) => requestRange s q oid off (match readObject s q oid off 16 with
    | some h => recNat h 8 8
    | none => 16)

/-- The cores on which an image's casts stood. -/
def coresIn (img : Image) : NSet := ((img.cores.filter fun x => !x.bare).map SavedCore.core).foldr nins []

/-- The image is written: the context leaves its cores and clusters. -/
def saveContext (s : State) (ctx : Nat) (place : Nat × Nat) : State :=
  let img := makeImage s ctx
  modContext (leaveModule (writeImage s ctx place img) ctx img) ctx fun c =>
    { c with image := some place, counts := returnCounts s ctx, homes := coresIn img, moved := [], spent := false }

/-! ### Resume (R232) -/

/-- The playbill, the die and the queue of a launch of an image. -/
def Image.launchOf (img : Image) (number : Nat) : Option (Playbill × Nat × Nat) :=
  match img.cores.find? fun x => x.number == number with
  | some x => some (x.bill, dieOfCore x.core, x.queue)
  | none => img.cores.findSome? fun x => match x.placing with
    | some p => if p.number = number then some (p.bill, dieOfCore x.core, p.queue) else none
    | none => none

/-- The next cast of a launch to place. -/
def Image.nextOf (img : Image) (number casts : Nat) : Nat :=
  (img.cores.findSome? fun x => match x.placing with
    | some p => if p.number = number then some p.next else none
    | none => none).getD casts

/-- The ensembles of a launch: listed as its table lists them now, with the saved counts, which an ensemble that the table no longer names
keeps (R31; DESIGN CHOICE, log 19). -/
def savedEnsembles (b : Playbill) (es : List EnsEntry) (counts : Store Ensemble) : Store Ensemble :=
  (newEnsembles b es).foldl (fun m e =>
    sput e.1 { sget {} e.1 counts with reports := e.2.reports, cluster := e.2.cluster, recOff := e.2.recOff, casts := e.2.casts } m)
    counts

/-- Casts of cluster ensembles that were placed ahead of their turn: a member of theirs stands before the next cast (R327). -/
def aheadOf (next : Nat) (m : Store Ensemble) : NSet :=
  ((m.filter fun e => e.1 < 256 && e.2.cluster && e.2.casts.any fun i => i < next).flatMap fun e =>
    e.2.casts.filter fun i => next ≤ i).foldr nins []

/-- What reading the launches of an image back gives. -/
inductive LaunchesBack where
  | ok (s : State) (ls : List Launch)
  /-- An ensemble table cannot be read yet. -/
  | waits (s : State)

/-- The launches of an image. A table that has broken its rules since the launch gives no ensembles (DESIGN CHOICE, log 19). -/
def launchesBack (fn ctx : Nat) (img : Image) : List (Nat × Store Ensemble) → State → LaunchesBack
  | [], s => .ok s []
  | e :: rest, s =>
    match img.launchOf e.1 with
    | none => launchesBack fn ctx img rest s
    | some (bill, die, queue) =>
      let go (s : State) (es : List EnsEntry) : LaunchesBack :=
        let m := savedEnsembles bill es e.2
        let next := img.nextOf e.1 bill.casts
        let l : Launch :=
          { ctx, number := e.1, die, queue, bill, next, ahead := aheadOf next m, ensembles := m, ended := (sget {} kernelScope e.2).written
            cues := (img.cores.filter fun x => x.number == e.1 && x.cuePc.isSome).length }
        match launchesBack fn ctx img rest s with
        | .ok s1 ls => .ok s1 (l :: ls)
        | .waits s1 => .waits s1
      match readTable s fn bill with
      | .ok s1 es => go s1 es
      | .bad s1 => go s1 []
      | .waits s1 => .waits s1

/-- Does a cluster stand in the partition of a context's function? -/
def inPartition (s : State) (ctx cluster : Nat) : Bool := (partitionOn s (getContext s ctx).fn (dieOfCluster cluster)).contains cluster

/-- A launch with what waits in the image: casts whose cluster has left the partition, and cores that travel (R276). -/
def withWaiting (s : State) (img : Image) (l : Launch) : Launch :=
  let gone (core : Nat) : Bool := !inPartition s l.ctx (clusterOfCore core)
  { l with
    waiting := ((img.casts.filter fun x => x.number == l.number && gone x.core && castLive x.cast).map SavedCast.index).foldr nins []
    saved := ((img.cores.filter fun x =>
      x.number == l.number && !x.bare && gone x.core && coreTravels s l.ctx img x).map SavedCore.core).foldr nins [] }

/-- Put the casts of a cluster back on the cores they stood on, in rank order (R290). -/
def restoreCasts (s : State) (ctx : Nat) (img : Image) (cluster : Nat) : State :=
  let xs := img.casts.filter fun x =>
    clusterOfCore x.core == cluster && castLive x.cast && (sfind (launchKey ctx x.number) s.launches).isSome
  (xs.foldl (fun l x => insertBy SavedCast.rank x l) []).foldl (fun s x => putSaved s x.core x.cast.part x) s

/-- Queue cursors of an image return to the queues bound to the context (R264). -/
def restoreCursors (s : State) (ctx : Nat) (img : Image) : State :=
  img.cores.foldl (fun s x =>
    x.heads.foldl (fun s e =>
      let die := dieOfCore x.core
      let q := getQueue s die e.1
      if q.en && q.ctx.toNat == ctx && queueFn q == (getContext s ctx).fn && q.head != e.2 then
        setQueue s die e.1 { q with head := e.2, ready := none }
      else s) s) s

/-- Can an image be restored: is none of its clusters that stand in the partition held, is one of them in the context's turn, are the
banks of their cores ready? -/
def placesFree (s : State) (ctx : Nat) (img : Image) : Bool :=
  let here := (clustersIn img.cores).filter (inPartition s ctx)
  here.all (fun n => !clusterHeld s n && clusterIdle s n ctx) && (here.isEmpty || here.any fun n => turnOf s n ctx)
    && (coresIn img).all fun k => !inPartition s ctx (clusterOfCore k) || bankReady s k ctx

/-- The cores, the casts and the cursors of an image whose launches are back. -/
def restoreItems (s : State) (ctx : Nat) (img : Image) (ls : List Launch) : State :=
  let s1 := { s with launches := ls.foldl (fun m (l : Launch) => sput (launchKey ctx l.number) l m) s.launches }
  let s2 := { s1 with launches := ls.foldl (fun m (l : Launch) => sput (launchKey ctx l.number) (withWaiting s1 img l) m) s1.launches }
  let s3 := modContext s2 ctx fun c =>
    { c with run := if c.held then .halted else .running, held := false, homes := coresIn img, moved := []
             launches := ((img.cores.filter fun x => !x.heads.isEmpty || x.launches != 0).head?.map SavedCore.launches).getD c.launches }
  let s4 := ((clustersIn img.cores).filter (inPartition s3 ctx)).foldl
    (fun s n => restoreCasts (moveCluster s ctx img n n) ctx img n) s3
  modContext (restoreCursors s4 ctx img) ctx fun c => { c with spent := c.spent && heldInImage s4 ctx }

/-- A saved context is restored from its image and runs, if the image can be read and its places are free; else what it lacks is
requested. -/
def restoreContext (s : State) (ctx : Nat) : State :=
  match imagePlace s ctx, imageOf s ctx with
  | some _, some img =>
    if !placesFree s ctx img then s
    else match launchesBack (getContext s ctx).fn ctx img img.launches s with
      | .waits s1 => s1
      | .ok s1 ls => restoreItems s1 ctx img ls
  | some _, none => requestImage s ctx
  | none, _ => s

/-! ### The round robin (R268) -/

/-- The turn of a cluster that no launch holds passes on; a context whose image waits for it is restored. -/
def passTurn (s : State) (cluster : Nat) : State :=
  let s1 := giveTurn s cluster
  match (getCluster s1 cluster).turnCtx with
  | some ctx => if (getContext s1 ctx).run == .parked then restoreContext s1 ctx else s1
  | none => s1

/-- DEFICIT_EXHAUSTED (R268): the function whose turn it is has used its deficit. Where another function has work, its
context on the cluster is pre-empted, running or halted, if it has an image object to be saved in; else it adds its quantum and goes on. A cluster that
no launch holds passes to the next function. DESIGN CHOICE, log 19. -/
def execDeficitExhausted (cluster : Nat) (s : State) : Out :=
  let c := getCluster s cluster
  if !clusterHeld s cluster then .next (passTurn s cluster)
  else
    match c.turnFn, c.ctx with
    | some fn, some ctx =>
      let others := (List.range 17).any fun f => f != fn && functionWork s cluster f
      let more : Out := .next (setCluster s cluster { c with deficit := sset 0 fn (sget 0 fn c.deficit + quantum s fn) c.deficit })
      if sget 0 fn c.deficit > 0 then .next s
      else if !others then more
      else match (getContext s ctx).image with
        | none => more
        | some place =>
          if ((getContext s ctx).run == .running || (getContext s ctx).run == .halted) && restReady s ctx then .next (beginPreempt s ctx 0 none place) else .next s
    | _, _ => .next s

end Sys2Proof.Machine
end

