-- ==== Sys2Proof/Machine/Commands.lean ====
section
/-! DEFINITION. The commands of the host and the ends of those that take time (R23, R31, R138, R140, R141, R227, R231, R232,
R292, R293, R360, R381, R382, R384, R387, R388, R395, R396, R400, R401; DESIGN CHOICE, log 19 to 21, log 27). -/

namespace Sys2Proof.Machine

/-! ### The ring (R379, R381, R384) -/

/-- A command (R381); `ops` is OPS from its bit 0, `raw` the whole. -/
structure Cmd where
  op : Nat
  tag : Nat
  ctx : Nat
  oid : Nat
  off : Nat
  ops : Nat
  raw : Nat
  deriving DecidableEq, Repr

/-- A command from its 512 bits. -/
def parseCmd (x : Nat) : Cmd :=
  { op := field x 7 0, tag := field x 31 16, ctx := field x 43 32, oid := field x 127 104, off := field x 103 64
    ops := x >>> 128, raw := x }

/-- Does a reset of the function drain? -/
def draining (s : State) (fn : Nat) : Bool :=
  match (getFunc s fn).flr with
  | .draining _ => true
  | .idle => false
  | .queued => false

/-- The next command of a function's ring, if one waits and can be read. -/
def readCommand (s : State) (fn : Nat) : State × Option Cmd :=
  let f := getFunc s fn
  if f.cmdHead = f.cmdDoor ∨ draining s fn then (s, none)
  else
    let base := f.cmdBase.toNat
    if !ringLog f.cmdLog.toNat then (s, none)
    else match frontRead s fn (field base 63 40) (field base 39 0 + 64 * (f.cmdHead.toNat % 2 ^ f.cmdLog.toNat)) 64 with
    | .ok s1 bs => (s1, some (parseCmd (ofBytes bs)))
    | .outside => (s, none)
    | .poisoned s1 => (s1, none)
    | .waits s1 => (s1, none)

/-- A command completes with a status (R383, R384). -/
def complete (fn : Nat) (c : Cmd) (status detail : Nat) (s : State) : State := postEvent s fn 0x01 status c.tag c.ctx detail

/-- Are the reserved bits of a command 0, and the bits of OPS that its command does not use (R381, R382)? -/
def cmdReserved (used : Nat) (c : Cmd) : Bool :=
  field c.raw 63 44 == 0 && field c.raw 15 8 == 0 && c.ops &&& used == c.ops

/-- Does a virtual function's command name a context of another function (R400)? -/
def foreignCtx (s : State) (fn : Nat) (c : Cmd) : Bool :=
  fn != physFn && (match sfind c.ctx s.contexts with
    | some x => x.fn != fn
    | none => false)

/-- What a command comes to at its start. -/
inductive CmdStep where
  | done (s : State)
  /-- It stays in the ring; what it lacks is requested. -/
  | waits (s : State)

/-- Start the next command of a function, if it is the one with this OP. `used` is the mask of the OPS bits in use. -/
def startCommand (fn op used : Nat) (pf : Bool) (act : Cmd → State → CmdStep) (s : State) : Out :=
  match readCommand s fn with
  | (s1, none) => .next s1
  | (s1, some c) =>
    if c.op ≠ op then .next s
    else
      let s2 := modFunc s1 fn fun f => { f with cmdHead := f.cmdHead + 1 }
      if !cmdReserved used c then .next (complete fn c 0x01 0 s2)
      else if (pf && fn != physFn) || foreignCtx s fn c then .next (complete fn c 0x02 0 s2)
      else match act c s2 with
        | .done s3 => .next s3
        | .waits s3 => .next (modFunc s3 fn fun f => { f with cmdHead := (getFunc s fn).cmdHead })

/-- UNKNOWN_OP (R382): a command with an OP that is not assigned. -/
def execUnknownOp (fn : Nat) (s : State) : Out :=
  match readCommand s fn with
  | (s1, none) => .next s1
  | (s1, some c) =>
    if 1 ≤ c.op ∧ c.op ≤ 0x0A then .next s
    else .next (complete fn c 0x01 0 (modFunc s1 fn fun f => { f with cmdHead := f.cmdHead + 1 }))

/-- The commands up to the count are there (R379). -/
def setCmdDoor (s : State) (fn : Nat) (value : Word) : State := modFunc s fn fun f => { f with cmdDoor := value }

/-- CMDDOOR_WRITE (R259, R380): it covers every earlier write of the host, and so waits behind those that wait for their pages; the others
have reached their homes. -/
def execCmddoorWrite (fn : Nat) (value : Word) (s : State) : Out :=
  .next (if s.hostWaiting.isEmpty then setCmdDoor s fn value else { s with hostWaiting := s.hostWaiting ++ [.cmdDoor fn value] })

/-- EVHEAD_WRITE (R384): events that waited for room are written. -/
def execEvheadWrite (fn : Nat) (value : Word) (s : State) : Out :=
  let s1 := modFunc s fn fun f => { f with evHead := value }
  .next (drainEvents s1 fn (getFunc s1 fn).events.length)

/-! ### PREEMPT (R227, R292, R401) -/

/-- The bank of the context that comes next is staged on the cores of one that leaves, where its image can be read (R292). -/
def stageNext (s : State) (ctx next : Nat) : State :=
  if next = 0 || (sfind next s.contexts).isNone then s
  else (coresOf s ctx).foldl (fun s core =>
    match storedBank s next core with
    | some k => modCore s core fun c => { c with staging := k, staged := some next }
    | none => s) s

/-- May the run state be pre-empted: running, or halted by the debug core? -/
def canPreempt : RunState → Bool
  | .running => true
  | .halted => true
  | .saving _ _ _ => false
  | .saved => false
  | .parked => false

/-- May a context be pre-empted: its run state allows it and its function is not being reset? -/
def preemptable (s : State) (ctx : Nat) : Bool :=
  canPreempt (getContext s ctx).run && !draining s (getContext s ctx).fn

/-- PREEMPT of a context that exists: it waits while the context cannot come to rest. -/
def preemptAt (fn : Nat) (c : Cmd) (s : State) : CmdStep :=
  let o := getObject s fn c.oid
  if !preemptable s c.ctx then .done (complete fn c 0x05 0 s)
  else if !objValid o || objClass o != 2 || c.off + (makeImage s c.ctx).total > objSize o then .done (complete fn c 0x04 0 s)
  else if !restReady s c.ctx then .waits s
  else .done (beginPreempt (stageNext s c.ctx (c.ops % 4096)) c.ctx c.tag (some fn) (fn * 2 ^ 24 + c.oid, c.off))

/-- PREEMPT (R227). -/
def execPreempt (fn : Nat) (s : State) : Out :=
  startCommand fn 0x01 0xFFF false (fun c s =>
    if (sfind c.ctx s.contexts).isSome then preemptAt fn c s else .done (complete fn c 0x05 0 s)) s

/-- The state of a context once its image is written, for the command or for the module itself. -/
def savedRun (s : State) (ctx tag : Nat) (asked : Option Nat) : State :=
  match asked with
  | some fn => postEvent (modContext s ctx fun c => { c with run := .saved }) fn 0x01 0 tag ctx 0
  | none => modContext s ctx fun c => { c with run := .parked }

/-- PREEMPTION_IMAGE_SAVED (R231): the image is written, the command that asked for it completes. A page that is missing is awaited. -/
def execPreemptionImageSaved (ctx : Nat) (s : State) : Out :=
  match (getContext s ctx).run with
  | .saving tag asked place =>
    let img := makeImage s ctx
    if placeReady s ctx place img then .next (savedRun (saveContext s ctx place) ctx tag asked)
    else
      let p := placePort ctx place
      .next (requestImage (requestRange s p.1 p.2.1 p.2.2 img.total) ctx)
  | .running => .next s
  | .saved => .next s
  | .parked => .next s
  | .halted => .next s

/-! ### RESUME (R23, R31, R231, R232, R293, R401) -/

/-- Do the entries of SECDIR name sections in order after the header, within TOTAL, each at a multiple of 4 KiB? -/
def sectionsSound (total : Nat) : Nat → List (Nat × Nat) → Bool
  | _, [] => true
  | at', e :: rest => at' ≤ e.1 && e.1 % 4096 == 0 && e.1 + e.2 ≤ total && sectionsSound total (e.1 + e.2) rest

/-- Is a header sound (R401)? `room` is what the object holds from the image's start on. -/
def headerSound (ctx room : Nat) (bs : List Byte) : Bool :=
  let total := recNat bs 8 8
  recNat bs 0 4 == 0x00010000 && recNat bs 4 4 == 10 && total ≤ 288 * 2 ^ 20 && total ≤ room
    && recNat bs 0x1C 4 == 0 && recNat bs 0xC8 40 == 0 && recNat bs 0xF4 12 == 0
    && 0x100 + 4 * recNat bs 0xF0 4 ≤ 65536 && rising (objList bs) && (objList bs).all (fun x => x < 2 ^ 24)
    && recNat bs 0x14 4 % 4096 == ctx && sectionsSound total 65536 (secDir bs)

/-- The die parts of a book's section, or that they await a page. A section that is short or poisoned gives cleared ones (DESIGN CHOICE,
log 19). -/
inductive BookRead where
  | parts (bs : Option (List Byte))
  | waits (s : State)

def readBook (s : State) (fn oid off len : Nat) : BookRead :=
  if len < bookSize then .parts none
  else match frontRead s fn oid (off + 196608) 2048 with
    | .ok _ bs => .parts (some bs)
    | .outside => .parts none
    | .poisoned _ => .parts none
    | .waits s1 => .waits s1

/-- Load the die parts of a book, normalised (R293). -/
def loadParts (s : State) (ctx : Nat) (parts : Option (List Byte)) : State :=
  (List.range 4).foldl (fun s die =>
    setDiePart s die ctx (match parts with
      | some bs => dieOfBytes ((bs.drop (512 * die)).take 512)
      | none => clearedDiePart ctx)) s

/-- A context as the header of an image gives it: MODE with its bit PRIV, whoever resumes it (R24, R232; DESIGN CHOICE, log 81). -/
def headerContext (c : Cmd) (place : Nat × Nat) (bs : List Byte) (x : Context) : Context :=
  { x with
    mode := BitVec.ofNat 32 (recNat bs 0x10 4), ctxid := BitVec.ofNat 32 (recNat bs 0x14 4), ebud := BitVec.ofNat 32 (recNat bs 0x18 4)
    stepbase := BitVec.ofNat 64 (recNat bs 0x20 8), fn := ctxidFn (recNat bs 0x14 4), svc := c.ops % 4
    slack := sset 0 (c.ops % 4) (BitVec.ofNat 32 (field c.ops 63 32)) x.slack, run := .parked, image := some place, moved := [], spent := false
    held := false }

/-- A bank that was staged for a context from another image is not used. -/
def unstage (s : State) (ctx : Nat) (place : Nat × Nat) : State :=
  if (getContext s ctx).image = some place then s
  else { s with cores := s.cores.map fun e => (e.1, if e.2.staged = some ctx then { e.2 with staged := none } else e.2) }

/-- The context of a sound image: its registers and its die parts from the image, then its items, if their places are free. -/
def resumeAt (fn : Nat) (c : Cmd) (bs : List Byte) (parts : Option (List Byte)) (s : State) : State :=
  let place := (fn * 2 ^ 24 + c.oid, c.off)
  let s1 := modContext (loadParts (unstage s c.ctx place) c.ctx parts) c.ctx (headerContext c place bs)
  let homes := match imageOf s1 c.ctx with
    | some img => coresIn img
    | none => []
  let s2 := modContext s1 c.ctx fun x => { x with homes }
  complete fn c 0 0 (restoreContext s2 c.ctx)

/-- The checks of a RESUME whose header has been read, in the order of R401 and R23. -/
def resumeChecked (fn : Nat) (c : Cmd) (bs : List Byte) (s : State) : CmdStep :=
  let owner := ctxidFn (recNat bs 0x14 4)
  let run := recNat bs 0x10 4 % 4
  let replaying := match (getContext s c.ctx).recording with
    | some r => r.mode == 2
    | none => false
  if !headerSound c.ctx (objSize (getObject s fn c.oid) - c.off) bs || run == 3 then .done (complete fn c 0x04 0 s)
  else if fn ≠ physFn ∧ owner ≠ fn then .done (complete fn c 0x02 0 s)
  else if draining s owner then .done (complete fn c 0x05 0 s)
  else if run = 2 ∧ !replaying then .done (complete fn c 0x05 0 s)
  else match (objList bs).find? fun oid => !objValid (getObject s owner oid) with
    | some oid => .done (complete fn c 0x03 oid s)
    | none =>
      let sec := (secDir bs).getLastD (0, 0)
      if !rangeMapped s (outerPort fn) c.oid c.off (recNat bs 8 8) then .waits (requestRange s (outerPort fn) c.oid c.off (recNat bs 8 8))
      else match readBook s fn c.oid (c.off + sec.1) sec.2 with
        | .parts p => .done (resumeAt fn c bs p s)
        | .waits s1 => .waits s1

/-- RESUME_COMMAND (R232). -/
def execResumeCommand (fn : Nat) (s : State) : Out :=
  startCommand fn 0x02 0xFFFFFFFF00000003 false (fun c s =>
    let o := getObject s fn c.oid
    let waiting := match sfind c.ctx s.contexts with
      | some x => x.run == .saved
      | none => true
    if !waiting || c.ctx = 0 then .done (complete fn c 0x05 0 s)
    else if !objValid o || objClass o != 2 then .done (complete fn c 0x04 0 s)
    else match frontRead s fn c.oid c.off 0x100 with
      | .waits s1 => .waits s1
      | .outside => .done (complete fn c 0x04 0 s)
      | .poisoned s1 => .done (complete fn c 0x04 0 s1)
      | .ok s1 bs =>
        match frontRead s1 fn c.oid c.off (min 65536 (0x100 + 4 * recNat bs 0xF0 4)) with
        | .waits s2 => .waits s2
        | .outside => .done (complete fn c 0x04 0 s1)
        | .poisoned s2 => .done (complete fn c 0x04 0 s2)
        | .ok s2 hdr => resumeChecked fn c hdr s2) s

/-! ### INVAL and PAGERESP (R138, R140, R141, R384) -/

/-- Is a command of the function unfinished: one that takes time, or one whose completion waits for room in the ring? -/
def cmdsBusy (s : State) (fn : Nat) : Bool :=
  s.pulls.any (fun j => j.fn == fn) || (getFunc s fn).events.any (fun e => field e.toNat 7 0 == 1)
    || s.contexts.any fun e => match e.2.run with
      | .saving _ asked _ => asked == some fn
      | .running => false
      | .saved => false
      | .parked => false
      | .halted => false

/-- Remove the translations of a function in a range of an object. -/
def dropRange (s : State) (fn oid lo n : Nat) : State :=
  let keep (e : TlbEntry) : Bool := !(e.fn == fn && e.oid == oid && overlaps e.off e.size lo n)
  let cores : Store Core := s.cores.map fun e => (e.1, { e.2 with tlb := e.2.tlb.filter keep })
  let dies : Store Die := s.dies.map fun e => (e.1, { e.2 with tlb := e.2.tlb.filter keep })
  { s with cores, dies }

/-- The key of an object's entry. -/
def objKey (fn oid : Nat) : Nat := fn * 2 ^ 24 + oid

/-- The entry of an object that the host has written comes into effect (R138; DESIGN CHOICE, log 84). -/
def takeEntry (s : State) (fn oid : Nat) : State :=
  match sfind (objKey fn oid) s.objectWrites with
  | some e => setObject { s with objectWrites := sdel (objKey fn oid) s.objectWrites } fn oid e
  | none => s

/-- INVAL (R138, R382). -/
def execInval (fn : Nat) (s : State) : Out :=
  startCommand fn 0x03 (2 ^ 40 - 1) false (fun c s =>
    if cmdsBusy s fn then .waits s
    else .done (complete fn c 0 0 (takeEntry (dropRange s fn c.oid c.off (c.ops % 2 ^ 40)) fn c.oid))) s

/-- What an answer to a page request does to a lane thread. -/
def answerThread (k : PageKey) (mapped : Bool) (t : Thread) : Thread :=
  if t.wait = .page k then { t with wait := if mapped then .ready else .refused k } else t

/-- What it does to a cue thread. -/
def answerCue (k : PageKey) (mapped : Bool) (q : Cue) : Cue :=
  if q.page = some k then (if mapped then { q with page := none } else { q with denied := some k }) else q

/-- What it does to a transfer. -/
def answerXfer (k : PageKey) (mapped : Bool) (x : Xfer) : Xfer :=
  if x.requested.contains k then
    { x with requested := x.requested.filter (fun y => !(y == k)), denied := if mapped then x.denied else k :: x.denied }
  else x

/-- What it does to a core. -/
def answerCore (k : PageKey) (mapped : Bool) (c : Core) : Core :=
  { c with
    casts := c.casts.map fun e => (e.1, { e.2 with threads := e.2.threads.map (answerThread k mapped) })
    cue := c.cue.map (answerCue k mapped)
    xfers := c.xfers.map (answerXfer k mapped) }

/-- What it does to the requests of peers that have been refused: those for a mapped page are forgotten, those for a refused one end when
they come again (R141). -/
def answerPeer (k : PageKey) (mapped : Bool) (l : List (PeerAsk × Bool)) : List (PeerAsk × Bool) :=
  if mapped then l.filter fun e => !(e.1.key == k) else l.map fun e => if e.1.key = k then (e.1, true) else e

/-- What it does to a die, whose debug core may await the page. -/
def answerDie (k : PageKey) (mapped : Bool) (d : Die) : Die :=
  { d with predicate := d.predicate.map fun p =>
      if p.page = some (k, false) then { p with page := if mapped then none else some (k, true) } else p }

/-- The host answers a page request. -/
def answerPage (k : PageKey) (mapped : Bool) (s : State) : State :=
  if s.pageRequests.contains k then
    let cores : Store Core := s.cores.map fun e => (e.1, answerCore k mapped e.2)
    let dies : Store Die := s.dies.map fun e => (e.1, answerDie k mapped e.2)
    { s with cores, dies, pageRequests := s.pageRequests.filter (fun x => !(x == k)), peerPages := answerPeer k mapped s.peerPages }
  else s

/-- PAGERESP (R140). -/
def execPageresp (fn : Nat) (s : State) : Out :=
  startCommand fn 0x04 1 false (fun c s =>
    if cmdsBusy s fn then .waits s
    else .done (complete fn c 0 0 (answerPage (pageKeyOf s fn c.oid c.off) (c.ops % 2 == 1) s))) s

/-! ### FUGSET and INJECT (R384, R400) -/

/-- The function whose table a PF-only command resolves its object in. -/
def tableFn (s : State) (c : Cmd) : Option Nat :=
  if c.ctx = 0 then some physFn
  else match sfind c.ctx s.contexts with
    | some x => some x.fn
    | none => none

/-- Object IDs that a saved context's image names, as its header lists them. -/
def savedObjects (s : State) (ctx : Nat) : List Nat :=
  match imagePlace s ctx with
  | none => []
  | some (q, oid, off) => match readObject s q oid off 65536 with
    | some h => objList h
    | none => []

/-- Is an object in use by a context of its function? -/
def objectUsed (s : State) (fn oid : Nat) : Bool :=
  (contextsOf s fn).any fun ctx => (makeImage s ctx).objects.contains oid
    || (match (getContext s ctx).run with
      | .saved => (savedObjects s ctx).contains oid
      | .parked => (savedObjects s ctx).contains oid
      | .running => false
      | .halted => false
      | .saving _ _ _ => false)

/-- The lines of an object's extents have drained and its bytes move into Washfast groups from its chunk pool on. -/
def fugMove (fn t : Nat) (c : Cmd) (first pool : Nat) (s : State) : CmdStep :=
  let o := getObject s t c.oid
  match takeGroups s pool (objTier o) 1 (pagesFrom o first) with
  | none => .done (complete fn c 0x04 0 s)
  | some groups =>
    .done (complete fn c 0 0
      (regroup (dropTranslations (reserveGroups s pool 1 groups) t c.oid) t c.oid first 1 3 pool groups true 0 0))

/-- FUGSET on an object of function `t`: its header is read once its lines have drained. -/
def fugsetAt (fn t : Nat) (c : Cmd) (s : State) : CmdStep :=
  let o := getObject s t c.oid
  let q := outerPort t
  if !objValid o then .done (complete fn c 0x03 c.oid s)
  else if objClass o ≠ 2 ∨ objPaged o ∨ objTier o ≥ 2 ∨ objectUsed s t c.oid ∨ c.off ≠ 0 then .done (complete fn c 0x04 0 s)
  else
    let s1 := drainExtents s (objTier o) (extentsOf s o)
    if s1.homeWrites.any fun w => !w.applied && inExtents (objTier o) (extentsOf s o) w.line then .waits s1
    else match firstMissing s1 q c.oid [0] with
      | some _ => .waits (requestRange s1 q c.oid 0 64)
      | none =>
        match fugHeader s1 q c.oid with
        | none => .done (complete fn c 0x04 0 s1)
        | some f => fugMove fn t c f.poff (c.ops % 256) s1

/-- FUGSET (R384). -/
def execFugset (fn : Nat) (s : State) : Out :=
  startCommand fn 0x05 0xFF true (fun c s =>
    match tableFn s c with
    | some t => fugsetAt fn t c s
    | none => .done (complete fn c 0x05 0 s)) s

/-- INJECT (R382): the next check of the line fails, as that line's class has it. -/
def execInject (fn : Nat) (s : State) : Out :=
  startCommand fn 0x07 1 true (fun c s =>
    match tableFn s c with
    | none => .done (complete fn c 0x05 0 s)
    | some t =>
      if !objValid (getObject s t c.oid) then .done (complete fn c 0x03 c.oid s)
      else match resolve s (outerPort t) c.oid c.off with
        | none => .done (complete fn c 0x04 0 s)
        | some k => .done (complete fn c 0 0 { s with injected := sput (k / 64) (c.ops % 2 == 1) s.injected })) s

/-! ### PULL (R387) -/

/-- The leaf entry that maps an offset of a paged object: its key and the first byte and the size of its page. -/
def findLeaf (s : State) (off : Nat) : List (Nat × Nat) → Nat → Option (Nat × Nat × Nat)
  | [], _ => none
  | (sh, w) :: rest, table =>
    let at' := table + 8 * (off / 2 ^ sh % 2 ^ w)
    let x := homeNat s at' 8
    if !x.testBit 63 then none
    else if x.testBit 62 then some (at', off / 2 ^ sh * 2 ^ sh, 2 ^ sh)
    else findLeaf s off rest (field x 51 12 * 4096)

/-- The leaf of an offset of an object. -/
def leafOf (s : State) (fn oid off : Nat) : Option (Nat × Nat × Nat) :=
  findLeaf s off tableLevels (objRoot (getObject s fn oid))

/-- Rewrite a leaf: MIG 0, and PSN 1 where its source is lost. -/
def endMigration (s : State) (at' : Nat) (lost : Bool) : State :=
  let x := setField (homeNat s at' 8) 61 61 0
  putKeyBytes s [(at' / 64 * 64 + at' % 64, 8)] (toBytes 8 (if lost then setField x 60 60 1 else x))

/-- Does the leaf of every 4 KiB page of a range hold MIG 1? -/
def allMigrating (s : State) (fn oid off pages : Nat) : Bool :=
  (List.range pages).all fun i => match leafOf s fn oid (off + 4096 * i) with
    | some (k, _, _) => (homeNat s k 8).testBit 61
    | none => false

/-- PULL (R387). -/
def execPull (fn : Nat) (s : State) : Out :=
  startCommand fn 0x06 (2 ^ 96 - 1) false (fun c s =>
    let o := getObject s fn c.oid
    let pages := field c.ops 95 64
    if !objValid o then .done (complete fn c 0x03 c.oid s)
    else if !objPaged o || c.off % 4096 != 0 || !allMigrating s fn c.oid c.off pages then .done (complete fn c 0x04 0 s)
    else if pages = 0 then .done (complete fn c 0 0 s)
    else
      let (id, s1) := takeFresh s
      .done { s1 with pulls := s1.pulls ++
        [{ id, fn, oid := c.oid, off := c.off, source := field c.ops 63 0, pages, lost := [], tag := c.tag, ctx := c.ctx }] }) s

/-- One 4 KiB page of a pull lands, line by line; a poisoned line of the source stays poisoned (R386). -/
def landPage (s : State) (cls src dst : Nat) : State :=
  (List.range 64).foldl (fun s i =>
    writeHome s (dst / 64 + i) fullMask (homeData s (src / 64 + i)) 0 (nmem (src / 64 + i) s.poison) cls 0) s

/-- The job after one page: the pages left, and those lost. -/
def nextPull (j : PullJob) (lost : Bool) : PullJob :=
  { j with off := j.off + 4096, source := j.source + 4096, pages := j.pages - 1, lost := if lost then j.lost ++ [j.off] else j.lost }

/-- Page offsets as runs of contiguous pages: first offset and count. -/
def pageRuns : List Nat → List (Nat × Nat)
  | [] => []
  | o :: rest =>
    match pageRuns rest with
    | [] => [(o, 1)]
    | r :: rs => if r.1 = o + 4096 then (o, r.2 + 1) :: rs else (o, 1) :: r :: rs

/-- A pull that is complete: an event for each run of pages lost, then the completion (R383, R387). -/
def endPull (s : State) (j : PullJob) : State :=
  let s1 := (pageRuns j.lost).foldl (fun s r => postEvent s j.fn 0x05 0 j.tag j.ctx (oidOff j.oid r.1 + r.2 <<< 64)) s
  postEvent { s1 with pulls := s1.pulls.filter fun x => !(x.id == j.id) } j.fn 0x01 0 j.tag j.ctx 0

/-- The pages of a leaf. -/
def leafPages (fn oid first size : Nat) : List PageKey := (List.range (size / 4096)).map fun i => { fn, oid, off := first + 4096 * i }

/-- A page of a leaf has landed, or its source is lost: the leaf takes MIG 0 once all its bytes have landed, or PSN 1 with MIG 0 at
once. -/
def settleLeaf (fn oid key first size off : Nat) (lost : Bool) (s : State) : State :=
  let mine := leafPages fn oid first size
  let seen := if lost then s.landed else { fn, oid, off } :: s.landed
  let clear (s : State) : State := { s with landed := seen.filter fun k => !(mine.contains k) }
  if !(homeNat s key 8).testBit 61 then s
  else if lost then clear (endMigration s key true)
  else if mine.all seen.contains then clear (endMigration s key false)
  else { s with landed := seen }

/-- PULL_PAGE_COMPLETE (R387): the next page of a pull lands or its source is lost. -/
def execPullPageComplete (job : Nat) (lost : Bool) (s : State) : Out :=
  match s.pulls.find? fun j => j.id == job with
  | none => .next s
  | some j =>
    let j1 := nextPull j lost
    let put (s : State) : State := { s with pulls := s.pulls.map fun x => if x.id = job then j1 else x }
    let s1 := match leafOf s j.fn j.oid j.off with
      | none => s
      | some (k, first, size) =>
        let x := homeNat s k 8
        match physKey (objTier (getObject s j.fn j.oid)) (field x 51 12 * 4096 + (j.off - first)), physKey 3 j.source with
        | some dst, some src =>
          settleLeaf j.fn j.oid k first size j.off lost
            (if lost then s else landPage s (partClass s (outerPort j.fn) j.oid j.off) src dst)
        | _, _ => settleLeaf j.fn j.oid k first size j.off true s
    .next (if j1.pages = 0 then endPull (put s1) j1 else put s1)

/-! ### RECORD, ATTEST, CONTINUE (R388, R395, R396) -/

/-- RECORD (R396). -/
def execRecord (fn : Nat) (s : State) : Out :=
  startCommand fn 0x08 3 false (fun c s =>
    let mode := c.ops % 4
    let o := getObject s fn c.oid
    let base : Context := match sfind c.ctx s.contexts with
      | some x => x
      | none => { fn, run := .saved }
    if mode = 3 then .done (complete fn c 0x01 0 s)
    else if c.ctx = 0 then .done (complete fn c 0x05 0 s)
    else if mode = 0 then
      .done (complete fn c 0 0 (if (sfind c.ctx s.contexts).isSome then setContext s c.ctx { base with recording := none } else s))
    else if !objValid o then .done (complete fn c 0x03 c.oid s)
    else if objClass o ≠ 2 then .done (complete fn c 0x04 0 s)
    else .done (complete fn c 0 0
      (setContext s c.ctx { base with recording := some { mode, fn, oid := c.oid, off := c.off } }))) s

/-- The registers of a function (R267). -/
def functionBits (f : Func) : Nat := f.weight <<< 8 + f.bwwt <<< 24 + f.occ <<< 40 + f.pclu.toNat <<< 64

/-- The bytes of a report before its signature: nonce, function number, the measurements of ROM, firmware and function registers, module
number, the digest of the certificate chain. The digests are constants of the module, and that of the registers is a function of them
(DESIGN CHOICE, log 21). -/
def reportHead (s : State) (fn nonce : Nat) : List Byte :=
  let bytes (f : Nat → Byte) (n : Nat) : List Byte := (List.range n).map f
  let registers := (List.range 17).map fun i => BitVec.ofNat 128 (functionBits (getFunc s i))
  toBytes 48 nonce ++ toBytes 4 fn ++ bytes (Config.fixedByte 0) 48 ++ bytes (Config.fixedByte 1) 48
    ++ bytes (Config.registerDigest fn registers) 48 ++ toBytes 4 Config.moduleNumber.toNat ++ bytes (Config.fixedByte 2) 48
    ++ bytes (Config.fixedByte 3) 168

/-- The 512 bytes of a report: last, the signature over what stands before it (R388). -/
def reportBytes (s : State) (fn nonce : Nat) : List Byte :=
  reportHead s fn nonce ++ (List.range 96).map (Config.signature s.tick (reportHead s fn nonce))

/-- ATTEST (R388). -/
def execAttest (fn : Nat) (s : State) : Out :=
  startCommand fn 0x09 (2 ^ 384 - 1) false (fun c s =>
    let o := getObject s fn c.oid
    let q := outerPort fn
    if !objValid o then .done (complete fn c 0x03 c.oid s)
    else if c.off + 512 > objSize o ∨ objClass o = 3 then .done (complete fn c 0x04 0 s)
    else if !rangeMapped s q c.oid c.off 512 then .waits (requestRange s q c.oid c.off 512)
    else .done (complete fn c 0 0 (writeObject s q c.oid c.off (reportBytes s fn c.ops)))) s

/-- CONTINUE (R395): a debug halt ends, also of a context that is halted again when it is restored. -/
def execContinueHalt (fn : Nat) (s : State) : Out :=
  startCommand fn 0x0A 0 false (fun c s =>
    if (sfind c.ctx s.contexts).isSome && (getContext s c.ctx).run == .halted && preemptable s c.ctx then
      .done (complete fn c 0 0 (modContext s c.ctx fun x => { x with run := .running }))
    else if (sfind c.ctx s.contexts).isSome && (getContext s c.ctx).held then
      .done (complete fn c 0 0 (modContext s c.ctx fun x => { x with held := false }))
    else .done (complete fn c 0x05 0 s)) s

end Sys2Proof.Machine
end

