-- ==== Sys2Proof/Machine/Float.lean ====
section
/-! DEFINITION. The floating-point instructions and the conversions within a lane (R109 to R120, R125). -/

namespace Sys2Proof.Machine

/-- FADD (R109). -/
def execFadd (op : Op) (s : State) : Out := execAlu .fadd fFadd op s

/-- FSUB (R109). -/
def execFsub (op : Op) (s : State) : Out := execAlu .fsub fFsub op s

/-- FMUL (R109). -/
def execFmul (op : Op) (s : State) : Out := execAlu .fmul fFmul op s

/-- FFMA (R109). -/
def execFfma (op : Op) (s : State) : Out := execAlu .ffma fFfma op s

/-- FMIN (R111). -/
def execFmin (op : Op) (s : State) : Out := execAlu .fmin fFmin op s

/-- FMAX (R111). -/
def execFmax (op : Op) (s : State) : Out := execAlu .fmax fFmax op s

/-- FABS (R112). -/
def execFabs (op : Op) (s : State) : Out := execAlu .fabs fFabs op s

/-- FNEG (R112). -/
def execFneg (op : Op) (s : State) : Out := execAlu .fneg fFneg op s

/-- FCMP (R113). -/
def execFcmp (op : Op) (s : State) : Out := execAlu .fcmp fFcmp op s

/-- FCLASS (R114). -/
def execFclass (op : Op) (s : State) : Out := execAlu .fclass fFclass op s

/-- FRCP (R115). -/
def execFrcp (op : Op) (s : State) : Out := execAlu .frcp fFrcp op s

/-- FRSQ (R115). -/
def execFrsq (op : Op) (s : State) : Out := execAlu .frsq fFrsq op s

/-- FSQRT (R115). -/
def execFsqrt (op : Op) (s : State) : Out := execAlu .fsqrt fFsqrt op s

/-- FEXP2 (R115). -/
def execFexp2 (op : Op) (s : State) : Out := execAlu .fexp2 fFexp2 op s

/-- FLOG2 (R115). -/
def execFlog2 (op : Op) (s : State) : Out := execAlu .flog2 fFlog2 op s

/-- FTANH (R115). -/
def execFtanh (op : Op) (s : State) : Out := execAlu .ftanh fFtanh op s

/-- FRND (R116). -/
def execFrnd (op : Op) (s : State) : Out := execAlu .frnd fFrnd op s

/-- FSCALE (R116). -/
def execFscale (op : Op) (s : State) : Out := execAlu .fscale fFscale op s

/-- CVT (R119, R120). -/
def execCvt (op : Op) (s : State) : Out := execAlu .cvt fCvt op s

/-- CVTD (R125). -/
def execCvtd (op : Op) (s : State) : Out := execAlu .cvtd fCvtd op s

/-- HADD2 (R117). -/
def execHadd2 (op : Op) (s : State) : Out := execAlu .hadd2 fHadd2 op s

/-- HMUL2 (R117). -/
def execHmul2 (op : Op) (s : State) : Out := execAlu .hmul2 fHmul2 op s

/-- HFMA2 (R117). -/
def execHfma2 (op : Op) (s : State) : Out := execAlu .hfma2 fHfma2 op s

/-- FDOT2 (R118). -/
def execFdot2 (op : Op) (s : State) : Out := execAlu .fdot2 fFdot2 op s

end Sys2Proof.Machine
end

