-- ==== Sys2Proof/Machine/HostAccess.lean ====
section
/-! DEFINITION. Registers of BAR0 written and read, accesses of the host through BAR2 and of peers, power and memory controls (R134, R141,
R258, R267, R356, R368, R379, R380, R385, R386, R388, R390 to R392, R394, R397; DESIGN CHOICE, log 59, log 61). -/

namespace Sys2Proof.Machine

/-! ### Register windows (R258, R379, R397) -/

/-- `v` with `n` bytes replaced by those of `x`. -/
def lowWord (x : DWord) : Word := BitVec.ofNat 32 x.toNat

/-- A write into the queue block of a die: the word with the queue's fields, or its origin. Only the physical function writes
PF, VF and CTX; EN set anew enables the queue, and a 1 written to an EN that is 1 clears nothing (R258; DESIGN CHOICE, log 52). -/
def writeQueueBlock (fn die queue word : Nat) (value : DWord) (s : State) : State :=
  let q := getQueue s die queue
  let x := value.toNat
  if fn ≠ physFn ∧ queueFn q ≠ fn then s
  else match word with
    | 0 =>
      let q1 := { q with lsize := BitVec.ofNat 4 (field x 63 60), src := x.testBit 59 }
      let q2 := if fn = physFn then
          { q1 with pf := x.testBit 49, vf := BitVec.ofNat 4 (field x 48 45), ctx := BitVec.ofNat 12 (field x 44 33) }
        else q1
      let s1 := setQueue s die queue { q2 with en := q.en && x.testBit 58 && q2.lsize.toNat < 12 }
      if x.testBit 58 && !q.en then orStay s1 (execQueueEnable die queue s1) else s1
    | 8 => setQueue s die queue { q with base := value }
    | _ => s

/-- A watchpoint from the words of its block (R397). -/
def watchOf (raw : Store DWord) : Watchpoint :=
  let w (i : Nat) : Nat := (sget 0 i raw).toNat
  let x := w 0
  { valid := x.testBit 0, onRead := x.testBit 1, onWrite := x.testBit 2, onAtomic := x.testBit 3, ctx := field x 39 28
    oid := field x 63 40, lo := field (w 1) 63 24, hi := (w 2) / 2 ^ 24, program := BitVec.ofNat 64 (w 3), raw }

/-- The bits of each 64-bit word of a watchpoint's block that can be written; the others read 0 (R397). -/
def watchMask (word : Nat) : DWord :=
  match word with
  | 0 => 0xFFFFFFFFF000000F
  | 1 => 0xFFFFFFFFFF000000
  | 2 => 0xFFFFFFFFFF000000
  | 3 => 0xFFFFFFFFFFFFFFFF
  | _ => 0

/-- A write of a 64-bit word of a watchpoint's block. -/
def writeWatch (die index word : Nat) (value : DWord) (s : State) : State :=
  modDie s die fun d =>
    let raw := sset 0 word (value &&& watchMask word) (sget {} index d.watch).raw
    { d with watch := sput index (watchOf raw) d.watch }

/-- A write of a register of one's own window. A new ring origin starts its counts anew. -/
def writeOwn (fn offset : Nat) (value : DWord) (s : State) : State :=
  match offset with
  | 0x00 => modFunc s fn fun f => { f with cmdBase := value, cmdDoor := 0, cmdHead := 0 }
  | 0x08 => modFunc s fn fun f => { f with cmdLog := lowWord value }
  | 0x18 => modFunc s fn fun f => { f with evBase := value }
  | 0x20 => modFunc s fn fun f => { f with evLog := lowWord value }
  | 0x30 => modFunc s fn fun f => { f with trBase := value, trTail := 0 }
  | 0x3C => modFunc s fn fun f => { f with trHead := lowWord value }
  | 0x40 => modFunc s fn fun f => { f with winOid := BitVec.ofNat 32 (value.toNat % 2 ^ 24) }
  | 0x48 => modFunc s fn fun f => { f with winOff := value }
  | _ => s

/-- A write of a register of the physical function's window alone. -/
def writePhysical (offset : Nat) (value : DWord) (s : State) : State :=
  match offset with
  | 0x20000 => { s with fownBase := value }
  | 0x20008 => { s with grpBase := value }
  | 0x20010 => { s with poolBase := value }
  | 0x20020 => { s with expBase := value }
  | _ =>
    if 0x22000 ≤ offset ∧ offset < 0x22800 ∧ offset % 8 = 0 then
      let x := offset - 0x22000
      writeWatch (x / 0x200) (x % 0x200 / 0x40) (x % 0x40 / 8) value s
    else s

/-- REGISTER_WRITE (R379): a register whose write has no event of its own stores its value; elsewhere nothing happens. -/
def execRegisterWrite (fn offset : Nat) (value : DWord) (s : State) : Out :=
  if offset < 0x1000 then .next (writeOwn fn offset value s)
  else if 0x10000 ≤ offset ∧ offset < 0x12000 then
    let x := offset - 0x10000
    .next (writeQueueBlock fn (x / 0x800) (x % 0x800 / 0x20) (x % 0x20) value s)
  else if fn = physFn then .next (writePhysical offset value s)
  else .next s

/-- FUNCTION_REGISTER_WRITE (R267): OCC, BWWT and WEIGHT of a function; a 0 of a weight is stored as 1. An OCC above 96 is kept as
written: it limits nothing (DESIGN CHOICE, log 73). -/
def execFunctionRegisterWrite (fn : Nat) (value : DWord) (s : State) : Out :=
  let x := value.toNat
  .next (modFunc s fn fun f =>
    { f with occ := field x 47 40, bwwt := max 1 (field x 31 24), weight := max 1 (field x 15 8) })

/-- TRDROP_WRITE (R379): a write of any value. -/
def execTrdropWrite (fn : Nat) (_value : Word) (s : State) : Out := .next (modFunc s fn fun f => { f with trDrop := 0 })

/-- HISTOGRAM_CLEAR (R394): counters 0 to 9, then the reason counters. -/
def execHistogramClear (core part counter : Nat) (s : State) : Out :=
  let p := getPart s core part
  .next (setPart s core part
    (if counter = 9 then { p with eligible := [], reasons := [] }
     else if counter < 9 then { p with eligible := sdel counter p.eligible }
     else { p with reasons := sdel (counter - 10) p.reasons }))

/-! ### Reads of BAR0 (R167, R258, R267, R379, R390, R392, R394, R397) -/

/-- May a function's window show a core: is it the physical function's, or is the core in its partition? -/
def seesCore (s : State) (fn core : Nat) : Bool := fn == physFn || (getFunc s fn).pclu.getLsbD (clusterOfCore core)

/-- The registers of one's own window, as bits from their offset 0 upwards; CMDDOOR reads 0. -/
def ownBits (f : Func) : Nat :=
  f.cmdBase.toNat + f.cmdLog.toNat <<< 0x40 + f.cmdHead.toNat <<< 0x80 + f.evBase.toNat <<< 0xC0 + f.evLog.toNat <<< 0x100
    + f.evTail.toNat <<< 0x120 + f.evHead.toNat <<< 0x140 + f.trBase.toNat <<< 0x180 + f.trTail.toNat <<< 0x1C0
    + f.trHead.toNat <<< 0x1E0 + f.winOid.toNat <<< 0x200 + f.winOff.toNat <<< 0x240 + f.trDrop.toNat <<< 0x280

/-- The block of a queue; DOOR reads 0. -/
def queueBits (q : Queue) : Nat :=
  q.ctx.toNat <<< 33 + q.vf.toNat <<< 45 + b2n q.pf <<< 49 + b2n q.en <<< 58 + b2n q.src <<< 59 + q.lsize.toNat <<< 60
    + q.base.toNat <<< 64 + b2n q.halt <<< 151 + q.rcode.toNat <<< 152 + q.tail.toNat <<< 160 + q.head.toNat <<< 192

/-- The control register of a channel: RATE and BAL. -/
def channelBits (h : Channel) : Nat := h.rate.toNat + wrap h.bal 8 <<< 8

/-- The block of a partition's histogram. -/
def histogramBits (p : Partition) : Nat :=
  (List.range 10).foldl (fun acc k => acc + sget 0 k p.eligible <<< (64 * k)) 0
    + (List.range 13).foldl (fun acc r => acc + sget 0 r p.reasons <<< (0x280 + 32 * r)) 0

/-- The four bytes at an offset of a number. -/
def wordAt (x off : Nat) : Nat := field x (8 * off + 31) (8 * off)

/-- What the registers that only the physical function sees read (R379). -/
def readPhysical (s : State) (off : Nat) : Nat :=
  if off < 0x20100 then
    wordAt (s.fownBase.toNat + s.grpBase.toNat <<< 64 + s.poolBase.toNat <<< 128 + s.expBase.toNat <<< 256 + s.pcap <<< 384)
      (off - 0x20000)
  else if off < 0x20210 then wordAt (functionBits (getFunc s ((off - 0x20100) / 16))) (off % 16)
  else if 0x21000 ≤ off ∧ off < 0x21800 then wordAt (channelBits (getChannel s ((off - 0x21000) / 8))) (off % 8)
  else if 0x22000 ≤ off ∧ off < 0x22800 then
    let x := off - 0x22000
    wordAt (sget 0 (x % 0x40 / 8) (sget {} (x % 0x200 / 0x40) (getDie s (x / 0x200)).watch).raw).toNat (x % 8)
  else if 0x40000 ≤ off ∧ off < 0x80000 then
    let x := off - 0x40000
    wordAt (histogramBits (getPart s (x / 0x400) (x % 0x400 / 0x100))) (x % 0x100)
  else 0

/-- The four bytes at an offset, a multiple of 4, of a function's BAR0: its window shows its own registers, its own queues and
the counters of its partition's cores, and reads 0 elsewhere (R379). -/
def readBar0 (s : State) (fn off : Nat) : Nat :=
  if off < 0x1000 then wordAt (ownBits (getFunc s fn)) off
  else if off < 0x2000 then
    let core := (off - 0x1000) / 16
    if seesCore s fn core then sget 0 (off % 16 / 4) (getCore s core).dlmiss % 2 ^ 32 else 0
  else if 0x10000 ≤ off ∧ off < 0x12000 then
    let x := off - 0x10000
    let q := getQueue s (x / 0x800) (x % 0x800 / 0x20)
    if fn == physFn || queueFn q == fn then wordAt (queueBits q) (x % 0x20) else 0
  else if fn = physFn ∧ 0x20000 ≤ off then readPhysical s off
  else 0

/-- A completion leaves for a function of the host, or for a peer. -/
def reply (s : State) (peer : Bool) (fn : Nat) (what : Completion) : State :=
  { s with replies := s.replies ++ [{ peer, fn, what }] }

/-- The turn in which the host reads 4 bytes of BAR0. -/
def hostReadTurn (fn off : Nat) (s : State) : Out := .next (reply s false fn (.done (toBytes 4 (readBar0 s fn (off / 4 * 4)))))

/-- The turn in which the host writes an entry of a function's object table (R134): accesses use it after the INVAL of its object (R138).
An entry of an object that does not exist, of which nothing can be invalidated, is used at once (DESIGN CHOICE, log 84). -/
def hostObjectTurn (fn oid : Nat) (entry : BitVec 128) (s : State) : Out :=
  .next (if objValid (getObject s fn oid) then { s with objectWrites := sput (objKey fn oid) entry s.objectWrites }
    else setObject { s with objectWrites := sdel (objKey fn oid) s.objectWrites } fn oid entry)

/-! ### Memory channels, power, boot (R388, R390 to R392) -/

/-- PCAP_WRITE (R392). -/
def execPcapWrite (value : Word) (s : State) : Out := .next { s with pcap := max 600 (min 2400 value.toNat) }

/-- RATE_WRITE (R390). -/
def execRateWrite (channel : Nat) (value : BitVec 2) (s : State) : Out :=
  let v : BitVec 2 := if value = 0b11 then 0b10 else value
  .next (setChannel s channel { getChannel s channel with rate := v, switching := some v })

/-- RATE_SWITCH_DONE (R390). -/
def execRateSwitchDone (channel : Nat) (s : State) : Out :=
  .next (setChannel s channel { getChannel s channel with switching := none })

/-- Refreshes that a channel issues in one interval, of the number it would: at −8 one at least, and none that takes the balance
above +8 (R391). -/
def refreshesIssued (bal : Int) (issued : Nat) : Nat :=
  let least := if bal ≤ -8 then max 1 issued else issued
  min least (max 0 (9 - bal)).toNat

/-- REFRESH_INTERVAL (R391): an interval is over, in which so many refreshes were issued. -/
def execRefreshInterval (channel : Nat) (issued : Nat) (s : State) : Out :=
  let h := getChannel s channel
  let n := refreshesIssued h.bal issued
  .next (setChannel s channel { h with bal := h.bal + n - 1, refreshes := h.refreshes + n })

/-- The turn in which a row of a channel is activated: its counter counts, up to 4,096 (R391). -/
def activateTurn (channel row : Nat) (s : State) : Out :=
  let h := getChannel s channel
  .next (setChannel s channel { h with rows := sput row (min 4096 (sget 0 row h.rows + 1)) h.rows })

/-- ROW_ACTIVATION_LIMIT (R391): a row's counter that has reached 4,096, or that is found corrupt, is cleared; its neighbours are
refreshed, which changes no byte. Whether a counter is found corrupt is free (DESIGN CHOICE, log 62). -/
def execRowActivationLimit (channel row : Nat) (s : State) : Out :=
  let h := getChannel s channel
  .next (if sget 0 row h.rows ≥ 4096 || Config.freeBit s.tick (2 ^ 20 * channel + row) then
    setChannel s channel { h with rows := sdel row h.rows } else s)

/-- THERMAL_THROTTLE (R392). DESIGN CHOICE, log 62. -/
def execThermalThrottle (die : Nat) (s : State) : Out := .next (modDie s die fun d => { d with throttled := true })

/-- THROTTLE_RELEASE (R392). -/
def execThrottleRelease (die : Nat) (s : State) : Out := .next (modDie s die fun d => { d with throttled := false })

/-- MODULE_BOOT (R388): the firmware runs if its signature verifies. -/
def execModuleBoot (s : State) : Out := .next { s with booted := s.booted || Config.firmwareValid }

/-! ### Errors as events (R383) -/

/-- DETAIL of an error: structure, kind, blast set, physical key (DESIGN CHOICE, log 20). -/
def errorDetail (structure' kind blast key : Nat) : Nat :=
  structure' % 256 + (kind % 256) <<< 8 + (blast % 2 ^ 17) <<< 16 + (key % 2 ^ 64) <<< 64

/-- An error in memory met by an access of the host or of a peer, or by the scrub: kind 0 for a line that is poisoned, 2 for a
corrected one. -/
def reportLine (s : State) (fn line kind : Nat) : State := postEvent s fn 0x04 0 0 0 (errorDetail 3 kind 0 (64 * line))

/-! ### Accesses of the host and of peers (R356, R368, R380, R386) -/

/-- What an access of the host or of a peer to bytes of an object meets. -/
inductive OuterPlace where
  | ok
  | unsupported
  /-- The first offset whose page is missing, and whether it is absent. -/
  | missing (off : Nat) (absent : Bool)
  deriving DecidableEq, Repr

/-- The checks of such an access. An address that no tier has completes as unsupported. DEDUCED, log 59. -/
def outerPlace (s : State) (q : Port) (oid off n : Nat) : OuterPlace :=
  let o := getObject s q.fn oid
  if !objValid o || off + n > objSize o || objClass o == 3 then .unsupported
  else match firstMissing s q oid ((rangeChunks off n).map Prod.fst) with
    | none => .ok
    | some (x, .absent) => .missing x true
    | some (_, .nowhere) => .unsupported
    | some (x, _) => .missing x false

/-- The read of one line from outside, with its check, and the event of an error that it meets (R354, R356, R383). -/
def outerLine (q : Port) (oid : Nat) (s : State) (c : Nat × Nat) : State :=
  match resolve s q oid c.1 with
  | none => s
  | some k =>
    let line := k / 64
    let cls := partClass s q oid c.1
    let s1 := readHome s line cls 0 none false
    if objectPoisoned s1 q oid c.1 c.2 then reportLine s1 q.fn line 0
    else match sfind line s.injected with
      | some bad => if checkCost cls bad = 1 then reportLine s1 q.fn line 2 else s1
      | none => s1

/-- The lines that an access from outside reads: every line of a read, those that a write covers in part. -/
def outerRead (s : State) (q : Port) (oid off n : Nat) (write : Bool) : State :=
  ((rangeChunks off n).filter fun c => !write || c.2 != 64).foldl (outerLine q oid) s

/-- Poisoned lines that an access from outside writes whole, and does not read, are reported (R380, R383). -/
def reportWhole (s : State) (q : Port) (oid off n : Nat) : State :=
  ((rangeChunks off n).filter fun c => c.2 == 64 && objectPoisoned s q oid c.1 64).foldl (fun s c =>
    match resolve s q oid c.1 with
    | some k => reportLine s q.fn (k / 64) 0
    | none => s) s

/-- Bytes of an object for an access from outside. -/
def outerBytes (s : State) (q : Port) (oid off n : Nat) : List Byte := (readObject s q oid off n).getD []

/-! ### The host's aperture (R380) -/

/-- What an access through the aperture comes to now: it completes, or waits for a page. -/
inductive HostStep where
  | done (s : State) (what : Completion)
  | waits

/-- An access through the aperture: a home access at system scope. One that meets a poisoned line has no effect. -/
def hostAccess (s : State) (a : HostAccess) : HostStep :=
  let q := outerPort a.fn
  match outerPlace s q a.oid a.off a.size with
  | .unsupported => .done s .unsupported
  | .missing _ _ => .waits
  | .ok =>
    let s1 := outerRead s q a.oid a.off a.size a.bytes.isSome
    if objectPoisoned s1 q a.oid a.off a.size then
      .done (if a.bytes.isSome then reportWhole s1 q a.oid a.off a.size else s1) .poisoned
    else match a.bytes with
      | some bs => .done (writeSystem s1 q a.oid a.off bs) (.done [])
      | none => .done s1 (.done (outerBytes s1 q a.oid a.off a.size))

/-- HOST_APERTURE_ACCESS (R380): an access stays behind those that wait before it. -/
def execHostApertureAccess (fn offset size : Nat) (write : Option Nat) (s : State) : Out :=
  let f := getFunc s fn
  let a : HostAccess :=
    { fn, oid := f.winOid.toNat % 2 ^ 24, off := f.winOff.toNat + offset, bytes := write.map (toBytes size), size }
  let later : Out := .next { s with hostWaiting := s.hostWaiting ++ [.access a] }
  if offset + size > 2 ^ 30 then .next (reply s false fn .unsupported)
  else if !s.hostWaiting.isEmpty then later
  else match hostAccess s a with
    | .done s1 what => .next (reply s1 false fn what)
    | .waits => later

/-- Every function of the module: the 16 virtual ones and the physical one. -/
def allFns : List Nat := List.range 17

/-- What the host's link holds is performed, if it can be: an access that completes, a doorbell. -/
def performHost (s : State) (x : HostOp) (rest : List HostOp) : State :=
  match x with
  | .access a => match hostAccess s a with
    | .done s1 what => reply { s1 with hostWaiting := rest } false a.fn what
    | .waits => s
  | .door die queue value => ringDoorbell { s with hostWaiting := rest } die queue value
  | .cmdDoor fn value => setCmdDoor { s with hostWaiting := rest } fn value

/-- The turn in which what waits for a page of the host's memory is tried again: events, then the oldest of what the host's link holds. -/
def hostRetryTurn (s : State) : Out :=
  let s1 := allFns.foldl (fun s fn => drainEvents s fn (getFunc s fn).events.length) s
  match s1.hostWaiting with
  | [] => .next s1
  | x :: rest => .next (performHost s1 x rest)

/-! ### Requests of peers (R141, R385, R386) -/

/-- The function that an export names. -/
def exportFn (x : Nat) : Nat := if x.testBit 11 then physFn else field x 15 12

/-- The right that a peer's request needs in its export: r, w, a from bit 8 up. -/
def peerRight : PeerOp → Nat
  | .read => 8
  | .write _ => 9
  | .atomic _ _ _ => 10

/-- Is an atomic one of the operations of R155, of its size and at its alignment? -/
def peerSound (size off : Nat) : PeerOp → Bool
  | .read => true
  | .write _ => true
  | .atomic m _ _ => decide (atomKind m ≤ 11 ∧ size = atomBytes m ∧ off % atomBytes m = 0)

/-- A request that meets a missing page is refused with a hint that is free; an absent page is requested once for each request, and
completes the request as unsupported once the host has refused it (R141). Two requests alike in page, bytes and operation count as one that
is sent again (DESIGN CHOICE, log 85). -/
def refusePeer (s : State) (fn : Nat) (a : PeerAsk) (absent : Bool) : State :=
  let again := Completion.retryAfter (1 + (Config.freeByte s.tick 0).toNat % 255)
  if !absent then reply s true fn again
  else if s.peerPages.contains (a, true) then
    reply { s with peerPages := s.peerPages.filter fun e => !(e.1 == a) } true fn .unsupported
  else if s.peerPages.contains (a, false) then reply s true fn again
  else reply (raisePage { s with peerPages := s.peerPages ++ [(a, false)] } a.key 0) true fn again

/-- A request of a peer on bytes whose pages are there, at their homes. -/
def performPeer (s : State) (q : Port) (oid off size : Nat) (op : PeerOp) : State :=
  match op with
  | .read =>
    let s1 := outerRead s q oid off size false
    reply s1 true q.fn (if objectPoisoned s1 q oid off size then .poisoned else .done (outerBytes s1 q oid off size))
  | .write v => reply (writeSystem (outerRead s q oid off size true) q oid off (toBytes size v)) true q.fn (.done [])
  | .atomic m x compare =>
    let s1 := outerRead s q oid off size false
    if objectPoisoned s1 q oid off size then reply s1 true q.fn .poisoned
    else
      let old := outerBytes s1 q oid off size
      reply (writeSystem s1 q oid off (toBytes size (atomNew (atomKind m) (ofBytes old) x compare).1)) true q.fn (.done old)

/-- PEER_REQUEST (R386): a request of a peer completes with a status and, where it reads, the data. -/
def execPeerRequest (entry offset size : Nat) (op : PeerOp) (s : State) : Out :=
  let x := homeNat s (s.expBase.toNat + 16 * entry) 16
  let fn := exportFn x
  let q := outerPort fn
  let oid := field x 127 104
  let off := field x 103 64 + offset
  if !x.testBit 0 || !x.testBit (peerRight op) || offset + size > 4096 * field x 63 32 || !peerSound size off op then
    .next (reply s true fn .unsupported)
  else match outerPlace s q oid off size with
    | .unsupported => .next (reply s true fn .unsupported)
    | .missing o absent => .next (refusePeer s fn { key := pageKeyOf s fn oid o, off, size, op } absent)
    | .ok => .next (performPeer s q oid off size op)

end Sys2Proof.Machine
end

