-- ==== Sys2Proof/Machine/IntOps.lean ====
section
/-! DEFINITION. The integer, logic, bit field, move and 64-bit instructions (R94 to R101). -/

namespace Sys2Proof.Machine

/-- IADD (R94). -/
def execIadd (op : Op) (s : State) : Out := execAlu .iadd fIadd op s

/-- ISUB (R94). -/
def execIsub (op : Op) (s : State) : Out := execAlu .isub fIsub op s

/-- IMUL (R94). -/
def execImul (op : Op) (s : State) : Out := execAlu .imul fImul op s

/-- IMULH (R94). -/
def execImulh (op : Op) (s : State) : Out := execAlu .imulh fImulh op s

/-- IMAD (R94). -/
def execImad (op : Op) (s : State) : Out := execAlu .imad fImad op s

/-- IMIN (R94). -/
def execImin (op : Op) (s : State) : Out := execAlu .imin fImin op s

/-- IMAX (R94). -/
def execImax (op : Op) (s : State) : Out := execAlu .imax fImax op s

/-- IABS (R94). -/
def execIabs (op : Op) (s : State) : Out := execAlu .iabs fIabs op s

/-- INEG (R94). -/
def execIneg (op : Op) (s : State) : Out := execAlu .ineg fIneg op s

/-- IADDS (R94). -/
def execIadds (op : Op) (s : State) : Out := execAlu .iadds fIadds op s

/-- ISUBS (R94). -/
def execIsubs (op : Op) (s : State) : Out := execAlu .isubs fIsubs op s

/-- ICMP (R97). -/
def execIcmp (op : Op) (s : State) : Out := execAlu .icmp fIcmp op s

/-- SEL (R98). -/
def execSel (op : Op) (s : State) : Out := execAlu .sel fSel op s

/-- MOV (R99). -/
def execMov (op : Op) (s : State) : Out := execAlu .mov fMov op s

/-- AND (R94). -/
def execAnd (op : Op) (s : State) : Out := execAlu .and fAnd op s

/-- OR (R94). -/
def execOr (op : Op) (s : State) : Out := execAlu .or fOr op s

/-- XOR (R94). -/
def execXor (op : Op) (s : State) : Out := execAlu .xor fXor op s

/-- ANDN (R94). -/
def execAndn (op : Op) (s : State) : Out := execAlu .andn fAndn op s

/-- NOT (R94). -/
def execNot (op : Op) (s : State) : Out := execAlu .not fNot op s

/-- SHL (R95). -/
def execShl (op : Op) (s : State) : Out := execAlu .shl fShl op s

/-- SHR (R95). -/
def execShr (op : Op) (s : State) : Out := execAlu .shr fShr op s

/-- SAR (R95). -/
def execSar (op : Op) (s : State) : Out := execAlu .sar fSar op s

/-- ROL (R95). -/
def execRol (op : Op) (s : State) : Out := execAlu .rol fRol op s

/-- BFX (R96). -/
def execBfx (op : Op) (s : State) : Out := execAlu .bfx fBfx op s

/-- BFI (R96). -/
def execBfi (op : Op) (s : State) : Out := execAlu .bfi fBfi op s

/-- POPC (R94). -/
def execPopc (op : Op) (s : State) : Out := execAlu .popc fPopc op s

/-- CLZ (R94). -/
def execClz (op : Op) (s : State) : Out := execAlu .clz fClz op s

/-- CTZ (R94). -/
def execCtz (op : Op) (s : State) : Out := execAlu .ctz fCtz op s

/-- BREV (R94). -/
def execBrev (op : Op) (s : State) : Out := execAlu .brev fBrev op s

/-- PLOG (R100). -/
def execPlog (op : Op) (s : State) : Out := execAlu .plog fPlog op s

/-- ADD64 (R101). -/
def execAdd64 (op : Op) (s : State) : Out := execAlu .add64 fAdd64 op s

/-- SUB64 (R101). -/
def execSub64 (op : Op) (s : State) : Out := execAlu .sub64 fSub64 op s

/-- SHL64 (R101). -/
def execShl64 (op : Op) (s : State) : Out := execAlu .shl64 fShl64 op s

/-- SHR64 (R101). -/
def execShr64 (op : Op) (s : State) : Out := execAlu .shr64 fShr64 op s

/-- MUL32W (R101). -/
def execMul32w (op : Op) (s : State) : Out := execAlu .mul32w fMul32w op s

/-- MOVL of the cue thread (R99). -/
def cueMovl : CueBody := fun fr _ _ _ s => .done s (some (BitVec.ofNat 64 (wrap (immOf fr.op) 64))) none

/-- MOVL (R99). -/
def execMovl (op : Op) (s : State) : Out := execBoth .movl false bodyMovl cueMovl op s

/-- VIDX (R99). -/
def execVidx (op : Op) (s : State) : Out := execLane .vidx false bodyVidx op s

end Sys2Proof.Machine
end

