-- ==== Sys2Proof/Machine/Packed.lean ====
section
/-! DEFINITION. The packed integer instructions (R102 to R107). -/

namespace Sys2Proof.Machine

/-- PADD16 (R102). -/
def execPadd16 (op : Op) (s : State) : Out := execAlu .padd16 fPadd16 op s

/-- PSUB16 (R102). -/
def execPsub16 (op : Op) (s : State) : Out := execAlu .psub16 fPsub16 op s

/-- PMUL16 (R103). -/
def execPmul16 (op : Op) (s : State) : Out := execAlu .pmul16 fPmul16 op s

/-- PMAC16 (R104). -/
def execPmac16 (op : Op) (s : State) : Out := execAlu .pmac16 fPmac16 op s

/-- PADD8 (R102). -/
def execPadd8 (op : Op) (s : State) : Out := execAlu .padd8 fPadd8 op s

/-- PDOT8 (R104). -/
def execPdot8 (op : Op) (s : State) : Out := execAlu .pdot8 fPdot8 op s

/-- SHRR (R106). -/
def execShrr (op : Op) (s : State) : Out := execAlu .shrr fShrr op s

/-- SATN (R107). -/
def execSatn (op : Op) (s : State) : Out := execAlu .satn fSatn op s

/-- PMIN16 (R105). -/
def execPmin16 (op : Op) (s : State) : Out := execAlu .pmin16 fPmin16 op s

/-- PMAX16 (R105). -/
def execPmax16 (op : Op) (s : State) : Out := execAlu .pmax16 fPmax16 op s

end Sys2Proof.Machine
end

