-- ==== Sys2Proof/Machine/Shared.lean ====
section
/-! DEFINITION. Errors in shared structures and the scrub (R272, R273, R345, R346, R355, R356, R389; DESIGN CHOICE, log 20, log 34,
log 72; PRESUMED, log 8; DEDUCED, log 58). -/

namespace Sys2Proof.Machine

/-! ### Errors in shared structures (R272, R273) -/

/-- The offset of a line in an object that holds it. -/
def offsetIn (s : State) (key : Nat) (o : BitVec 128) (line : Nat) : Option Nat :=
  if objValid o then
    ((List.range (ceilDiv (objSize o) 64)).find? fun i =>
      resolve s (outerPort (key / 2 ^ 24)) (key % 2 ^ 24) (64 * i) == some (64 * line)).map fun i => 64 * i
  else none

/-- The class of a line, by the object that holds it: the bookkeeping of a Fugitive object is Lightfast (R352, R360). DEDUCED, log 58. -/
def lineClass (s : State) (line : Nat) : Option Nat :=
  s.objects.findSome? fun e =>
    (offsetIn s e.1 e.2 line).map fun off => partClass s (outerPort (e.1 / 2 ^ 24)) (e.1 % 2 ^ 24) off

/-- The controller of a line: a channel of HBM, a number above 255 for the CXL tier, none for the memory of the host and of peers
(PRESUMED, log 8). -/
def channelOf (line : Nat) : Option Nat :=
  if line * 64 < 2 ^ 39 then some (32 * (line / 2 ^ 30) + line % 32)
  else if line * 64 < hostKey then some (256 + line % 32)
  else none

/-- The lines that the next piece of a transfer reads and writes in memory. -/
def pieceLines (s : State) (core : Nat) (x : Xfer) : List Nat :=
  let p := nextPiece x
  let q := xferPort core x
  let on (side : Side) (os : List Nat) : List Nat := os.filterMap fun o => (resolve s q (sideOid side) o).map fun k => k / 64
  if remoteKind x.kind then on x.src (remoteOffsets x)
  else on x.src (sideOffsets s q x.src p.src p.n) ++ on x.dst (sideOffsets s q x.dst p.dst p.n)

/-- Functions with a request to a line that meets a condition, beyond L2: a home write or a write-back in flight, an open miss, a home
access that has missed L2 and not returned, a fill of code, the next piece of a transfer (R272). -/
def queuedFns (s : State) (p : Nat → Bool) : List Nat :=
  let beyond (line : Nat) : Bool := p line && outsideL2 s line
  ((s.homeWrites.filter fun w => !w.applied && beyond w.line).filterMap fun w => fnOfCtx s w.ctx)
    ++ ((s.responses.filter fun r => r.far && r.line.any p).filterMap fun r => fnOfCtx s r.ctx)
    ++ s.cores.flatMap fun e =>
      ((e.2.misses.filter fun m => m.far && p m.line).filterMap fun m => fnOfCtx s m.ctx)
        ++ (e.2.xfers.filter fun x => (pieceLines s e.1 x).any beyond).map Xfer.fn

/-- The blast set of an error (R272). The ports of the Zilosta Link share one set (DESIGN CHOICE, log 72). -/
def blastSet (s : State) (part : SharedStructure) : NSet :=
  let fns : List Nat := match part with
    | .l2Slice die slice => ((getDie s die).l2.filter fun e => e.1 % 32 == slice).filterMap fun e => fnOfCtx s e.2.ctx
    | .tlb2 die => (getDie s die).tlb.map TlbEntry.fn
    | .frontEnd die => ((getDie s die).queues.filter fun e => e.2.en).map fun e => queueFn e.2
    | .channel h => queuedFns s fun line => channelOf line == some h
    | .linkPort _ => queuedFns s isPeerLine
  fns.foldr nins []

/-- A line becomes poisoned; a Bare one takes zeros (R355). -/
def poisonLine (s : State) (line : Nat) : State :=
  if lineClass s line = some 0 then putHome s line 0 0 else { s with poison := nins line s.poison }

/-- A write in flight that is lost: it still completes, and changes nothing. -/
def loseWrite (line : Nat) (w : HomeWrite) : HomeWrite :=
  if w.line = line ∧ !w.applied then { w with mask := 0, renew := none, poison := false } else w

/-- The writes in flight to a line are lost and the line is poisoned; a Bare one keeps what memory holds (R273). -/
def loseWrites (s : State) (line : Nat) : State :=
  if s.homeWrites.any fun w => w.line == line && !w.applied then
    let s1 := { s with homeWrites := s.homeWrites.map (loseWrite line) }
    if lineClass s line = some 0 then s1 else { s1 with poison := nins line s1.poison }
  else s

/-- A damaged entry is discarded: an L2 line, a translation, the packet that stands ready in a queue, a queued write. -/
def discardEntry (s : State) (part : SharedStructure) (line : Nat) : State :=
  match part with
  | .l2Slice die _ =>
    match sfind line (getDie s die).l2 with
    | none => s
    | some l =>
      let s1 := modDie s die fun d => { d with l2 := sdel line d.l2 }
      if l.dirty && lineClass s line != some 0 then
        let s2 := putMemLine s1 line l.data l.tags
        { s2 with poison := nins line s2.poison }
      else s1
  | .tlb2 die => modDie s die fun d => { d with tlb := d.tlb.eraseIdx line }
  | .frontEnd die => modDie s die fun d => { d with queues := d.queues.map fun e => if e.1 = line then (e.1, { e.2 with ready := none }) else e }
  | .channel _ => loseWrites s line
  | .linkPort _ => loseWrites s line

/-- The number of a structure in an event. -/
def structureCode : SharedStructure → Nat
  | .l2Slice _ _ => 0
  | .tlb2 _ => 1
  | .frontEnd _ => 2
  | .channel _ => 3
  | .linkPort _ => 4

/-- Does a structure hold data? -/
def holdsData : SharedStructure → Bool
  | .l2Slice _ _ => true
  | .tlb2 _ => false
  | .frontEnd _ => false
  | .channel _ => true
  | .linkPort _ => true

/-- EBUD of every context of a function becomes 0, with the pending bits (R218, R273). -/
def emptyBudgets (s : State) (fn : Nat) : State := (contextsOf s fn).foldl (fun s ctx => charge s ctx (2 ^ 32)) s

/-- SHARED_STRUCTURE_ERROR (R273): an error in data poisons the line; one in tags or control state discards the entry, empties
the budgets of the blast set and is reported to each of its functions. -/
def execSharedStructureError (part : SharedStructure) (line : Nat) (control : Bool) (s : State) : Out :=
  if !control && holdsData part then .next (poisonLine s line)
  else
    let set := blastSet s part
    let mask := set.foldl (fun acc fn => acc + 2 ^ fn) 0
    .next (set.foldl (fun s fn =>
      postEvent (emptyBudgets s fn) fn 0x04 0 0 0 (errorDetail (structureCode part) 1 mask (64 * line)))
      (discardEntry s part line))

/-! ### The scrub (R345, R346, R356) -/

/-- The entry of the frame or page that holds a line, in the ownership table (R389). -/
def frameEntry (s : State) (line : Nat) : Nat :=
  let key := 64 * line
  let n := if key < 2 ^ 39 then key / 2 ^ 21 else 262144 + (key - 2 ^ 40) / 2 ^ 16
  homeNat s (s.fownBase.toNat + 16 * n) 16

/-- The context that a slot names, if it is one of the module. -/
def slotContext (s : State) (x : Nat) : Option Nat :=
  match sfind (x % 4096) s.contexts with
  | some c => if x.testBit 31 && c.fn == ctxidFn x then some (x % 4096) else none
  | none => none

/-- The ownership set of an error that scrubbing finds: a set of contexts (R346). -/
def ownershipSet (s : State) (line : Nat) : NSet :=
  let e := frameEntry s line
  if !e.testBit 0 then []
  else ((List.range 64).filterMap fun i =>
    if e.testBit (64 + i) then slotContext s (homeNat s (s.grpBase.toNat + 256 * field e 51 40 + 4 * i) 4) else none).foldr nins []

/-- FIRMWARE_SCRUB (R356): the scrub reads a Lightfast or Washfast line. -/
def execFirmwareScrub (line : Nat) (s : State) : Out :=
  match lineClass s line, sfind line s.injected with
  | some cls, some bad =>
    if cls = 0 ∨ nmem line s.poison then .next s
    else
      let cost := checkCost cls bad
      let set := ownershipSet s line
      let s1 := checkLine s line cls 0
      let s2 := set.foldl (fun s ctx => charge s ctx cost) s1
      .next (if set.isEmpty && cost == 4 then reportLine s2 physFn line 0 else s2)
  | _, _ => .next s

end Sys2Proof.Machine
end

