-- ==== Sys2Proof/Machine/Resets.lean ====
section
/-! DEFINITION. Function-level resets, the loss of clusters, the thermal trip (R227, R274 to R276, R383, R392; DESIGN CHOICE, log 19, log 33,
log 36; DEDUCED, log 55). -/

namespace Sys2Proof.Machine

/-! ### Function-level reset (R274, R275) -/

/-- A context stops with no image (R274). -/
def stopContext (fn : Nat) (c : Context) : Context := if c.fn = fn then { c with run := .halted } else c

/-- A reset of a function begins: its queues are no longer drawn and its contexts stop. -/
def beginReset (s : State) (fn : Nat) : State :=
  let contexts : Store Context := s.contexts.map fun e => (e.1, stopContext fn e.2)
  modFunc { s with contexts } fn fun f => { f with flr := .draining (getDie s 0).clk, stopped := true }

/-- FUNCTION_LEVEL_RESET (R274). -/
def execFunctionLevelReset (fn : Nat) (s : State) : Out := if draining s fn then .next s else .next (beginReset s fn)

/-- Do cores or transfers of a context of the function stand here? -/
def fnOwns (s : State) (fn ctx : Nat) : Bool := ctx != 0 && (getContext s ctx).fn == fn && (sfind ctx s.contexts).isSome

/-- Bytes of a line of which each takes the new or the old value, by a free choice (DESIGN CHOICE, log 33). -/
def mixMask (tick line : Nat) (mask : BitVec 64) : BitVec 64 :=
  BitVec.ofNat 64 ((List.range 64).foldl (fun acc j =>
    if mask.getLsbD j && Config.freeBit tick (64 * line + j) then acc + 2 ^ j else acc) 0)

/-- Bytes of a line reach its home or do not, each by a free choice. -/
def mixLine (s : State) (line : Nat) (mask : BitVec 64) (d : LineData) (tags : BitVec 4) (poison : Bool) (cls ctx : Nat) : State :=
  let m := mixMask s.tick line mask
  if m = 0 then s else writeHome s line m d tags poison cls ctx

/-- What a home write that is dropped has done: its bytes, or its renewal, have reached the home or have not. -/
def mixWrite (s : State) (w : HomeWrite) : State :=
  if w.applied then s
  else match w.renew with
    | some _ => if Config.freeBit s.tick (64 * w.line) then performWrite s w else s
    | none => mixLine s w.line w.mask w.data w.tags w.poison w.cls w.ctx

/-- The writes in flight of a function are dropped, byte by byte (R274). -/
def dropWrites (s : State) (fn : Nat) : State :=
  let mine := s.homeWrites.filter fun w => fnOwns s fn w.ctx
  let s1 := mine.foldl (fun s w => let s1 := mixWrite s w; if w.stamp.isSome then ackWrite s1 w else s1) s
  { s1 with homeWrites := s1.homeWrites.filter fun w => !(fnOwns s fn w.ctx) }

/-- Bytes of an object between two states: each keeps what it held before, or what it holds after, by a free choice. -/
def mixObject (before after : State) (q : Port) (oid off n : Nat) : State :=
  (span off n).foldl (fun s o =>
    match resolve s q oid o with
    | some k =>
      if Config.freeBit before.tick k then s
      else putHome s (k / 64) (mergeLine (byteMask (k % 64) 1) (placeBytes (k % 64) [homeByte before k]) (homeData s (k / 64)))
        (homeTags s (k / 64))
    | none => s) after

/-- A transfer is dropped with its pieces in flight: where it writes memory, each byte of them lands or does not. -/
def dropTransfer (core : Nat) (s : State) (x : Xfer) : State :=
  match x.dst with
  | .mem c off => mixObject s (landAll core x.id (x.len + x.rows + 1) s) (xferPort core x) (capOid c) off (x.len + x.done)
  | _ => s

/-- The dirty lines of a core's L1 are dropped (R274). -/
def dropLines (s : State) (core : Nat) : State :=
  (getCore s core).l1.foldl (fun s e => mixLine s e.1 e.2.dirty e.2.data e.2.tags e.2.poison e.2.cls e.2.ctx) s

/-- A core as it is with no owner; its clk and its sequence number go on. -/
def freshCore (c : Core) : Core :=
  { cycle := c.cycle, seqno := c.seqno, dlmiss := c.dlmiss, tokens := c.tokens
    parts := c.parts.map fun e => (e.1, emptyPartition e.2) }

/-- Cores that a function's contexts own or run on. -/
def fnCores (s : State) (fn : Nat) : List Nat :=
  allCores.filter fun core =>
    let c := getCore s core
    (c.launch.isSome && coreFn s core == fn) || (match c.owner with
      | some o => fnOwns s fn o
      | none => false)

/-- A die without what belongs to a function: translations, lines of L2, queues, die parts. -/
def purgeDie (s : State) (fn : Nat) (d : Die) : Die :=
  { d with
    tlb := d.tlb.filter fun e => !(e.fn == fn)
    l2 := d.l2.filter fun e => !(fnOwns s fn e.2.ctx)
    queues := d.queues.map fun e => if queueFn e.2 = fn then (e.1, {}) else e
    parts := d.parts.filter fun e => !(fnOwns s fn e.1)
    predicate := match d.predicate with
      | some p => if coreFn s (agentCore p.agent) = fn then none else some p
      | none => none }

/-- A cluster that a function's context held. -/
def purgeCluster (s : State) (fn : Nat) (c : Cluster) : Cluster :=
  match c.ctx with
  | some ctx => if fnOwns s fn ctx then { deficit := c.deficit, turnFn := c.turnFn } else c
  | none => c

/-- The function that something in the host's link concerns. -/
def hostFn (s : State) : HostOp → Nat
  | .access a => a.fn
  | .door die queue _ => queueFn (getQueue s die queue)
  | .cmdDoor fn _ => fn

/-- Everything of a function is dropped, its contexts are destroyed, its queues and partition registers return to their reset
values (R274). -/
def finishReset (s : State) (fn : Nat) : State :=
  let cores := fnCores s fn
  let s1 := cores.foldl (fun s core => ((getCore s core).xfers).foldl (dropTransfer core) s) s
  let s2 := dropWrites (cores.foldl dropLines s1) fn
  let s3 := cores.foldl (fun s core => modCore s core freshCore) s2
  let gone (o : Option Nat) : Bool := match o with
    | some ctx => fnOwns s fn ctx
    | none => false
  let others : Store Core := s3.cores.map fun e =>
    (e.1, { e.2 with tlb := e.2.tlb.filter (fun x => !(x.fn == fn)), staged := if gone e.2.staged then none else e.2.staged })
  let dies : Store Die := s3.dies.map fun e => (e.1, purgeDie s fn e.2)
  let clusters : Store Cluster := s3.clusters.map fun e => (e.1, purgeCluster s fn e.2)
  let s4 := { s3 with
    cores := others, dies, clusters
    responses := s3.responses.filter fun r => !(cores.contains (agentCore r.agent))
    classJobs := s3.classJobs.map fun j => if j.fn = fn then { j with agent := none, ctx := 0 } else j
    pulls := s3.pulls.filter fun j => !(j.fn == fn)
    pageRequests := s3.pageRequests.filter fun k => !(k.fn == fn)
    landed := s3.landed.filter fun k => !(k.fn == fn)
    peerPages := s3.peerPages.filter fun e => !(e.1.key.fn == fn)
    hostWaiting := s3.hostWaiting.filter fun x => !(hostFn s x == fn)
    launches := s3.launches.filter fun e => !(fnOwns s fn e.2.ctx)
    contexts := s3.contexts.filter fun e => !(e.2.fn == fn) }
  modFunc s4 fn fun f => { f with pclu := 0, occ := 0, bwwt := 1, weight := 1, flr := .idle, stopped := false }

/-- The next reset of the sequence begins, of the lowest virtual function that waits, once no virtual function's reset drains (R275). -/
def nextReset (s : State) : State :=
  if (List.range 16).any (draining s) then s
  else match (List.range 16).find? fun fn => (getFunc s fn).flr == .queued with
    | some fn => beginReset s fn
    | none => s

/-- FLR_DRAIN_EXPIRY (R274): what has not drained is dropped; the reset ends, and the next in turn begins (R275). -/
def execFlrDrainExpiry (fn : Nat) (s : State) : Out := if draining s fn then .next (nextReset (finishReset s fn)) else .next s

/-- VF_ENABLE_CLEAR (R275): the queues of every virtual function stop, and the functions are reset one after another. -/
def execVfEnableClear (s : State) : Out :=
  .next (nextReset ((List.range 16).foldl (fun s fn =>
    if draining s fn then s else modFunc s fn fun f => { f with flr := .queued, stopped := true }) { s with vfEnable := false }))

/-! ### Pre-emptions that the module makes itself (R227, R276, R392) -/

/-- A context that runs is pre-empted and its image written, where its last image stood: in one step, where its pages are there. A
context without an image object stays (DESIGN CHOICE, log 19). -/
def evict (s : State) (ctx : Nat) : State :=
  match (getContext s ctx).image with
  | none => s
  | some place =>
    let s1 := if preemptable s ctx then beginPreempt s ctx 0 none place else s
    orStay s1 (execPreemptionImageSaved ctx s1)

/-- Has a context casts on a cluster of a list? -/
def standsOn (s : State) (ctx : Nat) (gone : List Nat) : Bool := (clustersOf s ctx).any gone.contains

/-- The contexts of a function that a loss of clusters moves: those that run or are halted. -/
def movedContexts (s : State) (fn : Nat) (gone : List Nat) : List Nat :=
  (contextsOf s fn).filter fun ctx => preemptable s ctx && standsOn s ctx gone

/-- PCLU_WRITE (R276): contexts on removed clusters are pre-empted and resumed on those that remain. The write waits while one of them
cannot come to rest (DEDUCED, log 55). -/
def execPcluWrite (fn : Nat) (value : DWord) (s : State) : Out :=
  let gone := (List.range 64).filter fun n => (getFunc s fn).pclu.getLsbD n && !value.getLsbD n
  let moved := movedContexts s fn gone
  if !moved.all (restReady s) then .next s
  else
    let s1 := modFunc (moved.foldl evict s) fn fun f => { f with pclu := value }
    .next (moved.foldl (fun s ctx => if (getContext s ctx).run == .parked then restoreContext s ctx else s) s1)

/-- Has a context come to rest: its image is written, or it has no image object (DESIGN CHOICE, log 19)? -/
def contextRests (c : Context) : Bool := c.image.isNone || c.run == .saved || c.run == .parked

/-- Every context that can come to rest is pre-empted. -/
def evictAll (s : State) : State :=
  (s.contexts.map Prod.fst).foldl (fun s ctx => if preemptable s ctx && !restReady s ctx then s else evict s ctx) s

/-- After a thermal trip, contexts that can come to rest are pre-empted; once every image and the physical function's events are written
the module powers down (R384, R392). -/
def settleTrip (s : State) : State :=
  if !s.tripped then s
  else
    let s1 := evictAll s
    if s1.contexts.all (fun e => contextRests e.2) && (getFunc s1 physFn).events.isEmpty then { s1 with poweredDown := true } else s1

/-- THERMAL_TRIP (R392): at 115 °C every context is pre-empted, the event is written, the module powers down. -/
def execThermalTrip (die temperature : Nat) (s : State) : Out :=
  if temperature < 115 then .next s
  else
    .next (settleTrip { postEvent (evictAll s) physFn 0x08 0 0 0 (die % 256 + (temperature % 256) <<< 8) with tripped := true })

end Sys2Proof.Machine
end

