-- ==== Sys2Proof/Machine/Watch.lean ====
section
/-! DEFINITION. Watchpoints and their predicates (R393, R395, R397; DESIGN CHOICE, log 22). -/

namespace Sys2Proof.Machine

/-! ### A match (R395) -/

/-- The lane threads of a die that stop for a watchpoint, each with the oldest access whose predicate has not ended. -/
def watchedThreads (s : State) (die : Nat) : List (Nat × Nat × Nat × Performed) :=
  (span (64 * die) 64).flatMap fun core => (getCore s core).casts.flatMap fun e =>
    (enum 0 e.2.threads).filterMap fun t =>
      if t.2.live then t.2.performed.head?.map fun x => (core, e.1, t.1, x) else none

/-- The watchpoints of a core's die that an access meets, from number `n` up. -/
def matching (s : State) (core : Nat) (x : Performed) (n : Nat) : List Nat :=
  ((getDie s (dieOfCore core)).watch.filter fun e => decide (n ≤ e.1) && meets s core x e.2).map Prod.fst

/-- The predicates of a thread's oldest access have ended: it goes on once none is left. -/
def dropPerformed (s : State) (core cast lane : Nat) : State :=
  modThread s core cast lane fun t => { t with performed := t.performed.tail }

/-- WATCHPOINT_MATCH (R395): the lowest watchpoint that a stopped thread's access meets starts its predicate; an access that no
watchpoint meets any more holds the thread no longer. -/
def execWatchpointMatch (die index : Nat) (s : State) : Out :=
  if (getDie s die).predicate.isSome then .next s
  else match (watchedThreads s die).find? fun w => matching s w.1 w.2.2.2 0 == [] || (matching s w.1 w.2.2.2 0).head? == some index with
    | none => .next s
    | some (core, cast, lane, x) =>
      .next (if matching s core x 0 = [] then dropPerformed s core cast lane
        else modDie s die fun d => { d with predicate := some { agent := .lane core cast lane, watch := index, access := x } })

/-! ### The predicate: a cue-mode program of the debug core (DESIGN CHOICE, log 22) -/

/-- What the cue thread's instructions do that execute at once. -/
def promptBody (o : Opc) : Option CueBody :=
  match o with
  | .nop => some cueNop
  | .bra => some cueBra
  | .jmpi => some cueJmpi
  | .yield => some cueNop
  | .dqpush => some cueDqpush
  | .iadd => some (aluCue fIadd)
  | .isub => some (aluCue fIsub)
  | .imul => some (aluCue fImul)
  | .imulh => some (aluCue fImulh)
  | .imin => some (aluCue fImin)
  | .imax => some (aluCue fImax)
  | .iabs => some (aluCue fIabs)
  | .ineg => some (aluCue fIneg)
  | .icmp => some (aluCue fIcmp)
  | .sel => some (aluCue fSel)
  | .mov => some (aluCue fMov)
  | .movl => some cueMovl
  | .and => some (aluCue fAnd)
  | .or => some (aluCue fOr)
  | .xor => some (aluCue fXor)
  | .andn => some (aluCue fAndn)
  | .not => some (aluCue fNot)
  | .shl => some (aluCue fShl)
  | .shr => some (aluCue fShr)
  | .sar => some (aluCue fSar)
  | .rol => some (aluCue fRol)
  | .bfx => some (aluCue fBfx)
  | .bfi => some (aluCue fBfi)
  | .popc => some (aluCue fPopc)
  | .clz => some (aluCue fClz)
  | .ctz => some (aluCue fCtz)
  | .brev => some (aluCue fBrev)
  | .add64 => some (aluCue fAdd64)
  | .sub64 => some (aluCue fSub64)
  | .shl64 => some (aluCue fShl64)
  | .shr64 => some (aluCue fShr64)
  | .mul32w => some (aluCue fMul32w)
  | .ld => some fun fr a b c s => if cueVolatile s fr.core fr.op then cueLdVolatile fr a b c s else cueLd fr a b c s
  | .pfch => some cuePfch
  | .capinfo => some cueCapinfo
  | .sysrd => some cueSysrd
  | .pbkrd => some cuePbkrd
  | .brkpt => some cueBrkpt
  | o => commandBody o

/-- What a predicate comes to. -/
inductive PredicateEnd where
  /-- It cannot end yet. -/
  | waits
  /-- It awaits a page. -/
  | page (k : PageKey)
  /-- EXIT with this status, in this state. -/
  | exits (s : State) (status : Nat)
  | faults (s : State)
  /-- It has reached its 256th instruction. -/
  | tooLong (s : State)
  /-- It goes on. -/
  | goes (s : State)

/-- The transfers that a predicate has started complete before its next instruction. -/
def settleTransfer (core : Nat) (s : State) (x : Xfer) : State :=
  let s1 := landAll core x.id (x.len + x.rows + 1) s
  match x.kind with
  | .step => rounds (fun s => orStay s (execFaderReencode core x.id s)) (8 * x.len + 9) s1
  | .fade => rounds (fun s => orStay s (execFaderReencode core x.id s)) (8 * x.len + 9) s1
  | .qcast => orStay s1 (execQcastCompletion core x.id s1)
  | .wload => orStay s1 (execWloadCompletion core x.id s1)
  | .pbksave => orStay s1 (execPbkTransferCompletion core x.id s1)
  | .pbkload => orStay s1 (execPbkTransferCompletion core x.id s1)
  | .atom | .qenq | .qdeq => s1
  | .copyIn | .copyOut | .copyx | .zld | .zst | .gather => orStay s1 (execCopyCompletion core x.id s1)

/-- Operations that an instruction has started, from number `first` on, settle. -/
def settleNew (core first : Nat) (s : State) : State :=
  let s1 := ((getCore s core).xfers.filter fun x => decide (first ≤ x.id)).foldl (settleTransfer core) s
  (s1.classJobs.filter fun j => decide (first ≤ j.id)).foldl (fun s j => orStay s (execClassmapCompletion j.id s)) s1

/-- The debug core's thread after an instruction: the result, the PC. -/
def predicateMoves (o : Opc) (op : Op) (r : Option DWord) (pc : Word) (q : Cue) : Cue :=
  { q with
    pc, denied := none
    c := match cueDest o op, r with
      | some d, some v => sset 0 d v q.c
      | _, _ => q.c }

/-- An instruction of the debug core that awaits an operation goes on with the value that it has returned, or once it is complete. -/
def takeAwaited (s0 : State) (core first : Nat) (o : Opc) (op : Op) (next : Word) : PredicateEnd :=
  let s := settleNew core first s0
  match s.responses.find? fun r => r.agent == .cue core with
  | some r =>
    let s1 := { s with responses := s.responses.erase r }
    let done (s : State) : PredicateEnd := .goes (modCue s core (predicateMoves o op (r.regs.head?.map Prod.snd) next))
    match r.acquire with
    | none => done s1
    | some scope =>
      let s2 := settleWrites (acquire s1 core scope)
      if acquired s2 core scope then done s2 else .waits
  | none =>
    if ((getCore s core).xfers.any fun x => decide (first ≤ x.id)) || (s.classJobs.any fun j => decide (first ≤ j.id)) then .waits
    else .goes (modCue s core (predicateMoves o op none next))

/-- An instruction's effect; one that the core's writes in flight hold has it once they have reached their homes. -/
def bodySettled (body : CueBody) (fr : Frame) (a b c : DWord) (s : State) : CueStep :=
  match body fr a b c s with
  | .hold s1 => body fr a b c (settleWrites s1)
  | r => r

/-- One instruction of a predicate. -/
def predicateInstr (s : State) (core : Nat) (q : Cue) (o : Opc) (op : Op) : PredicateEnd :=
  let fr := frameAt core q.pc o op
  let src (f : Field) : DWord := BitVec.ofNat 64 (cueSrc q.c fr f)
  if !legalIn (cueEnv s core) o op then .faults s
  else if o = .exit then .exits s ((src .a).toNat % 65536)
  else if o = .brc then
    let target : Int := (fr.pc.toNat : Int) + immOf op
    if target % 4 ≠ 0 then .faults s
    else if brcTaken (op.mod.toNat % 2 == 1) (src .a).toNat then
      match jumpTo s fr target with
      | .to pc => .goes (modCue s core (predicateMoves o op none pc))
      | .fault _ => .faults s
    else .goes (modCue s core (predicateMoves o op none fr.next))
  else match promptBody o with
    | none => .faults s
    | some body =>
      match bodySettled body fr (src .a) (src .b) (src .c) s with
      | .done s1 r goto =>
        .goes (modCue (settleNew core s.fresh s1) core (predicateMoves o op r (match goto with
          | some x => x
          | none => fr.next)))
      | .await s1 => takeAwaited s1 core s.fresh o op fr.next
      | .fault _ => .faults s
      | .faultAt s1 _ => .faults s1
      | .page _ k => .page k
      | .hold _ => .waits
      | .ended s1 => .exits s1 0
      | .stop _ => .faults s

/-- The next instruction of a predicate, fetched. -/
def predicateStep (s : State) (core : Nat) : PredicateEnd :=
  match getCue s core with
  | none => .faults s
  | some q =>
    match fetchAt s core q.codeEpoch q.pc q.denied with
    | .ok s1 ws =>
      match decodeWords ws with
      | .error _ => .faults s1
      | .ok i => match opcOf i with
        | some (o, op) => predicateInstr s1 core q o op
        | none => .faults s1
    | .fault _ => .faults s
    | .page _ k => .page k
    | .stop _ => .faults s

/-- A predicate of at most `n` instructions more. -/
def runPredicate (core : Nat) : Nat → State → PredicateEnd
  | 0, s => .tooLong s
  | n + 1, s =>
    match predicateStep s core with
    | .goes s1 => runPredicate core n s1
    | r => r

/-- OID and 40-bit offset of a watchpoint's program (R397). -/
def programOf (w : Watchpoint) : Nat × Nat := (field w.program.toNat 63 40, field w.program.toNat 39 0)

/-- The debug core's thread at its start: c0 the value, c1 the offset, c2 the global index, c3 the PC. Its PC counts from the last
multiple of 2^32 at or below the program's offset (DESIGN CHOICE, log 22). -/
def predicateCue (s : State) (core cast lane : Nat) (w : Watchpoint) (x : Performed) : Cue :=
  let t := getThread s core cast lane
  { pc := BitVec.ofNat 32 (programOf w).2, codeEpoch := s.icEpoch
    c := sset 0 3 (BitVec.ofNat 64 t.pc.toNat) (sset 0 2 (BitVec.ofNat 64 (gidx (coreBill s core) cast lane))
      (sset 0 1 (BitVec.ofNat 64 x.off) (sset 0 0 (BitVec.ofNat 64 x.value.toNat) []))) }

/-- Run a watchpoint's predicate for a core: its thread and its code stand in for those of the core meanwhile. -/
def predicateOf (s : State) (core cast lane : Nat) (w : Watchpoint) (x : Performed) : PredicateEnd :=
  let key := (getCore s core).launch.getD 0
  let p := programOf w
  let code := mkCap (p.2 / 2 ^ 32 * 2 ^ 32) (objSize (getObject s (coreFn s core) p.1)) p.1 4 0
  let s1 := setCue (modLaunch s key fun l => { l with bill := { l.bill with code } }) core (predicateCue s core cast lane w x)
  let back (t : State) : State :=
    modLaunch (modCore t core fun c => { c with cue := getCue s core }) key fun l =>
      { l with bill := { l.bill with code := (coreBill s core).code } }
  match runPredicate core 255 s1 with
  | .waits => .waits
  | .page k => .page k
  | .exits t n => .exits (back t) n
  | .faults t => .faults (back t)
  | .tooLong t => .tooLong (back t)
  | .goes t => .tooLong (back t)

/-- The context of a watched thread halts, with the event and its record (R383, R395). -/
def haltWatched (s : State) (core cast lane : Nat) (x : Performed) : State :=
  let t := getThread s core cast lane
  haltContext s core 0x06
    (recordOf s core t.pc.toNat t.scene.entry.toNat (gidx (coreBill s core) cast lane) x.value.toNat x.off)

/-- The thread goes on, or meets the next watchpoint that its access meets. -/
def passWatch (s : State) (die core cast lane : Nat) (p : Predicate) : State :=
  match matching s core p.access (p.watch + 1) with
  | n :: _ => modDie s die fun d => { d with predicate := some { p with watch := n, page := none } }
  | [] => modDie (dropPerformed s core cast lane) die fun d => { d with predicate := none }

/-- The debug core asks for a page that its program lacks, where it is absent (R140). -/
def askPage (s : State) (die core : Nat) (p : Predicate) (k : PageKey) : State :=
  match lookup s (corePort s core) k.oid k.off with
  | .absent => requestPage (modDie s die fun d => { d with predicate := some { p with page := some (k, false) } }) k (coreCtx s core)
  | _ => s

/-- WATCHPOINT_PREDICATE_END (R395): a predicate of a thread that has left, or of a context that does not run, is dropped. A page that
the host has refused is a fault. -/
def execWatchpointPredicateEnd (die : Nat) (s : State) : Out :=
  match (getDie s die).predicate with
  | none => .next s
  | some p =>
    match p.agent with
    | .cue _ => .next s
    | .lane core cast lane =>
      let clear (s : State) : State := modDie s die fun d => { d with predicate := none }
      let halt (s : State) : Out := .next (dropPerformed (haltWatched (clear s) core cast lane p.access) core cast lane)
      let t := getThread s core cast lane
      if !t.live || t.performed.head? ≠ some p.access || !contextRuns s core then .next (clear s)
      else match predicateOf s core cast lane (sget {} p.watch (getDie s die).watch) p.access with
        | .waits => .next s
        | .page k =>
          if p.page = some (k, true) then halt s
          else if p.page = some (k, false) then .next s
          else .next (askPage s die core p k)
        | .exits s1 n => if n = 0 then .next (passWatch s1 die core cast lane p) else halt s1
        | .faults s1 => halt s1
        | .tooLong s1 => halt s1
        | .goes s1 => halt s1

end Sys2Proof.Machine
end

