-- ==== Sys2Proof/Machine/Dispatch.lean ====
section
/-! DEFINITION. Dispatch: one arm for every row of the table of operations and events. -/

namespace Sys2Proof.Machine

def exec (i : Instr) (s : State) : Host.Outcome State Fault Refusal :=
  match i with
  | .nop o => Sys2Proof.Machine.execNop o s
  | .bra o => Sys2Proof.Machine.execBra o s
  | .brc o => Sys2Proof.Machine.execBrc o s
  | .jmpi o => Sys2Proof.Machine.execJmpi o s
  | .call o => Sys2Proof.Machine.execCall o s
  | .calli o => Sys2Proof.Machine.execCalli o s
  | .ret o => Sys2Proof.Machine.execRet o s
  | .reform o => Sys2Proof.Machine.execReform o s
  | .scene o => Sys2Proof.Machine.execScene o s
  | .exit o => Sys2Proof.Machine.execExit o s
  | .arrive o => Sys2Proof.Machine.execArrive o s
  | .bwait o => Sys2Proof.Machine.execBwait o s
  | .dqpush o => Sys2Proof.Machine.execDqpush o s
  | .dqpop o => Sys2Proof.Machine.execDqpop o s
  | .qenq o => Sys2Proof.Machine.execQenq o s
  | .qdeq o => Sys2Proof.Machine.execQdeq o s
  | .qstat o => Sys2Proof.Machine.execQstat o s
  | .launch o => Sys2Proof.Machine.execLaunch o s
  | .wait o => Sys2Proof.Machine.execWait o s
  | .ordy o => Sys2Proof.Machine.execOrdy o s
  | .castsync o => Sys2Proof.Machine.execCastsync o s
  | .yield o => Sys2Proof.Machine.execYield o s
  | .iadd o => Sys2Proof.Machine.execIadd o s
  | .isub o => Sys2Proof.Machine.execIsub o s
  | .imul o => Sys2Proof.Machine.execImul o s
  | .imulh o => Sys2Proof.Machine.execImulh o s
  | .imad o => Sys2Proof.Machine.execImad o s
  | .imin o => Sys2Proof.Machine.execImin o s
  | .imax o => Sys2Proof.Machine.execImax o s
  | .iabs o => Sys2Proof.Machine.execIabs o s
  | .ineg o => Sys2Proof.Machine.execIneg o s
  | .iadds o => Sys2Proof.Machine.execIadds o s
  | .isubs o => Sys2Proof.Machine.execIsubs o s
  | .icmp o => Sys2Proof.Machine.execIcmp o s
  | .sel o => Sys2Proof.Machine.execSel o s
  | .mov o => Sys2Proof.Machine.execMov o s
  | .movl o => Sys2Proof.Machine.execMovl o s
  | .vidx o => Sys2Proof.Machine.execVidx o s
  | .and o => Sys2Proof.Machine.execAnd o s
  | .or o => Sys2Proof.Machine.execOr o s
  | .xor o => Sys2Proof.Machine.execXor o s
  | .andn o => Sys2Proof.Machine.execAndn o s
  | .not o => Sys2Proof.Machine.execNot o s
  | .shl o => Sys2Proof.Machine.execShl o s
  | .shr o => Sys2Proof.Machine.execShr o s
  | .sar o => Sys2Proof.Machine.execSar o s
  | .rol o => Sys2Proof.Machine.execRol o s
  | .bfx o => Sys2Proof.Machine.execBfx o s
  | .bfi o => Sys2Proof.Machine.execBfi o s
  | .popc o => Sys2Proof.Machine.execPopc o s
  | .clz o => Sys2Proof.Machine.execClz o s
  | .ctz o => Sys2Proof.Machine.execCtz o s
  | .brev o => Sys2Proof.Machine.execBrev o s
  | .plog o => Sys2Proof.Machine.execPlog o s
  | .padd16 o => Sys2Proof.Machine.execPadd16 o s
  | .psub16 o => Sys2Proof.Machine.execPsub16 o s
  | .pmul16 o => Sys2Proof.Machine.execPmul16 o s
  | .pmac16 o => Sys2Proof.Machine.execPmac16 o s
  | .padd8 o => Sys2Proof.Machine.execPadd8 o s
  | .pdot8 o => Sys2Proof.Machine.execPdot8 o s
  | .shrr o => Sys2Proof.Machine.execShrr o s
  | .satn o => Sys2Proof.Machine.execSatn o s
  | .pmin16 o => Sys2Proof.Machine.execPmin16 o s
  | .pmax16 o => Sys2Proof.Machine.execPmax16 o s
  | .add64 o => Sys2Proof.Machine.execAdd64 o s
  | .sub64 o => Sys2Proof.Machine.execSub64 o s
  | .shl64 o => Sys2Proof.Machine.execShl64 o s
  | .shr64 o => Sys2Proof.Machine.execShr64 o s
  | .mul32w o => Sys2Proof.Machine.execMul32w o s
  | .fadd o => Sys2Proof.Machine.execFadd o s
  | .fsub o => Sys2Proof.Machine.execFsub o s
  | .fmul o => Sys2Proof.Machine.execFmul o s
  | .ffma o => Sys2Proof.Machine.execFfma o s
  | .fmin o => Sys2Proof.Machine.execFmin o s
  | .fmax o => Sys2Proof.Machine.execFmax o s
  | .fabs o => Sys2Proof.Machine.execFabs o s
  | .fneg o => Sys2Proof.Machine.execFneg o s
  | .fcmp o => Sys2Proof.Machine.execFcmp o s
  | .fclass o => Sys2Proof.Machine.execFclass o s
  | .frcp o => Sys2Proof.Machine.execFrcp o s
  | .frsq o => Sys2Proof.Machine.execFrsq o s
  | .fsqrt o => Sys2Proof.Machine.execFsqrt o s
  | .fexp2 o => Sys2Proof.Machine.execFexp2 o s
  | .flog2 o => Sys2Proof.Machine.execFlog2 o s
  | .ftanh o => Sys2Proof.Machine.execFtanh o s
  | .frnd o => Sys2Proof.Machine.execFrnd o s
  | .fscale o => Sys2Proof.Machine.execFscale o s
  | .cvt o => Sys2Proof.Machine.execCvt o s
  | .cvtq o => Sys2Proof.Machine.execCvtq o s
  | .cvtd o => Sys2Proof.Machine.execCvtd o s
  | .hadd2 o => Sys2Proof.Machine.execHadd2 o s
  | .hmul2 o => Sys2Proof.Machine.execHmul2 o s
  | .hfma2 o => Sys2Proof.Machine.execHfma2 o s
  | .fdot2 o => Sys2Proof.Machine.execFdot2 o s
  | .slide o => Sys2Proof.Machine.execSlide o s
  | .shfl o => Sys2Proof.Machine.execShfl o s
  | .bcast o => Sys2Proof.Machine.execBcast o s
  | .reduce o => Sys2Proof.Machine.execReduce o s
  | .scan o => Sys2Proof.Machine.execScan o s
  | .vote o => Sys2Proof.Machine.execVote o s
  | .matchLanes o => Sys2Proof.Machine.execMatchLanes o s
  | .kmov o => Sys2Proof.Machine.execKmov o s
  | .ld o => Sys2Proof.Machine.execLd o s
  | .st o => Sys2Proof.Machine.execSt o s
  | .lds o => Sys2Proof.Machine.execLds o s
  | .sts o => Sys2Proof.Machine.execSts o s
  | .ldk o => Sys2Proof.Machine.execLdk o s
  | .atom o => Sys2Proof.Machine.execAtom o s
  | .atoms o => Sys2Proof.Machine.execAtoms o s
  | .pfch o => Sys2Proof.Machine.execPfch o s
  | .capld o => Sys2Proof.Machine.execCapld o s
  | .capst o => Sys2Proof.Machine.execCapst o s
  | .capnar o => Sys2Proof.Machine.execCapnar o s
  | .capinfo o => Sys2Proof.Machine.execCapinfo o s
  | .copy o => Sys2Proof.Machine.execCopy o s
  | .gatherb o => Sys2Proof.Machine.execGatherb o s
  | .copyx o => Sys2Proof.Machine.execCopyx o s
  | .rel o => Sys2Proof.Machine.execRel o s
  | .acq o => Sys2Proof.Machine.execAcq o s
  | .icinv o => Sys2Proof.Machine.execIcinv o s
  | .capmk o => Sys2Proof.Machine.execCapmk o s
  | .mma o => Sys2Proof.Machine.execMma o s
  | .mmas o => Sys2Proof.Machine.execMmas o s
  | .wload o => Sys2Proof.Machine.execWload o s
  | .zclr o => Sys2Proof.Machine.execZclr o s
  | .zld o => Sys2Proof.Machine.execZld o s
  | .zst o => Sys2Proof.Machine.execZst o s
  | .zmov o => Sys2Proof.Machine.execZmov o s
  | .spcomp o => Sys2Proof.Machine.execSpcomp o s
  | .expq o => Sys2Proof.Machine.execExpq o s
  | .cred o => Sys2Proof.Machine.execCred o s
  | .qcast o => Sys2Proof.Machine.execQcast o s
  | .topk o => Sys2Proof.Machine.execTopk o s
  | .sacc o => Sys2Proof.Machine.execSacc o s
  | .trap o => Sys2Proof.Machine.execTrap o s
  | .resume o => Sys2Proof.Machine.execResume o s
  | .sysrd o => Sys2Proof.Machine.execSysrd o s
  | .syswr o => Sys2Proof.Machine.execSyswr o s
  | .pbkrd o => Sys2Proof.Machine.execPbkrd o s
  | .pbkwr o => Sys2Proof.Machine.execPbkwr o s
  | .pbkclr o => Sys2Proof.Machine.execPbkclr o s
  | .pbksave o => Sys2Proof.Machine.execPbksave o s
  | .pbkload o => Sys2Proof.Machine.execPbkload o s
  | .step o => Sys2Proof.Machine.execStep o s
  | .fade o => Sys2Proof.Machine.execFade o s
  | .classmap o => Sys2Proof.Machine.execClassmap o s
  | .brkpt o => Sys2Proof.Machine.execBrkpt o s
  | .trace o => Sys2Proof.Machine.execTrace o s
  | .gatherComplete core cast => Sys2Proof.Machine.execGatherComplete core cast s
  | .waitWake who => Sys2Proof.Machine.execWaitWake who s
  | .bwaitWake who => Sys2Proof.Machine.execBwaitWake who s
  | .dqpopWake core cast => Sys2Proof.Machine.execDqpopWake core cast s
  | .qdeqWake who => Sys2Proof.Machine.execQdeqWake who s
  | .brcResolve core => Sys2Proof.Machine.execBrcResolve core s
  | .commandBufferPerform core => Sys2Proof.Machine.execCommandBufferPerform core s
  | .translationRestart who => Sys2Proof.Machine.execTranslationRestart who s
  | .retryAfterRefusal core xfer hint => Sys2Proof.Machine.execRetryAfterRefusal core xfer hint s
  | .retryResend core xfer => Sys2Proof.Machine.execRetryResend core xfer s
  | .l1Fill core line back => Sys2Proof.Machine.execL1Fill core line back s
  | .releaseFifoWriteback core => Sys2Proof.Machine.execReleaseFifoWriteback core s
  | .homeWriteApply index => Sys2Proof.Machine.execHomeWriteApply index s
  | .homeWriteAck index => Sys2Proof.Machine.execHomeWriteAck index s
  | .copyCompletion core xfer => Sys2Proof.Machine.execCopyCompletion core xfer s
  | .accumulatorCopyCompletion core xfer => Sys2Proof.Machine.execAccumulatorCopyCompletion core xfer s
  | .wloadCompletion core xfer => Sys2Proof.Machine.execWloadCompletion core xfer s
  | .qcastCompletion core xfer => Sys2Proof.Machine.execQcastCompletion core xfer s
  | .pbkTransferCompletion core xfer => Sys2Proof.Machine.execPbkTransferCompletion core xfer s
  | .matrixGrant cluster => Sys2Proof.Machine.execMatrixGrant cluster s
  | .matrixPassCompletion cluster => Sys2Proof.Machine.execMatrixPassCompletion cluster s
  | .credRoundCompletion cluster ctx launch ens => Sys2Proof.Machine.execCredRoundCompletion cluster ctx launch ens s
  | .faderReencode core job => Sys2Proof.Machine.execFaderReencode core job s
  | .classmapCompletion job => Sys2Proof.Machine.execClassmapCompletion job s
  | .binDraw core part bin => Sys2Proof.Machine.execBinDraw core part bin s
  | .castSwap core out inn => Sys2Proof.Machine.execCastSwap core out inn s
  | .castDue core part => Sys2Proof.Machine.execCastDue core part s
  | .queueDoorbell die queue value => Sys2Proof.Machine.execQueueDoorbell die queue value s
  | .queueHaltClear die queue => Sys2Proof.Machine.execQueueHaltClear die queue s
  | .queueEnable die queue => Sys2Proof.Machine.execQueueEnable die queue s
  | .packetAtHead die queue => Sys2Proof.Machine.execPacketAtHead die queue s
  | .waitsetConsume die queue => Sys2Proof.Machine.execWaitsetConsume die queue s
  | .launchDraw die ctx => Sys2Proof.Machine.execLaunchDraw die ctx s
  | .castPlacement ctx launch => Sys2Proof.Machine.execCastPlacement ctx launch s
  | .completionRecordWrite ctx launch scope core => Sys2Proof.Machine.execCompletionRecordWrite ctx launch scope core s
  | .ownerChange core ctx => Sys2Proof.Machine.execOwnerChange core ctx s
  | .deficitExhausted cluster => Sys2Proof.Machine.execDeficitExhausted cluster s
  | .tokenRefill die => Sys2Proof.Machine.execTokenRefill die s
  | .preempt fn => Sys2Proof.Machine.execPreempt fn s
  | .preemptionImageSaved ctx => Sys2Proof.Machine.execPreemptionImageSaved ctx s
  | .resumeCommand fn => Sys2Proof.Machine.execResumeCommand fn s
  | .inval fn => Sys2Proof.Machine.execInval fn s
  | .pageresp fn => Sys2Proof.Machine.execPageresp fn s
  | .fugset fn => Sys2Proof.Machine.execFugset fn s
  | .pull fn => Sys2Proof.Machine.execPull fn s
  | .pullPageComplete job lost => Sys2Proof.Machine.execPullPageComplete job lost s
  | .inject fn => Sys2Proof.Machine.execInject fn s
  | .record fn => Sys2Proof.Machine.execRecord fn s
  | .attest fn => Sys2Proof.Machine.execAttest fn s
  | .continueHalt fn => Sys2Proof.Machine.execContinueHalt fn s
  | .hostApertureAccess fn offset size write => Sys2Proof.Machine.execHostApertureAccess fn offset size write s
  | .peerRequest entry offset size op => Sys2Proof.Machine.execPeerRequest entry offset size op s
  | .peerSourceLost core xfer => Sys2Proof.Machine.execPeerSourceLost core xfer s
  | .sharedStructureError part line control => Sys2Proof.Machine.execSharedStructureError part line control s
  | .firmwareScrub line => Sys2Proof.Machine.execFirmwareScrub line s
  | .functionLevelReset fn => Sys2Proof.Machine.execFunctionLevelReset fn s
  | .flrDrainExpiry fn => Sys2Proof.Machine.execFlrDrainExpiry fn s
  | .vfEnableClear => Sys2Proof.Machine.execVfEnableClear s
  | .pcluWrite fn value => Sys2Proof.Machine.execPcluWrite fn value s
  | .functionRegisterWrite fn value => Sys2Proof.Machine.execFunctionRegisterWrite fn value s
  | .pcapWrite value => Sys2Proof.Machine.execPcapWrite value s
  | .rateWrite channel value => Sys2Proof.Machine.execRateWrite channel value s
  | .rateSwitchDone channel => Sys2Proof.Machine.execRateSwitchDone channel s
  | .trdropWrite fn value => Sys2Proof.Machine.execTrdropWrite fn value s
  | .histogramClear core part counter => Sys2Proof.Machine.execHistogramClear core part counter s
  | .registerWrite fn offset value => Sys2Proof.Machine.execRegisterWrite fn offset value s
  | .refreshInterval channel issued => Sys2Proof.Machine.execRefreshInterval channel issued s
  | .rowActivationLimit channel row => Sys2Proof.Machine.execRowActivationLimit channel row s
  | .thermalThrottle die => Sys2Proof.Machine.execThermalThrottle die s
  | .thermalTrip die temperature => Sys2Proof.Machine.execThermalTrip die temperature s
  | .watchpointMatch die index => Sys2Proof.Machine.execWatchpointMatch die index s
  | .watchpointPredicateEnd die => Sys2Proof.Machine.execWatchpointPredicateEnd die s
  | .moduleBoot => Sys2Proof.Machine.execModuleBoot s
  | .homeAccessResponse core index => Sys2Proof.Machine.execHomeAccessResponse core index s
  | .cmddoorWrite fn value => Sys2Proof.Machine.execCmddoorWrite fn value s
  | .unknownOp fn => Sys2Proof.Machine.execUnknownOp fn s
  | .evheadWrite fn value => Sys2Proof.Machine.execEvheadWrite fn value s
  | .throttleRelease die => Sys2Proof.Machine.execThrottleRelease die s

end Sys2Proof.Machine
end

