-- ==== Sys2Proof/Machine/Holds.lean ====
section
/-! DEFINITION. What holds threads, tried again as the clk of their die passes; a thermal trip that is under way (R179, R181, R392,
R394; DESIGN CHOICE, log 24). -/

namespace Sys2Proof.Machine

/-- Is the reason one that the instruction itself must try again: an interlock, a range, a full table? -/
def heldReason (r : Nat) : Bool := r == 2 || r == 9 || r == 10

/-- Would the next instruction of a lane be held if it issued now? -/
def heldNow (s : State) (core cast lane : Nat) : Bool :=
  match issueLanes (modThread s core cast lane fun t => { t with stalled := 0 }) core [(cast, lane)] with
  | .settled _ => !groupMayIssue s core [(cast, lane)]
  | .run i s1 => match exec i s1 with
    | .next s2 => heldReason (getThread s2 core cast lane).stalled
    | .fault _ => false
    | .refused _ => false

/-- The lanes of a core that something holds. -/
def heldLanes (s : State) (core : Nat) : List (Nat × Nat) :=
  (getCore s core).casts.flatMap fun e =>
    ((enum 0 e.2.threads).filter fun t => t.2.live && t.2.wait == .ready && heldReason t.2.stalled).map fun t => (e.1, t.1)

/-- Threads of a die that nothing holds any more are able to issue again. -/
def refreshHolds (s : State) (die : Nat) : State :=
  (span (64 * die) 64).foldl (fun acc core =>
    (heldLanes s core).foldl (fun acc th =>
      if heldNow s core th.1 th.2 then acc else modThread acc core th.1 th.2 fun t => { t with stalled := 0 }) acc) s

/-- `n` clk of a die pass. -/
def passDie (s : State) (die n : Nat) : State := settleTrip (elapseDie (refreshHolds s die) die n)

end Sys2Proof.Machine
end

