-- ==== Sys2Proof/Machine/Program.lean ====
section
/-! DEFINITION. A machine with one program instruction loaded, as a host would load it: firmware booted, one context, one
object of code, one launch with one cast (DESIGN CHOICE, log 3). -/

namespace Sys2Proof.Machine

/-- The context, the object and the addresses of the loaded program. -/
def programCtx : Nat := 1
def programOid : Nat := 1
def programExtents : Nat := 0x1000
def programBase : Nat := 0x200000

/-- The object's table entry: 2 MiB, one extent, HBM, Bare. -/
def programObject : BitVec 128 := BitVec.ofNat 128 ((2 ^ 21) <<< 88 + (programExtents / 4096) <<< 48 + 1 <<< 32 + 1)

/-- The extent: from offset 0, one page of 2 MiB. -/
def programExtent : Nat := (programBase / 4096) <<< 48 + 1 <<< 24

/-- The playbill: one cast of width 16, every vector register, code with the execute right. -/
def programBill : Playbill :=
  { code := mkCap 0 (2 ^ 21) programOid 4 0, casts := 1, width := 16, vregs := 128, scratch := 1, ctxid := programCtx
    slots := List.replicate 8 0, args := List.replicate 16 0 }

/-- The launch. -/
def programLaunch : Launch :=
  { ctx := programCtx, number := 0, die := 0, bill := programBill, next := 1, cues := 1
    ensembles := [(kernelScope, { live := 1 })] }

/-- The lane thread, of global index 0 (R18), and the cast. -/
def programCast : Cast := { threads := [openImplicit programBill { srstate := 0x2545F491 } 0] }

/-- The core that holds the launch. -/
def programCore : Core :=
  { launch := some (launchKey programCtx 0), owner := some programCtx, casts := [(0, programCast)]
    parts := [(0, { active := [(0, 0)] })], cue := some {} }

/-- A line leaves every structure that could give other bytes than memory. -/
def uncacheLine (s : State) (line : Nat) : State :=
  let dies : Store Die := s.dies.map fun e => (e.1, { e.2 with l2 := sdel line e.2.l2 })
  { s with poison := ndel line s.poison, injected := sdel line s.injected, dies }

/-- Store bytes in memory, in no cache. -/
def placeProgram (s : State) (key : Nat) (bs : List Byte) : State :=
  let s1 := uncacheLine s (key / 64)
  { s1 with mem := putBytes key bs s1.mem }

/-- The machine with the bytes of one instruction loaded at the entry point, its thread next in turn: a lane of core 0, or
the cue thread of core 0. -/
def loadProgram (s : State) (bytes : List Byte) (cue : Bool) : State :=
  let s1 := placeProgram (placeProgram s programExtents (toBytes 16 programExtent)) programBase bytes
  let s2 := setObject s1 0 programOid programObject
  let s3 := setContext s2 programCtx { fn := 0, ctxid := 1 }
  let s4 := setLaunch s3 (launchKey programCtx 0) programLaunch
  let s5 := modCluster (setCore s4 0 programCore) 0 fun c =>
    { c with ctx := some programCtx, turnFn := some 0, turnCtx := some programCtx }
  let dies : Store Die := s5.dies.map fun e => (e.1, { e.2 with tlb := e.2.tlb.filter fun x => !(x.oid == programOid) })
  { s5 with
    dies, booted := true, poweredDown := false
    agenda := (if cue then Turn.cue 0 false else Turn.lanes 0 [(0, 0)]) :: s5.agenda }

/-- Is an instruction one of the cue thread alone? -/
def cueOnly (i : Option Instr) : Bool :=
  match i with
  | some i => match opcOf i with
    | some (o, _) => (opRow o).modes == .cue
    | none => false
  | none => false

end Sys2Proof.Machine
end

