-- ==== Sys2Proof/Machine/Turns.lean ====
section
/-! DEFINITION. One turn of the module: the next of the agenda, or a free one; what it comes to (DESIGN CHOICE, log 2, log 23). -/

namespace Sys2Proof.Machine

/-- Take the next turn: the oldest of the agenda, or the one that the free schedule gives. -/
def takeTurn (s : State) : Turn × State :=
  let s1 := { s with tick := s.tick + 1, issued := s.issued + 1, actor := .none }
  match s1.agenda with
  | [] => (Config.schedule s.tick, s1)
  | t :: rest => (t, { s1 with agenda := rest })

/-! ### What a peer module answers (R386, R387; DESIGN CHOICE, log 26) -/

/-- The page of a peer module that a load reads, unless it is poisoned. -/
def lostPage (s : State) (core : Nat) (c : Cap) (off : Int) : Option PageKey :=
  let e := (effective c off).toNat
  match lookup s (corePort s core) (capOid c) e with
  | .valid p => if p.tier = 3 ∧ !p.poisoned then some (pageKeyOf s (coreFn s core) (capOid c) e) else none
  | _ => none

/-- An instruction that reads through a capability register once for its cast. -/
def castLoad (o : Opc) : Bool := o == .ldk || o == .capld

/-- The page of a peer module that the next word of a lane loads from: its first operation, or a pair's second. -/
def lanePage (s : State) (core cast lane : Nat) (pc : Word) (o : Opc) (op : Op) : Option PageKey :=
  let fr := frameAt core pc o op
  let first := if (o == .ld || castLoad o) && guardOf s core cast lane op then
      lostPage s core (laneCap s core cast op.a.toNat) (laneOff s fr cast lane)
    else none
  first.or (op.second.bind fun x =>
    let fr2 := secondFrame fr x
    if x.opc == .ld && guard2Of s core cast lane x then lostPage s core (laneCap s core cast fr2.op.a.toNat) (laneOff s fr2 cast lane)
    else none)

/-- The lanes whose load is lost with a lane's: those of its cast at the same instruction, where it is made once for the cast. -/
def lostLanes (s : State) (core cast lane : Nat) (o : Opc) : List Nat :=
  if castLoad o then
    ((enum 0 (getCast s core cast).threads).filter fun e =>
      threadMayIssue s core (cast, e.1) && e.2.pc == (getThread s core cast lane).pc).map Prod.fst
  else [lane]

/-- A lane's load from a peer module is lost. -/
def loseLane (s : State) (core cast lane : Nat) : State :=
  let t := getThread s core cast lane
  if !(contextRuns s core && threadMayIssue s core (cast, lane)) then s
  else match fetchAt s core t.codeEpoch t.pc t.denied with
    | .ok _ ws => match (decodeWords ws).toOption.bind opcOf with
      | some (o, op) => match lanePage s core cast lane t.pc o op with
        | some k => (lostLanes s core cast lane o).foldl (fun s l => restartThread s core cast l k) s
        | none => s
      | none => s
    | _ => s

/-- The load that the cue thread performs next, with its offset: the oldest command, or the next instruction. -/
def cueLoad (s : State) (core : Nat) (q : Cue) : Option (Cap × Int) :=
  let load (pc : Word) (i : Instr) (b : Op → Frame → DWord) : Option (Cap × Int) := match opcOf i with
    | some (.ld, op) =>
      let fr := frameAt core pc .ld op
      some (cueCap s core op.a.toNat, cueOff fr (b op fr))
    | _ => none
  match q.buf.head?.bind fun cmd => load cmd.pc cmd.instr fun _ _ => cmd.b with
  | some r => some r
  | none => match fetchAt s core q.codeEpoch q.pc q.denied with
    | .ok _ ws => (decodeWords ws).toOption.bind fun i => load q.pc i fun _ fr => BitVec.ofNat 64 (cueSrc q.c fr .b)
    | _ => none

/-- The cue thread's load from a peer module is lost: it starts again, as for a page that is missing. -/
def loseCue (s : State) (core : Nat) : State :=
  match getCue s core with
  | none => s
  | some q =>
    if !(contextRuns s core && cueMayIssue q) then s
    else match (cueLoad s core q).bind fun r => lostPage s core r.1 r.2 with
      | some k => setCue s core { q with page := some k }
      | none => s

/-- The turn in which a thread's load from a peer module is lost: it starts again, until the page is poisoned (R386, R387). -/
def lostLoadTurn (who : Agent) (s : State) : Out :=
  .next (match who with
    | .lane core cast lane => loseLane s core cast lane
    | .cue core => loseCue s core)

/-- The turn in which a peer sends poisoned data of a line, which the line then carries (R386). -/
def peerPoisonTurn (line : Nat) (s : State) : Out := .next (if isPeerLine line then { s with poison := nins line s.poison } else s)

/-- Lies a side of a transfer on a peer module? -/
def peerSide (s : State) (x : Xfer) : Side → Bool
  | .mem c _ => objTier (getObject s x.fn (capOid c)) == 3
  | _ => false

/-- The value of an operation that a peer completes as unsupported: the spec states none. -/
def unsupportedValue (s : State) (x : Xfer) : Nat :=
  ofBytes ((List.range 8).map (Config.freeByte s.tick)) % 2 ^ (if x.kind = .atom then 8 * atomBytes x.mod else 32)

/-- The turn in which a peer completes the request of a transfer as unsupported: as for a page that the host refuses, a read of the peer
gives poisoned data and a write does nothing there (R141, R386); an atomic or a queue operation does nothing, and its value is free. -/
def peerUnsupportedTurn (core id : Nat) (s : State) : Out :=
  match findXfer s core id with
  | none => .next s
  | some x =>
    if !pieceReady s core x || !reachesPeer s x then .next s
    else match pieceMet s core x with
      | .nowhere => .next s
      | .refused _ _ => .next s
      | .clear =>
        if remoteKind x.kind then
          let xs := if x.kind = .atom then [x] else remoteGroup s core x
          .next (remoteDone s core xs (xs.map (unsupportedValue s)))
        else
          let p := nextPiece x
          let g := if peerSide s x x.src then plainCargo s (List.replicate p.n 0) (fun _ => true) else readSide s core x p.src p.n
          let w : Landing := if peerSide s x x.dst then ⟨g.state, x.zeroed⟩ else writeSide core x p.dst g
          .next (noteServed (putXfer w.state core (landed x p g w.zeroed (coreClk s core))) core x.ctx x.asked)

/-- What a turn comes to: nothing before the module has booted, but its boot; nothing once it is powered down. -/
def issueTurn (t : Turn) (s : State) : Issue :=
  if s.poweredDown then .settled (.next s)
  else if !s.booted then
    match t with
    | .event .moduleBoot => .run .moduleBoot s
    | _ => .settled (.next s)
  else
    match t with
    | .lanes core ths => issueLanes (splitDrawn s core) core ths
    | .cue core hold => issueCue s core hold
    | .event e => if (opcOf e).isNone then .run e s else .settled (.next s)
    | .elapse die n => .settled (.next (passDie s die n))
    | .piece core xfer => .settled (landPiece core xfer s)
    | .hostObject fn oid entry => .settled (hostObjectTurn fn oid entry s)
    | .hostRead fn off => .settled (hostReadTurn fn off s)
    | .hostRetry => .settled (hostRetryTurn s)
    | .activate channel row => .settled (activateTurn channel row s)
    | .lostLoad who => .settled (lostLoadTurn who s)
    | .peerPoison line => .settled (peerPoisonTurn line s)
    | .peerUnsupported core xfer => .settled (peerUnsupportedTurn core xfer s)

end Sys2Proof.Machine
end

