-- ==== Sys2Proof/Machine/Step.lean ====
section
/-! DEFINITION. One step of the module. -/

namespace Sys2Proof.Machine

/-- One step: the next turn, and the instruction or the event that it executes. -/
def step (s : State) : Host.Outcome State Fault Refusal :=
  let t := takeTurn s
  match issueTurn t.1 t.2 with
  | .run i s1 => exec i s1
  | .settled o => o

/-- The machine whose next step fetches and runs the instruction with these bits (DESIGN CHOICE, log 3). -/
def State.withFetchWord (s : State) (nbits w : Nat) : State :=
  loadProgram s (tableBytes nbits w) (cueOnly (decodeTableWord nbits w))

end Sys2Proof.Machine
end

