-- ==== Sys2Proof/Safety.lean ====
section
/-! DEFINITION. Safety: the terms that claims use. When a step goes on; who issues an instruction and when nothing stands in its
way; what a lane, a cast or the cue thread holds after it; what it leaves unchanged. -/

namespace Sys2Proof

open Machine

/-- The step at a state answers a next state. -/
def stepsOn (s : State) : Prop := ∃ t, step s = .next t

/-- The first `n` steps from a state all answer a next state. -/
def runsOn : Nat → State → Prop
  | 0, _ => True
  | n + 1, s => ∃ t, step s = .next t ∧ runsOn n t

/-! ### Who issues -/

/-- A lane exists in a cast of a core. -/
def hasLane (s : State) (core cast lane : Nat) : Bool := decide (lane < (getCast s core cast).threads.length)

/-- No operand of the word comes too early for the lane, or the mode does not check that (R54). -/
def onTime (s : State) (core cast lane : Nat) (o : Opc) (op : Op) : Bool :=
  !modeSchk (coreMode s core) || (stallShort s core cast lane o op).isNone

/-- One lane issues an unpaired operation that is legal in its mode, its guard true. It has not committed for it yet. -/
def laneIssues (s : State) (core cast lane : Nat) (o : Opc) (op : Op) : Bool :=
  s.actor == .lanes core [(cast, lane)] && hasLane s core cast lane && op.second.isNone && legalIn (laneEnv s core) o op
    && guardOf s core cast lane op && onTime s core cast lane o op && !(getThread s core cast lane).committed

/-- Some lanes issue an unpaired operation, legal in their mode, as one group: each once, all at one PC, none committed for it yet. -/
def groupIssues (s : State) (core : Nat) (ths : List (Nat × Nat)) (o : Opc) (op : Op) : Bool :=
  s.actor == .lanes core ths && decide ths.Nodup && op.second.isNone && legalIn (laneEnv s core) o op
    && ths.all fun th => hasLane s core th.1 th.2 && (getThread s core th.1 th.2).pc == groupPc s core ths
      && onTime s core th.1 th.2 o op && !(getThread s core th.1 th.2).committed

/-- All the live lanes of a cast issue an unpaired gathering operation, legal in their mode, at one PC: the cast is complete
at it, and has not committed for it yet. `act` are the lanes whose guard is true. -/
def castIssues (s : State) (core cast : Nat) (act : List Nat) (o : Opc) (op : Op) : Bool :=
  let ls := liveLanes (getCast s core cast)
  s.actor == .lanes core (ls.map fun l => (cast, l)) && !ls.isEmpty && op.second.isNone && legalIn (laneEnv s core) o op
    && ls.all (fun l => (getThread s core cast l).pc == (getThread s core cast (ls.headD 0)).pc
      && onTime s core cast l o op && !(getThread s core cast l).committed)
    && act == ls.filter fun l => guardOf s core cast l op

/-- The cue thread of a core issues an operation: nothing parked, no page awaited, its registers ready (R183, R184). -/
def cueIssues (s : State) (core : Nat) (o : Opc) (op : Op) : Bool :=
  (match getCue s core with
    | some q => cueMayIssue q && cueReady q o op false
    | none => false) && legalIn (cueEnv s core) o op

/-- The cue thread issues an operation that executes at once. -/
def cueRuns (s : State) (core : Nat) (o : Opc) (op : Op) : Bool :=
  (s.actor == .cue core true || s.actor == .cue core false) && cueIssues s core o op

/-- The cue thread issues a command that is performed at once: its buffer is empty and no BRC is unresolved (R184). -/
def cueCommands (s : State) (core : Nat) (o : Opc) (op : Op) : Bool :=
  s.actor == .cue core false && cueIssues s core o op
    && (match getCue s core with
      | some q => q.buf.isEmpty && q.checks.isEmpty && q.page.isNone && !q.response && q.parked.isNone
      | none => false)

/-- The cue thread of a core; an empty one where there is none. -/
def theCue (s : State) (core : Nat) : Cue :=
  match getCue s core with
  | some q => q
  | none => {}

/-- The frame of an operation that the first thread of a group or the cue thread issues: its PC and the next. -/
def laneFrame (s : State) (core cast lane : Nat) (o : Opc) (op : Op) : Frame :=
  { frameAt core (getThread s core cast lane).pc o op with lead := some (cast, lane) }
def castFrame (s : State) (core cast : Nat) (o : Opc) (op : Op) : Frame :=
  frameAt core (getThread s core cast ((liveLanes (getCast s core cast)).headD 0)).pc o op
def cueFrame (s : State) (core : Nat) (o : Opc) (op : Op) : Frame := frameAt core (theCue s core).pc o op

/-- The PC after an operation that goes on in order (R32). -/
def nextPc (pc : Word) (op : Op) : Word := pc + BitVec.ofNat 32 (4 * formWords op.form)

/-- The state after one lane has committed its scene at a commit point, if its commit goes through (R210, R211). -/
def committed (s : State) (core cast lane : Nat) (o : Opc) (op : Op) : Option State :=
  match commitPoint s (laneFrame s core cast lane o op) [(cast, lane)] with
  | .go s1 [th] => if th == (cast, lane) && guardOf s1 core cast lane op then some s1 else none
  | .go _ _ => none
  | .held => none
  | .stop _ => none

/-- May the thread enter its handler: it is not in it already, there is one, and the return stack that the abort restores has
room (R216, R220)? -/
def handlerReady (s : State) (core cast lane : Nat) : Bool :=
  let t := getThread s core cast lane
  !t.inh && (coreBill s core).trapPc != 0xFFFFFFFF && decide (t.scene.snapStack.length < 16)

/-! ### What a thread holds after an operation -/

/-- Vector registers with `n` words of a number written from `d` on. -/
def withV (d n value : Nat) (v : Store Word) : Store Word := (splitWords d value n).foldl (fun v e => sset 0 e.1 e.2 v) v

/-- Predicates with one written; p7 is no destination (R16). -/
def withP (d : Nat) (b : Bool) (p : BitVec 7) : BitVec 7 :=
  if d ≥ 7 then p else BitVec.ofNat 7 (setField p.toNat d d (b2n b))

/-- A number written to an operation's destination: a general register or registers, a predicate, or nowhere (R37). -/
def withDest (o : Opc) (op : Op) (value : Nat) (t : Thread) : Thread :=
  match kindOf o .d with
  | .d => { t with v := withV op.d.toNat (span32 o op.mod.toNat .d) value t.v }
  | .f => { t with p := withP op.d.toNat (value % 2 == 1) t.p }
  | _ => t

/-- Flags that join TSTAT; they stay set (R17, R89). -/
def withFlags (flags : Nat) (t : Thread) : Thread := { t with tstat := t.tstat ||| BitVec.ofNat 32 flags }

/-- A thread that may issue at a PC. -/
def readyAt (pc : Word) (t : Thread) : Thread := { t with pc, wait := .ready }

/-- The implicit scene of an entry: every vector register of the launch and every uniform register live in, budget 16, the
thread's status as snapshot, nothing buffered (R210). -/
def implicitScene (b : Playbill) (t : Thread) (entry : Word) : Scene :=
  { entry, liveV := BitVec.ofNat 128 (2 ^ b.vregs - 1), liveK := 0xFFFFFFFF, budget := 16, snapP := t.p, snapTstat := t.tstat
    snapSr := t.srstate, snapStack := t.stack }

/-- What of a thread only delays it: results still pending by stall count, the clk until which its stall count keeps it, why and when
it was last held (R52, R53, R394). -/
def undelayed (t : Thread) : Thread := { t with producers := [], rest := 0, stalled := 0, missed := 0 }

/-- Two threads that differ at most in what delays them. -/
def SameThread (t u : Thread) : Prop := undelayed t = undelayed u

/-! ### What an operation leaves unchanged -/

/-- Everything is unchanged but some lanes of a core: memory, every other unit, every other core, cast and lane. -/
def OnlyLanes (s t : State) (core : Nat) (ths : List (Nat × Nat)) : Prop :=
  t = { s with cores := t.cores }
    ∧ (∀ c, c ≠ core → getCore t c = getCore s c)
    ∧ getCore t core = { getCore s core with casts := (getCore t core).casts }
    ∧ (∀ k, getCast t core k = { getCast s core k with threads := (getCast t core k).threads })
    ∧ (∀ k l, (k, l) ∉ ths → getThread t core k l = getThread s core k l)
    ∧ ∀ key, homeByte t key = homeByte s key

/-- A lane has taken a fault and stands at the entry of its handler (R215, R216, R219, R220): its scene is aborted, FREC and FADDR
report the fault, the scene's entry lies on the return stack, the implicit scene of the handler is open. -/
def EntersHandler (s t : State) (core cast lane : Nat) (f : FaultInfo) : Prop :=
  let old := getThread s core cast lane
  let b := coreBill s core
  let back : Thread := { old with
    p := old.scene.snapP, tstat := old.scene.snapTstat, srstate := old.scene.snapSr
    stack := old.scene.entry :: old.scene.snapStack }
  OnlyLanes s t core [(cast, lane)] ∧
    getThread t core cast lane = { back with
      frec := frecOf f old.pc old.scene.entry
      faddr := if 2 ≤ f.code ∧ f.code ≤ 5 then f.faddr else 0
      pc := b.trapPc, inh := true, wait := .ready, producers := [], marker := none, denied := none, stalled := 0, committed := false
      codeEpoch := s.icEpoch, scene := implicitScene b back b.trapPc }

/-- Everything is unchanged but the cue thread of a core. -/
def OnlyCue (s t : State) (core : Nat) : Prop :=
  t = { s with cores := t.cores }
    ∧ (∀ c, c ≠ core → getCore t c = getCore s c)
    ∧ getCore t core = { getCore s core with cue := (getCore t core).cue }
    ∧ ∀ key, homeByte t key = homeByte s key

/-- The threads of a core and everything its caches and ports do not hold are unchanged: what a load leaves. -/
def KeepsThreads (s t : State) (core : Nat) (ths : List (Nat × Nat)) : Prop :=
  (∀ c, (getCore t c).spad = (getCore s c).spad)
    ∧ (∀ c k, (getCast t c k).k = (getCast s c k).k ∧ (getCast t c k).a = (getCast s c k).a ∧ (getCast t c k).ens = (getCast s c k).ens)
    ∧ (∀ c k l, (c = core → (k, l) ∉ ths) → getThread t c k l = getThread s c k l)
    ∧ t.clusters = s.clusters ∧ t.contexts = s.contexts ∧ t.launches = s.launches ∧ t.objects = s.objects

end Sys2Proof
end

