-- ==== Sys2Proof/Certificates/Slice0/Obligations.lean ====
section
/-! DEFINITION. The statements for the provers, from the numbered rules of the spec. A statement about an event or an
instruction says under which conditions on the state it completes, what it then leaves, and what it leaves unchanged. -/

open Sys2Proof Sys2Proof.Machine

namespace Sys2Proof.Claims

/-- Every byte of memory, read at its home, is unchanged. -/
def MemoryKept (s t : State) : Prop := ∀ key, homeByte t key = homeByte s key

/-- Each line of an L2 stands once, under its own number, at the line's home; a clean line equals memory (R139, R146). -/
def CachesSound (s : State) : Prop :=
  ∀ die, sortedFrom 0 (getDie s die).l2 = true ∧ ∀ e ∈ (getDie s die).l2,
    e.2.line = e.1 ∧ homeDie (e.1 * 64) = die ∧ isPeerLine e.1 = false ∧
      (e.2.dirty = false → e.2.data = memLine s e.1 ∧ e.2.tags = memTags s e.1)

end Sys2Proof.Claims

namespace Sys2Proof.Claims

/-! ### Results of the integer and logic instructions, in the words of R94 to R107 -/

/-- `SatS(x, n)` and `SatN(x, n)` with the SAT flag (R58). -/
def clampSigned (x : Int) (n : Nat) : Nat × Nat :=
  let y := max (-(2 ^ (n - 1) : Int)) (min x (2 ^ (n - 1) - 1))
  ((y % (2 ^ n : Nat)).toNat, if y = x then 0 else 1)
def clampUnsigned (x : Int) (n : Nat) : Nat × Nat :=
  let y := max 0 (min x (2 ^ n - 1))
  (y.toNat, if y = x then 0 else 1)

/-- The comparison that ICMP's MOD[2:0] names, on signed or unsigned readings. -/
def compares (cond : Nat) (a b : Int) : Bool :=
  match cond with
  | 0 => a == b
  | 1 => a != b
  | 2 => decide (a < b)
  | 3 => decide (a ≤ b)
  | 4 => decide (b < a)
  | _ => decide (b ≤ a)

/-- Result and flags of an integer or logic instruction on operands of `x.n` bits (R94 to R100), of a 64-bit pair (R101). -/
def integerResult (o : Opc) : Option (AluIn → Nat × Nat) :=
  let at' (f : (n : Nat) → BitVec n → BitVec n → BitVec n → AluIn → BitVec n) : Option (AluIn → Nat × Nat) :=
    some fun x => ((f x.n (BitVec.ofNat x.n x.a) (BitVec.ofNat x.n x.b) (BitVec.ofNat x.n x.c) x).toNat, 0)
  let unsigned (x : AluIn) : Bool := x.mod % 2 == 1
  match o with
  | .iadd => at' fun _ a b _ _ => a + b
  | .isub => at' fun _ a b _ _ => a - b
  | .imul => at' fun _ a b _ _ => a * b
  | .imulh => at' fun n a b _ x =>
      if unsigned x then BitVec.extractLsb' n n (a.setWidth (2 * n) * b.setWidth (2 * n))
      else BitVec.extractLsb' n n (a.signExtend (2 * n) * b.signExtend (2 * n))
  | .imad => at' fun _ a b c _ => a * b + c
  | .imin => at' fun _ a b _ x => if (if unsigned x then a.ule b else a.sle b) then a else b
  | .imax => at' fun _ a b _ x => if (if unsigned x then b.ule a else b.sle a) then a else b
  | .iabs => at' fun _ a _ _ _ => if a.msb then -a else a
  | .ineg => at' fun _ a _ _ _ => -a
  | .iadds => some fun x =>
      if unsigned x then clampUnsigned ((x.a : Int) + x.b) 32 else clampSigned (sext x.a 32 + sext x.b 32) 32
  | .isubs => some fun x =>
      if unsigned x then clampUnsigned ((x.a : Int) - x.b) 32 else clampSigned (sext x.a 32 - sext x.b 32) 32
  | .and => at' fun _ a b _ _ => a &&& b
  | .or => at' fun _ a b _ _ => a ||| b
  | .xor => at' fun _ a b _ _ => a ^^^ b
  | .andn => at' fun _ a b _ _ => a &&& ~~~b
  | .not => at' fun _ a _ _ _ => ~~~a
  | .popc => some fun x => ((List.range x.n).countP fun i => x.a.testBit i, 0)
  | .clz => some fun x => ((List.range x.n).countP fun i => decide (x.a < 2 ^ i), 0)
  | .ctz => some fun x => ((List.range x.n).countP fun i => decide (x.a % 2 ^ (i + 1) = 0), 0)
  | .brev => at' fun _ a _ _ _ => a.reverse
  | .shl => at' fun _ a _ _ x => a <<< x.b
  | .shr => at' fun _ a _ _ x => a >>> x.b
  | .sar => at' fun _ a _ _ x => a.sshiftRight x.b
  | .rol => at' fun _ a _ _ x => a.rotateLeft x.b
  | .bfx => at' fun n a _ _ x =>
      let len := min x.c n
      if unsigned x then (BitVec.setWidth len (a >>> x.b)).signExtend n else (BitVec.setWidth len (a >>> x.b)).setWidth n
  | .bfi => at' fun n a b _ x =>
      let mask : BitVec n := BitVec.ofNat n ((2 ^ min (field x.c 15 8) n - 1) * 2 ^ field x.c 7 0)
      (a &&& ~~~mask) ||| (b <<< field x.c 7 0 &&& mask)
  | .icmp => some fun x =>
      (b2n (if x.mod.testBit 3 then compares (x.mod % 8) x.a x.b else compares (x.mod % 8) (sext x.a x.n) (sext x.b x.n)), 0)
  | .sel => at' fun _ a b _ x => if x.c % 2 = 1 then a else b
  | .mov => at' fun _ a _ _ _ => a
  | .plog => some fun x => (b2n (x.mod.testBit (4 * (x.a % 2) + 2 * (x.b % 2) + x.c % 2)), 0)
  | .add64 => some fun x => ((BitVec.ofNat 64 x.a + BitVec.ofNat 64 x.b).toNat, 0)
  | .sub64 => some fun x => ((BitVec.ofNat 64 x.a - BitVec.ofNat 64 x.b).toNat, 0)
  | .shl64 => some fun x => ((BitVec.ofNat 64 x.a <<< x.b).toNat, 0)
  | .shr64 => some fun x => ((BitVec.ofNat 64 x.a >>> x.b).toNat, 0)
  | .mul32w => some fun x =>
      (if unsigned x then (((sext x.a 32 * sext x.b 32) % (2 ^ 64 : Nat)).toNat, 0) else (x.a % 2 ^ 32 * (x.b % 2 ^ 32), 0))
  | _ => none

/-- Elements of a packed word, joined again, with the flags of all of them. -/
def perElement (m : Nat) (f : Nat → Nat × Nat) : Nat × Nat :=
  ((List.range (32 / m)).foldr (fun j acc => acc + (f j).1 % 2 ^ m * 2 ^ (m * j)) 0,
    if (List.range (32 / m)).any (fun j => (f j).2 != 0) then 1 else 0)

/-- Element `j` of width `m`, unsigned and signed. -/
def unsignedElem (v m j : Nat) : Int := ((v / 2 ^ (m * j) % 2 ^ m : Nat) : Int)
def signedElem (v m j : Nat) : Int := sext (v / 2 ^ (m * j)) m

/-- Result and flags of the packed instructions (R102 to R107). -/
def packedResult (o : Opc) : Option (AluIn → Nat × Nat) :=
  let sum (m : Nat) (sign : Int) (x : AluIn) : Nat × Nat :=
    perElement m fun j => match x.mod with
      | 0 => (((unsignedElem x.a m j + sign * unsignedElem x.b m j) % (2 ^ m : Nat)).toNat, 0)
      | 1 => clampSigned (signedElem x.a m j + sign * signedElem x.b m j) m
      | _ => clampUnsigned (unsignedElem x.a m j + sign * unsignedElem x.b m j) m
  let u := unsignedElem
  let s := signedElem
  match o with
  | .padd16 => some (sum 16 1)
  | .psub16 => some (sum 16 (-1))
  | .padd8 => some (sum 8 1)
  | .pmul16 => some fun x => perElement 16 fun j => match x.mod with
      | 0 => clampSigned (s x.a 16 j * s x.b 16 j) 16
      | 1 => clampUnsigned (u x.a 16 j * u x.b 16 j) 16
      | _ => clampSigned ((s x.a 16 j * s x.b 16 j + 2 ^ 14) / 2 ^ 15) 16
  | .pmac16 => some fun x =>
      if x.mod % 2 = 1 then clampUnsigned (u x.a 16 0 * u x.b 16 0 + u x.a 16 1 * u x.b 16 1 + x.c) 32
      else clampSigned (s x.a 16 0 * s x.b 16 0 + s x.a 16 1 * s x.b 16 1 + sext x.c 32) 32
  | .pdot8 => some fun x => match x.mod with
      | 0 => clampSigned (s x.a 8 0 * s x.b 8 0 + s x.a 8 1 * s x.b 8 1 + s x.a 8 2 * s x.b 8 2 + s x.a 8 3 * s x.b 8 3
          + sext x.c 32) 32
      | 1 => clampUnsigned (u x.a 8 0 * u x.b 8 0 + u x.a 8 1 * u x.b 8 1 + u x.a 8 2 * u x.b 8 2 + u x.a 8 3 * u x.b 8 3 + x.c) 32
      | _ => clampSigned (s x.a 8 0 * u x.b 8 0 + s x.a 8 1 * u x.b 8 1 + s x.a 8 2 * u x.b 8 2 + s x.a 8 3 * u x.b 8 3
          + sext x.c 32) 32
  | .pmin16 => some fun x => perElement 16 fun j =>
      if x.mod % 2 = 1 then ((min (u x.a 16 j) (u x.b 16 j)).toNat, 0)
      else ((min (s x.a 16 j) (s x.b 16 j) % (2 ^ 16 : Nat)).toNat, 0)
  | .pmax16 => some fun x => perElement 16 fun j =>
      if x.mod % 2 = 1 then ((max (u x.a 16 j) (u x.b 16 j)).toNat, 0)
      else ((max (s x.a 16 j) (s x.b 16 j) % (2 ^ 16 : Nat)).toNat, 0)
  | .shrr => some fun x =>
      let halfUp (v : Int) : Int := if x.b = 0 then v else (v + 2 ^ (x.b - 1)) / 2 ^ x.b
      match x.mod with
      | 0 => ((halfUp (sext x.a 32) % (2 ^ 32 : Nat)).toNat, 0)
      | 1 => ((halfUp x.a).toNat, 0)
      | _ => perElement 16 fun j => ((halfUp (s x.a 16 j) % (2 ^ 16 : Nat)).toNat, 0)
  | .satn => some fun x =>
      let v := sext x.a 32
      match x.mod with
      | 0 => ((sext (clampSigned v 16).1 16 % (2 ^ 32 : Nat)).toNat, (clampSigned v 16).2)
      | 1 => ((sext (clampSigned v 8).1 8 % (2 ^ 32 : Nat)).toNat, (clampSigned v 8).2)
      | 2 => clampUnsigned v 16
      | _ => clampUnsigned v 8
  | _ => none

/-- The value function of a floating-point or conversion instruction, as Machine/FloatFns.lean gives it. -/
def floatResult (o : Opc) : Option (AluIn → AluOut) :=
  match o with
  | .fadd => some fFadd
  | .fsub => some fFsub
  | .fmul => some fFmul
  | .ffma => some fFfma
  | .fmin => some fFmin
  | .fmax => some fFmax
  | .fabs => some fFabs
  | .fneg => some fFneg
  | .fcmp => some fFcmp
  | .fclass => some fFclass
  | .frcp => some fFrcp
  | .frsq => some fFrsq
  | .fsqrt => some fFsqrt
  | .fexp2 => some fFexp2
  | .flog2 => some fFlog2
  | .ftanh => some fFtanh
  | .frnd => some fFrnd
  | .fscale => some fFscale
  | .cvt => some fCvt
  | .cvtd => some fCvtd
  | .hadd2 => some fHadd2
  | .hmul2 => some fHmul2
  | .hfma2 => some fHfma2
  | .fdot2 => some fFdot2
  | .spcomp => some spcompAlu
  | .expq => some expqAlu
  | _ => none

/-- What a lane reads for a register operation. -/
def laneOperands (s : State) (core : Nat) (th : Nat × Nat) (o : Opc) (op : Op) : AluIn :=
  laneIn s (laneFrame s core th.1 th.2 o op) th.1 th.2

/-- What the cue thread reads for a register operation (R37, R38, R46). -/
def cueOperands (s : State) (core : Nat) (o : Opc) (op : Op) : AluIn :=
  let src (f : Field) : Nat := cueSrc (theCue s core).c (cueFrame s core o op) f % 2 ^ 64
  { n := 64, a := src .a, b := src .b, c := src .c, mod := op.mod.toNat }

/-- A lane after an operation with this result, or, its guard false, after an operation that passed it by (R43, R50). -/
def LaneAfter (s t : State) (core : Nat) (_ : Opc) (op : Op) (th : Nat × Nat) (result : Thread → Thread) : Prop :=
  let old := getThread s core th.1 th.2
  SameThread (getThread t core th.1 th.2)
    (readyAt (nextPc old.pc op) (if guardOf s core th.1 th.2 op then result old else old))

/-- The cue thread after an operation that executed at once (R182, R183): a result in its destination, if the operation has
one. -/
def cueWith (s : State) (core : Nat) (op : Op) (dest : Option (Nat × DWord)) : Cue :=
  let q := theCue s core
  { q with
    c := match dest with
      | some d => sset 0 d.1 d.2 q.c
      | none => q.c
    pc := nextPc q.pc op, denied := none, beyond := if q.checks.isEmpty then 0 else q.beyond + 1 }

end Sys2Proof.Claims

open Sys2Proof.Claims

/-! ### Register operations -/

/-- R94 to R107 in lane mode. A group of lanes issues an integer, logic, move, 64-bit or packed instruction: in every lane whose guard
is true the destination takes the result and SAT joins TSTAT; every lane goes to the next instruction; all
else is unchanged. -/
def Sys2Proof.Claims.IntegerInstructionsInLanes : Prop :=
  ∀ (s : State) (core : Nat) (ths : List (Nat × Nat)) (o : Opc) (op : Op) (f : AluIn → Nat × Nat),
    groupIssues s core ths o op = true → (integerResult o = some f ∨ packedResult o = some f) →
    ∃ t, exec (instrOf o op) s = .next t ∧ OnlyLanes s t core ths ∧
      ∀ th ∈ ths, LaneAfter s t core o op th fun old =>
        withFlags (f (laneOperands s core th o op)).2 (withDest o op (f (laneOperands s core th o op)).1 old)

/-- R94 to R100 in cue mode, on 64-bit patterns (R46): the destination takes the result, the cue thread goes to the next
instruction, all else is unchanged. -/
def Sys2Proof.Claims.IntegerInstructionsInCueThread : Prop :=
  ∀ (s : State) (core : Nat) (o : Opc) (op : Op) (f : AluIn → Nat × Nat),
    cueRuns s core o op = true → integerResult o = some f →
    ∃ t, exec (instrOf o op) s = .next t ∧ OnlyCue s t core ∧
      getCue t core = some (cueWith s core op
        (some (op.d.toNat, BitVec.ofNat 64 (f (cueOperands s core o op)).1)))

/-- R85, R89, R108 to R120, R125: a group of lanes issues a floating-point or conversion instruction, and in no lane does the
value function trap or find the slot illegal: destination, TSTAT and SRSTATE take what it gives. -/
def Sys2Proof.Claims.FloatInstructionsInLanes : Prop :=
  ∀ (s : State) (core : Nat) (ths : List (Nat × Nat)) (o : Opc) (op : Op) (f : AluIn → AluOut)
    (d fl : Nat × Nat → Nat) (sr : Nat × Nat → Option Nat),
    groupIssues s core ths o op = true → floatResult o = some f →
    (∀ th ∈ ths, guardOf s core th.1 th.2 op = true → f (laneOperands s core th o op) = .ok (d th) (fl th) (sr th)) →
    ∃ t, exec (instrOf o op) s = .next t ∧ OnlyLanes s t core ths ∧
      ∀ th ∈ ths, LaneAfter s t core o op th fun old =>
        let u := withFlags (fl th) (withDest o op (d th) old)
        { u with srstate := match sr th with
            | some x => BitVec.ofNat 32 x
            | none => u.srstate }

/-- R80, R85, R217: in one lane, an overflow under the trapping policy raises the overflow-trap fault with the slot as INFO,
and a slot that the instruction excludes the illegal-instruction fault with word 0: the lane enters its handler. -/
def Sys2Proof.Claims.FloatInstructionsTrap : Prop :=
  ∀ (s : State) (core cast lane : Nat) (o : Opc) (op : Op) (f : AluIn → AluOut),
    laneIssues s core cast lane o op = true → handlerReady s core cast lane = true → floatResult o = some f →
    (f (laneOperands s core (cast, lane) o op) = .trap →
      ∃ t, exec (instrOf o op) s = .next t ∧
        EntersHandler s t core cast lane { code := 0x09, info := BitVec.ofNat 32 op.fslot.toNat, opcode := (opRow o).code }) ∧
    (f (laneOperands s core (cast, lane) o op) = .illegal →
      ∃ t, exec (instrOf o op) s = .next t ∧
        EntersHandler s t core cast lane { code := 0x01, info := encodeWord0 o op, opcode := (opRow o).code })

/-- R80, R85, R89, R108 to R120, R125, R217: the floating-point and conversion instructions, where they write a result and where they fault. -/
def Obligations.FloatInstructionsWriteTheirResults : Prop :=
  Claims.FloatInstructionsInLanes ∧ Claims.FloatInstructionsTrap

/-- R48 to R50: a pair of integer instructions in one lane whose two guards are true. Both read before either writes; the
second reads its C in the register D2; both results are written. -/
def Obligations.PairReadsBeforeWrites : Prop :=
  ∀ (s : State) (core cast lane : Nat) (o : Opc) (op : Op) (x : Second) (f g : AluIn → Nat × Nat),
    s.actor = .lanes core [(cast, lane)] → hasLane s core cast lane = true → op.second = some x →
    legalIn (laneEnv s core) o op = true → onTime s core cast lane o op = true →
    guardOf s core cast lane op = true → guard2Of s core cast lane x = true → (getThread s core cast lane).committed = false →
    integerResult o = some f → integerResult x.opc = some g →
    ∃ t, exec (instrOf o op) s = .next t ∧ OnlyLanes s t core [(cast, lane)] ∧
      let old := getThread s core cast lane
      let r := f (laneOperands s core (cast, lane) o op)
      let r2 := g (laneOperands s core (cast, lane) x.opc (secondOp x))
      SameThread (getThread t core cast lane)
        (readyAt (nextPc old.pc op) (withFlags r2.2 (withDest x.opc (secondOp x) r2.1 (withFlags r.2 (withDest o op r.1 old)))))

/-- R99: MOVL writes the immediate of R39, VIDX the index that MOD names: of the thread in the launch, of the lane in its cast,
of the cast in the launch. -/
def Sys2Proof.Claims.MovlAndVidxInLanes : Prop :=
  ∀ (s : State) (core : Nat) (ths : List (Nat × Nat)) (op : Op),
    (groupIssues s core ths .movl op = true →
      ∃ t, exec (.movl op) s = .next t ∧ OnlyLanes s t core ths ∧
        ∀ th ∈ ths, LaneAfter s t core .movl op th fun old => withDest .movl op (BitVec.ofInt 32 (immOf op)).toNat old) ∧
    (groupIssues s core ths .vidx op = true →
      ∃ t, exec (.vidx op) s = .next t ∧ OnlyLanes s t core ths ∧
        ∀ th ∈ ths, LaneAfter s t core .vidx op th fun old =>
          withDest .vidx op (match op.mod.toNat with
            | 0 => th.1 * (coreBill s core).width + th.2
            | 1 => th.2
            | _ => th.1) old)

/-- R46, R94 to R107: the integer, packed, logic and move instructions, in lanes and in the cue thread. -/
def Obligations.RegisterInstructionsWriteTheirResults : Prop :=
  Claims.IntegerInstructionsInLanes ∧ Claims.IntegerInstructionsInCueThread ∧ Claims.MovlAndVidxInLanes

/-! ### Floating-point values -/

namespace Sys2Proof.Claims

/-- The rational number of a finite value; 0 for the others. -/
def valueOf (v : FVal) : ℚ :=
  match v with
  | .fin neg n d => (if neg then -1 else 1) * ((n : ℚ) / (d : ℚ))
  | .nan => 0
  | .inf _ => 0

/-- Is a value finite? -/
def finite (v : FVal) : Bool :=
  match v with
  | .fin _ _ _ => true
  | .nan => false
  | .inf _ => false

/-- The three FP32 operands under FZI. -/
def fpA (x : AluIn) : FVal := readF fp32 x.fzi x.a
def fpB (x : AluIn) : FVal := readF fp32 x.fzi x.b
def fpC (x : AluIn) : FVal := readF fp32 x.fzi x.c

/-- A result is the one rounding of an exact finite value with this rational number (R83, R109). -/
def RoundsOnce (r : AluOut) (x : AluIn) (q : ℚ) : Prop :=
  ∃ v, finite v = true ∧ valueOf v = q ∧
    r = (let y := writeF fp32 x.fzo (roundF fp32 (rmOf (x.mod % 8)) v x.sr)
         .ok y.bits y.flags (if y.sr = x.sr then none else some y.sr))

/-- The NaN that every FP32 result that is a NaN has (R87). -/
def quietNan : Nat := 0x7FC00000

end Sys2Proof.Claims

/-- R109: on finite operands FADD, FSUB, FMUL and FFMA form the exact real result and round it once. -/
def Sys2Proof.Claims.ArithmeticRoundsExactResultOnce : Prop :=
  ∀ x : AluIn, finite (fpA x) = true → finite (fpB x) = true →
    RoundsOnce (fFadd x) x (valueOf (fpA x) + valueOf (fpB x)) ∧
    RoundsOnce (fFsub x) x (valueOf (fpA x) - valueOf (fpB x)) ∧
    RoundsOnce (fFmul x) x (valueOf (fpA x) * valueOf (fpB x)) ∧
    (finite (fpC x) = true → RoundsOnce (fFfma x) x (valueOf (fpA x) * valueOf (fpB x) + valueOf (fpC x)))

/-- R109: the invalid cases set INV and give the canonical NaN; any other NaN operand gives it without a flag. -/
def Sys2Proof.Claims.InvalidArithmeticSetsInv : Prop :=
  ∀ x : AluIn,
    let a := fpA x
    let b := fpB x
    let c := fpC x
    (isInf a = true → isInf b = true → fNeg a ≠ fNeg b → fFadd x = .ok quietNan 2 none) ∧
    (isInf a = true → isInf b = true → fNeg a = fNeg b → fFsub x = .ok quietNan 2 none) ∧
    (isZero a = true ∧ isInf b = true ∨ isInf a = true ∧ isZero b = true →
      fFmul x = .ok quietNan 2 none ∧ fFfma x = .ok quietNan 2 none) ∧
    (isInf (mulF a b) = true → isInf c = true → fNeg (mulF a b) ≠ fNeg c → fFfma x = .ok quietNan 2 none) ∧
    (isNan a = true ∨ isNan b = true → fFadd x = .ok quietNan 0 none ∧ fFsub x = .ok quietNan 0 none ∧
      fFmul x = .ok quietNan 0 none) ∧
    (isNan a = true ∨ isNan b = true → fFfma x = .ok quietNan 0 none) ∧
    (isNan c = true → ¬ (isZero a = true ∧ isInf b = true ∨ isInf a = true ∧ isZero b = true) →
      fFfma x = .ok quietNan 0 none)

/-- R109: FADD, FSUB, FMUL and FFMA on finite operands and on the others. -/
def Obligations.ArithmeticRoundsOnceOrIsInvalid : Prop :=
  Claims.ArithmeticRoundsExactResultOnce ∧ Claims.InvalidArithmeticSetsInv

/-- R58, R81, R82: RoundTo takes a positive value to one of the two neighbours on the spacing of the format; a value on it
stays; RTZ never grows it; RNE and RNA are within half the spacing. -/
def Obligations.RoundingTakesANeighbour : Prop :=
  ∀ (w t : Nat) (rm : Rm) (neg : Bool) (num den sr : Nat), 0 < num → 0 < den →
    let f : Fmt := .ieee w t
    let r := roundMag f rm neg num den sr
    let x : ℚ := (num : ℚ) / den
    let y : ℚ := (r.1 : ℚ) / r.2.1
    let u : ℚ := (2 : ℚ) ^ ulpExp f num den
    (∃ k : ℕ, y = k * u) ∧ |y - x| < u ∧
      ((∃ k : ℕ, x = k * u) → y = x) ∧
      (rm = .rtz → y ≤ x) ∧
      ((rm = .rne ∨ rm = .rna) → 2 * |y - x| ≤ u)

/-! ### Control -/

namespace Sys2Proof.Claims

/-- A target that the thread may go to: a multiple of 4 inside the bounds and the object of the launch's code (R40). -/
def goodTarget (s : State) (core : Nat) (target : Int) : Bool := target % 4 == 0 && !targetOut s core target

/-- The displacement of BRA and CALL (R40): in base form the 14 bits {D, A}, signed, in words; else the immediate. -/
def displacement (op : Op) : Int :=
  if op.form = .base then 4 * (BitVec.ofNat 14 (op.d.toNat * 128 + op.a.toNat)).toInt else immOf op

/-- The target of a branch that one lane takes, none where it falls through (R40, R171, R200). -/
def laneTarget (s : State) (core cast lane : Nat) (o : Opc) (op : Op) : Option Int :=
  let pc : Int := ((getThread s core cast lane).pc.toNat : Int)
  let a : Nat := laneSrc s (laneFrame s core cast lane o op) cast lane .a
  match o with
  | .bra | .call => some (pc + displacement op)
  | .jmpi | .calli => some (a : Int)
  | .brc => if (a = 0) ↔ op.mod.toNat % 2 = 1 then some (pc + immOf op) else none
  | .ret => match (getThread s core cast lane).stack with
    | top :: _ => some (top.toNat : Int)
    | [] => none
  | _ => none

/-- The return stack after it: CALL and CALLI push the next PC, RET pops. -/
def stackAfter (o : Opc) (op : Op) (t : Thread) : List Word :=
  match o with
  | .call | .calli => nextPc t.pc op :: t.stack
  | .ret => t.stack.tail
  | _ => t.stack

/-- The control transfers of lanes. -/
def isTransfer (o : Opc) : Bool := [Opc.bra, .brc, .jmpi, .call, .calli, .ret].contains o

/-- Has the return stack what the instruction needs: room for CALL and CALLI, an entry for RET (R171)? -/
def stackServes (o : Opc) (t : Thread) : Bool :=
  match o with
  | .call | .calli => decide (t.stack.length < 16)
  | .ret => !t.stack.isEmpty
  | _ => true

/-- The fault of a bad target (R40, R217, R219): misaligned, the illegal-instruction fault with word 0; out of bounds, the bounds
fault of kind fetch with INFO 0x7C and the target in FADDR. -/
def targetFaultOf (s : State) (core : Nat) (o : Opc) (op : Op) (target : Int) : FaultInfo :=
  if target % 4 ≠ 0 then { code := 0x01, info := encodeWord0 o op, opcode := (opRow o).code }
  else
    { code := 0x02, info := 0x7C, opcode := (opRow o).code, acc := 3
      faddr := BitVec.ofNat 64 ((capOid (coreBill s core).code % 2 ^ 24) * 2 ^ 40 + (target % (2 ^ 40 : Nat)).toNat) }

end Sys2Proof.Claims

/-- R40, R171, R200: a control transfer of one lane whose target is good and whose return stack serves goes there, pushes or
pops, and changes nothing else; a BRC that is not taken goes to the next instruction if its target is aligned. -/
def Sys2Proof.Claims.TransfersReachTheirTarget : Prop :=
  ∀ (s : State) (core cast lane : Nat) (o : Opc) (op : Op),
    laneIssues s core cast lane o op = true → isTransfer o = true → stackServes o (getThread s core cast lane) = true →
    let old := getThread s core cast lane
    (∀ target, laneTarget s core cast lane o op = some target → goodTarget s core target = true →
      ∃ t, exec (instrOf o op) s = .next t ∧ OnlyLanes s t core [(cast, lane)] ∧
        SameThread (getThread t core cast lane)
          { readyAt (BitVec.ofInt 32 target) old with stack := stackAfter o op old }) ∧
    (o = .brc → laneTarget s core cast lane o op = none → immOf op % 4 = 0 → old.pc.toNat % 4 = 0 →
      ∃ t, exec (instrOf o op) s = .next t ∧ OnlyLanes s t core [(cast, lane)] ∧
        SameThread (getThread t core cast lane) (readyAt (nextPc old.pc op) old))

/-- R40, R171, R216, R217: a bad target is a fault of the branch itself, before anything is pushed or popped; a full or an empty
return stack raises the call-state fault with its depth as INFO. That the PC popped by RET is checked as a branch target is the model's
reading (log 37). -/
def Sys2Proof.Claims.BadTransfersFault : Prop :=
  ∀ (s : State) (core cast lane : Nat) (o : Opc) (op : Op),
    laneIssues s core cast lane o op = true → isTransfer o = true → handlerReady s core cast lane = true →
    (∀ target, stackServes o (getThread s core cast lane) = true → laneTarget s core cast lane o op = some target →
      goodTarget s core target = false →
      ∃ t, exec (instrOf o op) s = .next t ∧
        EntersHandler s t core cast lane (targetFaultOf s core o op target)) ∧
    (stackServes o (getThread s core cast lane) = false →
      ∃ t, exec (instrOf o op) s = .next t ∧
        EntersHandler s t core cast lane { code := 0x08, opcode := (opRow o).code
                                           info := BitVec.ofNat 32 (getThread s core cast lane).stack.length })

/-- R40, R171, R200, R216, R217: the transfers of control in a lane, to a target that is legal and to one that is not. That RET checks the PC it pops as a
branch its target is the model's reading (log 37). -/
def Obligations.TransfersOfControl : Prop :=
  Claims.TransfersReachTheirTarget ∧ Claims.BadTransfersFault

/-- R43, R200: NOP goes to the next instruction and changes nothing else, in lanes and in the cue thread; so does CASTSYNC in a
cast that is complete at it. -/
def Sys2Proof.Claims.NopAndCastsyncOnlyAdvance : Prop :=
  ∀ (s : State) (core : Nat) (op : Op),
    (∀ ths, groupIssues s core ths .nop op = true →
      ∃ t, exec (.nop op) s = .next t ∧ OnlyLanes s t core ths ∧ ∀ th ∈ ths, LaneAfter s t core .nop op th fun old => old) ∧
    (cueRuns s core .nop op = true →
      ∃ t, exec (.nop op) s = .next t ∧ OnlyCue s t core ∧ getCue t core = some (cueWith s core op none)) ∧
    (∀ cast act, castIssues s core cast act .castsync op = true →
      ∃ t, exec (.castsync op) s = .next t ∧
        OnlyLanes s t core ((liveLanes (getCast s core cast)).map fun l => (cast, l)) ∧
        ∀ l ∈ liveLanes (getCast s core cast),
          SameThread (getThread t core cast l)
            (readyAt (nextPc (getThread s core cast l).pc op) (getThread s core cast l)))

/-- R182 to R184, R200, R282: branches of the cue thread. BRA and JMPI with a good target go there; a BRC with at most three
unresolved before it is predicted by the bank's counter of its index and leaves a checkpoint of the registers; a fifth waits. -/
def Sys2Proof.Claims.CueThreadBranches : Prop :=
  ∀ (s : State) (core : Nat) (op : Op),
    (∀ o target, (o = .bra ∧ target = ((theCue s core).pc.toNat : Int) + displacement op) ∨
        (o = .jmpi ∧ target = ((cueOperands s core o op).a : Int)) →
      cueRuns s core o op = true → goodTarget s core target = true →
      ∃ t, exec (instrOf o op) s = .next t ∧ OnlyCue s t core ∧
        getCue t core = some { cueWith s core op none with pc := BitVec.ofInt 32 target }) ∧
    (∀ q hold, s.actor = .cue core hold → getCue s core = some q → cueMayIssue q = true →
      legalIn (cueEnv s core) .brc op = true → (((q.pc.toNat : Int) + immOf op) % 4 = 0) →
      (q.checks.length = 4 → exec (.brc op) s = .next s) ∧
      (q.checks.length < 4 →
        ∃ t k, exec (.brc op) s = .next t ∧
          k.predicted = predictTaken (getCore s core).bank q.pc ∧ k.index = brcIndex (getCore s core).bank q.pc ∧
          k.c = q.c ∧ k.next = nextPc q.pc op ∧ k.target = (q.pc.toNat : Int) + immOf op ∧
          k.onZero = (op.mod.toNat % 2 == 1) ∧ k.dqTail = (getCore s core).dqTail ∧
          getCue t core = some { q with
            checks := q.checks ++ [k], denied := none, beyond := if q.checks.isEmpty then 0 else q.beyond + 1
            pc := if k.predicted then BitVec.ofInt 32 k.target else k.next } ∧
          t = { s with cores := t.cores, fresh := s.fresh + 1 } ∧
          getCore t core = { getCore s core with cue := (getCore t core).cue }))

/-- R185, R283: a BRC whose condition is known, and before which no PBKSAVE waits to read the bank (R299), resolves: its counter moves towards what it did and the history takes the bit
unless frozen, a misprediction is counted; predicted rightly, the older state stays; predicted wrongly, the registers, the
decision queue and the command buffer go back to the checkpoint and the PC to the other path. Entries of the queue that a pre-emption has
saved stay (log 17). While an older command is not performed, what the bank held is kept for a pre-emption that goes back to it (log 17). -/
def Sys2Proof.Claims.BrcResolveKeepsOrUndoes : Prop :=
  ∀ (s : State) (core : Nat) (q : Cue) (k : Checkpoint) (rest : List Checkpoint) (x : DWord),
    getCue s core = some q → q.checks = k :: rest → k.cond = .known x → q.parked = none → bankAwaited q k = false →
    let taken : Bool := decide ((x = 0) ↔ k.onZero = true)
    let kept := keepTraining q k (getCore s core).bank
    (taken = true → targetOut s core k.target = false) →
    ∃ t, exec (.brcResolve core) s = .next t ∧
      (getCore t core).bank = trainBrc (getCore s core).bank k.index k.predicted taken ∧
      t = { s with cores := t.cores } ∧
      (taken = k.predicted → (getCore t core).dqTail = (getCore s core).dqTail ∧
        getCue t core = some { kept with checks := rest, beyond := if rest.isEmpty then 0 else q.beyond }) ∧
      (taken ≠ k.predicted → (getCore t core).dqTail = k.dqTail ∧ (∀ e ∈ (getCore t core).dq, e.pos < max k.dqTail (getCore s core).dqSaved) ∧
        getCue t core = some { kept with
          pc := if taken then BitVec.ofInt 32 k.target else k.next
          c := k.c, pend := k.pend, checks := [], beyond := 0, page := none, denied := none, logged := k.logged
          buf := q.buf.filter fun c => decide (c.id < k.id) })

/-- R182 to R185, R200, R282, R283: the branches of the cue thread, predicted ones included. What the bank of a
context keeps of training that is undone is the model's reading (log 17). -/
def Obligations.BranchesOfTheCueThread : Prop :=
  Claims.CueThreadBranches ∧ Claims.BrcResolveKeepsOrUndoes

/-- R176, R179, R200: REFORM files the lane in its partition's bins under the next PC, at which it stands; YIELD of a lane goes to
the next instruction, and where a pending cast can issue its cast leaves the active set for it. -/
def Sys2Proof.Claims.ReformFilesAndYieldSwaps : Prop :=
  ∀ (s : State) (core cast lane : Nat) (op : Op),
    let old := getThread s core cast lane
    let part := (getCast s core cast).part
    (laneIssues s core cast lane .reform op = true →
      ∃ t, exec (.reform op) s = .next t ∧
        SameThread (getThread t core cast lane) { readyAt (nextPc old.pc op) old with filed := coreClk s core } ∧
        getPart t core part =
          fileThread (coreBill s core) (fun th => if th = (cast, lane) then coreClk s core else filedAt s core th)
            (getPart s core part) (nextPc old.pc op) (cast, lane) ∧
        t = { s with cores := t.cores } ∧ (∀ key, homeByte t key = homeByte s key)) ∧
    (laneIssues s core cast lane .yield op = true → (getPart s core part).pending.all (fun e => e.1 != cast) = true →
      nextPending s core part = none →
      ∃ t, exec (.yield op) s = .next t ∧ OnlyLanes s t core [(cast, lane)] ∧
        SameThread (getThread t core cast lane) (readyAt (nextPc old.pc op) old)) ∧
    (laneIssues s core cast lane .yield op = true → (getPart s core part).pending.all (fun e => e.1 != cast) = true →
      ∀ inn, nextPending s core part = some inn →
      ∃ t, exec (.yield op) s = .next t ∧
        SameThread (getThread t core cast lane) (readyAt (nextPc old.pc op) old) ∧
        (getPart t core part).active.any (fun e => e.1 == cast) = false ∧
        (getPart t core part).active.any (fun e => e.1 == inn) = true ∧
        (getPart t core part).swapping.contains (inn, coreClk s core + 8) = true ∧
        t = { s with cores := t.cores } ∧ (∀ key, homeByte t key = homeByte s key))

/-- R43, R176, R179, R200: NOP, CASTSYNC, REFORM and YIELD. -/
def Obligations.NopCastsyncReformAndYield : Prop :=
  Claims.NopAndCastsyncOnlyAdvance ∧ Claims.ReformFilesAndYieldSwaps

/-- R57, R209, R210: SCENE commits the scene before it and opens a new one at itself, with the live-ins and the budget that it
declares and the thread's status as snapshot; the thread goes to the next instruction. -/
def Sys2Proof.Claims.SceneOpensAtItself : Prop :=
  ∀ (s s1 : State) (core cast lane : Nat) (op : Op),
    laneIssues s core cast lane .scene op = true → hasLane s1 core cast lane = true →
    committed s core cast lane .scene op = some s1 →
    let old := getThread s1 core cast lane
    ∃ t, exec (.scene op) s = .next t ∧ OnlyLanes s1 t core [(cast, lane)] ∧
      (getThread t core cast lane).pc = nextPc (getThread s core cast lane).pc op ∧
      (getThread t core cast lane).scene =
        { entry := (getThread s core cast lane).pc
          liveV := sceneLive (coreBill s1 core) op, liveK := op.word2, budget := op.mod.toNat % 32
          snapP := old.p, snapTstat := old.tstat, snapSr := old.srstate, snapStack := old.stack } ∧
      (getThread t core cast lane).v = old.v ∧ (getThread t core cast lane).p = old.p ∧
      (getThread t core cast lane).tstat = old.tstat ∧ (getThread t core cast lane).srstate = old.srstate ∧
      (getThread t core cast lane).w = old.w ∧ (getThread t core cast lane).stack = old.stack

/-- R210, R211, R226: the commit of a lane that has buffered nothing and is not worn out changes that lane alone: the
implicit scene opens at the committing instruction. -/
def Sys2Proof.Claims.EmptyCommitOpensImplicitScene : Prop :=
  ∀ (s : State) (core cast lane : Nat) (o : Opc) (op : Op),
    laneIssues s core cast lane o op = true →
    let old := getThread s core cast lane
    old.scene.stores = [] → old.scene.renewals = [] → old.scene.training = [] → exhausted old = false →
    ∃ s1, commitPoint s (laneFrame s core cast lane o op) [(cast, lane)] = .go s1 [(cast, lane)] ∧
      OnlyLanes s s1 core [(cast, lane)] ∧
      getThread s1 core cast lane =
        { old with scene := implicitScene (coreBill s core) old old.pc, codeEpoch := s.icEpoch }

/-- R152, R211: the scratchpad stores that a lane has buffered are performed by its commit in the order of their issue: the
core's scratchpad then holds them over what it held, and no byte of memory has changed. -/
def Sys2Proof.Claims.CommitPerformsScratchpadStores : Prop :=
  ∀ (s : State) (core cast lane : Nat) (o : Opc) (op : Op),
    laneIssues s core cast lane o op = true →
    let old := getThread s core cast lane
    old.scene.renewals = [] → old.scene.training = [] → exhausted old = false → (getCore s core).ranges = [] →
    (∀ st ∈ old.scene.stores, st.kind = .spad) →
    old.scene.stores.Pairwise (fun a b => a.seq < b.seq) →
    ∃ s1, commitPoint s (laneFrame s core cast lane o op) [(cast, lane)] = .go s1 [(cast, lane)] ∧
      (getCore s1 core).spad = old.scene.stores.foldl (fun m st => putBytes st.off st.bytes m) (getCore s core).spad ∧
      (getThread s1 core cast lane).scene.stores = [] ∧ (∀ key, homeByte s1 key = homeByte s key)

/-- R57, R152, R209 to R211, R226: a scene opens, and a commit performs its stores. -/
def Obligations.ScenesOpenAndCommit : Prop :=
  Claims.SceneOpensAtItself ∧ Claims.EmptyCommitOpensImplicitScene ∧ Claims.CommitPerformsScratchpadStores

/-- R215, R216, R219, R220, R223: TRAP and BRKPT take their faults in a lane: TRAP code 0x0D with the low word of A as INFO,
BRKPT code 0x0E with 0; the lane stands at the handler's entry. -/
def Sys2Proof.Claims.TrapAndBrkptEnterTheHandler : Prop :=
  ∀ (s : State) (core cast lane : Nat) (op : Op), handlerReady s core cast lane = true →
    (laneIssues s core cast lane .trap op = true →
      ∃ t, exec (.trap op) s = .next t ∧
        EntersHandler s t core cast lane
          { code := 0x0D, opcode := 0xF0
            info := BitVec.ofNat 32 (laneSrc s (laneFrame s core cast lane .trap op) cast lane .a) }) ∧
    (laneIssues s core cast lane .brkpt op = true →
      ∃ t, exec (.brkpt op) s = .next t ∧ EntersHandler s t core cast lane { code := 0x0E, opcode := (opRow .brkpt).code })

/-- R219: FREC holds CODE in [7:0], PAIR in [8], CW in [9], ACC in [11:10], OPC in [31:24], INFO in [63:32], SPC in [95:64] and
PC in [127:96], and nothing else. -/
def Sys2Proof.Claims.FrecLayout : Prop :=
  ∀ (f : FaultInfo) (pc spc : Word),
    let x := (frecOf f pc spc).toNat
    field x 7 0 = f.code % 256 ∧ x.testBit 8 = f.half ∧ x.testBit 9 = f.cwide ∧ field x 11 10 = f.acc % 4 ∧
      field x 23 12 = 0 ∧ field x 31 24 = f.opcode % 256 ∧ field x 63 32 = f.info.toNat ∧ field x 95 64 = spc.toNat ∧
      field x 127 96 = pc.toNat

/-- R220, R224: RESUME in a handler commits its scene and returns: the PC is the popped entry, INH and the exhaustion bit are 0,
the implicit scene of that entry is open. Outside a handler it is illegal. -/
def Sys2Proof.Claims.ResumeReturnsFromTheHandler : Prop :=
  ∀ (s s1 : State) (core cast lane : Nat) (op : Op) (top : Word) (rest : List Word),
    laneIssues s core cast lane .resume op = true →
    ((getThread s core cast lane).inh = true → (getThread s core cast lane).stack = top :: rest →
      committed s core cast lane .resume op = some s1 → hasLane s1 core cast lane = true →
      (getThread s1 core cast lane).inh = true → (getThread s1 core cast lane).stack = top :: rest →
      let old := { getThread s1 core cast lane with stack := rest }
      ∃ t, exec (.resume op) s = .next t ∧ OnlyLanes s1 t core [(cast, lane)] ∧
        SameThread (getThread t core cast lane) { readyAt top old with
          inh := false, exh := false, codeEpoch := s1.icEpoch, scene := implicitScene (coreBill s1 core) old top }) ∧
    ((getThread s core cast lane).inh = false → handlerReady s core cast lane = true →
      ∃ t, exec (.resume op) s = .next t ∧
        EntersHandler s t core cast lane { code := 0x01, info := encodeWord0 .resume op, opcode := (opRow .resume).code })

/-- R215, R216, R219, R220, R223, R224: taking a fault, its record, and the return. -/
def Obligations.FaultsEnterAndLeaveTheHandler : Prop :=
  Claims.TrapAndBrkptEnterTheHandler ∧ Claims.FrecLayout ∧ Claims.ResumeReturnsFromTheHandler

/-- R169, R197: EXIT commits and ends its lane with the low half-word of A as status: the kernel's record counts the exit, the
other lanes keep their registers, no byte of memory changes. -/
def Obligations.ExitEndsTheLane : Prop :=
  ∀ (s s1 : State) (core cast lane : Nat) (op : Op),
    laneIssues s core cast lane .exit op = true → committed s core cast lane .exit op = some s1 →
    hasLane s1 core cast lane = true → (getCore s1 core).launch.isSome = true →
    (getLaunch s1 ((getCore s1 core).launch.getD 0)).ctx * 65536 + (getLaunch s1 ((getCore s1 core).launch.getD 0)).number
      = (getCore s1 core).launch.getD 0 →
    let status := laneSrc s1 (laneFrame s core cast lane .exit op) cast lane .a % 65536
    let key := (getCore s1 core).launch.getD 0
    let before := sget {} kernelScope (getLaunch s1 key).ensembles
    ∃ t, exec (.exit op) s = .next t ∧
      (getThread t core cast lane).live = false ∧
      (∀ c k l, (c, k, l) ≠ (core, cast, lane) →
        { getThread t c k l with filed := 0 } = { getThread s1 c k l with filed := 0 }) ∧
      (getThread t core cast lane).v = (getThread s1 core cast lane).v ∧
      (let after := sget {} kernelScope (getLaunch t key).ensembles
       after.nexit = before.nexit + 1 ∧ after.live = before.live - 1 ∧ after.stor = before.stor ||| status ∧
         after.nnz = before.nnz + (if status = 0 then 0 else 1) ∧ after.phase = before.phase) ∧
      (∀ key, homeByte t key = homeByte s1 key) ∧ t.contexts = s1.contexts ∧ t.clusters = s1.clusters

/-! ### Waits, barriers, releases and acquires -/

namespace Sys2Proof.Claims

/-- A scope whose release and acquire complete at once: thread, cast or core (R159). -/
def nearScope (scope : Nat) : Bool := scope == 1 || scope == 2 || scope == 3

/-- The cue thread after a command that was performed at once: as after any instruction, and no longer waiting for anything; a
commit point is a boundary of code (R184, R226). -/
def cueDone (s : State) (core : Nat) (o : Opc) (op : Op) (dest : Option (Nat × DWord)) : Cue :=
  { cueWith s core op dest with
    marker := none, response := false, codeEpoch := if isCommitPoint o then s.icEpoch else (theCue s core).codeEpoch }

/-- An ensemble after one arrival that is no over-arrival (R193, R194). -/
def arrived (drop : Bool) (e : Ensemble) : Ensemble :=
  let next := if drop then e.next - 1 else e.next
  if e.arrived + 1 = e.expected then { e with phase := e.phase + 1, arrived := 0, expected := next, next }
  else { e with arrived := e.arrived + 1, next }

end Sys2Proof.Claims

/-- R149: WAIT goes on at once where its counter is at most the limit; else its lane waits at it until the counter has fallen,
when WAIT_WAKE lets it go on to the next instruction. -/
def Sys2Proof.Claims.WaitEndsWhenItsCounterHasFallen : Prop :=
  ∀ (s : State) (core cast lane : Nat),
    let old := getThread s core cast lane
    (∀ op, laneIssues s core cast lane .wait op = true → sget 0 op.a.toNat old.w ≤ (immOf op).toNat →
      ∃ t, exec (.wait op) s = .next t ∧ OnlyLanes s t core [(cast, lane)] ∧
        SameThread (getThread t core cast lane) (readyAt (nextPc old.pc op) old)) ∧
    (∀ op, laneIssues s core cast lane .wait op = true → sget 0 op.a.toNat old.w > (immOf op).toNat →
      ∃ t, exec (.wait op) s = .next t ∧ OnlyLanes s t core [(cast, lane)] ∧
        SameThread (getThread t core cast lane)
          { old with wait := .counter op.a.toNat (immOf op).toNat (nextPc old.pc op) }) ∧
    (∀ w m next, hasLane s core cast lane = true → old.wait = .counter w m next → old.live = true →
      (sget 0 w old.w ≤ m → ∃ t, exec (.waitWake (.lane core cast lane)) s = .next t ∧
        OnlyLanes s t core [(cast, lane)] ∧ getThread t core cast lane = readyAt next old) ∧
      (sget 0 w old.w > m → exec (.waitWake (.lane core cast lane)) s = .next s)) ∧
    (∀ op, cueCommands s core .wait op = true → (theCue s core).counter ≤ (immOf op).toNat →
      ∃ t, exec (.wait op) s = .next t ∧ getCue t core = some (cueDone s core .wait op none) ∧
        t = { s with cores := t.cores, fresh := s.fresh + 1 })

/-- R193, R194: ARRIVE commits, releases its scope and counts one arrival: the last one expected opens the next phase. Its lane
goes to the next instruction. An arrival at an ensemble that expects none, or that drops below none, is a fault. -/
def Obligations.ArriveCountsOrFaults : Prop :=
  ∀ (s s1 : State) (core cast lane : Nat) (op : Op) (n : Nat),
    laneIssues s core cast lane .arrive op = true → committed s core cast lane .arrive op = some s1 →
    hasLane s1 core cast lane = true → ensembleOf (getCast s1 core cast) op.a.toNat = some n →
    nearScope (op.mod.toNat / 2 % 8) = true → (getCore s1 core).launch = some (coreKey s1 core) →
    let drop := op.mod.toNat % 2 == 1
    let e := coreEnsemble s1 core n
    (e.expected ≠ 0 → (drop = true → e.next ≠ 0) →
      ∃ t, exec (.arrive op) s = .next t ∧ coreEnsemble t core n = arrived drop e ∧
        (∀ m, m ≠ n → coreEnsemble t core m = coreEnsemble s1 core m) ∧
        (getThread t core cast lane).pc = nextPc (getThread s core cast lane).pc op ∧
        (getThread t core cast lane).v = (getThread s1 core cast lane).v ∧
        (∀ c k l, (c, k, l) ≠ (core, cast, lane) → getThread t c k l = getThread s1 c k l) ∧
        (∀ key, homeByte t key = homeByte s1 key)) ∧
    (e.expected = 0 ∨ (drop = true ∧ e.next = 0) → handlerReady s1 core cast lane = true →
      (getThread s1 core cast lane).pc = (getThread s core cast lane).pc →
      ∃ t, exec (.arrive op) s = .next t ∧
        EntersHandler s1 t core cast lane { code := 0x07, info := BitVec.ofNat 32 n, opcode := (opRow .arrive).code })

/-- R195: BWAIT waits while the phase has its parity and arrivals are expected; else it goes on. BWAIT_WAKE lets a waiting lane go
on when the phase has the other parity or no arrival is expected, and not before. -/
def Sys2Proof.Claims.BwaitWaitsForTheOtherParity : Prop :=
  ∀ (s : State) (core cast lane : Nat),
    let old := getThread s core cast lane
    (∀ op n, laneIssues s core cast lane .bwait op = true → ensembleOf (getCast s core cast) op.a.toNat = some n →
      nearScope (op.mod.toNat / 2 % 8) = true →
      let e := coreEnsemble s core n
      let odd := op.mod.toNat % 2 == 1
      ∃ t, exec (.bwait op) s = .next t ∧ OnlyLanes s t core [(cast, lane)] ∧
        SameThread (getThread t core cast lane)
          (if e.phase % 2 = (if odd then 1 else 0) ∧ e.expected ≠ 0
            then { old with wait := .barrier n odd (op.mod.toNat / 2 % 8) (nextPc old.pc op) }
            else readyAt (nextPc old.pc op) old)) ∧
    (∀ n odd scope next, hasLane s core cast lane = true → old.wait = .barrier n odd scope next → old.live = true →
      contextRuns s core = true → nearScope scope = true →
      let e := coreEnsemble s core n
      (e.phase % 2 = (if odd then 1 else 0) ∧ e.expected ≠ 0 → exec (.bwaitWake (.lane core cast lane)) s = .next s) ∧
      (¬ (e.phase % 2 = (if odd then 1 else 0) ∧ e.expected ≠ 0) →
        ∃ t, exec (.bwaitWake (.lane core cast lane)) s = .next t ∧ OnlyLanes s t core [(cast, lane)] ∧
          getThread t core cast lane = readyAt next old))

/-- R149, R195: WAIT and BWAIT, where they go on and where they wait. -/
def Obligations.WaitsEnd : Prop :=
  Claims.WaitEndsWhenItsCounterHasFallen ∧ Claims.BwaitWaitsForTheOtherParity

/-- R159, R398: REL of a near scope completes at its commit, as does one of a wider scope when nothing of the core is still to
reach its home; ACQ of a near scope changes nothing; ACQ of a wider one leaves in L1 no line but those that the core has written
whole, and waits while the write-backs of its invalidation are not applied. A wider REL also publishes what other cores of its cluster
may see of its CRED rounds (log 29). Each then goes to the next instruction. -/
def Obligations.ReleaseAndAcquireComplete : Prop :=
  ∀ (s s1 : State) (core cast lane : Nat) (op : Op),
    (laneIssues s core cast lane .rel op = true → committed s core cast lane .rel op = some s1 →
      hasLane s1 core cast lane = true → nearScope (op.mod.toNat % 8) = true →
      ∃ t, exec (.rel op) s = .next t ∧ OnlyLanes s1 t core [(cast, lane)] ∧
        (getThread t core cast lane).pc = nextPc (getThread s core cast lane).pc op ∧
        (getThread t core cast lane).wait = .ready ∧ (getThread t core cast lane).v = (getThread s1 core cast lane).v ∧
        (getThread t core cast lane).scene =
          implicitScene (coreBill s1 core) (getThread s1 core cast lane) (nextPc (getThread s core cast lane).pc op)) ∧
    (laneIssues s core cast lane .acq op = true → nearScope (op.mod.toNat % 8) = true →
      ∃ t, exec (.acq op) s = .next t ∧ OnlyLanes s t core [(cast, lane)] ∧
        SameThread (getThread t core cast lane)
          (readyAt (nextPc (getThread s core cast lane).pc op) (getThread s core cast lane))) ∧
    (laneIssues s core cast lane .rel op = true → committed s core cast lane .rel op = some s1 →
      hasLane s1 core cast lane = true → nearScope (op.mod.toNat % 8) = false → op.mod.toNat % 8 ≠ 6 →
      (getThread s1 core cast lane).marker = none → (getCore s1 core).fifo = [] →
      (∀ w ∈ s1.homeWrites, w.core = core → w.applied = true) →
      let here := clusterOfCore core
      ∃ t, exec (.rel op) s = .next t ∧ OnlyLanes s1 { t with clusters := s1.clusters } core [(cast, lane)] ∧
        (∀ n, n ≠ here → getCluster t n = getCluster s1 n) ∧
        getCluster t here = { getCluster s1 here with views := (getCluster t here).views } ∧
        (getThread t core cast lane).pc = nextPc (getThread s core cast lane).pc op ∧
        (getThread t core cast lane).wait = .ready ∧ (getThread t core cast lane).v = (getThread s1 core cast lane).v) ∧
    (laneIssues s core cast lane .acq op = true → nearScope (op.mod.toNat % 8) = false →
      (∀ e ∈ (getCore s core).l1, e.1 = e.2.line) →
      ∃ t, exec (.acq op) s = .next t ∧
        (∀ line l, sfind line (getCore t core).l1 = some l → l.dirty = BitVec.allOnes 64) ∧
        let applied : Prop := ∀ w ∈ t.homeWrites, w.core = core → w.stamp.isNone → w.applied = true
        (applied → SameThread (getThread t core cast lane)
          (readyAt (nextPc (getThread s core cast lane).pc op) (getThread s core cast lane))) ∧
        (¬ applied → SameThread (getThread t core cast lane) (getThread s core cast lane)))

/-! ### System registers -/

namespace Sys2Proof.Claims

/-- The system registers of R17 that a lane can read, each as a number with its words of 32 bits; REFBAL is apart. -/
def systemRegister (s : State) (core cast lane n : Nat) : Option (Nat × Nat) :=
  let t := getThread s core cast lane
  let x := getContext s (coreCtx s core)
  match n with
  | 0x00 => some (x.ctxid.toNat, 1)
  | 0x01 => some (x.mode.toNat, 1)
  | 0x02 => some ((coreBill s core).kclass % 4, 1)
  | 0x03 => some (x.ebud.toNat, 1)
  | 0x04 => some (x.stepbase.toNat, 2)
  | 0x08 => some (t.tstat.toNat, 1)
  | 0x09 => some (t.srstate.toNat, 1)
  | 0x10 => some (t.frec.toNat, 4)
  | 0x14 => some (t.faddr.toNat, 2)
  | 0x20 => some ((getCore s core).cycle.toNat, 2)
  | 0x21 => some ((getCore s core).seqno.toNat, 1)
  | _ => none

end Sys2Proof.Claims

/-- R17, R223: SYSRD of a lane gives word b of the register that A names, and REFBAL the balance of channel b extended by sign; a
word that the register lacks is illegal. -/
def Sys2Proof.Claims.SysrdReadsEveryRegister : Prop :=
  ∀ (s : State) (core cast lane : Nat) (op : Op), laneIssues s core cast lane .sysrd op = true →
    let old := getThread s core cast lane
    let b := laneSrc s (laneFrame s core cast lane .sysrd op) cast lane .b
    (∀ v words, systemRegister s core cast lane op.a.toNat = some (v, words) → b < words →
      ∃ t, exec (.sysrd op) s = .next t ∧ OnlyLanes s t core [(cast, lane)] ∧
        SameThread (getThread t core cast lane)
          (readyAt (nextPc old.pc op) (withDest .sysrd op (v / 2 ^ (32 * b) % 2 ^ 32) old))) ∧
    (op.a.toNat = 0x40 → b < 256 →
      ∃ t, exec (.sysrd op) s = .next t ∧ OnlyLanes s t core [(cast, lane)] ∧
        SameThread (getThread t core cast lane)
          (readyAt (nextPc old.pc op) (withDest .sysrd op (BitVec.ofInt 32 (getChannel s b).bal).toNat old))) ∧
    (∀ v words, systemRegister s core cast lane op.a.toNat = some (v, words) → words ≤ b →
      handlerReady s core cast lane = true →
      ∃ t, exec (.sysrd op) s = .next t ∧
        EntersHandler s t core cast lane { code := 0x01, info := encodeWord0 .sysrd op, opcode := (opRow .sysrd).code })

/-- R17, R18, R24, R223: SYSWR of word 0 in a lane: a 1 written to TSTAT clears its bit; SRSTATE takes the value, 1 in place of 0;
EBUD of the context takes the value, and this write commits the lane's scene. -/
def Sys2Proof.Claims.SyswrWritesStatusRegisters : Prop :=
  ∀ (s s1 : State) (core cast lane : Nat) (op : Op), laneIssues s core cast lane .syswr op = true →
    let fr := laneFrame s core cast lane .syswr op
    let old := getThread s core cast lane
    let x : Word := BitVec.ofNat 32 (laneSrc s fr cast lane .c)
    laneSrc s fr cast lane .b = 0 →
    (op.a.toNat = 0x08 →
      ∃ t, exec (.syswr op) s = .next t ∧ OnlyLanes s t core [(cast, lane)] ∧
        SameThread (getThread t core cast lane) (readyAt (nextPc old.pc op) { old with tstat := old.tstat &&& ~~~x })) ∧
    (op.a.toNat = 0x09 →
      ∃ t, exec (.syswr op) s = .next t ∧ OnlyLanes s t core [(cast, lane)] ∧
        SameThread (getThread t core cast lane)
          (readyAt (nextPc old.pc op) { old with srstate := if x = 0 then 1 else x })) ∧
    (op.a.toNat = 0x03 → committed s core cast lane .syswr op = some s1 → hasLane s1 core cast lane = true →
      laneSrc s1 fr cast lane .b = 0 →
      ∃ t, exec (.syswr op) s = .next t ∧
        (getContext t (coreCtx s1 core)).ebud = BitVec.ofNat 32 (laneSrc s1 fr cast lane .c) ∧
        (∀ c, c ≠ coreCtx s1 core → getContext t c = getContext s1 c) ∧
        (getThread t core cast lane).pc = nextPc old.pc op ∧
        (getThread t core cast lane).v = (getThread s1 core cast lane).v ∧
        (∀ key, homeByte t key = homeByte s1 key))

/-- R17, R18, R24, R223: SYSRD and SYSWR. -/
def Obligations.SystemRegistersAreReadAndWritten : Prop :=
  Claims.SysrdReadsEveryRegister ∧ Claims.SyswrWritesStatusRegisters

/-- R223, R393: TRACE always goes to the next instruction. With TREN 0 it changes nothing else. With TREN 1 and a full ring it
counts one dropped record and leaves SEQNO, which is the model's reading (log 42). With room the ring's tail and SEQNO grow by one, and the 32 bytes of the record stand at TRBASE +
32*(TRTAIL mod 2^16), where a ring aligned to its records has that place mapped; sound caches keep every other byte of memory. -/
def Obligations.TraceEmitsOneRecord : Prop :=
  ∀ (s : State) (core cast lane : Nat) (op : Op), laneIssues s core cast lane .trace op = true →
    let old := getThread s core cast lane
    let fr := laneFrame s core cast lane .trace op
    let fn := coreFn s core
    let f := getFunc s fn
    let room : Prop := (f.trTail - f.trHead).toNat ≠ 65536
    ∃ t, exec (.trace op) s = .next t ∧ SameThread (getThread t core cast lane) (readyAt (nextPc old.pc op) old) ∧
      (∀ c k l, (c, k, l) ≠ (core, cast, lane) → getThread t c k l = getThread s c k l) ∧
      (modeTren (coreMode s core) = false → OnlyLanes s t core [(cast, lane)]) ∧
      (modeTren (coreMode s core) = true → ¬ room → (getFunc t fn).trTail = f.trTail ∧
        (getFunc t fn).trDrop = (if f.trDrop = BitVec.allOnes 32 then f.trDrop else f.trDrop + 1) ∧
        (getCore t core).seqno = (getCore s core).seqno ∧ MemoryKept s t) ∧
      (modeTren (coreMode s core) = true → room → (getFunc t fn).trTail = f.trTail + 1 ∧ (getFunc t fn).trDrop = f.trDrop ∧
        (getCore t core).seqno = (getCore s core).seqno + 1 ∧
        ∀ key, resolve s (outerPort fn) (f.trBase.toNat / 2 ^ 40) (f.trBase.toNat % 2 ^ 40 + 32 * (f.trTail.toNat % 2 ^ 16)) = some key →
          f.trBase.toNat % 32 = 0 → key % 32 = 0 →
          homeBytes t key 32 = toBytes 32 (recordBits old.pc.toNat old.scene.entry.toNat (gidx (coreBill s core) cast lane)
            (laneSrc s fr cast lane .a) (laneSrc s fr cast lane .b) (getCore s core).cycle.toNat (getCore s core).seqno.toNat
            (coreCtx s core) core) ∧
          (Memory.wf s.mem = true → CachesSound s →
            ∀ k, ¬ (key ≤ k ∧ k < key + 32) → homeByte t k = homeByte s k))

/-! ### The scratchpad -/

/-- R142, R150, R151: LDS inside S, aligned, over no range in flight and no poisoned segment gives the bytes of the scratchpad
under the lane's own buffered stores, extended as its width says; outside or misaligned it is a bounds fault. -/
def Sys2Proof.Claims.LdsLoadsFromTheScratchpad : Prop :=
  ∀ (s : State) (core cast lane : Nat) (op : Op), laneIssues s core cast lane .lds op = true →
    let fr := laneFrame s core cast lane .lds op
    let old := getThread s core cast lane
    let off : Int := (laneSrc s fr cast lane .a : Int) + immOf op
    let n := widthBytes op.mod.toNat
    (0 ≤ off → off + n ≤ 65536 * (coreBill s core).scratch → off % n = 0 → rangeBusy (getCore s core) off.toNat n = false →
      (getCore s core).spadPoison = [] →
      ∃ t, exec (.lds op) s = .next t ∧ OnlyLanes s t core [(cast, lane)] ∧
        SameThread (getThread t core cast lane)
          (readyAt (nextPc old.pc op) (withDest .lds op
            (extendLoad op.mod.toNat 32 (forward toSpad off.toNat (bytesAt off.toNat n (getCore s core).spad) old.scene.stores))
            old))) ∧
    (¬ (0 ≤ off ∧ off + n ≤ 65536 * (coreBill s core).scratch ∧ off % n = 0) → handlerReady s core cast lane = true →
      ∃ t, exec (.lds op) s = .next t ∧
        EntersHandler s t core cast lane
          { code := 0x02, info := 0x7F, opcode := (opRow .lds).code, acc := 1
            faddr := BitVec.ofNat 64 (0xFFFFFF * 2 ^ 40 + (off % (2 ^ 40 : Nat)).toNat) })

/-- R152, R212, R213: STS enters one store in the lane's buffer, counted against the scene's budget, and changes nothing else; in
a scene that has used up its budget it is the store-budget fault. -/
def Sys2Proof.Claims.StsBuffersOneStore : Prop :=
  ∀ (s : State) (core cast lane : Nat) (op : Op), laneIssues s core cast lane .sts op = true →
    let fr := laneFrame s core cast lane .sts op
    let old := getThread s core cast lane
    let off : Int := (laneSrc s fr cast lane .a : Int) + immOf op
    let n := widthBytes op.mod.toNat
    let st : BufStore :=
      { seq := s.issued, pc := old.pc, kind := .spad, off := off.toNat, bytes := toBytes n (laneSrc s fr cast lane .b) }
    0 ≤ off → off + n ≤ 65536 * (coreBill s core).scratch → off % n = 0 →
    bufferUse s core (getCast s core cast).part < 2048 →
    (old.scene.count < old.scene.budget →
      ∃ t, exec (.sts op) s = .next t ∧ OnlyLanes s t core [(cast, lane)] ∧ (getCore t core).spad = (getCore s core).spad ∧
        SameThread (getThread t core cast lane)
          (readyAt (nextPc old.pc op) { old with scene := { old.scene with
            count := old.scene.count + 1, stores := old.scene.stores ++ [st] } })) ∧
    (old.scene.budget ≤ old.scene.count → handlerReady s core cast lane = true →
      ∃ t, exec (.sts op) s = .next t ∧
        EntersHandler s t core cast lane
          { code := 0x0C, info := BitVec.ofNat 32 old.scene.budget, opcode := (opRow .sts).code, acc := 2 })

/-- R142, R155, R156: ATOMS commits, reads a word of the scratchpad, writes the new word of its operation there and the old one to
its destination, in one step. The context neither records nor replays. -/
def Sys2Proof.Claims.AtomsReadsAndWritesTheScratchpad : Prop :=
  ∀ (s s1 : State) (core cast lane : Nat) (op : Op), laneIssues s core cast lane .atoms op = true →
    committed s core cast lane .atoms op = some s1 → hasLane s1 core cast lane = true →
    let fr := laneFrame s core cast lane .atoms op
    let off : Int := (laneSrc s1 fr cast lane .a : Int) + immOf op
    let x := laneSrc s1 fr cast lane .b
    let a := BitVec.ofNat 32 (ofBytes (bytesAt off.toNat 4 (getCore s1 core).spad))
    0 ≤ off → off + 4 ≤ 65536 * (coreBill s1 core).scratch → off % 4 = 0 → (getCore s1 core).ranges = [] →
    (getCore s1 core).spadPoison = [] → modeRun (coreMode s1 core) ≠ 2 →
    (getContext s1 (coreCtx s1 core)).recording = none → op.mod.toNat % 16 ≠ 10 → op.mod.toNat % 16 < 11 →
    let b := BitVec.ofNat 32 x
    let new : Word := match op.mod.toNat % 16 with
      | 0 => a + b
      | 1 => if b.slt a then b else a
      | 2 => if a.slt b then b else a
      | 3 => if b.ult a then b else a
      | 4 => if a.ult b then b else a
      | 5 => a &&& b
      | 6 => a ||| b
      | 7 => a ^^^ b
      | 8 => b
      | _ => if a.toNat = laneSrc s1 fr cast lane .c then b else a
    ∃ t, exec (.atoms op) s = .next t ∧
      (getCore t core).spad = putBytes off.toNat (toBytes 4 new.toNat) (getCore s1 core).spad ∧
      (getThread t core cast lane).v = withV op.d.toNat 1 a.toNat (getThread s1 core cast lane).v ∧
      (getThread t core cast lane).p = (getThread s1 core cast lane).p ∧
      (getThread t core cast lane).pc = nextPc (getThread s core cast lane).pc op ∧
      (∀ c k l, (c, k, l) ≠ (core, cast, lane) → getThread t c k l = getThread s1 c k l) ∧
      (∀ key, homeByte t key = homeByte s1 key)

/-- R142, R150 to R152, R155, R156, R212, R213: LDS, STS and ATOMS. -/
def Obligations.ScratchpadInstructions : Prop :=
  Claims.LdsLoadsFromTheScratchpad ∧ Claims.StsBuffersOneStore ∧ Claims.AtomsReadsAndWritesTheScratchpad

/-! ### Gathering instructions that combine the lanes of a cast -/

namespace Sys2Proof.Claims

/-- Everything is unchanged but one cast of a core: its live lanes, its uniform and its capability registers. -/
def OnlyCast (s t : State) (core cast : Nat) : Prop :=
  t = { s with cores := t.cores }
    ∧ (∀ c, c ≠ core → getCore t c = getCore s c)
    ∧ getCore t core = { getCore s core with casts := (getCore t core).casts }
    ∧ (∀ k, k ≠ cast → getCast t core k = getCast s core k)
    ∧ (∀ l, l ∉ liveLanes (getCast s core cast) → getThread t core cast l = getThread s core cast l)
    ∧ ∀ key, homeByte t key = homeByte s key

/-- A cast's live lanes stand at a gathering instruction (R172). -/
def gathered (s : State) (core cast : Nat) : State :=
  ((liveLanes (getCast s core cast)).map fun l => (cast, l)).foldl
    (fun s th => modThread s core th.1 th.2 fun t => { t with wait := .gather }) s

/-- The state after a cast has reached a gathering instruction that is a commit point and the lanes that execute it have all
committed their scenes there (R172, R210, R211), if they could. -/
def castCommitted (s : State) (core cast : Nat) (act : List Nat) (o : Opc) (op : Op) : Option State :=
  match commitPoint (gathered s core cast) (castFrame s core cast o op) (act.map fun l => (cast, l)) with
  | .go s1 ok => if ok == act.map fun l => (cast, l) then some s1 else none
  | .held => none
  | .stop _ => none

/-- A lane of a cast after a gathering instruction, between two states: at the next instruction, its registers as `result` leaves
them; where the instruction is a commit point that it has executed, a new implicit scene is open there (R210). -/
def CastLane (s t : State) (core cast lane : Nat) (next : Word) (opens : Bool) (result : Thread → Thread) : Prop :=
  let u := readyAt next (result (getThread s core cast lane))
  SameThread (getThread t core cast lane)
    (if opens then { u with scene := implicitScene (coreBill s core) u next, denied := none } else u)

/-- All live lanes of a cast go on, their registers unchanged. -/
def CastGoesOn (s t : State) (core cast : Nat) (next : Word) (act : List Nat) (commits : Bool) : Prop :=
  ∀ l ∈ liveLanes (getCast s core cast), CastLane s t core cast l next (commits && act.contains l) fun old => old

/-- A cast has W lanes, and W is a width that a playbill admits (R255). -/
def wholeCast (s : State) (core cast : Nat) : Bool :=
  (getCast s core cast).threads.length == (coreBill s core).width
    && ((coreBill s core).width == 16 || (coreBill s core).width == 32 || (coreBill s core).width == 64)

/-- A value function on two words, as `integerResult` or `floatResult` gives it. -/
def onTwo (o : Opc) (mod x y : Nat) : Nat × Nat :=
  match integerResult o, floatResult o with
  | some f, _ => f { n := 32, a := x, b := y, c := 0, mod }
  | none, some f =>
    match f { n := 32, a := x, b := y, c := 0, mod } with
    | .ok d flags _ => (d, flags)
    | .trap => (0, 0)
    | .illegal => (0, 0)
  | none, none => (0, 0)

/-- The operation and the identity of REDUCE and SCAN (R207). -/
def combining (k x y : Nat) : Nat × Nat :=
  match k with
  | 0 => onTwo .iadd 0 x y
  | 1 => onTwo .imin 0 x y
  | 2 => onTwo .imax 0 x y
  | 3 => onTwo .imin 1 x y
  | 4 => onTwo .imax 1 x y
  | 5 => onTwo .and 0 x y
  | 6 => onTwo .or 0 x y
  | 7 => onTwo .xor 0 x y
  | 8 => onTwo .fadd 0 x y
  | 9 => onTwo .fmin 0 x y
  | _ => onTwo .fmax 0 x y
def identityOf (k : Nat) : Nat :=
  match k with
  | 1 => 0x7FFFFFFF
  | 2 => 0x80000000
  | 3 => 0xFFFFFFFF
  | 5 => 0xFFFFFFFF
  | 8 => 0x80000000
  | 9 => 0x7F800000
  | 10 => 0xFF800000
  | _ => 0

/-- `x[j]` of REDUCE after the rounds s = 1, 2, 4, … 2^(n-1), with the flags that formed it. -/
def afterRounds (k : Nat) (x : Nat → Nat) : Nat → Nat → Nat × Nat
  | 0, j => (x j, 0)
  | n + 1, j =>
    let p := afterRounds k x n j
    let q := afterRounds k x n (j + 2 ^ n)
    let r := combining k p.1 q.1
    (r.1, p.2 ||| q.2 ||| r.2)

/-- `s_i` of SCAN, with the flags of the step that formed it; `s_(−1)` is the identity. -/
def scanned (k : Nat) (x : Nat → Nat) : Nat → Nat × Nat
  | 0 => (identityOf k, 0)
  | i + 1 => combining k (scanned k x i).1 (x i)

/-- The mask of the lanes that pass a test. -/
def maskOf (act : List Nat) (p : Nat → Bool) : Nat := ((act.filter p).map fun l => 2 ^ l).sum

/-- What a cross-lane instruction gives lane `i`, with its flags, from the values `a` and `b` of the lanes `act` (R205 to R208). -/
def crossResult (o : Opc) (mod width : Nat) (act : List Nat) (a b : Nat → Nat) (i : Nat) : Option (Nat × Nat) :=
  let lead := act.headD 0
  let known (k j : Nat) : Nat := if act.contains j then a j else identityOf k
  match o with
  | .slide =>
    let m : Nat := 2 ^ (mod % 4)
    let w : Nat := 32 / m
    let row (e : Int) : Nat :=
      if 0 ≤ e ∧ e < m * width ∧ act.contains (e.toNat / m) then a (e.toNat / m) / 2 ^ (w * (e.toNat % m)) % 2 ^ w
      else b lead % 2 ^ w
    let n : Int := mod / 8 + 1
    some (((List.range m).map fun k =>
      row (((m * i + k : Nat) : Int) + (if mod.testBit 2 then n else -n)) * 2 ^ (w * k)).sum, 0)
  | .shfl =>
    let j := if mod = 0 then b i else i ^^^ b i
    some (if act.contains j then a j else a i, 0)
  | .bcast => some (if act.contains (b lead) then a (b lead) else 0, 0)
  | .reduce => some (afterRounds (mod % 16) (known (mod % 16)) (Nat.log2 width) 0)
  | .scan => some (scanned (mod % 16) (known (mod % 16)) (if mod.testBit 4 then i else i + 1))
  | .vote => some (match mod with
    | 0 => maskOf act fun l => a l == 1
    | 1 => b2n (act.any fun l => a l == 1)
    | 2 => b2n (act.all fun l => a l == 1)
    | _ => act.countP fun l => a l == 1, 0)
  | .matchLanes => some (maskOf act fun j => a j == a i, 0)
  | _ => none

/-- A lane mask takes two registers where W is 64; another result one. -/
def withCross (o : Opc) (op : Op) (width value : Nat) (old : Thread) : Thread :=
  if o = .matchLanes ∨ o = .vote ∧ op.mod = 0 then
    { old with v := withV op.d.toNat (if width = 64 then 2 else 1) value old.v }
  else withDest o op value old

end Sys2Proof.Claims

/-- R204 to R208: SLIDE, SHFL, BCAST, REDUCE, SCAN, VOTE and MATCH in a cast that is complete at them: every lane of L takes its
result and flags, every live lane goes to the next instruction, all else is unchanged. -/
def Obligations.CrossLaneInstructionsCombineLanes : Prop :=
  ∀ (s : State) (core cast : Nat) (act : List Nat) (o : Opc) (op : Op) (r : Nat → Nat × Nat),
    castIssues s core cast act o op = true → wholeCast s core cast = true →
    let fr := castFrame s core cast o op
    let width := (coreBill s core).width
    (∀ l ∈ act, crossResult o op.mod.toNat width act (fun j => laneSrc s fr cast j .a) (fun j => laneSrc s fr cast j .b) l
      = some (r l)) →
    ∃ t, exec (instrOf o op) s = .next t ∧ OnlyCast s t core cast ∧ (getCast t core cast).k = (getCast s core cast).k ∧
      (getCast t core cast).a = (getCast s core cast).a ∧
      ∀ l ∈ liveLanes (getCast s core cast), CastLane s t core cast l fr.next false fun old =>
        if act.contains l then withFlags (r l).2 (withCross o op width (r l).1 old) else old

/-- R208, R157, R132: KMOV writes the lowest or the highest lane's value to a uniform register; CAPNAR and CAPMK write a derived
capability: bounds from LOWER + b on, c bytes, fewer rights, or a class that CAPMK may raise. Each commits its lanes' scenes. -/
def Obligations.KmovCapnarAndCapmkWriteCastRegisters : Prop :=
  ∀ (s s1 : State) (core cast : Nat) (act : List Nat) (op : Op), act ≠ [] →
    let old := getCast s1 core cast
    let lead := act.headD 0
    let src : Cap := laneCap s1 core cast op.a.toNat
    let b (o : Opc) : Nat := laneSrc s1 (castFrame s core cast o op) cast lead .b
    let c (o : Opc) : Nat := laneSrc s1 (castFrame s core cast o op) cast lead .c
    (castIssues s core cast act .kmov op = true → castCommitted s core cast act .kmov op = some s1 →
      ∃ t, exec (.kmov op) s = .next t ∧ OnlyCast s1 t core cast ∧
        CastGoesOn s1 t core cast (castFrame s core cast .kmov op).next act true ∧ (getCast t core cast).a = old.a ∧
        (getCast t core cast).k = sset 0 op.d.toNat (BitVec.ofNat 32
          (laneSrc s1 (castFrame s core cast .kmov op) cast (if op.mod = 0 then lead else act.getLastD 0) .a)) old.k) ∧
    (castIssues s core cast act .capnar op = true → castCommitted s core cast act .capnar op = some s1 →
      capLower src + b .capnar + c .capnar ≤ capUpper src →
      ∃ t x, exec (.capnar op) s = .next t ∧ OnlyCast s1 t core cast ∧
        CastGoesOn s1 t core cast (castFrame s core cast .capnar op).next act true ∧ (getCast t core cast).k = old.k ∧
        (getCast t core cast).a = sset 0 op.d.toNat x old.a ∧
        capLower x = capLower src + b .capnar ∧ capUpper x = capLower x + c .capnar ∧
        capOid x = capOid src ∧ capLc x = capLc src ∧ capReserved x = 0 ∧
        ∀ n < 8, capHas x n = (capHas src n && !op.mod.getLsbD n)) ∧
    (castIssues s core cast act .capmk op = true → castCommitted s core cast act .capmk op = some s1 →
      capLower src + b .capmk + c .capmk ≤ capUpper src →
      let lc := if op.mod = 0 then capLc src else op.mod.toNat
      classRank (capLc src) ≤ classRank lc → (capLc src = 3 → op.mod = 0) →
      ∃ t x, exec (.capmk op) s = .next t ∧ OnlyCast s1 t core cast ∧
        CastGoesOn s1 t core cast (castFrame s core cast .capmk op).next act true ∧ (getCast t core cast).k = old.k ∧
        (getCast t core cast).a = sset 0 op.d.toNat x old.a ∧
        capLower x = capLower src + b .capmk ∧ capUpper x = capLower x + c .capmk ∧
        capOid x = capOid src ∧ capLc x = lc ∧ capReserved x = 0 ∧ ∀ n < 8, capHas x n = capHas src n)

/-- R121 to R124: CVTQ in a cast that is complete at it, its slot bound, completes: without an active lane it changes nothing;
`.scale` gives each active lane its blocks' scales and starts; the other form, under a policy that does not trap, or where no element
overflows, gives each its two codes, its flags, INV for a NaN that it gave to a block, and its SRSTATE. Every live lane goes to the next
instruction. -/
def Obligations.CvtqQuantizesTheRow : Prop :=
  ∀ (s : State) (core cast : Nat) (act : List Nat) (op : Op),
    castIssues s core cast act .cvtq op = true →
    let fr := castFrame s core cast .cvtq op
    let slot := slotOf s core op
    let x (l : Nat) : AluIn := laneIn s fr cast l
    (act = [] → ∃ t, exec (.cvtq op) s = .next t ∧ OnlyCast s t core cast ∧ CastGoesOn s t core cast fr.next act false) ∧
    ∀ (f : Fmt) (pol : Nat), act ≠ [] → wholeCast s core cast = true →
      slotFmt slot = some f → slotPolicy (x (act.headD 0)) = some pol →
      let row := quantRow s fr cast (coreBill s core).width act
      let marks := quantMarks f (quantBlocks slot f row)
      let v (j : Nat) : FVal := row.getD j (.fin false 0 1)
      let m (j : Nat) : Bool × Nat := marks.getD j (false, 0)
      let inv (l : Nat) : Nat := quantInvalid slot (v (2 * l)) (v (2 * l + 1))
      let codes (l : Nat) : Option (Nat × Nat × Nat) :=
        quantLane (x l) f pol (m (2 * l)) (m (2 * l + 1)) (v (2 * l)) (v (2 * l + 1))
      (op.mod.toNat.testBit 3 = true →
        ∃ t, exec (.cvtq op) s = .next t ∧ OnlyCast s t core cast ∧
          ∀ l ∈ liveLanes (getCast s core cast), CastLane s t core cast l fr.next false fun old =>
            if act.contains l then
              withFlags (inv l) (withDest .cvtq op
                (if slotSch slot = 1 ∨ slotSch slot = 2 then
                  (m (2 * l)).2 + (m (2 * l + 1)).2 * 2 ^ 8 + (if (m (2 * l)).1 then 2 ^ 16 else 0)
                    + (if (m (2 * l + 1)).1 then 2 ^ 17 else 0)
                else 0) old)
            else old) ∧
      (op.mod.toNat.testBit 3 = false → pol < 3 ∨ (∀ l ∈ act, (codes l).isSome = true) →
        (∀ l ∈ act, (codes l).isSome = true) ∧
        ∃ t, exec (.cvtq op) s = .next t ∧ OnlyCast s t core cast ∧
          ∀ l ∈ liveLanes (getCast s core cast), CastLane s t core cast l fr.next false fun old =>
            if act.contains l then
              let r := (codes l).getD (0, 0, 0)
              let u := withFlags (r.2.1 ||| inv l) (withDest .cvtq op r.1 old)
              { u with srstate := if r.2.2 = (x l).sr then u.srstate else BitVec.ofNat 32 r.2.2 }
            else old)

/-! ### Memory -/

namespace Sys2Proof.Claims

/-- The access of a lane's memory operation, as R131 checks it with translation: the capability, the offset, the page found. -/
def laneAccess (s : State) (core cast lane : Nat) (o : Opc) (op : Op) (acc n : Nat) (rights : List Nat) : Acc TlbEntry :=
  accessOne s core (coreFn s core) (coreCtx s core) (viaOf (laneFrame s core cast lane o op) .a acc)
    (laneCap s core cast op.a.toNat) (laneOff s (laneFrame s core cast lane o op) cast lane) n rights
    (getThread s core cast lane).denied

/-- The object offset of a lane's memory operation (R130). -/
def laneByte (s : State) (core cast lane : Nat) (o : Opc) (op : Op) : Nat :=
  (effective (laneCap s core cast op.a.toNat) (laneOff s (laneFrame s core cast lane o op) cast lane)).toNat

/-- A thread after an operation that leaves its predicates, its counters, its stack, its status and its uniform state alone. -/
def OnlyRegisters (old new : Thread) : Prop :=
  new.p = old.p ∧ new.w = old.w ∧ new.stack = old.stack ∧ new.srstate = old.srstate ∧ new.tstat = old.tstat ∧
    new.live = old.live ∧ new.frec = old.frec ∧ new.faddr = old.faddr

/-- Two threads that differ at most in what delays them, and in the exhaustion bit, which a charge for a failed check may set in
every thread of a context (R218, R356). -/
def SameBarCharge (t u : Thread) : Prop := SameThread { t with exh := false } { u with exh := false }

/-- What a response gives back: these registers to an agent, no flag, and the acquire of a scope, if any. -/
def GivesBack (r : Response) (who : Agent) (pc : Word) (regs : List (Nat × DWord)) (scope : Option Nat) : Prop :=
  r.agent = who ∧ r.regs = regs ∧ r.flag = none ∧ r.acquire = scope ∧ r.pc = pc

/-- Every thread of the module but one is unchanged, a charge apart. -/
def OthersKept (s t : State) (core cast lane : Nat) : Prop :=
  ∀ c k l, (c, k, l) ≠ (core, cast, lane) → SameBarCharge (getThread t c k l) (getThread s c k l)

end Sys2Proof.Claims

/-- R131, R144, R150, R151, R357: LD through a capability that is neither shared-volatile nor Fugitive gives the bytes that the
core's caches hold after the read, under the lane's own buffered stores, extended as its width says. Where the line stands in L1,
they are the line's and no byte of memory changes. -/
def Sys2Proof.Claims.LdLoadsThroughTheCaches : Prop :=
  ∀ (s s1 : State) (core cast lane : Nat) (op : Op) (p : TlbEntry), laneIssues s core cast lane .ld op = true →
    let c := laneCap s core cast op.a.toNat
    let old := getThread s core cast lane
    let n := widthBytes op.mod.toNat
    let e := laneByte s core cast lane .ld op
    let line := pageByte p e / 64
    let cm := op.mod.toNat / 8 % 4
    let s2 := loadLine s1 core line p.cls (coreCtx s core) old.pc (cm ≠ 1) (cm = 2)
    laneAccess s core cast lane .ld op 1 n [0] = .ok s1 p → capHas c 7 = false →
    kclassFail (coreBill s core).kclass (op.mod.toNat / 32 % 4) p.cls = false → p.poisoned = false →
    (loadView s2 core line).poison = false →
    let value (d : LineData) : Nat :=
      extendLoad op.mod.toNat 32 (forward (toObject (capOid c)) e (takeBytes d (pageByte p e % 64) n) old.scene.stores)
    (∃ t, exec (.ld op) s = .next t ∧ OthersKept s t core cast lane ∧ OnlyRegisters old (getThread t core cast lane) ∧
      (getThread t core cast lane).pc = nextPc old.pc op ∧ (getThread t core cast lane).wait = .ready ∧
      (getThread t core cast lane).v = (withDest .ld op (value (loadView s2 core line).data) old).v) ∧
    (∀ l, sfind line (getCore s core).l1 = some l → l.line = line →
      (loadView s2 core line).data = l.data ∧
      ∃ t, exec (.ld op) s = .next t ∧ MemoryKept s t ∧ (getCore t core).spad = (getCore s core).spad)

/-- R153, R157, R133: LDK reads one word or two for its cast into uniform registers, CAPLD sixteen bytes into a capability
register, which takes the null capability where the granule's tag is 0. Both read in the name of the lowest lane of L. -/
def Sys2Proof.Claims.LdkAndCapldReadOnceForTheCast : Prop :=
  ∀ (s s1 s2 : State) (core cast : Nat) (act : List Nat) (op : Op) (bs : List Byte) (tag : Bool) (missed : Option Nat), act ≠ [] →
    let lead := act.headD 0
    (castIssues s core cast act .ldk op = true → castCommitted s core cast act .ldk op = some s1 →
      let n := if op.mod = 0 then 1 else 2
      castRead s1 (castFrame s core cast .ldk op) cast lead (4 * n) = .ok s2 bs tag missed →
      ∃ t, exec (.ldk op) s = .next t ∧
        (getCast t core cast).k = (splitWords op.d.toNat (ofBytes bs) n).foldl (fun k e => sset 0 e.1 e.2 k)
          (getCast s2 core cast).k ∧
        (getCast t core cast).a = (getCast s2 core cast).a ∧ (∀ k, k ≠ cast → getCast t core k = getCast s2 core k) ∧
        MemoryKept s2 t ∧ CastGoesOn s2 t core cast (castFrame s core cast .ldk op).next act true) ∧
    (castIssues s core cast act .capld op = true → castCommitted s core cast act .capld op = some s1 →
      castRead s1 (castFrame s core cast .capld op) cast lead 16 = .ok s2 bs tag missed →
      ∃ t, exec (.capld op) s = .next t ∧
        (getCast t core cast).a = sset 0 op.d.toNat (if tag then BitVec.ofNat 128 (ofBytes bs) else 0)
          (getCast s2 core cast).a ∧
        (getCast t core cast).k = (getCast s2 core cast).k ∧ (∀ k, k ≠ cast → getCast t core k = getCast s2 core k) ∧
        MemoryKept s2 t ∧ CastGoesOn s2 t core cast (castFrame s core cast .capld op).next act true)

/-- R131, R133, R144, R150, R151, R153, R157, R357: LD, LDK and CAPLD whose lines are in L1. -/
def Obligations.LoadsCompleteThroughTheCaches : Prop :=
  Claims.LdLoadsThroughTheCaches ∧ Claims.LdkAndCapldReadOnceForTheCast

/-- R147, R156, R159, R238, R398: LD through a shared-volatile capability reads at the home and its lane waits; while an earlier write
of its core to the line is not applied there, it waits to issue. The value comes back as a response, which HOME_ACCESS_RESPONSE writes
to the lane's registers, once the write-backs of its acquire are applied, and the lane goes on. The context neither records nor
replays. -/
def Obligations.HomeReadsReturnAsResponses : Prop :=
  (∀ (s s1 : State) (core cast lane : Nat) (op : Op) (p : TlbEntry), laneIssues s core cast lane .ld op = true →
    let c := laneCap s core cast op.a.toNat
    let old := getThread s core cast lane
    let n := widthBytes op.mod.toNat
    let e := laneByte s core cast lane .ld op
    let h := homeRead s1 core (coreCtx s core) old.pc p e n
    laneAccess s core cast lane .ld op 1 n [0] = .ok s1 p → capHas c 7 = true →
    kclassFail (coreBill s core).kclass (op.mod.toNat / 32 % 4) p.cls = false →
    (h.2 = none → ∃ t, exec (.ld op) s = .next t ∧ OthersKept s t core cast lane ∧
      SameThread (getThread t core cast lane) old ∧ t.responses = s.responses) ∧
    ∀ bs, h.2 = some bs → (∀ i < n, homePoison h.1 p (e + i) = false) →
      modeRun (coreMode s core) ≠ 2 → (getContext s (coreCtx s core)).recording = none →
      let value := extendLoad op.mod.toNat 32 (forward (toObject (capOid c)) e bs old.scene.stores)
      bs = homeBytes h.1 (pageByte p e) n ∧
      ∃ t, exec (.ld op) s = .next t ∧ OthersKept s t core cast lane ∧ OnlyRegisters old (getThread t core cast lane) ∧
        (getThread t core cast lane).v = old.v ∧ (getThread t core cast lane).pc = nextPc old.pc op ∧
        (getThread t core cast lane).wait = .response ∧
        ∃ r, t.responses = s.responses ++ [r] ∧
          GivesBack r (.lane core cast lane) old.pc
            ((splitWords op.d.toNat value (span32 .ld op.mod.toNat .d)).map fun r => (r.1, BitVec.ofNat 64 r.2.toNat)) none) ∧
  ∀ (s : State) (core cast lane i : Nat) (r : Response), (responsesOf s core)[i]? = some r →
    r.agent = .lane core cast lane → hasLane s core cast lane = true → (getThread s core cast lane).wait = .response →
    let old := getThread s core cast lane
    let s1 := match r.acquire with
      | some scope => acquire s core scope
      | none => s
    let flagged (p : BitVec 7) : BitVec 7 := match r.flag with
      | some (n, b) => withP n b p
      | none => p
    let new : Thread :=
      { old with
        v := r.regs.foldl (fun v e => sset 0 e.1 (BitVec.ofNat 32 e.2.toNat) v) old.v
        p := flagged old.p, scene := { old.scene with snapP := flagged old.scene.snapP }
        wait := .ready }
    let applied : Prop := ∀ scope, r.acquire = some scope → acquired s1 core scope = true
    (applied → ∃ t, exec (.homeAccessResponse core i) s = .next t ∧ t.responses = s.responses.erase r ∧
      OthersKept s t core cast lane ∧ SameBarCharge (getThread t core cast lane) new ∧ MemoryKept s t) ∧
    (¬ applied → exec (.homeAccessResponse core i) s = .next s1 ∧ MemoryKept s s1)

/-- R139, R155, R156, R230: ATOM commits and at the home, in one step, reads the old value, writes the new one of its operation and
sends the old one back; its lane waits. On a line of a peer module it goes there, its lane waits, and it holds one replay slot with
what it needs to be performed. Its core has the slots that it needs. No release wider than the core precedes it; the context neither records nor replays. -/
def Obligations.AtomReadsAndWritesAtTheHome : Prop :=
  ∀ (s s1 s2 : State) (core cast lane : Nat) (op : Op) (p : TlbEntry), laneIssues s core cast lane .atom op = true →
    committed s core cast lane .atom op = some s1 → hasLane s1 core cast lane = true →
    (op.mod.toNat.testBit 5 = true → nearScope op.fslot.toNat = true) →
    slotsUsed (getCore s core) + remoteLanes s core op [(cast, lane)] ≤ 64 →
    let fr := laneFrame s core cast lane .atom op
    let old := getThread s1 core cast lane
    let n := if op.mod.toNat % 16 = 11 then 8 else 4
    let s0 := if op.mod.toNat.testBit 5 then modThread s1 core cast lane fun t => { t with marker := none } else s1
    let c := laneCap s1 core cast op.a.toNat
    accessOne s0 core (coreFn s1 core) (coreCtx s1 core) (viaOf fr .a 2) c (laneOff s1 fr cast lane) n [3] old.denied = .ok s2 p →
    let e := (effective c (laneOff s1 fr cast lane)).toNat
    let key := pageByte p e
    let h := homeRead s2 core (coreCtx s1 core) fr.pc p e n
    let x := laneSrc s1 fr cast lane .c
    let v := if op.mod.toNat % 16 = 9 then x / 2 ^ 32 else x
    let compare := if op.mod.toNat % 16 = 9 then x % 2 ^ 32 else 0
    let next := nextPc (getThread s core cast lane).pc op
    (∀ bs, isPeerLine (key / 64) = false → h.2 = some bs → homeWriteReady h.1 (stampDie core (key / 64)) (key / 64) = true →
      homePoison h.1 p e = false → key % n = 0 → modeRun (coreMode s1 core) ≠ 2 →
      (getContext s1 (coreCtx s1 core)).recording = none →
      let new := atomNew (op.mod.toNat % 16) (ofBytes bs) v compare
      bs = homeBytes h.1 key n ∧
      ∃ t, exec (.atom op) s = .next t ∧ OthersKept s1 t core cast lane ∧ homeBytes t key n = toBytes n new.1 ∧
        (getThread t core cast lane).v = old.v ∧ (getThread t core cast lane).p = old.p ∧
        (getThread t core cast lane).tstat = old.tstat ||| BitVec.ofNat 32 new.2 ∧
        (getThread t core cast lane).pc = next ∧ (getThread t core cast lane).wait = .response ∧
        ∃ r, t.responses = s1.responses ++ [r] ∧
          GivesBack r (.lane core cast lane) fr.pc
            ((splitWords op.d.toNat (ofBytes bs) (n / 4)).map fun r => (r.1, BitVec.ofNat 64 r.2.toNat))
            (if op.mod.toNat.testBit 4 then some op.fslot.toNat else none)) ∧
    (isPeerLine (key / 64) = true → slotsUsed (getCore s1 core) < 64 →
      ∃ t y, exec (.atom op) s = .next t ∧ OthersKept s1 t core cast lane ∧ MemoryKept s1 t ∧
        (getCore t core).xfers = (getCore s1 core).xfers ++ [y] ∧ y.kind = .atom ∧ y.agent = .lane core cast lane ∧
        y.mod = op.mod.toNat ∧ y.src = .mem c e ∧ y.dreg = op.d.toNat ∧ y.scope = op.fslot.toNat ∧
        y.operand = BitVec.ofNat 64 v ∧ y.compare = BitVec.ofNat 64 compare ∧
        (getThread t core cast lane).v = old.v ∧ (getThread t core cast lane).wait = .remote next)

/-- R152, R157, R212, R213: ST and CAPST, checked as R131 says, enter one store in the lane's buffer, CAPST the granule with its
tag and into Lightfast regions only; memory is unchanged. A scene that has used up its budget takes the store-budget fault. -/
def Sys2Proof.Claims.StAndCapstBufferOneStore : Prop :=
  ∀ (s s1 : State) (core cast lane : Nat) (op : Op) (p : TlbEntry),
    let c := laneCap s core cast op.a.toNat
    let old := getThread s core cast lane
    let buffers (i : Instr) (o : Opc) (st : BufStore) : Prop :=
      (old.scene.count < old.scene.budget →
        ∃ t, exec i s = .next t ∧ OthersKept s t core cast lane ∧ MemoryKept s t ∧
          (∀ k, (getCore t k).spad = (getCore s k).spad) ∧
          SameThread (getThread t core cast lane)
            (readyAt (nextPc old.pc op) { old with scene := { old.scene with
              count := old.scene.count + 1, stores := old.scene.stores ++ [st] } })) ∧
      (old.scene.budget ≤ old.scene.count → handlerReady s core cast lane = true →
        ∃ t, exec i s = .next t ∧ OthersKept s t core cast lane ∧ MemoryKept s t ∧
          (getThread t core cast lane).pc = (coreBill s core).trapPc ∧
          (getThread t core cast lane).frec =
            frecOf { code := 0x0C, info := BitVec.ofNat 32 old.scene.budget, opcode := (opRow o).code, acc := 2 } old.pc
              old.scene.entry)
    bufferUse s core (getCast s core cast).part < 2048 →
    (laneIssues s core cast lane .st op = true →
      laneAccess s core cast lane .st op 2 (widthBytes op.mod.toNat) [1] = .ok s1 p →
      buffers (.st op) .st
        { seq := s.issued, pc := old.pc, kind := .mem c false, off := laneByte s core cast lane .st op
          bytes := toBytes (widthBytes op.mod.toNat) (laneSrc s (laneFrame s core cast lane .st op) cast lane .c) }) ∧
    (laneIssues s core cast lane .capst op = true → laneAccess s core cast lane .capst op 2 16 [1, 4] = .ok s1 p → p.cls = 2 →
      buffers (.capst op) .capst
        { seq := s.issued, pc := old.pc, kind := .mem c true, off := laneByte s core cast lane .capst op
          bytes := toBytes 16 (laneCap s core cast op.c.toNat).toNat })

/-- R144, R152, R234: an ordinary store that its commit performs stands in the core's own view of its line; the other bytes of
the line are those that the fill brought. -/
def Sys2Proof.Claims.PerformedStoresStandInTheCoresView : Prop :=
  ∀ (s s1 : State) (core : Nat) (st : BufStore) (c : Cap) (granule : Bool) (p : TlbEntry),
    st.kind = .mem c granule → isFug s (coreFn s core) c = false → capHas c 7 = false →
    translate s core (coreFn s core) (coreCtx s core) (capOid c) st.off = (.valid p, s1) → p.poisoned = false →
    let key := pageByte p st.off
    key % 64 + st.bytes.length ≤ 64 →
    let before := viewLine (loadLine s1 core (key / 64) p.cls (coreCtx s core) st.pc true false) core (key / 64)
    let after := viewLine (landStore s core st) core (key / 64)
    ∀ i < 64, takeBytes after.data i 1 =
      if key % 64 ≤ i ∧ i < key % 64 + st.bytes.length then [st.bytes.getD (i - key % 64) 0] else takeBytes before.data i 1

/-- R144, R152, R157, R212, R213, R234: ST and CAPST buffer, and their stores are performed. -/
def Obligations.StoresAreBufferedAndPerformed : Prop :=
  Claims.StAndCapstBufferOneStore ∧ Claims.PerformedStoresStandInTheCoresView

/-- R157, R154, R166, R226: CAPINFO gives the field that MOD names, in lanes and in the cue thread; PFCH always completes, the
registers and the scratchpads unchanged; ICINV of bytes that may be executed marks every cached word of them stale. -/
def Obligations.CapinfoPfchAndIcinvComplete : Prop :=
  ∀ (s : State) (core : Nat) (op : Op),
    let info (c : Cap) : Nat := match op.mod.toNat with
      | 0 => capLower c
      | 1 => capUpper c
      | 2 => capUpper c - capLower c
      | 3 => capOid c
      | _ => 256 * capLc c + capRights c
    (∀ ths, groupIssues s core ths .capinfo op = true →
      ∃ t, exec (.capinfo op) s = .next t ∧ OnlyLanes s t core ths ∧
        ∀ th ∈ ths, LaneAfter s t core .capinfo op th
          (withDest .capinfo op (info (laneCap s core th.1 op.a.toNat)))) ∧
    (cueRuns s core .capinfo op = true →
      ∃ t, exec (.capinfo op) s = .next t ∧ OnlyCue s t core ∧ getCue t core = some (cueWith s core op
        (some (op.d.toNat, BitVec.ofNat 64 (info (cueCap s core op.a.toNat)))))) ∧
    (∀ cast lane, laneIssues s core cast lane .pfch op = true →
      let old := getThread s core cast lane
      ∃ t, exec (.pfch op) s = .next t ∧ OthersKept s t core cast lane ∧
        SameBarCharge (getThread t core cast lane) (readyAt (nextPc old.pc op) old) ∧
        ∀ k, (getCore t k).spad = (getCore s k).spad) ∧
    (∀ cast lane, laneIssues s core cast lane .icinv op = true →
      let old := getThread s core cast lane
      let fr := laneFrame s core cast lane .icinv op
      let fn := coreFn s core
      let c := laneCap s core cast op.a.toNat
      let n := laneSrc s fr cast lane .c
      let e := laneByte s core cast lane .icinv op
      n ≠ 0 → isFug s fn c = false → checkCap s fn (viaOf fr .a 3) c (laneOff s fr cast lane) n false [2] = none →
      firstMissing s (corePort s core) (capOid c) (pageSamples e n) = none →
      classFails s (corePort s core) c (pageSamples e n) = false →
      ∃ t, exec (.icinv op) s = .next t ∧ OthersKept s t core cast lane ∧ MemoryKept s t ∧ t.icEpoch = s.icEpoch + 1 ∧
        SameThread (getThread t core cast lane) (readyAt (nextPc old.pc op) old) ∧
        (∀ k w, w ∈ (getCore t k).code → w.fn = fn → w.oid = capOid c → overlaps w.off 4 e n = true → w.stale.isSome = true) ∧
        ∀ k, (getCore t k).code.map (fun w => (w.fn, w.oid, w.off, w.word)) =
          (getCore s k).code.map fun w => (w.fn, w.oid, w.off, w.word))

/-! ### Copies and other transfers -/

namespace Sys2Proof.Claims

/-- A thread whose wait counter has risen, or fallen, by one (R148). -/
def counterUp (n : Nat) (t : Thread) : Thread := { t with w := sset 0 n (sget 0 n t.w + 1) t.w }
def counterDown (n : Nat) (t : Thread) : Thread := { t with w := sset 0 n (sget 0 n t.w - 1) t.w }

/-- The transfers of a core but those of a number. -/
def xfersBut (s : State) (core id : Nat) : List Xfer := (getCore s core).xfers.filter fun y => !(y.id == id)

/-- A completion takes one transfer out of its core; where it is counted by one thread, that thread's counter falls by one, if the core
still holds the launch that issued it (R12). Nothing else of a thread changes, but that a PBKLOAD of the core bank drops what the cue
thread keeps of the bank for a pre-emption. -/
def EndsTransfer (s t : State) (core : Nat) (x : Xfer) : Prop :=
  (getCore t core).xfers = xfersBut s core x.id ∧ MemoryKept s t ∧
    (∀ c k l, holdsLaunch s core x.launch = true → xferAgents x = [.lane c k l] → hasLane s c k l = true →
      getThread t c k l = counterDown x.ctr (getThread s c k l)) ∧
    (∀ c q, holdsLaunch s core x.launch = true → xferAgents x = [.cue c] → getCue s c = some q →
      ∃ trained, getCue t c = some { q with counter := q.counter - 1, trained } ∧
        (trained = q.trained ∨ x.kind = .pbkload ∧ trained = [])) ∧
    ∀ c k l, holdsLaunch s core x.launch = false ∨ .lane c k l ∉ xferAgents x → getThread t c k l = getThread s c k l

/-- The counters of a request's lanes have fallen by one, where its core still holds the launch that posted it; no other thread has
changed (R12, R148). -/
def CountsDown (s t : State) (r : Request) : Prop :=
  (∀ l ∈ r.lanes, holdsLaunch s r.core r.launch = true → hasLane s r.core r.cast l = true →
    getThread t r.core r.cast l = counterDown r.ctr (getThread s r.core r.cast l)) ∧
  ∀ c k l, holdsLaunch s r.core r.launch = false ∨ (c, k) ≠ (r.core, r.cast) ∨ l ∉ r.lanes → getThread t c k l = getThread s c k l

end Sys2Proof.Claims

/-- R141, R143, R148, R158, R160, R161, R163: COPY, COPYX and GATHERB whose checks pass and which need not wait to issue: each
lane's counter rises by one and a transfer from its source to its destination is in flight; COPY and GATHERB enter a range of
the scratchpad. A COPY or COPYX of length 0 is complete at once. -/
def Obligations.CopiesStartTransfers : Prop :=
  ∀ (s s1 : State) (core cast lane : Nat) (op : Op),
    let c := laneCap s1 core cast op.a.toNat
    let old := getThread s1 core cast lane
    let n := lengthOf op false
    let next := nextPc (getThread s core cast lane).pc op
    let starts (i : Instr) (ranges : List Range) (fields : Xfer → Prop) : Prop :=
      ∃ t, exec i s = .next t ∧ MemoryKept s1 t ∧ (getCore t core).spad = (getCore s1 core).spad ∧
        (∀ d k l, (d, k, l) ≠ (core, cast, lane) → getThread t d k l = getThread s1 d k l) ∧
        (n = 0 → (getCore t core).xfers = (getCore s1 core).xfers ∧ (getCore t core).ranges = (getCore s1 core).ranges ∧
          SameThread (getThread t core cast lane)
            { readyAt next old with scene := implicitScene (coreBill s1 core) old next, denied := none }) ∧
        (n ≠ 0 → ∃ x, (getCore t core).xfers = (getCore s1 core).xfers ++ [x] ∧ fields x ∧ x.agent = .lane core cast lane ∧
          x.lanes = [lane] ∧ x.ctr = op.d.toNat ∧ x.len = n ∧ x.done = 0 ∧
          (getCore t core).ranges = (getCore s1 core).ranges ++ ranges ∧
          SameThread (getThread t core cast lane)
            { readyAt next (counterUp op.d.toNat old) with
              scene := implicitScene (coreBill s1 core) old next, denied := none })
    (laneIssues s core cast lane .copy op = true → committed s core cast lane .copy op = some s1 →
      hasLane s1 core cast lane = true → issueHeld s core [.lane core cast lane] op.d.toNat 1 (n != 0) = false →
      (∀ r ∈ (getCore s1 core).ranges, r.id ≠ wordGroup s1) →
      let fr := laneFrame s core cast lane .copy op
      let m := laneSrc s1 fr cast lane .b
      let sp := laneSrc s1 fr cast lane .c
      copyFault s1 fr c m sp n = none →
      let mem : Side := .mem c (capLower c + m)
      starts (.copy op) [{ id := wordGroup s1, lo := sp, hi := sp + n }] fun x =>
        x.range = some (wordGroup s1) ∧
        if op.mod.toNat % 2 = 1 then x.kind = .copyOut ∧ x.src = .spad sp ∧ x.dst = mem
        else x.kind = .copyIn ∧ x.src = mem ∧ x.dst = .spad sp) ∧
    (laneIssues s core cast lane .copyx op = true → committed s core cast lane .copyx op = some s1 →
      hasLane s1 core cast lane = true → issueHeld s core [.lane core cast lane] op.d.toNat 1 false = false →
      let fr := laneFrame s core cast lane .copyx op
      let src := laneCap s1 core cast op.b.toNat
      let off := laneSrc s1 fr cast lane .c
      copyxFault s1 fr c src off n = none →
      starts (.copyx op) [] fun x =>
        x.kind = .copyx ∧ x.range = none ∧ x.src = .mem src (capLower src + off) ∧ x.dst = .mem c (capLower c + off) ∧
        x.mod = op.mod.toNat ∧
        x.descending = (capOid c == capOid src && overlaps (capLower c + off) n (capLower src + off) n
          && decide (capLower src < capLower c))) ∧
    (∀ act, act ≠ [] → castIssues s core cast act .gatherb op = true → castCommitted s core cast act .gatherb op = some s1 →
      (∀ r ∈ (getCore s1 core).ranges, r.id ≠ (takeGroup s1).1) →
      let fr := castFrame s core cast .gatherb op
      let g := geoOf op
      let base := laneSrc s1 fr cast (act.headD 0) .c
      let moves := gatherMoves s1 fr cast act g c
      gatherFault s1 fr cast act g c base = none →
      (moves = [] → ∃ t, exec (.gatherb op) s = .next t ∧ MemoryKept s1 t ∧ (getCore t core).xfers = (getCore s1 core).xfers ∧
        (getCore t core).ranges = (getCore s1 core).ranges ∧ CastGoesOn s1 t core cast fr.next act true) ∧
      (moves ≠ [] → issueHeld s1 core (act.map fun l => .lane core cast l) op.d.toNat act.length true = false →
      ∃ t xs r, exec (.gatherb op) s = .next t ∧ (getCore t core).xfers = (getCore s1 core).xfers ++ xs ∧
        (xs.map fun x => (x.kind, x.agent, x.lanes, x.ctr, x.range)) =
          (moves.map fun l => (XferKind.gather, Agent.lane core cast l, [l], op.d.toNat, some (takeGroup s1).1)) ∧
        (xs.map fun x => (x.src, x.dst, x.rows, x.rowBytes, x.pitch, x.len)) = (moves.map fun l =>
          (if gatherOut s1 fr cast l g c then Side.zeros c (capLower c + gatherOff s1 fr cast l g)
            else Side.mem c (capLower c + gatherOff s1 fr cast l g),
            Side.spad (g.row base l 0), g.nrow, 4 * g.nlen, 4 * g.pitch, g.nrow * g.nlen * 4)) ∧
        (getCore t core).ranges = (getCore s1 core).ranges ++ [r] ∧
        (∀ l ∈ moves, r.lo ≤ g.row base l 0 ∧ g.endOf base l ≤ r.hi) ∧ MemoryKept s1 t ∧
        ∀ l ∈ liveLanes (getCast s core cast), CastLane s1 t core cast l fr.next (act.contains l) fun old =>
          if moves.contains l then counterUp op.d.toNat old else old))

/-- R148, R158, R164, R298, R318, R321, R322, R329: a transfer whose bytes have all landed completes: it leaves its core, the
counter that counts it falls by one if the core still holds its launch, and the ranges that stood for it retire; the lanes of a GATHERB complete together; a tile
transfer takes its request out of the table; a PBKLOAD replaces its part, or clears it where a byte was poisoned. -/
def Sys2Proof.Claims.TransfersComplete : Prop :=
  ∀ (s : State) (core id : Nat) (x : Xfer), findXfer s core id = some x → x.len = 0 →
    let cluster := clusterOfCore core
    let rest := xfersBut s core id
    ((x.kind = .copyIn ∨ x.kind = .copyOut ∨ x.kind = .copyx) →
      ∃ t, exec (.copyCompletion core id) s = .next t ∧ EndsTransfer s t core x ∧
        (getCore t core).spad = (getCore s core).spad ∧
        ∀ r, r ∈ (getCore t core).ranges ↔
          r ∈ (getCore s core).ranges ∧ ∀ g, x.range = some g → r.id ≠ g ∨ ∃ y ∈ rest, y.range = some g) ∧
    (x.kind = .gather →
      let xs := (getCore s core).xfers.filter fun y => y.group == x.group
      ((∃ y ∈ xs, y.len ≠ 0) → exec (.copyCompletion core id) s = .next s) ∧
      ((∀ y ∈ xs, y.len = 0) → ∀ (cast : Nat) (ls : List Nat), ls.Nodup →
        (xs.map fun y => (y.kind, y.agent, y.lanes, y.ctr)) = (ls.map fun l => (.gather, Agent.lane core cast l, [l], x.ctr)) →
        ∃ t, exec (.copyCompletion core id) s = .next t ∧ MemoryKept s t ∧ (∀ y ∈ (getCore t core).xfers, y.group ≠ x.group) ∧
          (∀ l ∈ ls, (∀ y ∈ xs, holdsLaunch s core y.launch = true) → hasLane s core cast l = true →
            getThread t core cast l = counterDown x.ctr (getThread s core cast l)) ∧
          ∀ r ∈ (getCore t core).ranges, r ∈ (getCore s core).ranges ∧ x.range ≠ some r.id)) ∧
    (∀ r, (x.kind = .zld ∨ x.kind = .zst) → tileRequest (getCluster s cluster) id = some r → r.lanes.Nodup →
      ∃ t, exec (.accumulatorCopyCompletion core id) s = .next t ∧ (getCore t core).xfers = rest ∧ MemoryKept s t ∧
        (getCluster t cluster).table = (getCluster s cluster).table.filter (fun q => !(q.id == r.id)) ∧
        (getCluster t cluster).z = (getCluster s cluster).z ∧
        CountsDown s t r) ∧
    (x.kind = .wload →
      ∃ t, exec (.wloadCompletion core id) s = .next t ∧ EndsTransfer s t core x ∧
        (getCluster t cluster).loads = (getCluster s cluster).loads.filter (fun r => !(r.id == id)) ∧
        (getCluster t cluster).weights = (getCluster s cluster).weights ∧
        (getCluster t cluster).sources = (getCluster s cluster).sources) ∧
    (∀ g, x.kind = .qcast → x.range = some g → x.agent = .cue core →
      ∃ t, exec (.qcastCompletion core id) s = .next t ∧ EndsTransfer s t core x ∧
        (∀ k < 4, (getCore t (4 * cluster + k)).ranges = (getCore s (4 * cluster + k)).ranges.filter fun r => !(r.id == g)) ∧
        ∀ k, k / 4 ≠ cluster → getCore t k = getCore s k) ∧
    ((x.kind = .pbksave ∨ x.kind = .pbkload) →
      let die := x.mod.testBit 0
      let bs := bytesAt 0 (partSize die) (((getCore s core).pbk.map PbkBuffer.bytes).getD [])
      ∃ t, exec (.pbkTransferCompletion core id) s = .next t ∧ EndsTransfer s t core x ∧
        (getCore t core).pbk = ((getCore s core).pbk.filter fun b => !(b.holder == x.id)) ∧
        (getCore t core).bank =
          (if x.kind = .pbkload ∧ die = false then (if x.poison then {} else bankOfBytes bs) else (getCore s core).bank) ∧
        diePart t (dieOfCore core) x.ctx =
          (if x.kind = .pbkload ∧ die = true then (if x.poison then clearedDiePart x.ctx else dieOfBytes bs)
            else diePart s (dieOfCore core) x.ctx))

/-- R141, R386: a request that meets a page not valid is refused with a hint of at least 1, and an absent page is requested from
the host once; the request is sent again when hint × 256 clk have passed, and not before; the loss of a peer source refuses a
request to a peer, with hint 1, and it stays refused until its page is poisoned: hint and wait are the model's choice (log 26). -/
def Sys2Proof.Claims.RefusedRequestsAreSentAgain : Prop :=
  ∀ (s : State) (core id : Nat) (x : Xfer), findXfer s core id = some x →
    (∀ (hint : BitVec 8) k absent, hint ≠ 0 → pieceReady s core x = true → pieceMet s core x = .refused k absent →
      ∃ t y, exec (.retryAfterRefusal core id hint) s = .next t ∧ findXfer t core id = some y ∧
        y = { x with refused := some (hint.toNat, coreClk s core), requested := y.requested } ∧
        (absent = true → k ∈ y.requested ∧ (k ∈ x.requested ∨ k ∈ t.pageRequests)) ∧
        (absent = false → y.requested = x.requested ∧ t.pageRequests = s.pageRequests ∧ MemoryKept s t)) ∧
    (∀ h since, x.refused = some (h, since) →
      (coreClk s core < since + 256 * h → exec (.retryResend core id) s = .next s) ∧
      (since + 256 * h ≤ coreClk s core →
        ∃ t, exec (.retryResend core id) s = .next t ∧ findXfer t core id = some { x with refused := none } ∧
          MemoryKept s t)) ∧
    (∀ c off, remoteKind x.kind = true ∨ ((x.src = .mem c off ∨ x.dst = .mem c off) ∧
        objTier (getObject s x.fn (capOid c)) = 3 ∧ x.len ≠ 0) → x.refused = none →
      ∃ t, exec (.peerSourceLost core id) s = .next t ∧
        findXfer t core id = some { x with refused := some (1, coreClk s core) } ∧ MemoryKept s t)

/-- R141, R148, R158, R164, R298, R318, R321, R322, R329, R386: the events of a copy or gather. That the loss of a
peer refuses with hint 1 is the model's choice (log 26). -/
def Obligations.TransfersGoOnAndComplete : Prop :=
  Claims.TransfersComplete ∧ Claims.RefusedRequestsAreSentAgain

/-! ### The decision queue and edge queues -/

/-- R187 to R190: DQPUSH enters its value for the resident casts that its mask names, with flag 1; with no such cast it enters
nothing and gives 1; in a full queue it enters nothing and gives 0 (in a core whose queue holds no entries saved by a pre-emption that
are still to be pushed again). DQPOP commits, takes the oldest entry visible to its cast into
uniform registers, retires it for the cast and moves the cast's pointer past it; with none its lanes wait, and DQPOP_WAKE lets
them pop once an entry is visible. -/
def Obligations.DecisionQueueHandsEntriesToCasts : Prop :=
  ∀ (s : State) (core : Nat),
    (∀ op, cueRuns s core .dqpush op = true → modeRun (coreMode s core) ≠ 2 →
      (getContext s (coreCtx s core)).recording = none →
      let q := theCue s core
      let c := getCore s core
      let src (f : Field) : DWord := BitVec.ofNat 64 (cueSrc q.c (cueFrame s core .dqpush op) f)
      let targets := pushTargets c (src .b).toNat
      let pushed := targets ≠ [] ∧ c.dq.length < 256
      let flag : DWord := if targets ≠ [] ∧ 256 ≤ c.dq.length then 0 else 1
      (∃ t, exec (.dqpush op) s = .next t) ∧ (c.dqSaved ≤ c.dqTail →
      ∃ t, exec (.dqpush op) s = .next t ∧ getCue t core = some (cueWith s core op (some (op.d.toNat, flag))) ∧
        (∀ k, k ≠ core → getCore t k = getCore s k) ∧ (getCore t core).casts = c.casts ∧ MemoryKept s t ∧
        (pushed → (getCore t core).dqTail = c.dqTail + 1 ∧ (getCore t core).dq = c.dq ++
          [{ pos := c.dqTail, value := src .a, targets, holds := pushHolds q, pushed := coreClk s core }]) ∧
        (¬ pushed → (getCore t core).dqTail = c.dqTail ∧ (getCore t core).dq = c.dq))) ∧
    (∀ (s1 : State) (cast : Nat) (act : List Nat) op, act ≠ [] → castIssues s core cast act .dqpop op = true →
      castCommitted s core cast act .dqpop op = some s1 →
      let fr := castFrame s core cast .dqpop op
      let old := getCast s1 core cast
      (∀ e, poppable s1 core cast = some e →
        ∃ t, exec (.dqpop op) s = .next t ∧ CastGoesOn s1 t core cast fr.next act true ∧ MemoryKept s1 t ∧
          (getCast t core cast).dqPtr = e.pos + 1 ∧ (getCast t core cast).a = old.a ∧
          (getCast t core cast).k = (splitWords op.d.toNat e.value.toNat (if op.mod = 0 then 2 else 1)).foldl
            (fun k x => sset 0 x.1 x.2 k) old.k ∧
          (∀ x ∈ (getCore t core).dq, x.pos = e.pos → cast ∉ x.targets) ∧
          (∀ k, k ≠ cast → getCast t core k = getCast s1 core k)) ∧
      (poppable s1 core cast = none →
        ∃ t, exec (.dqpop op) s = .next t ∧ OnlyCast s1 t core cast ∧ (getCast t core cast).k = old.k ∧
          ∀ l ∈ act, (getThread t core cast l).wait = .dqpop ∧ (getThread t core cast l).pc = fr.pc ∧
            (getThread t core cast l).v = (getThread s1 core cast l).v)) ∧
    (∀ (cast : Nat) op,
      let act := lanesWaiting s core cast .dqpop
      act ≠ [] → contextRuns s core = true → waitingInstr s core cast (act.headD 0) = some (.dqpop op) →
      (poppable s core cast = none → exec (.dqpopWake core cast) s = .next s) ∧
      (∀ e, poppable s core cast = some e →
        ∃ t, exec (.dqpopWake core cast) s = .next t ∧ (getCast t core cast).dqPtr = e.pos + 1 ∧ MemoryKept s t ∧
          (getCast t core cast).k = (splitWords op.d.toNat e.value.toNat (if op.mod = 0 then 2 else 1)).foldl
            (fun k x => sset 0 x.1 x.2 k) (getCast s core cast).k ∧
          ∀ l ∈ act, (getThread t core cast l).wait = .ready ∧
            (getThread t core cast l).pc = nextPc (getThread s core cast (act.headD 0)).pc op))

namespace Sys2Proof.Claims

/-- Some lanes of one cast issue an operation together, their guards true. -/
def lanesTogether (s : State) (core cast : Nat) (act : List Nat) (o : Opc) (op : Op) : Bool :=
  groupIssues s core (act.map fun l => (cast, l)) o op && !act.isEmpty && act.all fun l => guardOf s core cast l op

/-- The frame of an operation that lanes of one cast execute together. -/
def togetherFrame (s : State) (core cast : Nat) (act : List Nat) (o : Opc) (op : Op) : Frame :=
  frameAt core (getThread s core cast (act.headD 0)).pc o op

/-- The state after these lanes have committed together, if they could. -/
def togetherCommitted (s : State) (core cast : Nat) (act : List Nat) (o : Opc) (op : Op) : Option State :=
  match commitPoint s (togetherFrame s core cast act o op) (act.map fun l => (cast, l)) with
  | .go s1 ok => if ok == act.map fun l => (cast, l) then some s1 else none
  | .held => none
  | .stop _ => none

/-- The access of a queue instruction of lanes, in the name of the lowest. -/
def queueStep (s : State) (core cast : Nat) (act : List Nat) (o : Opc) (op : Op) (kind : QKind) : QStep :=
  let fr := togetherFrame s core cast act o op
  queueAt s core fr.pc kind (viaOf fr .a (if kind = .stat then 1 else 2)) (laneCap s core cast op.a.toNat) (immOf op)
    (op.mod.toNat % 2 == 1) (laneAgents core cast act) (act.map fun l => laneSrc s fr cast l .b)
    (getThread s core cast (act.headD 0)).denied

/-- Each lane waits past its instruction for the response with its value. -/
def ValuesSent (s t : State) (core cast : Nat) (act : List Nat) (fr : Frame) (rs : List Nat) (acquire : Option Nat) : Prop :=
  (∃ new, t.responses = s.responses ++ new ∧
    new.map (fun r => (r.agent, r.regs, r.flag, r.acquire, r.pc)) = (act.zip rs).map fun x =>
      (Agent.lane core cast x.1, (destEff fr x.2).v.map fun r => (r.1, BitVec.ofNat 64 r.2.toNat), (destEff fr x.2).p.head?,
        acquire, fr.pc)) ∧ MemoryKept s t ∧
    ∀ l ∈ act, (getThread t core cast l).wait = .response ∧ (getThread t core cast l).pc = fr.next ∧
      (getThread t core cast l).v = (getThread s core cast l).v ∧ (getThread t core cast l).p = (getThread s core cast l).p

/-- The header of a queue instruction lies in a page that is valid, on a peer module. -/
def queueRemote (s : State) (core cast : Nat) (op : Op) : Bool := remoteHeader s core (laneCap s core cast op.a.toNat) (immOf op)

/-- A queue instruction has left for the peer module that holds its header: a replay slot for each lane, with its value, and the lanes
wait. -/
def LeavesForPeer (s t : State) (core cast : Nat) (act : List Nat) (fr : Frame) (kind : XferKind) : Prop :=
  let c := laneCap s core cast fr.op.a.toNat
  ∃ xs, (getCore t core).xfers = (getCore s core).xfers ++ xs ∧
    xs.map (fun x => (x.kind, x.agent, x.src, x.dreg, x.operand)) = act.map (fun l =>
      (kind, Agent.lane core cast l, Side.mem c (effective c (immOf fr.op)).toNat, fr.op.d.toNat,
        BitVec.ofNat 64 (laneSrc s fr cast l .b))) ∧
    MemoryKept s t ∧ ∀ l ∈ act, (getThread t core cast l).wait = .remote fr.next ∧ (getThread t core cast l).pc = fr.pc

/-- The lanes wait at their QDEQ together. -/
def WaitTogether (s t : State) (core cast : Nat) (act : List Nat) (pc : Word) : Prop :=
  MemoryKept s t ∧ t.responses = s.responses ∧
    ∀ l ∈ act, (getThread t core cast l).wait = .qdeq (act.foldl (fun m l => m + 2 ^ l) 0) ∧
      (getThread t core cast l).pc = pc ∧ (getThread t core cast l).v = (getThread s core cast l).v

end Sys2Proof.Claims

/-- R201 to R203, R251: QENQ, QDEQ and QSTAT make one access for the lanes that execute them together, and each lane's value
returns as a response; where the header lies on a peer module, QENQ and QDEQ leave for it; QENQ first releases; QDEQ with too few entries waits, and QDEQ_WAKE tries it again. A sound header stays
sound under both, an enqueue puts its values in order while entries are free, and QSTAT gives the full or the free count. -/
def Obligations.EdgeQueuesStaySound : Prop :=
  (∀ (s s3 : State) (core cast : Nat) (act : List Nat) (op : Op) (rs : List Nat),
    (∀ l ∈ act, hasLane s3 core cast l = true) →
    (lanesTogether s core cast act .qstat op = true → queueStep s core cast act .qstat op .stat = .done s3 rs →
      ∃ t, exec (.qstat op) s = .next t ∧
        ValuesSent s3 t core cast act (togetherFrame s core cast act .qstat op) rs none) ∧
    (∀ s1, lanesTogether s core cast act .qdeq op = true → togetherCommitted s core cast act .qdeq op = some s1 →
      (queueRemote s1 core cast op = true → slotsUsed (getCore s1 core) + act.length ≤ 64 →
        let fr := togetherFrame s core cast act .qdeq op
        queueFault s1 core .deq (viaOf fr .a 2) (laneCap s1 core cast op.a.toNat) (immOf op) = none →
        ∃ t, exec (.qdeq op) s = .next t ∧ LeavesForPeer s1 t core cast act fr .qdeq) ∧
      (queueRemote s1 core cast op = false → queueStep s1 core cast act .qdeq op .deq = .done s3 rs →
        ∃ t, exec (.qdeq op) s = .next t ∧
          ValuesSent s3 t core cast act (togetherFrame s core cast act .qdeq op) rs (some 0)) ∧
      (queueRemote s1 core cast op = false → queueStep s1 core cast act .qdeq op .deq = .short s3 →
        ∃ t, exec (.qdeq op) s = .next t ∧
          WaitTogether s3 t core cast act (togetherFrame s core cast act .qdeq op).pc)) ∧
    (∀ s1, lanesTogether s core cast act .qenq op = true → togetherCommitted s core cast act .qenq op = some s1 →
      let lead := act.headD 0
      let r := release s1 core 0 (getThread s1 core cast lead).marker
      let s2 := modThread r.state core cast lead fun t => { t with marker := r.marker }
      let fr := togetherFrame s core cast act .qenq op
      r.finished = true →
      (queueRemote s2 core cast op = true → slotsUsed (getCore s2 core) + act.length ≤ 64 →
        queueFault s2 core .enq (viaOf fr .a 2) (laneCap s2 core cast op.a.toNat) (immOf op) = none →
        ∃ t, exec (.qenq op) s = .next t ∧ LeavesForPeer s2 t core cast act fr .qenq) ∧
      (queueRemote s2 core cast op = false → queueStep s2 core cast act .qenq op .enq = .done s3 rs →
        ∃ t, exec (.qenq op) s = .next t ∧ ValuesSent s3 t core cast act fr rs none)) ∧
    (∀ lane group, act ≠ [] → queueRemote s core cast op = false → contextRuns s core = true → (getThread s core cast lane).wait = .qdeq group →
      act = lanesWaiting s core cast (.qdeq group) → waitingInstr s core cast (act.headD 0) = some (.qdeq op) →
      (queueStep s core cast act .qdeq op .deq = .done s3 rs →
        ∃ t, exec (.qdeqWake (.lane core cast lane)) s = .next t ∧
          ValuesSent s3 t core cast act (togetherFrame s core cast act .qdeq op) rs (some 0)) ∧
      (queueStep s core cast act .qdeq op .deq = .short s3 →
        ∃ t, exec (.qdeqWake (.lane core cast lane)) s = .next t ∧
          WaitTogether s3 t core cast act (togetherFrame s core cast act .qdeq op).pc)) ∧
    (∀ o kind s1 bs bad, modeRun (coreMode s core) ≠ 2 → (getContext s (coreCtx s core)).recording = none →
      queueStep s core cast act o op kind = .done s3 rs →
      readRange s core (togetherFrame s core cast act o op).pc (capOid (laneCap s core cast op.a.toNat))
        (rangeChunks (effective (laneCap s core cast op.a.toNat) (immOf op)).toNat 64) = .ok s1 bs bad →
      let q := queueHead (ofBytes bs)
      queueSound (ofBytes bs) = true ∧ bad = false ∧
        match kind with
        | .stat => rs = act.map fun _ => if op.mod.toNat % 2 = 1 then q.free else q.full
        | .deq => act.length ≤ q.full ∧ rs.length = act.length
        | .enq => rs = List.replicate (min act.length q.free) 1 ++ List.replicate (act.length - q.free) 0)) ∧
  ∀ x, queueSound x = true →
    let q := queueHead x
    (∀ k ≤ q.full, queueSound (packQueue (dequeued q k)) = true ∧
      (queueHead (packQueue (dequeued q k))).full = q.full - k) ∧
    ∀ xs : List Nat,
      let r := enqueueAll q (xs.map fun x => (x, none))
      let n := min xs.length q.free
      queueSound (packQueue r.1) = true ∧ (queueHead (packQueue r.1)).full = q.full + n ∧
        r.2.2 = List.replicate n 1 ++ List.replicate (xs.length - q.free) 0 ∧
        r.2.1 = (List.range n).map fun i => (64 + 8 * ((q.tail + i) % 2 ^ q.lcap), xs.getD i 0)

/-! ### The matrix engine -/

namespace Sys2Proof.Claims

/-- What instructions of the matrix engine leave: one more request in the cluster's table, the accumulators as they were, and
the lanes of the request past the instruction with one more operation counted. -/
def Posts (s t : State) (core cast : Nat) (act : List Nat) (next : Word) (r : Request) : Prop :=
  let cluster := clusterOfCore core
  let old := getCluster s cluster
  getCluster t cluster = { old with table := old.table ++ [r], rounds := (getCluster t cluster).rounds } ∧
    ((∀ ens, r.kind ≠ .cred ens) → (getCluster t cluster).rounds = old.rounds) ∧
    (∀ k, k ≠ cluster → getCluster t k = getCluster s k) ∧ MemoryKept s t ∧
    r.core = core ∧ r.cast = cast ∧ r.lanes = act ∧ r.posted = coreClk s core ∧ r.granted = false ∧
    ∀ l ∈ liveLanes (getCast s core cast), CastLane s t core cast l next (act.contains l) fun u =>
      if act.contains l then counterUp r.ctr u else u

end Sys2Proof.Claims

/-- R308 to R318: MMA, MMAS, ZCLR, ZLD and ZST commit, check, and post a request for a tile, which counts on their lanes'
counters until it completes; a pass takes its operands with it, a tile transfer is in flight beside its request. ORDY goes on at
once where no range is in flight, and else waits for those in flight now. -/
def Obligations.MatrixInstructionsPostRequests : Prop :=
  ∀ (s s1 : State) (core cast : Nat) (act : List Nat) (op : Op), act ≠ [] →
    let lead := act.headD 0
    let old := getCluster s1 (clusterOfCore core)
    let ready (o : Opc) : Prop := castIssues s core cast act o op = true ∧ castCommitted s core cast act o op = some s1 ∧
      postHeld s1 core cast act op.c.toNat = false
    let pass (sparse : Bool) (o : Opc) : Prop :=
      ready o → old.refill = [] → ∀ p,
      let fr := castFrame s core cast o op
      let gb := laneSrc s1 fr cast lead .b
      let sa := slotA s1 core op
      legalShape s1 core sparse op = some p → passFault s1 fr cast act sparse p gb = none →
      ∃ t r, exec (instrOf o op) s = .next t ∧ Posts s1 t core cast act fr.next r ∧
        (getCore t core).xfers = (getCore s1 core).xfers ∧
        r.tile = op.d.toNat ∧ r.ctr = op.c.toNat ∧ r.high = op.mod.toNat.testBit 5 ∧
        r.kind = .pass sparse op gb (act.map fun l => (l, rowBytesOf s1 fr cast l p sa))
          (bytesAt (64 * gb) (64 * p.granules sparse (slotB s1 core op)) old.weights)
          (if op.mod.toNat.testBit 3 then act.map fun l => (l, laneSrc s1 fr cast l .a) else [])
    let tile (load : Bool) (o : Opc) : Prop :=
      ready o →
      let fr := castFrame s core cast o op
      let c := laneCap s1 core cast op.a.toNat
      let off := laneOff s1 fr cast lead
      let mem : Side := .mem c (effective c off).toNat
      let here : Side := .tile (8192 * op.d.toNat)
      off % 128 = 0 → issueHeld s1 core [] op.c.toNat 1 false = false →
      checkEngine s1 core (coreFn s1 core) (coreCtx s1 core) (viaOf fr .a (if load then 1 else 2)) c off
        (128 * (coreBill s1 core).width) [if load then 0 else 1] [] = none →
      ∃ t r x, exec (instrOf o op) s = .next t ∧ Posts s1 t core cast act fr.next r ∧
        (getCore t core).xfers = (getCore s1 core).xfers ++ [x] ∧ x.len = 128 * (coreBill s1 core).width ∧ x.done = 0 ∧
        x.lanes = act ∧ r.tile = op.d.toNat ∧ r.ctr = op.c.toNat ∧ r.high = false ∧
        if load then r.kind = .zld x.id ∧ x.kind = .zld ∧ x.src = mem ∧ x.dst = here
        else r.kind = .zst x.id ∧ x.kind = .zst ∧ x.src = here ∧ x.dst = mem
    pass false .mma ∧ pass true .mmas ∧ tile true .zld ∧ tile false .zst ∧
    (ready .zclr →
      ∃ t r, exec (.zclr op) s = .next t ∧ Posts s1 t core cast act (castFrame s core cast .zclr op).next r ∧
        (getCore t core).xfers = (getCore s1 core).xfers ∧
        r.tile = op.d.toNat ∧ r.ctr = op.c.toNat ∧ r.high = false ∧ r.kind = .zclr) ∧
    (castIssues s core cast act .ordy op = true →
      let fr := castFrame s core cast .ordy op
      let ranges := (getCore s core).ranges.map Range.id
      let loads := (getCluster s (clusterOfCore core)).loads.map Range.id
      ∃ t, exec (.ordy op) s = .next t ∧ OnlyCast s t core cast ∧
        (ranges = [] ∧ loads = [] → CastGoesOn s t core cast fr.next act false) ∧
        (ranges ≠ [] ∨ loads ≠ [] → ∀ l ∈ act, (getThread t core cast l).wait = .ordy ranges loads fr.next ∧
          (getThread t core cast l).pc = fr.pc ∧ (getThread t core cast l).v = (getThread s core cast l).v))

namespace Sys2Proof.Claims

/-- A row of A, and a column of B, as the bytes of a pass hold them (R305 to R307). -/
def rowOf (p : PassShape) (sa : DWord) (bs : List Byte) : List FVal :=
  rowValues sa (codesOf p.wa p.depth bs) (codesOf 8 (rowScales p sa) (bs.drop p.rowBytes))
def columnOf (p : PassShape) (sb : DWord) (sparse : Option Nat) (bs : List Byte) (n : Nat) : List (Option FVal) :=
  let sp := sparse.isSome
  let k := p.colCodes sp
  let m := p.colMeta sp
  let t := p.colScales sb
  columnValues sparse sb (codesOf p.wb (p.kept sp) ((bs.drop (n * k)).take k))
    (codesOf 1 (8 * m) ((bs.drop (32 * k + n * m)).take m)) (codesOf 8 t ((bs.drop (32 * (k + m) + n * t)).take t))

/-- A completed request is out of its table, and its lanes' counters have fallen by one. -/
def Completes (s t : State) (cluster : Nat) (r : Request) : Prop :=
  (getCluster t cluster).table = (getCluster s cluster).table.filter (fun x => !(x.id == r.id)) ∧ MemoryKept s t ∧
    (getCluster t cluster).weights = (getCluster s cluster).weights ∧
    CountsDown s t r

end Sys2Proof.Claims

/-- R302, R304, R307, R309, R312, R316, R317, R319: the free engine is granted to the first eligible request: high priority or old
before others, then by posting, core, cast. A pass over operands that stand as at issue adds to each element its groups' sums in
ascending depth, over zero or over the element; ZCLR writes zeros and clears poison. ZMOV gives an element whose row is whole and
which no pending request of its cast writes and which no round of another core has written since this core's last acquire (log 29); else
it gives some value, or the fault that its check names. -/
def Obligations.EngineGrantsAndCompletesPasses : Prop :=
  (∀ (s : State) (cluster : Nat),
    let c := getCluster s cluster
    let clk := (getDie s (dieOfCluster cluster)).clk
    let eligible (r : Request) : Prop := r ∈ c.table ∧ ofEngine r = true ∧ requestHeld c r = false
    ((∃ r ∈ c.table, r.granted = true) ∨ c.refill ≠ [] ∨ (∀ r, ¬ eligible r) →
      exec (.matrixGrant cluster) s = .next s) ∧
    ((∀ r ∈ c.table, r.granted = false) → c.refill = [] → (∃ r, eligible r) →
      ∃ t r, exec (.matrixGrant cluster) s = .next t ∧ eligible r ∧
        (∀ x, eligible x → keyLt (grantKey clk x) (grantKey clk r) = false) ∧
        t = setCluster s cluster
          { c with table := c.table.map fun x => if x.id = r.id then { x with granted := true } else x })) ∧
  (∀ (s : State) (cluster : Nat) (r : Request), (getCluster s cluster).table.find? (fun x => x.granted) = some r →
    r.lanes.Nodup → (∀ l ∈ r.lanes, l < 64) →
    let c := getCluster s cluster
    (∀ sparse op gb rows block offsets p,
      let sa := slotA s r.core op
      let sb := slotB s r.core op
      r.kind = .pass sparse op gb rows block offsets → passShape sparse sa sb = some p →
      block = blockBytes c gb (p.granules sparse sb) →
      (∀ l o, sfind l offsets = some o → bytesAt o (sget [] l rows).length (getCore s r.core).spad = sget [] l rows) →
      (∀ l ∈ r.lanes, sfind l offsets = none →
        registerRow s r.core r.cast l op.a.toNat (sget [] l rows).length = sget [] l rows) →
      let kind := if sparse then some (if op.mod.toNat.testBit 6 then 8 else 4) else none
      ∃ t, exec (.matrixPassCompletion cluster) s = .next t ∧ Completes s t cluster r ∧
        (∀ l ∈ r.lanes, ∀ n < 32, zElem (getCluster t cluster) r.tile l n = BitVec.ofNat 32
          (passElem (rowOf p sa (sget [] l rows)) (columnOf p sb kind block n) p.groups
            (if op.mod.toNat.testBit 4 then 0 else (zElem c r.tile l n).toNat))) ∧
        (∀ tile row col, row < 64 → col < 32 → (tile ≠ r.tile ∨ row ∉ r.lanes) →
          zElem (getCluster t cluster) tile row col = zElem c tile row col) ∧
        ∀ row, nmem row (getCluster t cluster).zPoison =
          (nmem row c.zPoison && !(op.mod.toNat.testBit 4 && r.lanes.any fun l => row == 64 * r.tile + l))) ∧
    (r.kind = .zclr →
      ∃ t, exec (.matrixPassCompletion cluster) s = .next t ∧ Completes s t cluster r ∧
        (∀ l ∈ r.lanes, ∀ n < 32, zElem (getCluster t cluster) r.tile l n = 0) ∧
        (∀ tile row col, row < 64 → col < 32 → (tile ≠ r.tile ∨ row ∉ r.lanes) →
          zElem (getCluster t cluster) tile row col = zElem c tile row col) ∧
        ∀ row, nmem row (getCluster t cluster).zPoison =
          (nmem row c.zPoison && !(r.lanes.any fun l => row == 64 * r.tile + l)))) ∧
  ∀ (s : State) (core cast lane : Nat) (op : Op), laneIssues s core cast lane .zmov op = true →
    let fr := laneFrame s core cast lane .zmov op
    let c := getCluster s (clusterOfCore core)
    let tile := op.a.toNat
    let col := laneSrc s fr cast lane .b
    let pending := pendingWrites s core cast tile
    let faults (f : FaultInfo) : Prop := handlerReady s core cast lane = true →
      ∃ t, exec (.zmov op) s = .next t ∧ EntersHandler s t core cast lane f
    (col < 32 → pending = [] → (∀ v ∈ c.views, nmem core v.hidden = true → sfind (zKey tile lane col) v.old = none) →
      nmem (64 * tile + lane) c.zPoison = false →
      ∃ t, exec (.zmov op) s = .next t ∧ OnlyLanes s t core [(cast, lane)] ∧
        LaneAfter s t core .zmov op (cast, lane) (withDest .zmov op (zElem c tile lane col).toNat)) ∧
    (col < 32 → pending = [] ∨ modeZchk (coreMode s core) = false → nmem (64 * tile + lane) c.zPoison = false →
      ∃ t value, exec (.zmov op) s = .next t ∧ OnlyLanes s t core [(cast, lane)] ∧
        LaneAfter s t core .zmov op (cast, lane) (withDest .zmov op value)) ∧
    (32 ≤ col → faults (rowFault fr 0x02 tile lane)) ∧
    (col < 32 → pending ≠ [] → modeZchk (coreMode s core) = true → faults (plainFault fr 0x0A tile)) ∧
    (col < 32 → pending = [] → nmem (64 * tile + lane) c.zPoison = true → faults (rowFault fr 0x05 tile lane))

/-! ### Commands of the cue thread -/

/-- R143, R148, R184, R258, R259, R265, R321 to R323, R328, R329: the cue thread's WLOAD enters a load of the weight buffer, its
source and its range; QCAST a multicast, with a range on its own core and on every target; LAUNCH, from a queue of its context that
takes LAUNCH packets, writes a packet at TAIL, moves TAIL and gives 1, or in a full queue changes nothing there and gives 0. -/
def Obligations.CueThreadStartsLoadsCastsAndLaunches : Prop :=
  ∀ (s : State) (core : Nat) (op : Op),
    let q := theCue s core
    let src (o : Opc) (f : Field) : DWord := BitVec.ofNat 64 (cueSrc q.c (cueFrame s core o op) f)
    let n := lengthOf op true
    let c := cueCap s core op.a.toNat
    let old := getCluster s (clusterOfCore core)
    let counted (o : Opc) : Option Cue := some { cueDone s core o op none with counter := q.counter + 1 }
    (cueCommands s core .wload op = true →
      let off := (src .wload .b).toNat
      let at' := (src .wload .c).toNat
      let left := old.sources.filter fun e => !(at' / 64 ≤ e.granule && e.granule + e.count ≤ at' / 64 + n / 64)
      at' % 64 = 0 → n % 64 = 0 → 64 ≤ n → at' + n ≤ 2 ^ 21 → left.length < 64 → old.loads.length < 16 → old.refill = [] → q.counter < 255 →
      checkEngine s core (coreFn s core) (coreCtx s core) (viaOf (cueFrame s core .wload op) .a 1) c off n [0] [] = none →
      ∃ t x, exec (.wload op) s = .next t ∧ getCue t core = counted .wload ∧ MemoryKept s t ∧
        (getCore t core).xfers = (getCore s core).xfers ++ [x] ∧ x.kind = .wload ∧ x.agent = .cue core ∧
        x.src = .mem c (capLower c + off) ∧ x.dst = .weights at' ∧ x.len = n ∧
        getCluster t (clusterOfCore core) = { old with
          loads := old.loads ++ [{ id := x.id, lo := at', hi := at' + n }]
          sources := left ++ [{ cap := c, off := capLower c + off, granule := at' / 64, count := n / 64
                                fn := coreFn s core, ctx := coreCtx s core }] }) ∧
    (cueCommands s core .qcast op = true →
      let a := (src .qcast .a).toNat
      let b := (src .qcast .b).toNat
      let targets := qcastTargets s core op.mod.toNat (((getCore s core).launch).getD 0)
      let holds (k : Nat) : Prop := k = core ∨ k ∈ targets
      let id := 2 * (s.fresh + 1) + 1
      let size := 65536 * (coreBill s core).scratch
      a % 64 = 0 → b % 64 = 0 → n % 64 = 0 → 64 ≤ n → a + n ≤ size → b + n ≤ size → holdsClustered s core = true →
      issueHeld s core [.cue core] 0 1 false = false →
      (∀ k, holds k → (getCore s k).ranges.length < 16 ∧ ∀ r ∈ (getCore s k).ranges, r.id ≠ id) →
      ∃ t x, exec (.qcast op) s = .next t ∧ getCue t core = counted .qcast ∧ MemoryKept s t ∧
        (getCore t core).xfers = (getCore s core).xfers ++ [x] ∧ x.kind = .qcast ∧ x.agent = .cue core ∧ x.range = some id ∧
        x.src = .spad a ∧ x.dst = .spad b ∧ x.len = n ∧ x.mod = op.mod.toNat ∧
        (∀ k, holds k → ∃ lo hi : Nat, (getCore t k).ranges = (getCore s k).ranges ++ [{ id := id, lo := lo, hi := hi }] ∧
          (k ∈ targets → lo ≤ b ∧ b + n ≤ hi) ∧ (k = core → lo ≤ a ∧ a + n ≤ hi)) ∧
        ∀ k, ¬ holds k → getCore t k = getCore s k) ∧
    (cueCommands s core .launch op = true → ∀ s1,
      let die := dieOfCore core
      let ctx := coreCtx s core
      let fr := cueFrame s core .launch op
      let off := cueOff fr (src .launch .b)
      let queue := getQueue s1 die op.mod.toNat
      let u := unitAt queue queue.tail.toNat
      let done (flag : DWord) : Option Cue := some (cueDone s core .launch op (some (op.d.toNat, flag)))
      launchAccess s fr c off = .ok s1 () → queue.en = true → queue.src = true → queue.ctx.toNat = ctx →
      (getCore s1 core).fifo = [] → drained s1 core = true → q.marker = none → modeRun (coreMode s core) ≠ 2 →
      (getContext s ctx).recording = none →
      (pendingUnits queue = ringUnits queue →
        ∃ t, exec (.launch op) s = .next t ∧ getCue t core = done 0 ∧ getQueue t die op.mod.toNat = queue ∧
          MemoryKept s1 t) ∧
      (pendingUnits queue ≠ ringUnits queue → unitMissing s1 queue = false →
        ∃ t, exec (.launch op) s = .next t ∧ getCue t core = done 1 ∧
          getQueue t die op.mod.toNat = { queue with tail := queue.tail + 1 } ∧
          ∀ key, resolve s1 { fn := queueFn queue, ctx, core := none } u.1 u.2 = some key → u.2 % 16 = 0 → key % 16 = 0 →
            homeBytes t key 16 = toBytes 16 (1 + 1 <<< 8 + oidOff (capOid c) (effective c off).toNat <<< 64)))

/-! ### The prompt book -/

namespace Sys2Proof.Claims

/-- What an entry of table `tab` holds of a value, with its reserved bits 0 (R277, R296). -/
def bookKeeps (tab x : Nat) : Nat :=
  match tab with
  | 0 => x % 2 ^ 2
  | 1 => x % 2 ^ 28
  | 2 => x % 2 ^ 96
  | 3 => x % 2 ^ 3
  | 4 => x % 2 ^ 3
  | 5 => x % 2 ^ 11
  | _ => if x % 2 ^ 64 = 0 then 1 else x % 2 ^ 64

/-- What an entry of table `tab` of a context holds when cleared (R277). -/
def bookCleared (ctx tab : Nat) : Nat :=
  match tab with
  | 1 => 0
  | 2 => 0
  | 5 => 0x200
  | 6 => 0x9E3779B97F4A7C15 ^^^ (ctx % 4096)
  | _ => 1

end Sys2Proof.Claims

/-- R277, R289, R290, R295 to R298: PBKRD gives a word of an entry, in lanes and in the cue thread, and is illegal out of range;
PBKWR writes a word of one entry, its reserved bits 0; PBKCLR clears the tables of its mask and no other; PBKSAVE fills the transfer
buffer with the part and sends it to memory, PBKLOAD brings one. -/
def Obligations.BookInstructionsReadAndWriteEntries : Prop :=
  ∀ (s s1 : State) (core cast lane : Nat) (op : Op),
    let tab := op.mod.toNat % 16
    let old := getThread s1 core cast lane
    let next := nextPc (getThread s core cast lane).pc op
    let after (t : State) (u : Thread) : Prop := SameThread (getThread t core cast lane)
      { readyAt next u with scene := implicitScene (coreBill s1 core) u next, denied := none }
    let goes (o : Opc) : Prop := laneIssues s core cast lane o op = true ∧ committed s core cast lane o op = some s1 ∧
      hasLane s1 core cast lane = true
    (laneIssues s core cast lane .pbkrd op = true →
      let a := laneSrc s (laneFrame s core cast lane .pbkrd op) cast lane .a
      let b := laneSrc s (laneFrame s core cast lane .pbkrd op) cast lane .b
      (bookRange s core tab a b 32 = true →
        ∃ t, exec (.pbkrd op) s = .next t ∧ OnlyLanes s t core [(cast, lane)] ∧
          LaneAfter s t core .pbkrd op (cast, lane)
            (withDest .pbkrd op (bookEntry s core tab a / 2 ^ (32 * b) % 2 ^ 32))) ∧
      (bookRange s core tab a b 32 = false → handlerReady s core cast lane = true →
        ∃ t, exec (.pbkrd op) s = .next t ∧
          EntersHandler s t core cast lane
            { code := 0x01, info := encodeWord0 .pbkrd op, opcode := (opRow .pbkrd).code })) ∧
    (cueRuns s core .pbkrd op = true →
      let src (f : Field) : Nat := cueSrc (theCue s core).c (cueFrame s core .pbkrd op) f % 2 ^ 64
      bookRange s core tab (src .a) (src .b) 64 = true →
      ∃ t, exec (.pbkrd op) s = .next t ∧ OnlyCue s t core ∧ getCue t core = some (cueWith s core op
        (some (op.d.toNat, BitVec.ofNat 64 (bookEntry s core tab (src .a) / 2 ^ (64 * src .b) % 2 ^ 64))))) ∧
    (goes .pbkwr →
      let fr := laneFrame s core cast lane .pbkwr op
      let a := laneSrc s1 fr cast lane .a
      let b := laneSrc s1 fr cast lane .b
      bookRange s1 core tab a b 32 = true →
      ∃ t, exec (.pbkwr op) s = .next t ∧ MemoryKept s1 t ∧ after t old ∧
        bookEntry t core tab a = bookKeeps tab
          (setField (bookEntry s1 core tab a) (32 * b + 31) (32 * b) (laneSrc s1 fr cast lane .c)) ∧
        ∀ k i, k ≤ 6 → (k, i) ≠ (tab, a) → (tab = 1 ∨ 4 < tab → k ≠ tab) → bookEntry t core k i = bookEntry s1 core k i) ∧
    (goes .pbkclr →
      let m := laneSrc s1 (laneFrame s core cast lane .pbkclr op) cast lane .a
      ∃ t, exec (.pbkclr op) s = .next t ∧ MemoryKept s1 t ∧ after t old ∧
        ∀ k i, k ≤ 6 → bookEntry t core k i =
          if m.testBit k then bookCleared (coreCtx s1 core) k else bookEntry s1 core k i) ∧
    (∀ save, goes (if save then .pbksave else .pbkload) →
      let o : Opc := if save then .pbksave else .pbkload
      let fr := laneFrame s core cast lane o op
      let c := laneCap s1 core cast op.a.toNat
      let off := laneOff s1 fr cast lane
      let die := op.mod.toNat.testBit 0
      let mem : Side := .mem c (effective c off).toNat
      pbkFault s1 fr save c off = none → pbkHeld s1 core (.lane core cast lane) op.d.toNat = false →
      pbkBehind s1 core cast lane fr.pc = false →
      ∃ t x, exec (instrOf o op) s = .next t ∧ MemoryKept s1 t ∧ after t (counterUp op.d.toNat old) ∧
        (getCore t core).xfers = (getCore s1 core).xfers ++ [x] ∧ x.len = (if die then 512 else 768) ∧
        x.lanes = [lane] ∧ x.ctr = op.d.toNat ∧ x.mod = op.mod.toNat ∧ (getCore t core).bank = (getCore s1 core).bank ∧
        ∃ b, (getCore t core).pbk = some b ∧
          if save then x.kind = .pbksave ∧ x.src = .book ∧ x.dst = mem ∧
            ∀ i < x.len, bytesAt i 1 b.bytes = [(partBytes s1 core die).getD i 0]
          else x.kind = .pbkload ∧ x.src = mem ∧ x.dst = .book ∧ b.bytes = [])

/-! ### Attention across a cluster, and the score table -/

namespace Sys2Proof.Claims

/-- The accumulator rows of a lead once a round has completed (R337). -/
def LeadRows (c d : Cluster) (posts : List Contribution) (lead : Contribution) : Prop :=
  (∀ i ∈ lead.lanes,
    (∀ n < 32, zElem d lead.tile i n = BitVec.ofNat 32 ((mergedRow c posts i).acc.getD n 0)) ∧
    zElem d (lead.tile + 1) i 0 = BitVec.ofNat 32 (mergedRow c posts i).m ∧
    zElem d (lead.tile + 1) i 1 = BitVec.ofNat 32 (mergedRow c posts i).l ∧
    (∀ n, 2 ≤ n → n < 32 → zElem d (lead.tile + 1) i n = zElem c (lead.tile + 1) i n) ∧
    nmem (64 * lead.tile + i) d.zPoison = mergedPoison c posts i ∧
    nmem (64 * (lead.tile + 1) + i) d.zPoison = mergedPoison c posts i) ∧
  ∀ tile row n, row < 64 → n < 32 → (row ∉ lead.lanes ∨ (tile ≠ lead.tile ∧ tile ≠ lead.tile + 1)) →
    zElem d tile row n = zElem c tile row n

/-- The words that SACC adds to, lane by lane and token by token, with the scratchpad they leave (R349). -/
def tableAfter (q4 : Bool) (word value : Nat → Nat) (act : List Nat) (spad : Store Byte) : Store Byte :=
  (act.flatMap fun l => (List.range (if q4 then 4 else 1)).map fun j => (l, j)).foldl (fun m e =>
    let o := word e.1 + 4 * e.2
    putBytes o (toBytes 4 (saccAdd (ofBytes (bytesAt o 4 m)) (saccValue q4 (value e.1) e.2)).1) m) spad

end Sys2Proof.Claims

/-- R334 to R338: CRED commits and posts its cast's contribution to the open round of its cluster ensemble. A round completes when
every live cast of the ensemble has posted and every earlier request has completed, and not before: the lead's rows take the merged
accumulator, maximum, sum and poison, nothing else changes, the round's requests leave and its lanes' counters fall. -/
def Obligations.CredPostsAndRoundsComplete : Prop :=
  (∀ (s s1 : State) (core cast : Nat) (act : List Nat) (op : Op) (ens : Nat),
    castIssues s core cast act .cred op = true → castCommitted s core cast act .cred op = some s1 →
    clusterEnsemble s1 core cast (op.mod.toNat % 4) = some ens →
    let fr := castFrame s core cast .cred op
    let key := ((getCore s1 core).launch).getD 0
    let cluster := clusterOfCore core
    let words (f : Field) : Store Word := act.map fun l => (l, BitVec.ofNat 32 (laneSrc s1 fr cast l f))
    (∀ r ∈ (getCluster s1 cluster).rounds, r.launch = key → r.ens = ens →
      ∀ x ∈ r.posts, (x.core, x.cast) ≠ (core, cast)) →
    postHeld s1 core cast act op.c.toNat = false →
    ∃ t r, exec (.cred op) s = .next t ∧ Posts s1 t core cast act fr.next r ∧ r.tile = op.d.toNat ∧ r.ctr = op.c.toNat ∧
      r.high = false ∧ r.kind = .cred ens ∧
      ∃ d ∈ (getCluster t cluster).rounds, d.launch = key ∧ d.ens = ens ∧
        ∃ x ∈ d.posts, x.core = core ∧ x.cast = cast ∧ x.lanes = act ∧ x.tile = op.d.toNat ∧ x.ctr = op.c.toNat ∧
          x.request = r.id ∧ x.m = words .a ∧ x.l = words .b ∧
          x.position = (sget {} ens (coreLaunch s1 core).ensembles).casts.idxOf cast) ∧
  ∀ (s : State) (cluster ctx launch ens : Nat) (r : Round),
    (getCluster s cluster).rounds.find? (isRound (launchKey ctx launch) ens) = some r →
    let c := getCluster s cluster
    let run := exec (.credRoundCompletion cluster ctx launch ens) s
    (roundFull s cluster r = false ∨ roundReady (fun _ => false) c r = false → run = .next s) ∧
    (roundFull s cluster r = true → roundReady (fun _ => false) c r = true →
      (r.posts.map fun x => x.request).Nodup → (r.posts.map fun x => (x.core, x.cast)).Nodup →
      (∀ x ∈ r.posts, x.lanes.Nodup ∧ (∀ l ∈ x.lanes, l < 64) ∧ ∃ q, c.table.find? (fun q => q.id == x.request) = some q ∧
        q.core = x.core ∧ q.cast = x.cast ∧ q.lanes = x.lanes ∧ q.ctr = x.ctr) →
      ∃ t, run = .next t ∧ MemoryKept s t ∧ (∀ d ∈ (getCluster t cluster).rounds, d.launch ≠ r.launch ∨ d.ens ≠ r.ens) ∧
        (∀ q, q ∈ (getCluster t cluster).table ↔ q ∈ c.table ∧ ∀ x ∈ r.posts, q.id ≠ x.request) ∧
        (∀ x ∈ r.posts, (∀ q ∈ c.table, q.id = x.request → holdsLaunch s x.core q.launch = true) → ∀ l ∈ x.lanes,
          hasLane s x.core x.cast l = true →
          getThread t x.core x.cast l = counterDown x.ctr (getThread s x.core x.cast l)) ∧
        (∀ lead, r.posts.find? (fun x => !x.lanes.isEmpty) = some lead →
          LeadRows c (getCluster t cluster) r.posts lead) ∧
        (r.posts.find? (fun x => !x.lanes.isEmpty) = none → (getCluster t cluster).z = c.z))

/-- R347 to R351: SACC commits and adds its lanes' values to the words of their tokens in ascending lane and token order, and
writes no register. TOPK commits and gives the j-th lane of L the position that ranks j-th among the scores, or, under `.ord`, the
j-th lowest of the N that rank first; a lane beyond them gets 0xFFFFFFFF. -/
def Obligations.ScoreTableAccumulatesAndRanks : Prop :=
  ∀ (s s1 : State) (core cast : Nat) (act : List Nat) (op : Op), act ≠ [] →
    let lead := act.headD 0
    let here := getCore s1 core
    let size := 65536 * (coreBill s1 core).scratch
    (castIssues s core cast act .sacc op = true → castCommitted s core cast act .sacc op = some s1 →
      let fr := castFrame s core cast .sacc op
      let base := laneSrc s1 fr cast lead .a
      let q4 := op.mod.toNat % 2 == 1
      let j := if q4 then 4 else 1
      let word (l : Nat) : Nat := base + 4 * laneSrc s1 fr cast l .b
      base % 4 = 0 → (∀ l ∈ act, word l + 4 * j ≤ size) →
      (∀ l ∈ act, ∀ i < j, spadBad here (word l + 4 * i) = false ∧ rangeBusy here (word l + 4 * i) 4 = false) →
      ∃ (t : State) (flags : Nat → Nat), exec (.sacc op) s = .next t ∧ MemoryKept s1 t ∧
        (getCore t core).spad = tableAfter q4 word (fun l => laneSrc s1 fr cast l .c) act here.spad ∧
        (getCast t core cast).k = (getCast s1 core cast).k ∧ (getCast t core cast).a = (getCast s1 core cast).a ∧
        ∀ l ∈ liveLanes (getCast s core cast), CastLane s1 t core cast l fr.next (act.contains l) fun old =>
          if act.contains l then withFlags (flags l) old else old) ∧
    (castIssues s core cast act .topk op = true → castCommitted s core cast act .topk op = some s1 →
      let fr := castFrame s core cast .topk op
      let base := laneSrc s1 fr cast lead .a
      let n := laneSrc s1 fr cast lead .b
      let want := op.mod.toNat % 64 + 1
      let score (i : Nat) : Nat × Nat := (i, spadWord here (base + 4 * i))
      let before (i : Nat) : Nat := (List.range n).countP fun k => scoreBefore (score k) (score i)
      want ≤ (coreBill s1 core).width → base % 4 = 0 → n ≤ 16384 → base + 4 * n ≤ size →
      (∀ i < n, spadBad here (base + 4 * i) = false) → rangeBusy here base (4 * n) = false →
      ∃ (t : State) (value : Nat → Nat), exec (.topk op) s = .next t ∧ OnlyCast s1 t core cast ∧
        (getCast t core cast).k = (getCast s1 core cast).k ∧ (getCast t core cast).a = (getCast s1 core cast).a ∧
        (∀ l ∈ liveLanes (getCast s core cast), CastLane s1 t core cast l fr.next (act.contains l) fun old =>
          if act.contains l then withDest .topk op (value (act.idxOf l)) old else old) ∧
        ∀ k, (min want n ≤ k → value k = 0xFFFFFFFF) ∧
          (k < min want n → value k < n ∧ before (value k) < want ∧
            if op.mod.toNat.testBit 6 then
              (List.range n).countP (fun i => decide (before i < want) && decide (i < value k)) = k
            else before (value k) = k))

/-! ### The fader and CLASSMAP -/

/-- R365, R369 to R371: STEP and FADE, checked, hand a job to the fader and wait for it; a FADE of no tiles is complete at once, and
FADE.fresh gives each absent tile four free chunks of its own. In sound caches the fader takes the oldest job of a region: it begins a STEP at the
header, passes over a tile with nothing to re-encode, and with the last tile the job ends and its thread goes on, unless the job has
come from an image, where its thread is past it. -/
def Obligations.FaderTakesAndEndsJobs : Prop :=
  (∀ (s s1 s0 : State) (core cast lane : Nat) (op : Op) (f : FugHdr),
    let c := laneCap s1 core cast op.a.toNat
    let fn := coreFn s1 core
    let q := corePort s1 core
    let old := getThread s0 core cast lane
    let next := nextPc (getThread s core cast lane).pc op
    let goes (o : Opc) : Prop := laneIssues s core cast lane o op = true ∧ committed s core cast lane o op = some s1 ∧
      hasLane s1 core cast lane = true ∧ checkRegion s1 q (viaOf (laneFrame s core cast lane o op) .a 2) c = .ok s0 f
    let waits (t : State) (x : Xfer) : Prop :=
      (getCore t core).xfers = (getCore s0 core).xfers ++ [x] ∧ x.agent = .lane core cast lane ∧ x.src = .mem c 0 ∧
        x.started = false ∧ x.mod = op.mod.toNat ∧ x.fn = fn ∧ MemoryKept s0 t ∧
        SameThread (getThread t core cast lane)
          { readyAt next old with wait := .response, scene := implicitScene (coreBill s0 core) old next, denied := none }
    (goes .step → slotsUsed (getCore s core) < 64 → old.marker = none → (getCore s0 core).fifo = [] → drained s0 core = true →
      issueHeld s0 core [] 0 1 false = false →
      ∃ t x, exec (.step op) s = .next t ∧ waits t x ∧ x.kind = .step) ∧
    (goes .fade →
      let b := laneSrc s1 (laneFrame s core cast lane .fade op) cast lane .b
      let n := laneSrc s1 (laneFrame s core cast lane .fade op) cast lane .c
      b + n ≤ f.ntile →
      (n = 0 → ∃ t, exec (.fade op) s = .next t ∧ MemoryKept s0 t ∧ (getCore t core).xfers = (getCore s0 core).xfers ∧
        (getThread t core cast lane).pc = next ∧ (getThread t core cast lane).wait = .ready) ∧
      (n ≠ 0 → op.mod.toNat % 4 ≠ 3 → issueHeld s0 core [] 0 1 false = false →
        ∃ t x, exec (.fade op) s = .next t ∧ waits t x ∧ x.kind = .fade ∧ x.tile = b ∧ x.len = n) ∧
      (∀ plan, n ≠ 0 → op.mod.toNat % 4 = 3 → faderBusy s0 fn (capOid c) s0.fresh = false →
        planFresh f.nchunk (absentTiles s0 q (capOid c) f b n) (fugNat s0 q (capOid c) f.boff (bitmapBytes f)) = some plan →
        firstMissing s0 q (capOid c) (pageSamples (f.doff + 16 * b) (16 * n)) = none →
        firstMissing s0 q (capOid c) (planOffsets f plan) = none →
        ∃ t, exec (.fade op) s = .next t ∧ (getCore t core).xfers = (getCore s0 core).xfers ∧
          (getThread t core cast lane).pc = next ∧ (getThread t core cast lane).wait = .ready ∧
          (getThread t core cast lane).v = old.v))) ∧
  (∀ nchunk tiles bitmap plan, planFresh nchunk tiles bitmap = some plan →
    plan.map Prod.fst = tiles ∧ (∀ e ∈ plan, e.2 + 4 ≤ nchunk ∧ ∀ i < 4, bitmap.testBit (e.2 + i) = true) ∧
      plan.Pairwise fun e d => e.2 + 4 ≤ d.2 ∨ d.2 + 4 ≤ e.2) ∧
  ∀ (s : State) (core id off : Nat) (x : Xfer) (c : Cap) (f : FugHdr), findXfer s core id = some x → x.src = .mem c off →
    let oid := capOid c
    let run := exec (.faderReencode core id) s
    let q := xferPort core x
    let d := fugDesc s q oid f x.tile
    transfersMove s x.ctx = true → (x.kind = .step ∨ x.kind = .fade) → fugHeader s q oid = some f →
    firstMissing s q oid (fugHeaderOffsets s q oid) = none →
    (faderBusy s x.fn oid x.id = true → run = .next s) ∧
    (faderBusy s x.fn oid x.id = false →
      (x.kind = .step → x.started = false →
        ∃ t, run = .next t ∧ findXfer t core id = some { x with started := true, len := f.ntile } ∧
          (getContext t x.ctx).stepbase.toNat / 2 ^ 32 = ((getContext s x.ctx).stepbase.toNat / 2 ^ 32 + 1) % 2 ^ 32 ∧
          (getContext t x.ctx).stepbase.toNat % 2 ^ 32 = (getContext s x.ctx).stepbase.toNat % 2 ^ 32) ∧
      (firstMissing s q oid (fugFadeOffsets s q oid f x.tile (descNxt d) (fadeGoal x f d)) = none → descNxt d = 0 →
        Memory.wf s.mem = true → CachesSound s →
        (x.kind = .step ∧ x.started = true ∧ descSt d = 3) ∨ (x.kind = .fade ∧ x.mod % 4 + 1 ≤ descSt d) →
        (1 < x.len → ∃ t, run = .next t ∧ MemoryKept s t ∧
          findXfer t core id = some { x with tile := x.tile + 1, len := x.len - 1 }) ∧
        (x.len ≤ 1 → ∀ cast lane, x.agent = .lane core cast lane → hasLane s core cast lane = true →
          (getThread s core cast lane).wait = .response →
          ∃ t, run = .next t ∧ MemoryKept s t ∧ (getCore t core).xfers = xfersBut s core id ∧
            SameBarCharge (getThread t core cast lane)
              (if x.resumed = false ∧ holdsLaunch s core x.launch = true then { getThread s core cast lane with wait := .ready }
                else getThread s core cast lane))))

/-- R353, R375, R376: CLASSMAP outside the privileged mode is illegal; else it commits and releases, and where the object has the
class already it is complete; while an earlier CLASSMAP of the object is in progress the lane waits; else, its checks passed and its class groups taken, a job stands for it and its lane waits. When no
write to the object's lines is in flight the job ends: the object has the class, and its lane goes on. -/
def Obligations.ClassmapChangesTheClassOfAnObject : Prop :=
  (∀ (s s1 : State) (core cast lane : Nat) (op : Op), laneIssues s core cast lane .classmap op = true →
    committed s core cast lane .classmap op = some s1 → hasLane s1 core cast lane = true →
    let fr := laneFrame s core cast lane .classmap op
    let old := getThread s1 core cast lane
    let next := nextPc (getThread s core cast lane).pc op
    let r := release s1 core 6 old.marker
    let s2 := modThread r.state core cast lane fun t => { t with marker := r.marker }
    let c := laneCap s2 core cast op.a.toNat
    let o := getObject s2 (coreFn s2 core) (capOid c)
    let cls := op.mod.toNat % 4
    let pool := laneSrc s2 fr cast lane .b % 256
    (modePriv (coreMode s1 core) = false → handlerReady s1 core cast lane = true → old.pc = fr.pc →
      ∃ t, exec (.classmap op) s = .next t ∧ EntersHandler s1 t core cast lane
        { code := 0x01, info := encodeWord0 .classmap op, opcode := (opRow .classmap).code, acc := accessKind .classmap }) ∧
    (modePriv (coreMode s1 core) = true → r.finished = true → objValid o = true → capLower c = 0 → capUpper c = objSize o →
      capHas c 1 = true → capHas c 5 = true → objTier o < 2 → objPaged o = false → objClass o ≠ 3 → capLc c ≠ 3 →
      let busy : Prop := ∃ j ∈ s2.classJobs, j.fn = coreFn s2 core ∧ j.oid = capOid c
      (busy → ∃ t, exec (.classmap op) s = .next t ∧ MemoryKept s2 t ∧ t.classJobs = s2.classJobs ∧
        (getThread t core cast lane).pc = old.pc ∧ (getThread t core cast lane).wait = old.wait) ∧
      (¬ busy → objClass o = cls →
        ∃ t, exec (.classmap op) s = .next t ∧ MemoryKept s2 t ∧ t.classJobs = s2.classJobs ∧
          (getThread t core cast lane).pc = next ∧ (getThread t core cast lane).wait = .ready) ∧
      (∀ groups, ¬ busy → objClass o ≠ cls → takeGroups s2 pool (objTier o) cls (pagesFrom o 0) = some groups →
        ∃ t j, exec (.classmap op) s = .next t ∧ t.classJobs = s2.classJobs ++ [j] ∧
          j = { id := j.id, agent := some (.lane core cast lane), ctx := coreCtx s2 core, fn := coreFn s2 core
                oid := capOid c, cls, pool, groups, keep := laneSrc s2 fr cast lane .c % 2 == 1 } ∧
          (getThread t core cast lane).pc = next ∧ (getThread t core cast lane).wait = .response))) ∧
  ∀ (s : State) (job : Nat) (j : ClassJob), s.classJobs.find? (fun j => j.id == job) = some j → j.cls < 4 →
    let o := getObject s j.fn j.oid
    ((∃ w ∈ s.homeWrites, w.applied = false ∧ inExtents (objTier o) (extentsOf s o) w.line = true) →
      exec (.classmapCompletion job) s = .next s) ∧
    ((∀ w ∈ s.homeWrites, w.applied = false → inExtents (objTier o) (extentsOf s o) w.line = false) →
      ∃ t, exec (.classmapCompletion job) s = .next t ∧ t.classJobs = s.classJobs.filter (fun x => !(x.id == job)) ∧
        objClass (getObject t j.fn j.oid) = j.cls ∧ objSize (getObject t j.fn j.oid) = objSize o ∧
        objTier (getObject t j.fn j.oid) = objTier o ∧ objValid (getObject t j.fn j.oid) = objValid o ∧
        ∀ core cast lane, j.agent = some (.lane core cast lane) → hasLane s core cast lane = true →
          (getThread s core cast lane).wait = .response → (getThread t core cast lane).wait = .ready)

/-! ### The memory hierarchy, restarts, gathers, commands -/

namespace Sys2Proof.Claims

/-- A lane of a cast whose ORDY may end: the ranges and the loads that it noted have retired (R315). -/
def ordyEnds (s : State) (core : Nat) (old : Thread) : Thread :=
  match old.wait with
  | .ordy a b next =>
    if (∃ r ∈ (getCore s core).ranges, r.id ∈ a) ∨ (∃ r ∈ (getCluster s (clusterOfCore core)).loads, r.id ∈ b) then old
    else readyAt next old
  | _ => old

/-- Everything is unchanged but the cores' records and the counter of numbers; of the cores only one. -/
def OnlyCore (s t : State) (core : Nat) : Prop :=
  t = { s with cores := t.cores, fresh := t.fresh } ∧ (∀ k, k ≠ core → getCore t k = getCore s k) ∧ MemoryKept s t

end Sys2Proof.Claims

/-- R144, R145, R167, R237: a fill serves every request for its line, and each that its channel served after more clk than the slack of
its context's service class counts in DLMISS of that class (from which clk on is the model's choice, log 31); the release FIFO passes
over a marker, or sends the written bytes of its oldest line, which stays clean, to their home. That a write-back carries no stamp is log
14; that it leaves without a token, and marks the backlog, is the model's choice, log 30. -/
def Sys2Proof.Claims.FillsAndWritebacksLeaveL1 : Prop :=
  ∀ (s : State) (core : Nat),
    let c := getCore s core
    (∀ line back,
      let counted (d : Store Nat) (m : Miss) : Store Nat :=
        let x := getContext s m.ctx
        let k := x.svc % 4
        if (sget 0 k x.slack).toNat < coreClk s core - (m.opened + back) then sset 0 k (satInc (2 ^ 32 - 1) (sget 0 k d)) d else d
      ∃ t, exec (.l1Fill core line back) s = .next t ∧ OnlyCore s t core ∧
        getCore t core = { c with
          misses := c.misses.filter (fun m => decide (m.line ≠ line))
          dlmiss := (c.misses.filter fun m => decide (m.line = line)).foldl counted c.dlmiss }) ∧
    (c.fifo = [] → exec (.releaseFifoWriteback core) s = .next s) ∧
    (∀ id rest, c.fifo = .marker id :: rest →
      ∃ t, exec (.releaseFifoWriteback core) s = .next t ∧ OnlyCore s t core ∧ getCore t core = { c with fifo := rest }) ∧
    ∀ n rest l, c.fifo = .line n :: rest → sfind n c.l1 = some l → l.dirty ≠ 0 →
      ∃ t, exec (.releaseFifoWriteback core) s = .next t ∧ MemoryKept s t ∧ (∀ k, k ≠ core → getCore t k = getCore s k) ∧
        getCore t core = { c with
          fifo := rest, l1 := sput n { l with dirty := 0 } c.l1, tokens := c.tokens - 1, backlog := c.backlog || c.tokens == 0 } ∧
        t.homeWrites = s.homeWrites ++
          [{ id := s.fresh, die := dieOfCore core, core, stamp := none, line := l.line, data := l.data, mask := l.dirty
             tags := l.tags, poison := false, cls := l.cls, ctx := l.ctx, sent := coreClk s core }]

/-- R237, R244: a home applies a write in flight only when its stamp allows it and no earlier write of the same core to the line is
outstanding, a renewal also only when its pages are there; the written bytes, and no others, take their values. A stamped write stays
until it is acknowledged, when its die's unacknowledged count falls and the count of its writes before the first that is not applied
reaches every die. -/
def Sys2Proof.Claims.HomesApplyWritesInOrder : Prop :=
  ∀ (s : State) (i : Nat) (w : HomeWrite), s.homeWrites[i]? = some w →
    let home := homeDie (w.line * 64)
    let holds : Prop := w.applied = true ∨ renewWaits s w = true ∨
      (∃ x ∈ s.homeWrites, x.id < w.id ∧ x.core = w.core ∧ x.line = w.line ∧ x.applied = false) ∨
      ∃ v, w.stamp = some v ∧ ∃ f < 4,
        serialGe ((getDie s home).app.getD f 0) (if f = w.die then v.getD f 0 - 1 else v.getD f 0) = false
    (holds → exec (.homeWriteApply i) s = .next s) ∧
    (¬ holds →
      ∃ t, exec (.homeWriteApply i) s = .next t ∧
        (CachesSound s → w.poison = false → w.renew = none → ∀ key, homeByte t key =
          if key / 64 = w.line ∧ w.mask.getLsbD (key % 64) = true then BitVec.extractLsb' (8 * (key % 64)) 8 w.data
          else homeByte s key) ∧
        (w.stamp = none → t.homeWrites = s.homeWrites.filter fun x => decide (x.id ≠ w.id)) ∧
        (∀ v, w.stamp = some v →
          t.homeWrites = s.homeWrites.map (fun x => if x.id = w.id then { x with applied := true } else x) ∧
          (getDie t home).homeClock = mergeClock (getDie s home).homeClock v)) ∧
    (w.applied = false → exec (.homeWriteAck i) s = .next s) ∧
    (w.applied = true →
      let rest := s.homeWrites.filter fun x => decide (x.id ≠ w.id)
      let count : Word := match rest.find? (fun x => x.die == w.die && x.stamp.isSome && !x.applied) with
        | some x => (x.stamp.getD []).getD w.die 0 - 1
        | none => (getDie s w.die).clock.getD w.die 0
      ∃ t, exec (.homeWriteAck i) s = .next t ∧ MemoryKept s t ∧ t.homeWrites = rest ∧
        (getDie t w.die).unacked = (getDie s w.die).unacked - 1 ∧
        ∀ d < 4, (getDie t d).app = (getDie s d).app.set w.die count)

/-- R144, R145, R167, R237, R244: the lines of L1, and the writes that their homes apply. The stamp of a write-back (log
14), its leaving without a token and the backlog mark (log 30), the eviction of a line (log 31) are the model's choices. -/
def Obligations.LinesLeaveL1AndReachTheirHomes : Prop :=
  Claims.FillsAndWritebacksLeaveL1 ∧ Claims.HomesApplyWritesInOrder

/-- R140, R172, R173, R315: a thread in a translation restart goes on when its page is valid, or with the refusal of the host; the
live lanes of a cast that have all reached gathering instructions execute the one at the lowest PC, here CASTSYNC, whose lanes go
on; lanes in ORDY go on when the ranges and loads they noted have retired. -/
def Obligations.RestartsAndGathersGoOn : Prop :=
  ∀ (s : State) (core cast : Nat),
    (∀ lane, hasLane s core cast lane = true →
      let old := getThread s core cast lane
      let run := exec (.translationRestart (.lane core cast lane)) s
      (∀ k, old.wait = .page k → pageValid s core k = false → run = .next s) ∧
      (∀ k, old.wait = .page k → pageValid s core k = true →
        ∃ t, run = .next t ∧ OnlyLanes s t core [(cast, lane)] ∧ getThread t core cast lane = { old with wait := .ready }) ∧
      ∀ k, old.wait = .refused k →
        ∃ t, run = .next t ∧ OnlyLanes s t core [(cast, lane)] ∧
          getThread t core cast lane = { old with wait := .ready, denied := some k }) ∧
    (∀ q k, getCue s core = some q → q.page = some k →
      let run := exec (.translationRestart (.cue core)) s
      (pageValid s core k = false → q.denied ≠ some k → run = .next s) ∧
      (pageValid s core k = true ∨ q.denied = some k →
        ∃ t, run = .next t ∧ OnlyCue s t core ∧ getCue t core = some { q with page := none })) ∧
    let run := exec (.gatherComplete core cast) s
    let x := getCast s core cast
    (contextRuns s core = false → run = .next s) ∧
    (contextRuns s core = true → (∃ t ∈ x.threads, t.live = true ∧ t.wait ≠ .gather) →
      ∃ t, run = .next t ∧ OnlyCore s t core ∧ (∀ k, k ≠ cast → getCast t core k = getCast s core k) ∧
        getCast t core cast = { x with threads := x.threads.map (ordyEnds s core) }) ∧
    ∀ op, contextRuns s core = true → (∀ t ∈ x.threads, t.live = true → t.wait = .gather) →
      let pcs := (x.threads.filter fun t => t.live).map fun t => t.pc.toNat
      let lowest (l : Nat) : Prop :=
        (getThread s core cast l).live = true ∧ ∀ pc ∈ pcs, (getThread s core cast l).pc.toNat ≤ pc
      endOrdy s core cast = s → (∃ l, hasLane s core cast l = true ∧ lowest l) →
      (∀ l, hasLane s core cast l = true → lowest l → waitingInstr s core cast l = some (.castsync op)) →
      ∃ t, run = .next t ∧ OnlyCast s t core cast ∧ ∀ l, hasLane s core cast l = true →
        let old := getThread s core cast l
        (lowest l → SameThread (getThread t core cast l) { readyAt (nextPc old.pc op) old with committed := false }) ∧
        (¬ lowest l → getThread t core cast l = old)

/-- R184: a command of the cue thread that does not precede all others waits in the buffer with the values that its sources had at
issue, and the thread goes on past it. The oldest is performed when no unresolved BRC precedes it: its result reaches the register
that awaits it, a fault ends the thread with its code. -/
def Obligations.CommandsWaitAndArePerformed : Prop :=
  ∀ (s : State) (core : Nat) (q : Cue), getCue s core = some q →
    (∀ o op, (commandBody o).isSome = true → o ≠ .ld →
      s.actor = .cue core true ∨ (s.actor = .cue core false ∧ q.buf ≠ []) → cueIssues s core o op = true → q.buf.length < 32 →
      let src (f : Field) : DWord := BitVec.ofNat 64 (cueSrc q.c (frameAt core q.pc o op) f)
      ∃ t, exec (instrOf o op) s = .next t ∧ OnlyCore s t core ∧ t.fresh = s.fresh + 1 ∧
        getCore t core = { getCore s core with cue := (getCore t core).cue } ∧
        getCue t core = some { q with
          buf := q.buf ++ [{ id := s.fresh, pc := q.pc, instr := instrOf o op, a := src .a, b := src .b, c := src .c, regs := q.c
                             pend := q.pend, dqTail := (getCore s core).dqTail, logged := q.logged }]
          pend := match cueDest o op with
            | some d => sput d s.fresh q.pend
            | none => q.pend
          pc := nextPc q.pc op, beyond := if q.checks.isEmpty then 0 else q.beyond + 1 }) ∧
    ∀ cmd rest, q.buf = cmd :: rest → contextRuns s core = true →
      let run := exec (.commandBufferPerform core) s
      ((∃ k ∈ q.checks, k.id ≤ cmd.id) ∨ q.page.isSome = true ∨ q.response = true → run = .next s) ∧
      ∀ o op body, (∀ k ∈ q.checks, cmd.id < k.id) → q.page = none → q.response = false → opcOf cmd.instr = some (o, op) →
        commandBody o = some body →
        let result := body (frameAt core cmd.pc o op) cmd.a cmd.b cmd.c s
        (∀ s1 r goto q1, result = .done s1 r goto → getCue s1 core = some q1 → q1.parked = none →
          ∃ t q2, run = .next t ∧ MemoryKept s1 t ∧ getCue t core = some q2 ∧ q2.pc = q1.pc ∧
            q2.buf.map Command.id = (q1.buf.map Command.id).filter (fun id => decide (id ≠ cmd.id)) ∧
            (∀ d v, cueDest o op = some d → r = some v → sfind d q1.pend = some cmd.id →
              sget 0 d q2.c = v ∧ sfind d q2.pend = none) ∧
            ∀ d, (∀ v, r = some v → cueDest o op ≠ some d) → sget 0 d q2.c = sget 0 d q1.c) ∧
        (∀ s1 q1, result = .await s1 → getCue s1 core = some q1 →
          ∃ t, run = .next t ∧ OnlyCore s1 t core ∧ getCue t core = some { q1 with response := true }) ∧
        ∀ f, result = .fault f → (getCore s core).launch = some (coreKey s core) →
          ∃ t, run = .next t ∧ MemoryKept s t ∧ getCue t core = none ∧
            (coreEnsemble t core kernelScope).cueor = (coreEnsemble s core kernelScope).cueor ||| (f.code % 65536)

/-! ### Bins, swaps, turns, owners, tokens -/

namespace Sys2Proof.Claims

/-- The bins after a cast has left the active set for another (R177): no bin holds a thread of the one; every unfiled thread of the other
is filed again, now, under its PC. Where bins are free and none fills up, it stands in such a bin. -/
def Refiled (s t : State) (core part out inn : Nat) : Prop :=
  let p := getPart s core part
  let u := getPart t core part
  let width := (coreBill s core).width
  let back := p.unfiled.filter fun th => decide (th.1 = inn)
  (∀ e ∈ u.bins, ∀ th ∈ e.2.threads, th.1 ≠ out) ∧
    ∀ th ∈ back, th ∉ u.unfiled ∧
      (hasLane s core th.1 th.2 = true → (getThread t core th.1 th.2).filed = coreClk s core) ∧
      (∀ e ∈ u.bins, th ∈ e.2.threads → e.2.key = (getThread s core th.1 th.2).pc) ∧
      (sortedFrom 0 p.bins = true → p.bins.length + back.length ≤ 32 → back.length < width →
        (∀ e ∈ p.bins, e.2.threads.length + back.length < width) → ∃ e ∈ u.bins, th ∈ e.2.threads)

/-- A cast without the clk at which its threads were filed in bins. -/
def unfiledCast (c : Cast) : Cast := { c with threads := c.threads.map fun t => { t with filed := 0 } }

end Sys2Proof.Claims

/-- R177 to R180: the oldest bin that is ready, full or older than 256 clk, is drawn: its threads form a group and the bin is free;
its age is that of the thread that was filed first. An active cast that cannot issue and waits long is swapped with the oldest pending
cast that can; a pending cast that could have issued for 192 clk replaces the active cast that entered earliest, at least 64 clk ago.
The threads of the cast that leaves are in no bin, those of the cast that enters are filed again; registers are unchanged. -/
def Obligations.PartitionsDrawBinsAndSwapCasts : Prop :=
  ∀ (s : State) (core : Nat),
    let clk := coreClk s core
    let b := coreBill s core
    let swapped (t : State) (part out inn : Nat) : Prop :=
      OnlyCore s t core ∧ (∀ k, unfiledCast (getCast t core k) = unfiledCast (getCast s core k)) ∧
        (∀ k, k ≠ inn → getCast t core k = getCast s core k) ∧ (getPart t core part).active = (getPart s core part).active.filter (fun e => decide (e.1 ≠ out)) ++ [(inn, clk + 8)] ∧
        (getPart t core part).pending = (getPart s core part).pending.filter (fun e => decide (e.1 ≠ inn)) ++ [(out, clk)] ∧
        (∀ k ∈ [out, inn], (k, clk + 8) ∈ (getPart t core part).swapping) ∧ inn ∉ (getPart t core part).due ∧
        (out ≠ inn → (getCast s core inn).part = part → Refiled s t core part out inn)
    (∀ part bin,
      let p := getPart s core part
      let ready (x : Bin) : Prop := b.width ≤ x.threads.length ∨ binSince (filedAt s core) x + 256 < clk
      ((∀ e ∈ p.bins, ¬ ready e.2) → exec (.binDraw core part bin) s = .next s) ∧
      ∀ x, sfind bin p.bins = some x → ready x →
        (∀ e ∈ p.bins, ready e.2 → e.1 ≠ bin → binSince (filedAt s core) x < binSince (filedAt s core) e.2 ∨
          binSince (filedAt s core) x = binSince (filedAt s core) e.2 ∧ lowestGidx b x.threads < lowestGidx b e.2.threads) →
        ∃ t, exec (.binDraw core part bin) s = .next t ∧ OnlyCore s t core ∧
          (∀ k, getCast t core k = getCast s core k) ∧ (∀ k, k ≠ part → getPart t core k = getPart s core k) ∧
          getPart t core part = { p with
            bins := sdel bin p.bins, drawn := if 2 ≤ x.threads.length then p.drawn ++ [x.threads] else p.drawn }) ∧
    (∀ out inn,
      let part := (getCast s core out).part
      let p := getPart s core part
      let may : Prop := (∃ e ∈ p.active, e.1 = out) ∧ (∀ e ∈ p.swapping, e.1 ≠ out) ∧ castAble s core p out = false ∧
        (∃ t ∈ (getCast s core out).threads, longWait s core t = true) ∧ nextPending s core part = some inn
      (¬ may → exec (.castSwap core out inn) s = .next s) ∧
      (may → ∃ t, exec (.castSwap core out inn) s = .next t ∧ swapped t part out inn)) ∧
    ∀ part,
      let p := getPart s core part
      let due := p.pending.filter fun e =>
        p.swapping.all (fun x => decide (x.1 ≠ e.1)) && castAble s core p e.1 && decide (e.2 + 192 ≤ clk)
      let old (e : Nat × Nat) : Bool := decide (e.2 + 64 ≤ clk) && p.swapping.all fun x => decide (x.1 ≠ e.1)
      (due = [] → exec (.castDue core part) s = .next s) ∧
      (∀ inn rest, due = inn :: rest →
        (p.active.find? old = none →
          ∃ t, exec (.castDue core part) s = .next t ∧ OnlyCore s t core ∧
            getPart t core part = { p with due := due.map Prod.fst }) ∧
        ∀ e, p.active.find? old = some e →
          ∃ t, exec (.castDue core part) s = .next t ∧ swapped t part e.1 inn.1)

/-- R26, R268 to R270, R278, R301: the buckets of a die receive their shares every 1,024 clk, no more tokens in all than the fresh ones
and those that were left. A free core that changes owner empties L1, writes its bank into the book of the old owner's image, where that has
one, and takes the bank that the new owner brings; a context new to the die finds no translation of its own there. A function that has
used its deficit on a cluster adds its quantum where no other has work, else its context is pre-empted, running or halted; a free
cluster passes to the next function with work, and functions without work keep no deficit above 0. The model's choices: a context without
an image object adds a quantum too (log 19); a pre-emption waits until the context can rest (log 55); when a free cluster passes (log 2);
that a write-back without a token leaves and marks the backlog (log 30); that a core keeps its owner while transfers of its old one are in
flight (log 78). -/
def Obligations.TurnsOwnersAndTokensChange : Prop :=
  (∀ (s : State) (die : Nat),
    let d := getDie s die
    let cores := span (64 * die) 64
    let sum (s : State) : Nat := (cores.map fun k => (getCore s k).tokens).foldl (· + ·) 0
    (d.clk < d.refilled + 1024 → exec (.tokenRefill die) s = .next s) ∧
    (d.refilled + 1024 ≤ d.clk →
      ∃ t, exec (.tokenRefill die) s = .next t ∧ MemoryKept s t ∧ (getDie t die).refilled = d.clk ∧
        (∀ k, k / 64 ≠ die → getCore t k = getCore s k) ∧
        (∀ k, k / 64 = die → getCore t k = { getCore s k with
          backlog := false
          tokens := if (getCore s k).launch.isNone then 0 else shareOf s die (coreFn s k) 131072 false +
            (if (getCore s k).backlog then shareOf s die (coreFn s k) (sum s) true else 0) }) ∧
        ((∀ e ∈ s.contexts, e.2.fn < 17) → sum t ≤ 131072 + sum s))) ∧
  (∀ (s : State) (core ctx : Nat),
    let c := getCore s core
    let may : Prop := c.launch = none ∧ c.owner ≠ some ctx ∧ (sfind ctx s.contexts).isSome = true ∧ bankReady s core ctx = true ∧
      ownTransfers s core ctx = true
    (¬ may → exec (.ownerChange core ctx) s = .next s) ∧
    (may → ∃ t, exec (.ownerChange core ctx) s = .next t ∧ (getCore t core).owner = some ctx ∧ (getCore t core).l1 = [] ∧
      (getCore t core).tlb = [] ∧ (getCore t core).code = [] ∧
      (c.l1 = [] → (getCore t core).staging = c.bank ∧ incomingBank s core ctx = some (getCore t core).bank ∧
        (getCore t core).spad = c.spad ∧
        (residentOn s (dieOfCore core) ctx = false → ∀ e ∈ (getDie t (dieOfCore core)).tlb, e.ctx ≠ ctx) ∧
        (c.owner = none → MemoryKept s t) ∧
        ∀ o, c.owner = some o → (noBook s o = true → MemoryKept s t) ∧
          (noBook s o = false → ∀ q oid off, bankPlace s o core = some (q, oid, off) →
            MemoryKept (writeObject s q oid off (bankBytes c.bank)) t)))) ∧
  ∀ (s : State) (cluster fn : Nat),
    let c := getCluster s cluster
    let left := sget 0 fn c.deficit
    let quantum : Int := (getFunc s fn).weight * 65536
    let run := exec (.deficitExhausted cluster) s
    (∀ ctx, clusterHeld s cluster = true → c.turnFn = some fn → c.ctx = some ctx →
      (0 < left → run = .next s) ∧
      (left ≤ 0 → (∀ f < 17, f ≠ fn → functionWork s cluster f = false) ∨ (getContext s ctx).image = none →
        ∃ t, run = .next t ∧ t = { s with clusters := t.clusters } ∧
          (∀ n, n ≠ cluster → getCluster t n = getCluster s n) ∧ sget 0 fn (getCluster t cluster).deficit = left + quantum ∧
          ∀ f, f ≠ fn → sget 0 f (getCluster t cluster).deficit = sget 0 f c.deficit) ∧
      (left ≤ 0 → (∃ f < 17, f ≠ fn ∧ functionWork s cluster f = true) → ∀ place, (getContext s ctx).image = some place →
        let goes : Prop := ((getContext s ctx).run = .running ∨ (getContext s ctx).run = .halted) ∧ restReady s ctx = true
        (¬ goes → run = .next s) ∧
        (goes →
          ∃ t, run = .next t ∧ (getContext t ctx).run = .saving 0 none place))) ∧
    ∀ before after ctx, clusterHeld s cluster = false →
      (∀ f, c.turnFn = some f → functionWork s cluster f = true → sget 0 f c.deficit ≤ 0) →
      functionsAfter (c.turnFn.getD 16) = before ++ fn :: after → (∀ f ∈ before, functionWork s cluster f = false) →
      functionWork s cluster fn = true → 0 < left + quantum → nextContext s cluster fn = some ctx →
      (getContext s ctx).run ≠ .parked →
      ∃ t, run = .next t ∧ t = { s with clusters := t.clusters } ∧ (∀ n, n ≠ cluster → getCluster t n = getCluster s n) ∧
        (getCluster t cluster).turnFn = some fn ∧ (getCluster t cluster).turnCtx = some ctx ∧
        sget 0 fn (getCluster t cluster).deficit = left + quantum ∧
        ∀ f < 17, functionWork s cluster f = false → sget 0 f (getCluster t cluster).deficit = min (sget 0 f c.deficit) 0

/-! ### Launches -/

namespace Sys2Proof.Claims

/-- A queue after an event, the other queues of the module unchanged. -/
def OnlyQueue (s t : State) (die queue : Nat) (q : Queue) : Prop :=
  getQueue t die queue = q ∧ ∀ d n, (d, n) ≠ (die, queue) → getQueue t d n = getQueue s d n

end Sys2Proof.Claims

/-- R254, R256 to R260: a doorbell's value is taken within the ring, halts the queue with 0x0D beyond it, and is ignored where LAUNCH
feeds the queue, and waits behind writes of the host that wait for their pages; clearing a halt skips the refused packet; setting EN
starts the counts anew. The model's choices (log 52): a value refused while the queue is halted keeps the packet to skip, and the counts
start anew also where LSIZE keeps EN at 0. A NOP at the head is consumed, a sound
LAUNCH stands ready with its tickets, a bad packet halts the queue, a WAITSET is consumed once its counters are reached. -/
def Obligations.QueuesTakeDoorbellsAndPackets : Prop :=
  ∀ (s : State) (die queue : Nat),
    let q := getQueue s die queue
    let halted (t : State) (code : Nat) (skip : Option Nat) : Prop :=
      OnlyQueue s t die queue
        { q with halt := true, rcode := BitVec.ofNat 8 code, skip, ready := if skip.isNone then q.ready else none }
    (∀ value : Word,
      (s.hostWaiting ≠ [] → exec (.queueDoorbell die queue value) s =
        .next { s with hostWaiting := s.hostWaiting ++ [.door die queue value] }) ∧
      (s.hostWaiting = [] → q.src = true → exec (.queueDoorbell die queue value) s = .next s) ∧
      (s.hostWaiting = [] → q.src = false → (value - q.head).toNat ≤ 2 ^ (q.lsize.toNat + 4) →
        ∃ t, exec (.queueDoorbell die queue value) s = .next t ∧ MemoryKept s t ∧
          OnlyQueue s t die queue { q with tail := value }) ∧
      (s.hostWaiting = [] → q.src = false → 2 ^ (q.lsize.toNat + 4) < (value - q.head).toNat →
        ∃ t, exec (.queueDoorbell die queue value) s = .next t ∧ halted t 0x0D (if q.halt then q.skip else none))) ∧
    (q.halt = false → exec (.queueHaltClear die queue) s = .next s) ∧
    (q.halt = true →
      ∃ t, exec (.queueHaltClear die queue) s = .next t ∧ MemoryKept s t ∧ OnlyQueue s t die queue
        { q with halt := false, head := q.head + BitVec.ofNat 32 (q.skip.getD 0), skip := none }) ∧
    (∃ t, exec (.queueEnable die queue) s = .next t ∧ MemoryKept s t ∧ OnlyQueue s t die queue
      { q with en := decide (q.lsize.toNat < 12), head := 0, tail := 0, halt := false, rcode := 0, ready := none, skip := none }) ∧
    (q.en = false ∨ q.halt = true ∨ (getFunc s (queueFn q)).stopped = true ∨ q.ready.isSome = true →
      exec (.packetAtHead die queue) s = .next s ∧ exec (.waitsetConsume die queue) s = .next s) ∧
    (q.en = true → q.halt = false → (getFunc s (queueFn q)).stopped = false → q.ready = none →
      let consumed (n : Nat) : Queue := { q with head := q.head + BitVec.ofNat 32 n }
      ∀ s1,
        (∀ n, headOf s q = (s1, .nop n) →
          ∃ t, exec (.packetAtHead die queue) s = .next t ∧ OnlyQueue s t die queue (consumed n) ∧ MemoryKept s1 t) ∧
        (∀ ref k, headOf s q = (s1, .launch ref k) →
          ∃ t, exec (.packetAtHead die queue) s = .next t ∧ OnlyQueue s t die queue { q with ready := some (ref, k) } ∧
            MemoryKept s1 t) ∧
        (∀ code skip, headOf s q = (s1, .refuse code skip) →
          ∃ t, exec (.packetAtHead die queue) s = .next t ∧ halted t code (some skip)) ∧
        (∀ code bs s2 es c, headOf s q = (s1, .refuseBill code bs) →
          refuseEarly s1 (queueFn q) code (parseBill bs) = .refuse s2 c es →
          (refusalRecord s2 die (queueFn q) q.ctx.toNat code (parseBill bs) es).2 = true →
          ∃ t, exec (.packetAtHead die queue) s = .next t ∧ halted t code (some 1)) ∧
        (∀ n cs, headOf s q = (s1, .waitset n cs) →
          exec (.packetAtHead die queue) s = .next s1 ∧
          ∃ t, exec (.waitsetConsume die queue) s = .next t ∧
            OnlyQueue s t die queue (if (countersReached (queueFn q) cs s1).2 then consumed n else q))) ∧
    ∀ s1 bs, pendingUnits q ≠ 0 → readUnits q 1 q.head.toNat s = (s1, some (some [bs])) → bs.length = 16 →
      let x := ofBytes bs
      (field x 7 0 = 0 → field x 63 16 = 0 → field x 127 64 = 0 → field x 15 8 = 1 → headOf s q = (s1, .nop 1)) ∧
      (field x 7 0 = 1 → field x 63 16 = 0 → field x 15 8 = 1 →
        headOf s q = launchHead s1 (queueFn q) (field x 127 64)) ∧
      (2 < field x 7 0 → headOf s q = (s1, .refuse 0x0C 1))

/-- R261, R12, R262, R263, R14: the front end steps the lottery state and draws the eligible queue in which the running sum of tickets
first exceeds it; a sound playbill becomes a launch with the context's next number and its packet is consumed, an unsound one halts
the queue with the reason, once its completion record, if it has one, is written. The next cast goes to an open partition with the fewest casts; its lanes start at LANEPC, and the cue thread
of a core new to the launch at CUEPC, with an empty scratchpad. The model's choices: the scratchpad is empty then (log 1), and when a core
is free and may pass to another context (log 78). -/
def Sys2Proof.Claims.LaunchesAreDrawnAndPlaced : Prop :=
  (∀ (s s1 s2 : State) (die ctx n k : Nat) (before after : List (Nat × Nat)) (bs : List Byte) (es : List EnsEntry),
    let c := getContext s ctx
    let old := (diePart s die ctx).lot.toNat
    let lot := xorshift64 old
    let sum (l : List (Nat × Nat)) : Nat := (l.map Prod.snd).sum
    let qs := before ++ (n, k) :: after
    let u := lot % sum qs
    let q := getQueue s die n
    let ref := ((q.ready).getD (0, 0)).1.toNat
    (sfind ctx s.contexts).isSome = true → c.run = .running →
    (∀ e ∈ s.launches, e.2.ctx = ctx → e.2.die = die → toPlace e.2 = false) →
    (∃ m ∈ partitionOn s c.fn die, turnOf s m ctx = true) → eligibleQueues s die ctx = qs →
    sum before ≤ u → u < sum before + k → frontRead s c.fn (field ref 63 40) (field ref 39 0) 512 = .ok s1 bs →
    (checkBill s1 c.fn die ctx bs = .ok s2 es →
      ∃ t, exec (.launchDraw die ctx) s = .next t ∧ (diePart t die ctx).lot = BitVec.ofNat 64 lot ∧
        OnlyQueue s t die n { q with head := q.head + 1, ready := none } ∧
        (getContext t ctx).launches = (c.launches % 65536 + 1) % 65536 ∧
        getLaunch t (launchKey ctx (c.launches % 65536)) =
          { ctx, number := c.launches % 65536, die, queue := n, bill := parseBill bs, ensembles := newEnsembles (parseBill bs) es } ∧
        (c.recording = none → t.cores = s2.cores ∧ MemoryKept s2 t)) ∧
    ∀ code, checkBill s1 c.fn die ctx bs = .refuse s2 code es →
      ((parseBill bs).doneCap = 0 ∨ doneSound s2 c.fn (parseBill bs) es = false ∨
        recordReady s2 (64 * die) { fn := c.fn, ctx := ctx, core := none } (capOid (parseBill bs).doneCap)
          (capLower (parseBill bs).doneCap) 32 = true) →
      ∃ t, exec (.launchDraw die ctx) s = .next t ∧ (diePart t die ctx).lot = BitVec.ofNat 64 lot ∧
        OnlyQueue s t die n { q with halt := true, rcode := BitVec.ofNat 8 code, skip := some 1, ready := none } ∧
        t.launches = s.launches) ∧
  (∀ (s : State) (key : Nat) (cores : List Nat) (core part : Nat), placeFor s key cores = some (core, part) →
    core ∈ cores ∧ part < 4 ∧ coreFits s key core = true ∧ residentsIn (getCore s core) part < 64 ∧
      ∀ c ∈ cores, ∀ p < 4, coreFits s key c = true → residentsIn (getCore s c) p < 64 →
        residentsIn (getCore s core) part ≤ residentsIn (getCore s c) p) ∧
  ∀ (s : State) (ctx number core part : Nat) (l : Launch),
    let key := launchKey ctx number
    let s1 := freeCores s l.die
    let i := l.next
    let b := l.bill
    sfind key s.launches = some l →
    ((getContext s ctx).run ≠ .running ∨ toPlace l = false → exec (.castPlacement ctx number) s = .next s) ∧
    ((getContext s ctx).run = .running → toPlace l = true → l.waiting = [] → l.saved = [] → nmem i l.ahead = false → clusterList l i = none →
      placeFor s1 key (partitionCores s1 (getContext s1 l.ctx).fn l.die) = some (core, part) →
      (∀ th ∈ (getPart s1 core part).unfiled, th.1 ≠ i) →
      ∃ t, exec (.castPlacement ctx number) s = .next t ∧ (getLaunch t key).next = i + 1 ∧
        (getCore t core).launch = some key ∧ (getCast t core i).part = part ∧
        (getCast t core i).ens = castEnsembles l i ∧
        (getCast t core i).threads = (List.range b.width).map (fun lane =>
          let sr := 0x2545F491 ^^^ (i * b.width + lane)
          let new : Thread :=
            { pc := b.lanePc, srstate := BitVec.ofNat 32 (if sr = 0 then 1 else sr), codeEpoch := s.icEpoch }
          { new with scene := implicitScene b new b.lanePc }) ∧
        ((getCore s1 core).launch ≠ some key →
          getCue t core = some { pc := b.cuePc, codeEpoch := s.icEpoch } ∧ (getCore t core).spad = [] ∧
            (getCore t core).l1 = [] ∧ (getLaunch t key).cues = l.cues + 1) ∧
        ((getCore s1 core).launch = some key →
          getCue t core = getCue s1 core ∧ (getCore t core).spad = (getCore s1 core).spad ∧ MemoryKept s t))

/-- R198, R199: the core whose exit completed an ensemble or the kernel writes its record once: one 32-byte store at DONECAP with a
release of system scope, when the casts covered are done with all they started, the release is done and the record's page is there.
The kernel's record ends the launch, whose entry goes once every record it owes is written. -/
def Sys2Proof.Claims.CompletionRecordsAreWrittenOnce : Prop :=
  ∀ (s : State) (ctx number scope core : Nat) (l : Launch),
    let id := launchKey ctx number
    let e := sget {} scope l.ensembles
    let run := exec (.completionRecordWrite ctx number scope core) s
    let r := release s core 6 none
    let q : Port := { fn := (getContext s ctx).fn, ctx := ctx, core := some core }
    let off := capLower l.bill.doneCap + e.recOff
    let s1 := dropOwn r.state core q (capOid l.bill.doneCap) off 32
    let c := getCore r.state core
    let busy := asyncBusy s id (if scope = kernelScope then none else some e.casts)
    let whole : Prop := scope = kernelScope
    let ended : Prop := l.ended = true ∨ whole
    let finished : Prop := ended ∧ ∀ x ∈ sput scope { e with written := true } l.ensembles, x.2.reports = true → x.2.written = true
    let ready : Prop := e.closer = some core ∧ e.written = false ∧ (e.reports = true ∨ whole) ∧
      (whole → l.ended = false ∧ toPlace l = false) ∧ busy = false
    sfind id s.launches = some l →
    (¬ ready ∨ r.finished = false → ∃ t, run = .next t ∧ t.launches = s.launches ∧ MemoryKept s t) ∧
    (ready → r.finished = true → e.reports = true → recordReady s1 core q (capOid l.bill.doneCap) off 32 = false →
      ∃ t, run = .next t ∧ t.launches = s.launches) ∧
    (ready → r.finished = true → (e.reports = true → recordReady s1 core q (capOid l.bill.doneCap) off 32 = true) →
      ∃ t, run = .next t ∧ (finished → sfind id t.launches = none) ∧
        (¬ finished → (sget {} scope (getLaunch t id).ensembles).written = true ∧
          ((getLaunch t id).ended = true ↔ ended)) ∧
        (e.reports = true → (getCore t core).seqno = c.seqno + 1 ∧
          ∀ key, off % 64 ≤ 32 → resolve s1 q (capOid l.bill.doneCap) off = some key → key % 64 ≤ 32 →
            homeBytes t key 32 = toBytes 32 (recordBits256 1 core c.seqno.toNat c.cycle.toNat scope
              (if whole then e.cueor else 0) e.nexit e.thmin.toNat e.nnz e.stmin e.stor)))

/-- R12, R14, R198, R199, R261 to R263: a launch is drawn, placed and ends with its completion record. The empty
scratchpad of a core new to a launch is the model's choice (log 1), and when a core is free its reading (log 78). -/
def Obligations.LaunchesRunAndAreRecorded : Prop :=
  Claims.LaunchesAreDrawnAndPlaced ∧ Claims.CompletionRecordsAreWrittenOnce

/-! ### Registers, power, channels -/

namespace Sys2Proof.Claims

/-- Everything is unchanged but the registers of one function, which hold `x`. -/
def OnlyFunc (s t : State) (fn : Nat) (x : Func) : Prop :=
  t = { s with functions := t.functions } ∧ getFunc t fn = x ∧ ∀ f, f ≠ fn → getFunc t f = getFunc s f

/-- Everything is unchanged but one channel, which holds `x`. -/
def OnlyChannel (s t : State) (channel : Nat) (x : Channel) : Prop :=
  t = { s with channels := t.channels } ∧ getChannel t channel = x ∧ ∀ h, h ≠ channel → getChannel t h = getChannel s h

/-- Everything is unchanged but one die, which holds `x`. -/
def OnlyDie (s t : State) (die : Nat) (x : Die) : Prop :=
  t = { s with dies := t.dies } ∧ getDie t die = x ∧ ∀ d, d ≠ die → getDie t d = getDie s d

end Sys2Proof.Claims

/-- R267, R379, R380, R384: each register of a function's window takes what the host writes; a new ring origin starts its counts
anew; weights of 0 are stored as 1; a write of TRDROP clears it; CMDDOOR waits behind writes of the host that wait for their pages. The
model's choices: a write of CMDBASE clears CMDDOOR and CMDHEAD (log 20), an OCC above 96 is kept (log 73), reserved bits of WINOID are
dropped (log 61). A virtual function changes neither the physical function's registers
nor another's queue. -/
def Sys2Proof.Claims.FunctionRegistersTakeTheirWrites : Prop :=
  ∀ (s : State) (fn : Nat) (x : DWord) (y : Word),
    let f := getFunc s fn
    let sets (i : Instr) (g : Func) : Prop := ∃ t, exec i s = .next t ∧ OnlyFunc s t fn g
    sets (.registerWrite fn 0x00 x) { f with cmdBase := x, cmdDoor := 0, cmdHead := 0 } ∧
    sets (.registerWrite fn 0x08 x) { f with cmdLog := x.setWidth 32 } ∧
    sets (.registerWrite fn 0x18 x) { f with evBase := x } ∧
    sets (.registerWrite fn 0x20 x) { f with evLog := x.setWidth 32 } ∧
    sets (.registerWrite fn 0x30 x) { f with trBase := x, trTail := 0 } ∧
    sets (.registerWrite fn 0x3C x) { f with trHead := x.setWidth 32 } ∧
    sets (.registerWrite fn 0x40 x) { f with winOid := (x.setWidth 24).setWidth 32 } ∧
    sets (.registerWrite fn 0x48 x) { f with winOff := x } ∧
    (s.hostWaiting = [] → sets (.cmddoorWrite fn y) { f with cmdDoor := y }) ∧
    (s.hostWaiting ≠ [] → exec (.cmddoorWrite fn y) s = .next { s with hostWaiting := s.hostWaiting ++ [.cmdDoor fn y] }) ∧
    sets (.trdropWrite fn y) { f with trDrop := 0 } ∧
    sets (.functionRegisterWrite fn x) { f with
      occ := (x.extractLsb' 40 8).toNat, bwwt := max 1 (x.extractLsb' 24 8).toNat, weight := max 1 (x.extractLsb' 8 8).toNat } ∧
    (f.events = [] → sets (.evheadWrite fn y) { f with evHead := y }) ∧
    (f.events ≠ [] → eventRoom { f with evHead := y } = true →
      rangeMapped (modFunc s fn fun f => { f with evHead := y }) (outerPort fn) (eventPlace f).1 (eventPlace f).2 32 = true →
      ∃ t, exec (.evheadWrite fn y) s = .next t ∧ (getFunc t fn).events.length < f.events.length ∧ (getFunc t fn).evHead = y) ∧
    (exec (.registerWrite physFn 0x20000 x) s = .next { s with fownBase := x }) ∧
    (exec (.registerWrite physFn 0x20008 x) s = .next { s with grpBase := x }) ∧
    (exec (.registerWrite physFn 0x20010 x) s = .next { s with poolBase := x }) ∧
    (exec (.registerWrite physFn 0x20020 x) s = .next { s with expBase := x }) ∧
    (∀ offset, 0x12000 ≤ offset → fn ≠ physFn → exec (.registerWrite fn offset x) s = .next s) ∧
    ∀ die queue, die < 4 → queue < 64 →
      let q := getQueue s die queue
      (fn ≠ physFn → queueFn q ≠ fn → ∀ word < 0x20,
        exec (.registerWrite fn (0x10000 + 0x800 * die + 0x20 * queue + word) x) s = .next s) ∧
      (fn = physFn ∨ queueFn q = fn →
        ∃ t, exec (.registerWrite fn (0x10000 + 0x800 * die + 0x20 * queue + 8) x) s = .next t ∧
          OnlyQueue s t die queue { q with base := x })

/-- R258, R395, R397: the word of a queue's block that holds its fields sets them, EN only with an LSIZE below 12, and a new EN starts the
counts anew; only the physical function's write sets PF, VF and CTX. Each of the four words of a watchpoint's block sets its fields and no
other. That a 1 written to an EN of 1 clears nothing, and that the counts start anew where LSIZE keeps EN at 0, is log 52. -/
def Sys2Proof.Claims.QueueAndWatchpointBlocksTakeTheirWrites : Prop :=
  ∀ (s : State) (die n : Nat) (x : DWord), die < 4 → n < 64 →
    let q := getQueue s die n
    let at' := 0x10000 + 0x800 * die + 0x20 * n
    let lsize : BitVec 4 := x.extractLsb' 60 4
    (∀ fn, fn = physFn ∨ queueFn q = fn →
      ∃ t r, exec (.registerWrite fn at' x) s = .next t ∧ OnlyQueue s t die n r ∧ r.lsize = lsize ∧ r.src = x.getLsbD 59 ∧
        r.en = (x.getLsbD 58 && decide (lsize.toNat < 12)) ∧ r.base = q.base ∧
        (fn = physFn → r.pf = x.getLsbD 49 ∧ r.vf = x.extractLsb' 45 4 ∧ r.ctx = x.extractLsb' 33 12) ∧
        (fn ≠ physFn → r.pf = q.pf ∧ r.vf = q.vf ∧ r.ctx = q.ctx) ∧
        (x.getLsbD 58 = true → q.en = false → r.head = 0 ∧ r.tail = 0 ∧ r.halt = false ∧ r.rcode = 0) ∧
        (x.getLsbD 58 = false ∨ q.en = true → r.head = q.head ∧ r.tail = q.tail ∧ r.halt = q.halt ∧ r.rcode = q.rcode)) ∧
    ∀ j < 8,
      let w := sget {} j (getDie s die).watch
      let takes (k : Nat) (new : Watchpoint → Watchpoint → Prop) : Prop :=
        ∃ t r, exec (.registerWrite physFn (0x22000 + 0x200 * die + 0x40 * j + 8 * k) x) s = .next t ∧
          OnlyDie s t die { getDie s die with watch := sput j r (getDie s die).watch } ∧
          (∀ i, i ≠ k → sget 0 i r.raw = sget 0 i w.raw) ∧ (w = watchOf w.raw → new r { w with raw := r.raw })
      takes 0 (fun r old => r = { old with
        valid := x.getLsbD 0, onRead := x.getLsbD 1, onWrite := x.getLsbD 2, onAtomic := x.getLsbD 3
        ctx := (x.extractLsb' 28 12).toNat, oid := (x.extractLsb' 40 24).toNat }) ∧
      takes 1 (fun r old => r = { old with lo := (x.extractLsb' 24 40).toNat }) ∧
      takes 2 (fun r old => r = { old with hi := (x.extractLsb' 24 40).toNat }) ∧
      takes 3 (fun r old => r = { old with program := x })

/-- R258, R267, R379, R380, R384, R395, R397: the registers of a function that the host writes. The model's
choices are named at the two parts (logs 20, 52, 61, 73). -/
def Obligations.RegisterBlocksTakeTheirWrites : Prop :=
  Claims.FunctionRegistersTakeTheirWrites ∧ Claims.QueueAndWatchpointBlocksTakeTheirWrites

/-- R390 to R392, R394: PCAP is clamped to 600 to 2,400; a RATE of 0b11 is stored as 0b10; the refresh balance moves by the refreshes
issued less one and stays within 8 of 0; a row with 4,096 activations is counted anew, no other row's count changes; throttling and the histograms' clears change only
themselves. How the refresh balance moves and where it stops is the model's reading (log 34). -/
def Obligations.PowerAndChannelControlsChange : Prop :=
  ∀ (s : State) (n row : Nat),
    let h := getChannel s n
    (∀ w : Word, ∃ t, exec (.pcapWrite w) s = .next t ∧ t = { s with pcap := t.pcap } ∧ 600 ≤ t.pcap ∧ t.pcap ≤ 2400 ∧
      (600 ≤ w.toNat → w.toNat ≤ 2400 → t.pcap = w.toNat) ∧ (w.toNat < 600 → t.pcap = 600) ∧ (2400 < w.toNat → t.pcap = 2400)) ∧
    (∀ v : BitVec 2, ∃ t, exec (.rateWrite n v) s = .next t ∧
      OnlyChannel s t n { h with rate := if v = 3 then 2 else v, switching := some (if v = 3 then 2 else v) }) ∧
    (∃ t, exec (.rateSwitchDone n) s = .next t ∧ OnlyChannel s t n { h with switching := none }) ∧
    (∀ issued, ∃ t k, exec (.refreshInterval n issued) s = .next t ∧
      OnlyChannel s t n { h with bal := h.bal + (k : Nat) - 1, refreshes := h.refreshes + k } ∧
      (-8 < h.bal → h.bal + issued ≤ 9 → k = issued) ∧
      (-8 ≤ h.bal → h.bal ≤ 8 → -8 ≤ (getChannel t n).bal ∧ (getChannel t n).bal ≤ 8)) ∧
    (∃ t, exec (.rowActivationLimit n row) s = .next t ∧ OnlyChannel s t n { h with rows := (getChannel t n).rows } ∧
      (4096 ≤ sget 0 row h.rows → sget 0 row (getChannel t n).rows = 0) ∧
      (sget 0 row (getChannel t n).rows = 0 ∨ sget 0 row (getChannel t n).rows = sget 0 row h.rows) ∧ ∀ r, r ≠ row → sget 0 r (getChannel t n).rows = sget 0 r h.rows) ∧
    (∃ t, exec (.thermalThrottle n) s = .next t ∧ OnlyDie s t n { getDie s n with throttled := true }) ∧
    (∃ t, exec (.throttleRelease n) s = .next t ∧ OnlyDie s t n { getDie s n with throttled := false }) ∧
    ∀ core counter,
      let p := getPart s core n
      ∃ t, exec (.histogramClear core n counter) s = .next t ∧ OnlyCore s t core ∧
        getPart t core n = { p with eligible := (getPart t core n).eligible, reasons := (getPart t core n).reasons } ∧
        (∀ k, k ≠ n → getPart t core k = getPart s core k) ∧
        (∀ i, sget 0 i (getPart t core n).eligible = if counter = 9 ∨ counter = i ∧ counter < 9 then 0 else sget 0 i p.eligible) ∧
        ∀ i, sget 0 i (getPart t core n).reasons = if counter = 9 ∨ counter = i + 10 then 0 else sget 0 i p.reasons

/-! ### Commands -/

namespace Sys2Proof.Claims

/-- The commands of R382: the event that starts one, its OP, the mask of its OPS bits in use, and whether it is the physical
function's alone. -/
def commandForms (fn : Nat) : List (Instr × Nat × Nat × Bool) :=
  [(.preempt fn, 0x01, 2 ^ 12 - 1, false), (.resumeCommand fn, 0x02, 3 + (2 ^ 32 - 1) * 2 ^ 32, false),
   (.inval fn, 0x03, 2 ^ 40 - 1, false), (.pageresp fn, 0x04, 1, false), (.fugset fn, 0x05, 2 ^ 8 - 1, true),
   (.pull fn, 0x06, 2 ^ 96 - 1, false), (.inject fn, 0x07, 1, true), (.record fn, 0x08, 3, false),
   (.attest fn, 0x09, 2 ^ 384 - 1, false), (.continueHalt fn, 0x0A, 0, false)]

/-- The state once a function's next command is taken from its ring. -/
def commandTaken (s : State) (fn : Nat) : State := modFunc s fn fun f => { f with cmdHead := f.cmdHead + 1 }

/-- The next command of a function is one that may act: read from its ring, of this OP, well formed, permitted. -/
def CommandStarts (s s1 : State) (fn op used : Nat) (pf : Bool) (c : Cmd) : Prop :=
  readCommand s fn = (s1, some c) ∧ c.op = op ∧ cmdReserved used c = true ∧ (pf = true → fn = physFn) ∧
    foreignCtx s fn c = false

/-- Is there room for a function's next event, and is its place in the ring mapped? -/
def EventReady (s : State) (fn : Nat) : Prop :=
  eventRoom (getFunc s fn) = true ∧
    rangeMapped s (outerPort fn) (eventPlace (getFunc s fn)).1 (eventPlace (getFunc s fn)).2 32 = true

/-- The command has been consumed and its completion event written, or left waiting for room (R383, R384). -/
def CommandDone (s t : State) (fn : Nat) (c : Cmd) (status detail : Nat) : Prop :=
  let f := getFunc s fn
  let g := getFunc t fn
  let event : BitVec 256 := BitVec.ofNat 256
    (0x01 + (status % 256) <<< 8 + (c.tag % 65536) <<< 16 + (c.ctx % 2 ^ 32) <<< 32 + detail <<< 64)
  g.cmdHead = f.cmdHead + 1 ∧ (eventRoom f = false → g.events = f.events ++ [event] ∧ g.evTail = f.evTail) ∧
    (EventReady s fn → f.events = [] → g.events = [] ∧ g.evTail = f.evTail + 1 ∧ g.msix = f.msix + 1)

end Sys2Proof.Claims

/-- R381, R382, R400: the next command of a ring is taken by the event of its OP alone. One with a reserved bit set, or with an OP
that is not assigned, completes with status 0x01, one that its function may not give with 0x02, and they do nothing else. A ring
with no command starts none. That 0x01 comes before 0x02 where both checks fail, and that the ring of a function that is being reset starts
no command, are the model's choices (log 20). -/
def Obligations.CommandsAreChecked : Prop :=
  ∀ (s : State) (fn : Nat) (form : Instr × Nat × Nat × Bool), form ∈ commandForms fn →
    let (i, op, used, pf) := form
    let refuses (s1 : State) (i : Instr) (c : Cmd) (status : Nat) : Prop :=
      ∃ t, exec i s = .next t ∧ CommandDone s1 t fn c status 0 ∧ t.contexts = s1.contexts ∧ t.objects = s1.objects ∧
        (eventRoom (getFunc s1 fn) = false → t = { s1 with functions := t.functions })
    ((getFunc s fn).cmdHead = (getFunc s fn).cmdDoor ∨ draining s fn = true → exec i s = .next s ∧ exec (.unknownOp fn) s = .next s) ∧
    ∀ s1 c, readCommand s fn = (s1, some c) →
      (c.op ≠ op → exec i s = .next s) ∧
      (c.op = op → cmdReserved used c = false → refuses s1 i c 0x01) ∧
      (c.op = op → cmdReserved used c = true → (pf = true ∧ fn ≠ physFn) ∨ foreignCtx s fn c = true → refuses s1 i c 0x02) ∧
      (c.op = op → exec (.unknownOp fn) s = .next s) ∧
      (c.op = 0 ∨ 0x0A < c.op → refuses s1 (.unknownOp fn) c 0x01)

/-- R22, R23, R227, R231, R232, R395, R396, R401: PREEMPT of a context that runs, with an image object large enough, stops it until
its image is saved; the image is written at its place, the context leaves its cores. RESUME takes a context's registers from a sound
header and lets it run where the places of its image are free. RECORD starts and ends recording, CONTINUE a debug halt. A context in
another state gives status 0x05, an image object that fails its checks 0x04; what lacks a page waits. The model's choices: RECORD of mode 3
gives 0x01 (log 20), PREEMPT waits while its context cannot come to rest (log 55), the place of an image and a RESUME that waits for its
places (log 19), RECORD of a context that does not exist yet (log 4). -/
def Obligations.ContextCommandsComplete : Prop :=
  ∀ (s s1 : State) (fn : Nat) (c : Cmd),
    let ready (op used : Nat) : Prop := CommandStarts s s1 fn op used false c
    let s2 := commandTaken s1 fn
    let x := getContext s1 c.ctx
    let o := getObject s1 fn c.oid
    let place : Nat × Nat := (fn * 2 ^ 24 + c.oid, c.off)
    let fails (i : Instr) (status detail : Nat) : Prop :=
      ∃ t, exec i s = .next t ∧ CommandDone s1 t fn c status detail ∧ t.contexts = s1.contexts
    let stays (i : Instr) : Prop :=
      ∃ t, exec i s = .next t ∧ (getFunc t fn).cmdHead = (getFunc s fn).cmdHead ∧ t.contexts = s1.contexts
    (ready 0x01 (2 ^ 12 - 1) →
      ((sfind c.ctx s1.contexts).isSome = false ∨ preemptable s2 c.ctx = false → fails (.preempt fn) 0x05 0) ∧
      ((sfind c.ctx s1.contexts).isSome = true → preemptable s2 c.ctx = true →
        let fits : Prop := objValid o = true ∧ objClass o = 2 ∧ c.off + (makeImage s2 c.ctx).total ≤ objSize o
        (¬ fits → fails (.preempt fn) 0x04 0) ∧ (fits → restReady s2 c.ctx = false → stays (.preempt fn)) ∧
        (fits → restReady s2 c.ctx = true →
          ∃ t, exec (.preempt fn) s = .next t ∧ (getFunc t fn).cmdHead = (getFunc s1 fn).cmdHead + 1 ∧
            (getContext t c.ctx).run = .saving c.tag (some fn) place))) ∧
    (∀ ctx tag asked at', (getContext s ctx).run = .saving tag asked at' →
      let img := makeImage s ctx
      (placeReady s ctx at' img = false →
        ∃ t, exec (.preemptionImageSaved ctx) s = .next t ∧ getContext t ctx = getContext s ctx) ∧
      (placeReady s ctx at' img = true →
        ∃ t, exec (.preemptionImageSaved ctx) s = .next t ∧
          (getContext t ctx).run = (if asked.isSome then .saved else .parked) ∧ (getContext t ctx).image = some at' ∧
          (∀ core ∈ ownedCores s ctx, (getCore t core).launch = none ∧ (getCore t core).owner = none ∧
            (getCore t core).casts = [] ∧ (getCore t core).cue = none ∧ (getCore t core).xfers = []) ∧
          (∀ e ∈ img.launches, sfind (launchKey ctx e.1) t.launches = none) ∧
          ((∀ f, asked = some f → eventRoom (getFunc s f) = false) → MemoryKept (writeImage s ctx at' img) t))) ∧
    (ready 0x02 (3 + (2 ^ 32 - 1) * 2 ^ 32) →
      (c.ctx = 0 ∨ (∃ y, sfind c.ctx s1.contexts = some y ∧ y.run ≠ .saved) → fails (.resumeCommand fn) 0x05 0) ∧
      ((∀ y, sfind c.ctx s1.contexts = some y → y.run = .saved) → c.ctx ≠ 0 →
        (objValid o = false ∨ objClass o ≠ 2 → fails (.resumeCommand fn) 0x04 0) ∧
        ∀ s3 s4 bs hdr, objValid o = true → objClass o = 2 → frontRead s2 fn c.oid c.off 0x100 = .ok s3 bs →
          frontRead s3 fn c.oid c.off (min 65536 (0x100 + 4 * recNat bs 0xF0 4)) = .ok s4 hdr →
          headerSound c.ctx (objSize o - c.off) hdr = true →
          let owner := ctxidFn (recNat hdr 0x14 4)
          let run := recNat hdr 0x10 4 % 4
          let sec := (secDir hdr).getLastD (0, 0)
          (run < 2 → fn = physFn ∨ owner = fn → draining s4 owner = false → (∀ oid ∈ objList hdr, objValid (getObject s4 owner oid) = true) →
            rangeMapped s4 (outerPort fn) c.oid c.off (recNat hdr 8 8) = true →
            ∀ p, readBook s4 fn c.oid (c.off + sec.1) sec.2 = .parts p →
            ∃ t, exec (.resumeCommand fn) s = .next t ∧ (getFunc t fn).cmdHead = (getFunc s1 fn).cmdHead + 1 ∧
              let y := getContext t c.ctx
              y.mode = BitVec.ofNat 32 (recNat hdr 0x10 4) ∧ y.ctxid = BitVec.ofNat 32 (recNat hdr 0x14 4) ∧
              y.stepbase = BitVec.ofNat 64 (recNat hdr 0x20 8) ∧ y.fn = owner ∧ y.svc = c.ops % 4 ∧
              sget 0 (c.ops % 4) y.slack = BitVec.ofNat 32 (field c.ops 63 32) ∧ y.image = some place ∧
              (y.run = .running ∨ y.run = .parked) ∧
              let u0 := modContext (loadParts (unstage s4 c.ctx place) c.ctx p) c.ctx (headerContext c place hdr)
              ∀ img ls s5, imageOf u0 c.ctx = some img →
                let u := modContext u0 c.ctx fun z => { z with homes := coresIn img }
                placesFree u c.ctx img = true → launchesBack owner c.ctx img img.launches u = .ok s5 ls → y.run = .running) ∧
          (fn ≠ physFn → owner ≠ fn → run < 3 → ∃ t, exec (.resumeCommand fn) s = .next t ∧
            (getContext t c.ctx).run = x.run ∧ (getFunc t fn).cmdHead = (getFunc s1 fn).cmdHead + 1))) ∧
    (ready 0x08 3 →
      (c.ops % 4 = 3 → fails (.record fn) 0x01 0) ∧ (c.ops % 4 ≠ 3 → c.ctx = 0 → fails (.record fn) 0x05 0) ∧
      (c.ctx ≠ 0 →
        (c.ops % 4 = 0 → ∃ t, exec (.record fn) s = .next t ∧ CommandDone s1 t fn c 0 0 ∧
          (getContext t c.ctx).recording = none) ∧
        (c.ops % 4 = 1 ∨ c.ops % 4 = 2 → objValid o = false → fails (.record fn) 0x03 c.oid) ∧
        (c.ops % 4 = 1 ∨ c.ops % 4 = 2 → objValid o = true → objClass o ≠ 2 → fails (.record fn) 0x04 0) ∧
        (c.ops % 4 = 1 ∨ c.ops % 4 = 2 → objValid o = true → objClass o = 2 →
          ∃ t, exec (.record fn) s = .next t ∧ CommandDone s1 t fn c 0 0 ∧
            (getContext t c.ctx).recording = some { mode := c.ops % 4, fn := fn, oid := c.oid, off := c.off }))) ∧
    (ready 0x0A 0 →
      let here : Prop := (sfind c.ctx s1.contexts).isSome = true
      let halted : Prop := x.run = .halted ∧ draining s2 x.fn = false
      let done (run : RunState) (held : Bool) : Prop :=
        ∃ t, exec (.continueHalt fn) s = .next t ∧ CommandDone s1 t fn c 0 0 ∧ (getContext t c.ctx).run = run ∧
          (getContext t c.ctx).held = held ∧ (eventRoom (getFunc s1 fn) = false → t.cores = s1.cores)
      (¬ (here ∧ (halted ∨ x.held = true)) → fails (.continueHalt fn) 0x05 0) ∧ (here → halted → done .running x.held) ∧
      (here → ¬ halted → x.held = true → done x.run false))

/-- R138, R140, R141, R375, R382, R384, R387, R388: INVAL removes the translations of a range in every TLB, and an entry of the object that
the host has written is used from then on (log 84); PAGERESP answers the threads and the requests of peers that
wait for a page, both after the commands before them; FUGSET makes a Fugitive object of a Lightfast one; INJECT marks a line; ATTEST
writes 512 bytes that begin with the nonce and the function's number, places that are the model's choice (log 21); PULL starts a job whose
pages land one by one. -/
def Obligations.MemoryCommandsComplete : Prop :=
  (∀ (s s1 : State) (fn : Nat) (c : Cmd),
    let ready (op used : Nat) (pf : Bool) : Prop := CommandStarts s s1 fn op used pf c
    let s2 := commandTaken s1 fn
    let o := getObject s1 fn c.oid
    let q := outerPort fn
    let stays (i : Instr) : Prop :=
      ∃ t, exec i s = .next t ∧ t = { s1 with functions := t.functions } ∧ ∀ f, getFunc t f = getFunc s1 f
    (ready 0x03 (2 ^ 40 - 1) false →
      (cmdsBusy s2 fn = true → stays (.inval fn)) ∧
      (cmdsBusy s2 fn = false →
        let keeps (e : TlbEntry) : Bool := !(e.fn == fn && e.oid == c.oid && overlaps e.off e.size c.off (c.ops % 2 ^ 40))
        let s3 := takeEntry s1 fn c.oid
        ∃ t, exec (.inval fn) s = .next t ∧ CommandDone s3 t fn c 0 0 ∧
          (∀ e, sfind (fn * 2 ^ 24 + c.oid) s1.objectWrites = some e →
            getObject t fn c.oid = e ∧ sfind (fn * 2 ^ 24 + c.oid) t.objectWrites = none) ∧
          (sfind (fn * 2 ^ 24 + c.oid) s1.objectWrites = none → t.objects = s1.objects ∧ t.objectWrites = s1.objectWrites) ∧
          (∀ core, (getCore t core).tlb = (getCore s1 core).tlb.filter keeps) ∧
          ∀ die, (getDie t die).tlb = (getDie s1 die).tlb.filter keeps)) ∧
    (ready 0x04 1 false →
      (cmdsBusy s2 fn = true → stays (.pageresp fn)) ∧
      (cmdsBusy s2 fn = false →
        let k := pageKeyOf s1 fn c.oid c.off
        let asked := s1.pageRequests.contains k
        ∃ t, exec (.pageresp fn) s = .next t ∧ CommandDone s1 t fn c 0 0 ∧ k ∉ t.pageRequests ∧
          (∀ core cast lane, getThread t core cast lane =
            if asked = true ∧ (getThread s1 core cast lane).wait = .page k then
              { getThread s1 core cast lane with wait := if c.ops % 2 = 1 then .ready else .refused k }
            else getThread s1 core cast lane) ∧
          (asked = true → ∀ e, e ∈ t.peerPages ↔ ∃ e0 ∈ s1.peerPages,
            (e0.1.key ≠ k ∧ e = e0) ∨ (e0.1.key = k ∧ c.ops % 2 = 0 ∧ e = (e0.1, true))) ∧
          (asked = true → ∀ core q, getCue s1 core = some q → q.page = some k →
            getCue t core = some (if c.ops % 2 = 1 then { q with page := none } else { q with denied := some k })))) ∧
    (∀ t', ready 0x05 (2 ^ 8 - 1) true → tableFn s2 c = some t' →
      let o := getObject s1 t' c.oid
      let s3 := drainExtents s2 (objTier o) (extentsOf s2 o)
      let sound : Prop := objClass o = 2 ∧ objPaged o = false ∧ objTier o < 2 ∧ objectUsed s2 t' c.oid = false ∧ c.off = 0
      let still : Prop := ∀ w ∈ s3.homeWrites, w.applied = false → inExtents (objTier o) (extentsOf s2 o) w.line = false
      let fails (status detail : Nat) : Prop :=
        ∃ t, exec (.fugset fn) s = .next t ∧ CommandDone s1 t fn c status detail ∧ t.objects = s1.objects
      (objValid o = false → fails 0x03 c.oid) ∧ (objValid o = true → ¬ sound → fails 0x04 0) ∧
      (objValid o = true → sound → ¬ still →
        ∃ t, exec (.fugset fn) s = .next t ∧ (getFunc t fn).cmdHead = (getFunc s fn).cmdHead ∧ t.objects = s1.objects) ∧
      (objValid o = true → sound → still → firstMissing s3 (outerPort t') c.oid [0] = none →
        (fugHeader s3 (outerPort t') c.oid = none →
          ∃ t, exec (.fugset fn) s = .next t ∧ (getFunc t fn).cmdHead = (getFunc s1 fn).cmdHead + 1 ∧ t.objects = s1.objects) ∧
        ∀ f groups, fugHeader s3 (outerPort t') c.oid = some f →
          takeGroups s3 (c.ops % 256) (objTier o) 1 (pagesFrom o f.poff) = some groups →
          ∃ t, exec (.fugset fn) s = .next t ∧ (getFunc t fn).cmdHead = (getFunc s1 fn).cmdHead + 1 ∧
            objClass (getObject t t' c.oid) = 3 ∧ objSize (getObject t t' c.oid) = objSize o ∧
            objTier (getObject t t' c.oid) = objTier o)) ∧
    (∀ t' k, ready 0x07 1 true → tableFn s2 c = some t' → objValid (getObject s1 t' c.oid) = true →
      resolve s2 (outerPort t') c.oid c.off = some k →
      ∃ t, exec (.inject fn) s = .next t ∧ CommandDone s1 t fn c 0 0 ∧
        (eventRoom (getFunc s1 fn) = false → t = { s1 with functions := t.functions, injected := t.injected } ∧
          sfind (k / 64) t.injected = some (c.ops % 2 == 1))) ∧
    (ready 0x09 (2 ^ 384 - 1) false → objValid o = true → c.off + 512 ≤ objSize o → objClass o ≠ 3 →
      rangeMapped s2 q c.oid c.off 512 = true →
      ∃ t bs, exec (.attest fn) s = .next t ∧ (getFunc t fn).cmdHead = (getFunc s1 fn).cmdHead + 1 ∧ bs.length = 512 ∧
        bs.take 52 = toBytes 48 c.ops ++ toBytes 4 fn ∧ (eventRoom (getFunc s1 fn) = false →
          MemoryKept (writeObject s2 q c.oid c.off bs) t)) ∧
    (ready 0x06 (2 ^ 96 - 1) false →
      let pages := field c.ops 95 64
      (objValid o = false → ∃ t, exec (.pull fn) s = .next t ∧ CommandDone s1 t fn c 0x03 c.oid ∧ t.pulls = s1.pulls) ∧
      (objValid o = true → objPaged o = true → c.off % 4096 = 0 → allMigrating s2 fn c.oid c.off pages = true →
        (pages = 0 → ∃ t, exec (.pull fn) s = .next t ∧ CommandDone s1 t fn c 0 0 ∧ t.pulls = s1.pulls) ∧
        (pages ≠ 0 → ∃ t, exec (.pull fn) s = .next t ∧ (getFunc t fn).events = (getFunc s1 fn).events ∧ MemoryKept s1 t ∧
          t.pulls = s1.pulls ++ [{ id := s1.fresh, fn, oid := c.oid, off := c.off, source := field c.ops 63 0, pages, lost := []
                                   tag := c.tag, ctx := c.ctx }])))) ∧
  ∀ (s : State) (job : Nat) (lost : Bool),
    ((∀ j ∈ s.pulls, j.id ≠ job) → exec (.pullPageComplete job lost) s = .next s) ∧
    ∀ j, s.pulls.find? (fun j => j.id == job) = some j →
      let j1 : PullJob := { j with
        off := j.off + 4096, source := j.source + 4096, pages := j.pages - 1, lost := if lost then j.lost ++ [j.off] else j.lost }
      ∃ t, exec (.pullPageComplete job lost) s = .next t ∧
        t.pulls = (if j.pages ≤ 1 then s.pulls.filter fun x => decide (x.id ≠ job)
          else s.pulls.map fun x => if x.id = job then j1 else x) ∧
        ∀ leaf first size dst, lost = false → 1 < j.pages → leafOf s j.fn j.oid j.off = some (leaf, first, size) →
          (∃ k ∈ leafPages j.fn j.oid first size, k ∉ ({ fn := j.fn, oid := j.oid, off := j.off } : PageKey) :: s.landed) →
          CachesSound s → objClass (getObject s j.fn j.oid) ≠ 0 →
          physKey (objTier (getObject s j.fn j.oid)) (field (homeNat s leaf 8) 51 12 * 4096 + (j.off - first)) = some dst →
          dst % 64 = 0 → (∀ i < 64, isPeerLine (dst / 64 + i) = false) →
          ∀ i < 64, homeData t (dst / 64 + i) = homeData s ((peerKey + j.source % 2 ^ 52) / 64 + i) ∧
            nmem (dst / 64 + i) t.poison = nmem ((peerKey + j.source % 2 ^ 52) / 64 + i) s.poison

/-! ### The host, peers, errors, the scrub -/

namespace Sys2Proof.Claims

/-- One completion more has left for a function of the host, or for a peer. -/
def Replies (s t : State) (peer : Bool) (fn : Nat) (what : Completion) : Prop :=
  t.replies = s.replies ++ [{ peer := peer, fn := fn, what := what }]

/-- No line of a range of an object is poisoned, and no check of one will fail. -/
def CleanRange (s : State) (q : Port) (oid off n : Nat) : Prop :=
  objectPoisoned s q oid off n = false ∧
    ∀ c ∈ rangeChunks off n, ∀ key, resolve s q oid c.1 = some key → sfind (key / 64) s.injected = none

end Sys2Proof.Claims

/-- R380, R386, R141, R368: accesses of the host through its aperture and of peers through the export table are performed at the homes:
a read returns the bytes and leaves memory as it was, a write and an atomic store theirs. One outside its bounds, of a Fugitive object
or without a right completes as unsupported and does nothing. The host's access to a page that is not valid waits, and those after it
stay behind; a peer's is to be retried, and an absent page is requested, which ends the request as unsupported once the host has refused
it. The model's choices: the rights of an export entry stand in its bits 8, 9 and 10 (log 59), an atomic of another operation, size or
alignment completes as unsupported (log 26), requests alike in page, bytes and operation count as one that is sent again (log 85). -/
def Obligations.OuterAccessesReachMemory : Prop :=
  (∀ (s : State) (fn offset size : Nat) (write : Option Nat),
    let f := getFunc s fn
    let oid := f.winOid.toNat % 2 ^ 24
    let off := f.winOff.toNat + offset
    let q := outerPort fn
    let o := getObject s fn oid
    let a : HostAccess := { fn := fn, oid := oid, off := off, bytes := write.map (toBytes size), size := size }
    let run := exec (.hostApertureAccess fn offset size write) s
    let fails (what : Completion) : Prop := ∃ t, run = .next t ∧ t = { s with replies := t.replies } ∧ Replies s t false fn what
    let waits : Prop := run = .next { s with hostWaiting := s.hostWaiting ++ [.access a] }
    (2 ^ 30 < offset + size → fails .unsupported) ∧
    (offset + size ≤ 2 ^ 30 → s.hostWaiting ≠ [] → waits) ∧
    (offset + size ≤ 2 ^ 30 → s.hostWaiting = [] →
      (objValid o = false ∨ objSize o < off + size ∨ objClass o = 3 → fails .unsupported) ∧
      (∀ x absent, outerPlace s q oid off size = .missing x absent → waits) ∧
      (outerPlace s q oid off size = .ok → CleanRange s q oid off size → CachesSound s →
        (write = none → ∃ t, run = .next t ∧ MemoryKept s t ∧ Replies s t false fn (.done (outerBytes s q oid off size))) ∧
        ∀ v key, write = some v → off % 64 + size ≤ 64 → 0 < size → resolve s q oid off = some key → key % 64 + size ≤ 64 →
          ∃ t, run = .next t ∧ Replies s t false fn (.done []) ∧ homeBytes t key size = toBytes size v ∧
            ∀ a, a < key ∨ key + size ≤ a → homeByte t a = homeByte s a))) ∧
  ∀ (s : State) (entry offset size : Nat) (op : PeerOp),
    let x := homeNat s (s.expBase.toNat + 16 * entry) 16
    let fn := if x.testBit 11 then physFn else field x 15 12
    let q := outerPort fn
    let oid := field x 127 104
    let off := field x 103 64 + offset
    let right := match op with
      | .read => x.testBit 8
      | .write _ => x.testBit 9
      | .atomic _ _ _ => x.testBit 10
    let sound := match op with
      | .read => true
      | .write _ => true
      | .atomic m _ _ => decide (atomKind m ≤ 11 ∧ size = atomBytes m ∧ off % atomBytes m = 0)
    let may : Prop := x.testBit 0 = true ∧ right = true ∧ offset + size ≤ 4096 * field x 63 32 ∧ sound = true
    let run := exec (.peerRequest entry offset size op) s
    let again (t : State) : Prop := ∃ k, Replies s t true fn (.retryAfter k)
    (¬ may ∨ outerPlace s q oid off size = .unsupported →
      ∃ t, run = .next t ∧ t = { s with replies := t.replies } ∧ Replies s t true fn .unsupported) ∧
    (may →
      (∀ o, outerPlace s q oid off size = .missing o false → ∃ t, run = .next t ∧ t = { s with replies := t.replies } ∧ again t) ∧
      (∀ o, outerPlace s q oid off size = .missing o true →
        let a : PeerAsk := { key := pageKeyOf s fn oid o, off := off, size := size, op := op }
        (s.peerPages.contains (a, true) = true →
          ∃ t, run = .next t ∧ Replies s t true fn .unsupported ∧ MemoryKept s t ∧ ∀ b, (a, b) ∉ t.peerPages) ∧
        (s.peerPages.contains (a, true) = false → s.peerPages.contains (a, false) = true →
          ∃ t, run = .next t ∧ again t ∧ MemoryKept s t ∧ t.peerPages = s.peerPages) ∧
        (s.peerPages.contains (a, true) = false → s.peerPages.contains (a, false) = false →
          ∃ t, run = .next t ∧ again t ∧ a.key ∈ t.pageRequests ∧ t.peerPages = s.peerPages ++ [(a, false)])) ∧
      (outerPlace s q oid off size = .ok → CleanRange s q oid off size → CachesSound s →
        (op = .read → ∃ t, run = .next t ∧ MemoryKept s t ∧ Replies s t true fn (.done (outerBytes s q oid off size))) ∧
        ∀ key old, off % 64 + size ≤ 64 → 0 < size → resolve s q oid off = some key → key % 64 + size ≤ 64 →
          readObject s q oid off size = some old →
          let puts (v : Nat) (bs : List Byte) : Prop := ∃ t, run = .next t ∧ homeBytes t key size = toBytes size v ∧
            Replies s t true fn (.done bs) ∧ ∀ a, a < key ∨ key + size ≤ a → homeByte t a = homeByte s a
          (∀ v, op = .write v → puts v []) ∧
          ∀ m y z, op = .atomic m y z → puts (atomNew (atomKind m) (ofBytes old) y z).1 old))

/-- R272, R273, R346, R355, R356: an error in data poisons the line, of which a Bare one takes zeros; one in control state empties the
budget of every context of the functions it concerns, and of no other. The scrub consumes the error of a line, poisons it where it cannot
be corrected and charges each owner once, 1 for a corrected error and 4 for the others. The model's choices: a line lies in the slice of L2
whose number is the line's modulo 32 (log 8); a line has the class of the object that holds it, and one that no object holds is poisoned by
an error, but passed over by the scrub (log 58). -/
def Obligations.ErrorsPoisonAndCharge : Prop :=
  (∀ (s : State) (part : SharedStructure) (line : Nat), (∀ e ∈ s.contexts, getContext s e.1 = e.2) →
    (holdsData part = true →
      ∃ t, exec (.sharedStructureError part line false) s = .next t ∧ t.contexts = s.contexts ∧
        (lineClass s line = some 0 → homeData t line = 0 ∧ t.poison = s.poison) ∧
        (lineClass s line ≠ some 0 → nmem line t.poison = true ∧ MemoryKept s t)) ∧
    ∃ t, exec (.sharedStructureError part line true) s = .next t ∧
      ∀ ctx, (sfind ctx s.contexts).isSome = true →
        ((getContext s ctx).fn ∈ blastSet s part → ctx ≠ 0 → (getContext t ctx).ebud = 0) ∧
        ((getContext s ctx).fn ∉ blastSet s part → getContext t ctx = getContext s ctx) ∧
        ((getContext s ctx).fn ∈ blastSet s part → ctx ≠ 0 → ∀ core cast lane, (getCore s core).launch.isSome = true →
          coreCtx s core = ctx → (getThread s core cast lane).live = true → (getThread t core cast lane).exh = true)) ∧
  (∀ (s : State) (die slice ctx : Nat), (∃ e ∈ (getDie s die).l2, e.1 % 32 = slice ∧ e.2.ctx = ctx) → ctx ≠ 0 →
    (sfind ctx s.contexts).isSome = true → (getContext s ctx).fn ∈ blastSet s (.l2Slice die slice)) ∧
  ∀ (s : State) (line : Nat),
    (sfind line s.injected = none ∨ nmem line s.poison = true ∨ lineClass s line = none ∨ lineClass s line = some 0 →
      exec (.firmwareScrub line) s = .next s) ∧
    ∀ cls bad, lineClass s line = some cls → cls ≠ 0 → cls < 4 → sfind line s.injected = some bad → nmem line s.poison = false →
      let cost := if cls = 2 ∧ bad = false then 1 else 4
      ∃ t, exec (.firmwareScrub line) s = .next t ∧ sfind line t.injected = none ∧ nmem line t.poison = decide (cost = 4) ∧
        ∀ ctx, (getContext t ctx).ebud.toNat =
          if ctx ∈ ownershipSet s line ∧ ctx ≠ 0 then (getContext s ctx).ebud.toNat - cost else (getContext s ctx).ebud.toNat

/-! ### Resets, the trip, watchpoints -/

/-- R274 to R276, R388, R392: a function-level reset stops a function's queues and contexts; at the end of the drain its contexts are
gone, its translations too, its queues and partition registers hold their reset values. Clearing VF Enable stops every virtual function
and resets them in turn. PCLU takes its value once every context that it moves can come to rest, which is the model's reading (log 55); one that has no
image object runs on, another runs on elsewhere or waits for its image or its places. At 115 °C every context that has an image object and
can come to rest is saved; once every image is written and no event of the physical function waits, the module powers down. The firmware
runs if its signature verifies. What becomes of a context without an image object is the model's choice (log 19). -/
def Obligations.ResetsStopWhatTheyConcern : Prop :=
  (∀ (s : State) (fn : Nat),
    (draining s fn = true → exec (.functionLevelReset fn) s = .next s) ∧
    (draining s fn = false →
      ∃ t, exec (.functionLevelReset fn) s = .next t ∧ t = { s with contexts := t.contexts, functions := t.functions } ∧
        getFunc t fn = { getFunc s fn with flr := .draining (getDie s 0).clk, stopped := true } ∧
        (∀ f, f ≠ fn → getFunc t f = getFunc s f) ∧
        t.contexts = s.contexts.map fun e => (e.1, if e.2.fn = fn then { e.2 with run := .halted } else e.2)) ∧
    (draining s fn = false → exec (.flrDrainExpiry fn) s = .next s) ∧
    (draining s fn = true → (∀ f, (getFunc s f).flr ≠ .queued) →
      ∃ t, exec (.flrDrainExpiry fn) s = .next t ∧ (∀ e ∈ t.contexts, e.2.fn ≠ fn) ∧
        (getFunc t fn).pclu = 0 ∧ (getFunc t fn).occ = 0 ∧ (getFunc t fn).bwwt = 1 ∧ (getFunc t fn).weight = 1 ∧
        (getFunc t fn).flr = .idle ∧ (getFunc t fn).stopped = false ∧
        (∀ f, f ≠ fn → (getFunc t f).pclu = (getFunc s f).pclu ∧ (getFunc t f).stopped = (getFunc s f).stopped) ∧
        (∀ core, ∀ e ∈ (getCore t core).tlb, e.fn ≠ fn) ∧ (∀ die, ∀ e ∈ (getDie t die).tlb, e.fn ≠ fn) ∧
        (∀ die n, getQueue t die n = if queueFn (getQueue s die n) = fn then {} else getQueue s die n) ∧
        ∀ ctx c, sfind ctx s.contexts = some c → c.fn ≠ fn →
          (getContext t ctx).fn = c.fn ∧ (getContext t ctx).run = c.run ∧ (getContext t ctx).mode = c.mode)) ∧
  (∀ s : State, (∀ fn < 16, draining s fn = false) →
    ∃ t, exec .vfEnableClear s = .next t ∧ t.vfEnable = false ∧ MemoryKept s t ∧ (∀ fn < 16, (getFunc t fn).stopped = true) ∧
      (getFunc t 0).flr = .draining (getDie s 0).clk ∧ (∀ fn < 16, fn ≠ 0 → (getFunc t fn).flr = .queued) ∧
      getFunc t physFn = getFunc s physFn) ∧
  (∀ (s : State) (fn : Nat) (value : DWord),
    let gone := (List.range 64).filter fun n => (getFunc s fn).pclu.getLsbD n && !value.getLsbD n
    (movedContexts s fn gone = [] →
      ∃ t, exec (.pcluWrite fn value) s = .next t ∧ OnlyFunc s t fn { getFunc s fn with pclu := value }) ∧
    ((∃ ctx ∈ movedContexts s fn gone, restReady s ctx = false) → exec (.pcluWrite fn value) s = .next s) ∧
    ((∀ ctx ∈ movedContexts s fn gone, restReady s ctx = true) →
      ∃ t, exec (.pcluWrite fn value) s = .next t ∧ (getFunc t fn).pclu = value ∧
        ∀ ctx ∈ movedContexts s fn gone, (getContext s ctx).run = .running →
          ((getContext s ctx).image = none → (getContext t ctx).run = .running) ∧
          ∀ place, (getContext s ctx).image = some place → (getContext t ctx).run = .running ∨ (getContext t ctx).run = .halted ∨
            (getContext t ctx).run = .parked ∨ (getContext t ctx).run = .saving 0 none place)) ∧
  (∀ (s : State) (die temperature : Nat),
    (temperature < 115 → exec (.thermalTrip die temperature) s = .next s) ∧
    (115 ≤ temperature → ∃ t, exec (.thermalTrip die temperature) s = .next t ∧ t.tripped = true ∧
      (let settled : Prop := (∀ e ∈ t.contexts, e.2.image = none ∨ e.2.run = .saved ∨ e.2.run = .parked) ∧ (getFunc t physFn).events = [];
        (settled → t.poweredDown = true) ∧ (¬ settled → t.poweredDown = s.poweredDown)) ∧
      ((∀ n, (getCluster s n).refill = []) → ∀ ctx place, (sfind ctx s.contexts).isSome = true → preemptable s ctx = true →
        oldNeeded s ctx = false → (getContext s ctx).image = some place →
        (getContext t ctx).run = .parked ∨ (getContext t ctx).run = .saving 0 none place))) ∧
  ∀ s : State, exec .moduleBoot s = .next { s with booted := s.booted || Config.firmwareValid }

/-- R383, R395: a thread that has performed watched accesses stops, and the lowest watchpoint that its oldest access meets starts its
predicate. An EXIT of 0 starts the next watchpoint's predicate, or ends the access, after the last of which the thread goes on; another
status, a fault, a page that the host refuses (the model's choice, log 22) or the 256th instruction halts the context. -/
def Obligations.WatchpointsStopThreads : Prop :=
  (∀ (s : State) (core : Nat) (th : Nat × Nat), (getThread s core th.1 th.2).performed ≠ [] → threadMayIssue s core th = false) ∧
  ∀ (s : State) (die index : Nat),
    let d := getDie s die
    let clears (t : State) : Prop := (getDie t die).predicate = none
    (d.predicate.isSome = true → exec (.watchpointMatch die index) s = .next s) ∧
    (d.predicate = none → (∀ w ∈ watchedThreads s die, matching s w.1 w.2.2.2 0 ≠ [] ∧ (matching s w.1 w.2.2.2 0).head? ≠ some index) →
      exec (.watchpointMatch die index) s = .next s) ∧
    (∀ core cast lane x rest, d.predicate = none → hasLane s core cast lane = true →
      watchedThreads s die = (core, cast, lane, x) :: rest →
      let old := getThread s core cast lane
      (matching s core x 0 = [] →
        ∃ t, exec (.watchpointMatch die index) s = .next t ∧ OnlyLanes s t core [(cast, lane)] ∧
          getThread t core cast lane = { old with performed := old.performed.tail }) ∧
      (∀ more, matching s core x 0 = index :: more →
        ∃ t, exec (.watchpointMatch die index) s = .next t ∧ getThread t core cast lane = old ∧
          (getDie t die).predicate = some { agent := .lane core cast lane, watch := index, access := x } ∧ MemoryKept s t)) ∧
    (d.predicate = none → exec (.watchpointPredicateEnd die) s = .next s) ∧
    ∀ p core cast lane, d.predicate = some p → p.agent = .lane core cast lane → hasLane s core cast lane = true →
      (getThread s core cast lane).live = true → (getThread s core cast lane).performed.head? = some p.access →
      contextRuns s core = true →
      let run := exec (.watchpointPredicateEnd die) s
      let ends := predicateOf s core cast lane (sget {} p.watch d.watch) p.access
      let halts (s1 : State) : Prop :=
        ∃ t, run = .next t ∧ clears t ∧ (getContext t (coreCtx s1 core)).run = .halted
      (ends = .waits → run = .next s) ∧
      (∀ k, ends = .page k →
        (p.page = some (k, true) → halts s) ∧ (p.page = some (k, false) → run = .next s) ∧
        (p.page ≠ some (k, true) → p.page ≠ some (k, false) → lookup s (corePort s core) k.oid k.off = .absent →
          ∃ t, run = .next t ∧ k ∈ t.pageRequests ∧ (getDie t die).predicate = some { p with page := some (k, false) })) ∧
      (∀ s1, ends = .exits s1 0 → hasLane s1 core cast lane = true →
        (matching s1 core p.access (p.watch + 1) = [] →
          ∃ t, run = .next t ∧ clears t ∧ MemoryKept s1 t ∧ getThread t core cast lane =
            { getThread s1 core cast lane with performed := (getThread s1 core cast lane).performed.tail }) ∧
        ∀ n more, matching s1 core p.access (p.watch + 1) = n :: more →
          ∃ t, run = .next t ∧ (getDie t die).predicate = some { p with watch := n, page := none } ∧
            getThread t core cast lane = getThread s1 core cast lane ∧ MemoryKept s1 t) ∧
      (∀ s1 n, ends = .exits s1 n → n ≠ 0 → halts s1) ∧ (∀ s1, ends = .faults s1 → halts s1) ∧
      ∀ s1, ends = .tooLong s1 → halts s1

/-! ### The step, fetch, encoding, the invariant, reset -/

namespace Sys2Proof.Claims

/-- The state in which a turn is made: the turn is off the agenda, the model's counters have moved. -/
def turnState (s : State) (rest : List Turn) : State :=
  { s with agenda := rest, tick := s.tick + 1, issued := s.issued + 1, actor := .none }

end Sys2Proof.Claims

/-- R32, R34, R55, R175, R388, R392: a step executes the instruction that the words at the program counter of the issuing lanes, or of the cue thread,
decode to, in the state that the fetch leaves, and an event as it stands; a drawn group first parts where its threads no longer agree
on a PC. Where the fetch or the decoding fails, the threads take the fault; where a page of code is missing, they wait for it. Before the
boot nothing but the boot happens, and nothing once the module is powered down. -/
def Obligations.StepRunsDecodedInstruction : Prop :=
  ∀ (s : State) (turn : Turn) (rest : List Turn),
    s.agenda = turn :: rest ∨ (s.agenda = [] ∧ rest = [] ∧ turn = Config.schedule s.tick) →
    let s0 := turnState s rest
    let on : Prop := s.booted = true ∧ s.poweredDown = false
    (∀ core ths c l more s1 ws, turn = .lanes core ths → on → ths = (c, l) :: more →
      let s2 := splitDrawn s0 core
      groupMayIssue s2 core ths = true →
      let t := getThread s2 core c l
      fetchAt s2 core t.codeEpoch t.pc t.denied = .ok s1 ws →
      (∀ i, decodeWords ws = .ok i → step s = exec i { noteIssue s1 core with actor := .lanes core ths }) ∧
      (∀ r, decodeWords ws = .error r → step s = .next (faultAll s1 core ths (undecodable ws)))) ∧
    (∀ core ths c l more, turn = .lanes core ths → on → ths = (c, l) :: more →
      let s2 := splitDrawn s0 core
      groupMayIssue s2 core ths = true →
      let t := getThread s2 core c l
      let fetched := fetchAt s2 core t.codeEpoch t.pc t.denied
      (∀ f, fetched = .fault f → step s = .next (faultAll s2 core ths f)) ∧
      (∀ s1 k, fetched = .page s1 k → step s = .next (ths.foldl (fun s th => restartThread s core th.1 th.2 k) s1))) ∧
    (∀ core hold q s1 ws, turn = .cue core hold → on → getCue s0 core = some q → contextRuns s0 core = true →
      cueMayIssue q = true → fetchAt s0 core q.codeEpoch q.pc q.denied = .ok s1 ws →
      (∀ i, decodeWords ws = .ok i → step s = exec i { noteIssue s1 core with actor := .cue core hold }) ∧
      (∀ r, decodeWords ws = .error r → step s = .next (cueFault s1 core (undecodable ws)))) ∧
    (∀ core hold q, turn = .cue core hold → on → getCue s0 core = some q → contextRuns s0 core = true → cueMayIssue q = true →
      let fetched := fetchAt s0 core q.codeEpoch q.pc q.denied
      (∀ f, fetched = .fault f → step s = .next (cueFault s0 core f)) ∧
      (∀ s1 k, fetched = .page s1 k → step s = .next (modCue s1 core fun q => { q with page := some k }))) ∧
    (∀ e, turn = .event e → on → opcOf e = none → step s = exec e s0) ∧
    (∀ core ths, turn = .lanes core ths → on → groupMayIssue (splitDrawn s0 core) core ths = false →
      step s = .next (splitDrawn s0 core)) ∧
    (s.poweredDown = true ∨ (s.booted = false ∧ turn ≠ .event .moduleBoot) → step s = .next s0)

/-- R33, R34, R166, R226, R368: a word of code that no cache holds is the four bytes at its home, little-endian, and it is checked first: outside
the bounds, without the execute right, or in poison, the fetch faults with the PC. A word that the cache holds unmarked, equal to memory,
is given from the cache. No word is fetched through a Fugitive capability, which is the model's reading (log 86). -/
def Obligations.FetchReadsTheCodeBytes : Prop :=
  ∀ (s : State) (core fn ctx : Nat) (cap : Cap) (epoch pc off : Nat) (denied : Option PageKey),
    let fetch := fetchWord s core fn ctx cap epoch pc off denied
    let held := heldCode (getCore s core) fn (capOid cap) off epoch
    let fresh := freshCode (getCore s core) fn (capOid cap) off
    let outside := boundsFail s fn cap off 4 false
    let fug := isFug s fn cap
    (fug = true → ∀ t ws, fetch ≠ .ok t ws) ∧
    (fug = false → outside = true → fetch = .fault (memFault viaFetch 0x02 cap pc)) ∧
    (fug = false → outside = false → capHas cap 2 = false → fetch = .fault (memFault viaFetch 0x03 cap pc)) ∧
    (fug = false → outside = false → capHas cap 2 = true →
      (∀ w, held = some w → fetch = .ok s [w]) ∧
      (∀ w key, held = none → fresh = some w → resolve s { fn := fn, ctx := ctx, core := some core } (capOid cap) off = some key → homeNat s key 4 = w.toNat →
        fetch = .ok s [w]) ∧
      ∀ p s1, held = none → fresh = none → translate s core fn ctx (capOid cap) off = (.valid p, s1) →
        classFail cap p.tier p.cls = false →
        let key := pageByte p off
        (p.poisoned = true ∨ nmem (key / 64) s.poison = true → fetch = .fault (memFault viaFetch 0x05 cap pc)) ∧
        (p.poisoned = false → nmem (key / 64) s.poison = false → sfind (key / 64) s.injected = none → CachesSound s →
          ∃ t, fetch = .ok t [BitVec.ofNat 32 (ofBytes ((span key 4).map (homeByte s)))] ∧ MemoryKept s t ∧
            freshCode (getCore t core) fn (capOid cap) off =
              some (BitVec.ofNat 32 (ofBytes ((span key 4).map (homeByte s))))))

/-- R32, R33, R36, R49, R55: every well-formed instruction is read back from its own bytes, whatever follows them, and words that decode
are the encoding of the one well-formed instruction that they give: no bit of an encoding is dropped. -/
def Obligations.EncodingsHaveOneMeaning : Prop :=
  (∀ (i : Instr) (more : List Byte), wellFormed i = true →
    decode ((encode i).flatMap (fun w => toBytes 4 w.toNat) ++ more) = .ok i) ∧
  ∀ (ws : List Word) (i : Instr), decodeWords ws = .ok i →
    wellFormed i = true ∧ encode i = ws.take (encode i).length ∧
      (encode i).length = match (ws.headD 0).toNat % 4 with
        | 0 => 1
        | 3 => 5
        | _ => 3

/-- Sanity: words written out from the encodings of R36 decode to the instructions they stand for. -/
def Obligations.WordsDecodeToTheirInstructions : Prop :=
  decodeTableWord 32 0x000000E0 = some (.nop { form := .base }) ∧
  decodeTableWord 32 0x400212E0 = some (.exit { form := .base, a := 0x20, asel := true }) ∧
  decodeTableWord 96 0x00000009200580E1 = some (.ld { form := .ext, d := 1, a := 16, asel := false, b := 9 }) ∧
  decodeTableWord 96 0x00000200_0000C002_281C22E1 =
    some (.launch { form := .ext, d := 7, a := 20, b := 2, mod := 3, word2 := 0x200 })

/-- Every step keeps memory in its canonical form, from any state that has it: each byte is listed once, in rising order, and no zero.
A step that answers no next state stops at an address that does not exist; none is refused, since every instruction and every event
has its meaning in every state. -/
def Obligations.EveryStepKeepsMemoryInForm : Prop :=
  (∀ s t : State, Memory.wf s.mem = true → step s = .next t → Memory.wf t.mem = true) ∧
  (∀ (i : Instr) (s : State) (r : Refusal), exec i s ≠ .refused r) ∧ ∀ (s : State) (r : Refusal), step s ≠ .refused r

/-- Every step keeps the caches sound, from any state that has canonical memory and sound caches (R139, R146): every line of an L2
stands once, at its home, and equals memory unless it is dirty. -/
def Obligations.EveryStepKeepsCachesSound : Prop :=
  ∀ s t : State, Memory.wf s.mem = true → CachesSound s → step s = .next t → CachesSound t

/-- The module at reset. R17, R258, R267, R390: the registers to which the spec gives a reset value hold it. R388: it waits for its
firmware. Memory lists nothing and keeps the form of `EveryStepKeepsMemoryInForm`. The model's choices, of which the spec states none:
every byte of memory reads 0 at reset (log 1), PCAP holds 2,400 (log 4). -/
def Obligations.ResetHoldsTheSpecsValues : Prop :=
  let s := State.reset
  s.booted = false ∧ s.mem = [] ∧ Memory.wf s.mem = true ∧ CachesSound s ∧ s.contexts = [] ∧ s.launches = [] ∧
    (∀ core, getCore s core = {}) ∧ (∀ core, (getCore s core).cycle = 0 ∧ (getCore s core).seqno = 0) ∧
    (∀ fn, (getFunc s fn).pclu = 0 ∧ (getFunc s fn).occ = 0 ∧ (getFunc s fn).bwwt = 1 ∧ (getFunc s fn).weight = 1) ∧
    (∀ die n, getQueue s die n = { head := 0, tail := 0, rcode := 0, halt := false, base := 0, lsize := 0, src := false
                                   en := false, pf := false, vf := 0, ctx := 0 }) ∧
    (∀ h, (getChannel s h).bal = 0 ∧ (getChannel s h).rate = 0b10) ∧ s.pcap = 2400 ∧
    (∀ key, homeByte s key = 0)
end

