-- ==== Sys2Proof/Laws/Sparse.lean ====
section
/-! SUPPORT. The laws of stores and sets: what a listed key reads after a write, and that every write keeps the canonical
form. -/

namespace Sys2Proof.Machine

@[simp] theorem sfind_sput_same {α : Type} (k : Nat) (v : α) (m : Store α) : sfind k (sput k v m) = some v := by
  induction m with
  | nil => simp [sput, sfind]
  | cons e rest ih =>
    obtain ⟨j, x⟩ := e
    simp only [sput]
    split
    · simp [sfind]
    · split
      · simp [sfind]
      · simp [sfind, *]

theorem sfind_sput_other {α : Type} {k i : Nat} (v : α) (m : Store α) (h : i ≠ k) : sfind i (sput k v m) = sfind i m := by
  induction m with
  | nil => simp [sput, sfind, Ne.symm h]
  | cons e rest ih =>
    obtain ⟨j, x⟩ := e
    simp only [sput]
    split
    · simp [sfind, Ne.symm h]
    · split
      · next hj => subst hj; simp [sfind, Ne.symm h]
      · simp only [sfind, ih]

theorem sfind_sput {α : Type} (k i : Nat) (v : α) (m : Store α) :
    sfind i (sput k v m) = if i = k then some v else sfind i m := by
  by_cases h : i = k
  · subst h; simp
  · simp [h, sfind_sput_other v m h]

@[simp] theorem sget_sput_same {α : Type} (d : α) (k : Nat) (v : α) (m : Store α) : sget d k (sput k v m) = v := by
  simp [sget]

theorem sget_sput_other {α : Type} (d : α) {k i : Nat} (v : α) (m : Store α) (h : i ≠ k) :
    sget d i (sput k v m) = sget d i m := by
  simp [sget, sfind_sput_other v m h]

@[simp] theorem sfind_sdel_same {α : Type} (k : Nat) (m : Store α) : sfind k (sdel k m) = none := by
  induction m with
  | nil => rfl
  | cons e rest ih =>
    obtain ⟨j, x⟩ := e
    by_cases hj : j = k
    · simp [sdel, hj, ih]
    · simp [sdel, hj, sfind, ih]

theorem sfind_sdel_other {α : Type} {k i : Nat} (m : Store α) (h : i ≠ k) : sfind i (sdel k m) = sfind i m := by
  induction m with
  | nil => rfl
  | cons e rest ih =>
    obtain ⟨j, x⟩ := e
    by_cases hj : j = k
    · subst hj; simp [sdel, sfind, Ne.symm h, ih]
    · simp [sdel, hj, sfind, ih]

/-- A write of one key of a store whose unlisted keys read `d`: that key reads the value. -/
@[simp] theorem sget_sset_same {α : Type} [DecidableEq α] (d : α) (k : Nat) (v : α) (m : Store α) :
    sget d k (sset d k v m) = v := by
  by_cases h : v = d
  · simp [sset, h, sget]
  · simp [sset, h]

/-- Every other key reads what it read. -/
theorem sget_sset_other {α : Type} [DecidableEq α] (d : α) {k i : Nat} (v : α) (m : Store α) (h : i ≠ k) :
    sget d i (sset d k v m) = sget d i m := by
  by_cases hv : v = d
  · simp [sset, hv, sget, sfind_sdel_other m h]
  · simp [sset, hv, sget_sput_other d v m h]

theorem sget_sset {α : Type} [DecidableEq α] (d : α) (k i : Nat) (v : α) (m : Store α) :
    sget d i (sset d k v m) = if i = k then v else sget d i m := by
  by_cases h : i = k
  · subst h; simp
  · simp [h, sget_sset_other d v m h]

/-! ### The canonical form -/

theorem sortedFrom_weaken {α : Type} {a b : Nat} (h : a ≤ b) {m : Store α} (hm : sortedFrom b m = true) :
    sortedFrom a m = true := by
  cases m with
  | nil => rfl
  | cons e rest =>
    obtain ⟨j, x⟩ := e
    simp only [sortedFrom, Bool.and_eq_true, decide_eq_true_eq] at hm ⊢
    exact ⟨by omega, hm.2⟩

theorem sortedFrom_sput {α : Type} (k : Nat) (v : α) {m : Store α} {lo : Nat} (h : sortedFrom lo m = true) (hk : lo ≤ k) :
    sortedFrom lo (sput k v m) = true := by
  induction m generalizing lo with
  | nil => simp [sput, sortedFrom, hk]
  | cons e rest ih =>
    obtain ⟨j, x⟩ := e
    simp only [sortedFrom, Bool.and_eq_true, decide_eq_true_eq] at h
    simp only [sput]
    split
    · next hj =>
      simp only [sortedFrom, Bool.and_eq_true, decide_eq_true_eq]
      exact ⟨hk, by omega, h.2⟩
    · next hj =>
      split
      · next hjk => subst hjk; simp [sortedFrom, hk, h.2]
      · simp only [sortedFrom, Bool.and_eq_true, decide_eq_true_eq]
        exact ⟨h.1, ih h.2 (by omega)⟩

theorem sortedFrom_sdel {α : Type} (k : Nat) {m : Store α} {lo : Nat} (h : sortedFrom lo m = true) :
    sortedFrom lo (sdel k m) = true := by
  induction m generalizing lo with
  | nil => rfl
  | cons e rest ih =>
    obtain ⟨j, x⟩ := e
    simp only [sortedFrom, Bool.and_eq_true, decide_eq_true_eq] at h
    simp only [sdel]
    split
    · exact sortedFrom_weaken (by omega) (ih h.2)
    · simp only [sortedFrom, Bool.and_eq_true, decide_eq_true_eq]
      exact ⟨h.1, ih h.2⟩

theorem mem_sput {α : Type} {k : Nat} {v : α} {m : Store α} {e : Nat × α} (h : e ∈ sput k v m) : e = (k, v) ∨ e ∈ m := by
  induction m with
  | nil => simpa [sput] using h
  | cons x rest ih =>
    obtain ⟨j, y⟩ := x
    simp only [sput] at h
    split at h
    · simpa using h
    · split at h
      · simp only [List.mem_cons] at h ⊢
        exact h.elim .inl fun h => .inr (.inr h)
      · simp only [List.mem_cons] at h ⊢
        rcases h with h | h
        · exact .inr (.inl h)
        · exact (ih h).elim .inl fun h => .inr (.inr h)

theorem mem_sdel {α : Type} {k : Nat} {m : Store α} {e : Nat × α} (h : e ∈ sdel k m) : e ∈ m := by
  induction m with
  | nil => exact h
  | cons x rest ih =>
    obtain ⟨j, y⟩ := x
    simp only [sdel] at h
    split at h
    · exact List.mem_cons_of_mem _ (ih h)
    · simp only [List.mem_cons] at h ⊢
      exact h.elim .inl fun h => .inr (ih h)

theorem canonical_iff {α : Type} [DecidableEq α] {d : α} {m : Store α} :
    m.canonical d = true ↔ sortedFrom 0 m = true ∧ ∀ e ∈ m, e.2 ≠ d := by
  simp [Store.canonical]

/-- A write keeps the canonical form: a value equal to what an unlisted key reads leaves no entry. -/
theorem canonical_sset {α : Type} [DecidableEq α] {d : α} (k : Nat) (v : α) {m : Store α} (h : m.canonical d = true) :
    Store.canonical d (sset d k v m) = true := by
  rw [canonical_iff] at h ⊢
  by_cases hv : v = d
  · simp only [sset, hv, if_true]
    exact ⟨sortedFrom_sdel k h.1, fun e he => h.2 e (mem_sdel he)⟩
  · simp only [sset, hv, if_false]
    refine ⟨sortedFrom_sput k v h.1 (Nat.zero_le k), fun e he => ?_⟩
    rcases mem_sput he with rfl | he
    · exact hv
    · exact h.2 e he

/-- So does a write of consecutive bytes. -/
theorem canonical_putBytes (bs : List Byte) : ∀ (lo : Nat) (m : Store Byte), m.canonical 0 = true →
    Store.canonical 0 (putBytes lo bs m) = true := by
  induction bs with
  | nil => intro lo m h; exact h
  | cons b bs ih => intro lo m h; exact ih (lo + 1) _ (canonical_sset lo b h)

/-- A key outside the written bytes reads what it read. -/
theorem sget_putBytes_outside (bs : List Byte) : ∀ (lo a : Nat) (m : Store Byte), a < lo ∨ lo + bs.length ≤ a →
    sget 0 a (putBytes lo bs m) = sget 0 a m := by
  induction bs with
  | nil => intro lo a m _; rfl
  | cons b bs ih =>
    intro lo a m h
    simp only [List.length_cons] at h
    rw [putBytes, ih (lo + 1) a _ (by omega), sget_sset_other 0 b m (by omega)]

/-- A written byte reads as it was written. -/
theorem sget_putBytes_inside (bs : List Byte) : ∀ (lo i : Nat) (m : Store Byte) (h : i < bs.length),
    sget 0 (lo + i) (putBytes lo bs m) = bs[i] := by
  induction bs with
  | nil => intro lo i m h; simp at h
  | cons b bs ih =>
    intro lo i m h
    cases i with
    | zero => rw [Nat.add_zero, putBytes, sget_putBytes_outside bs (lo + 1) lo _ (by omega)]; simp
    | succ n =>
      have : lo + (n + 1) = lo + 1 + n := by omega
      rw [putBytes, this, ih (lo + 1) n _ (by simpa using h)]; simp

/-! ### Sets -/

theorem nmem_iff {k : Nat} {m : NSet} : nmem k m = true ↔ k ∈ m := by
  induction m with
  | nil => simp [nmem]
  | cons j rest ih =>
    by_cases h : j = k
    · simp [nmem, h]
    · simp [nmem, h, ih, Ne.symm h]

theorem mem_nins {k i : Nat} {m : NSet} : i ∈ nins k m ↔ i = k ∨ i ∈ m := by
  induction m with
  | nil => simp [nins]
  | cons j rest ih =>
    simp only [nins]
    split
    · simp
    · split
      · next hj => subst hj; simp
      · simp only [List.mem_cons, ih]; tauto

theorem mem_ndel {k i : Nat} {m : NSet} : i ∈ ndel k m ↔ i ≠ k ∧ i ∈ m := by
  simp [ndel, and_comm]

theorem nmem_nins (k i : Nat) (m : NSet) : nmem i (nins k m) = (decide (i = k) || nmem i m) := by
  rw [Bool.eq_iff_iff]; simp [nmem_iff, mem_nins]

theorem nmem_ndel (k i : Nat) (m : NSet) : nmem i (ndel k m) = (!decide (i = k) && nmem i m) := by
  rw [Bool.eq_iff_iff]; simp [nmem_iff, mem_ndel]

end Sys2Proof.Machine
end

