-- ==== Sys2Proof/Laws/State.lean ====
section
/-! SUPPORT. What each update of the state leaves unchanged: one lemma per field per update. -/

namespace Sys2Proof.Machine

/-! ### setCore -/

@[simp] theorem setCore_booted (s : State) (core : Nat) (x : Core) : (setCore s core x).booted = s.booted := rfl
@[simp] theorem setCore_poweredDown (s : State) (core : Nat) (x : Core) : (setCore s core x).poweredDown = s.poweredDown := rfl
@[simp] theorem setCore_tripped (s : State) (core : Nat) (x : Core) : (setCore s core x).tripped = s.tripped := rfl
@[simp] theorem setCore_vfEnable (s : State) (core : Nat) (x : Core) : (setCore s core x).vfEnable = s.vfEnable := rfl
@[simp] theorem setCore_mem (s : State) (core : Nat) (x : Core) : (setCore s core x).mem = s.mem := rfl
@[simp] theorem setCore_tags (s : State) (core : Nat) (x : Core) : (setCore s core x).tags = s.tags := rfl
@[simp] theorem setCore_poison (s : State) (core : Nat) (x : Core) : (setCore s core x).poison = s.poison := rfl
@[simp] theorem setCore_injected (s : State) (core : Nat) (x : Core) : (setCore s core x).injected = s.injected := rfl
@[simp] theorem setCore_objects (s : State) (core : Nat) (x : Core) : (setCore s core x).objects = s.objects := rfl
@[simp] theorem setCore_objectWrites (s : State) (core : Nat) (x : Core) : (setCore s core x).objectWrites = s.objectWrites := rfl
@[simp] theorem setCore_clusters (s : State) (core : Nat) (x : Core) : (setCore s core x).clusters = s.clusters := rfl
@[simp] theorem setCore_dies (s : State) (core : Nat) (x : Core) : (setCore s core x).dies = s.dies := rfl
@[simp] theorem setCore_contexts (s : State) (core : Nat) (x : Core) : (setCore s core x).contexts = s.contexts := rfl
@[simp] theorem setCore_launches (s : State) (core : Nat) (x : Core) : (setCore s core x).launches = s.launches := rfl
@[simp] theorem setCore_functions (s : State) (core : Nat) (x : Core) : (setCore s core x).functions = s.functions := rfl
@[simp] theorem setCore_channels (s : State) (core : Nat) (x : Core) : (setCore s core x).channels = s.channels := rfl
@[simp] theorem setCore_homeWrites (s : State) (core : Nat) (x : Core) : (setCore s core x).homeWrites = s.homeWrites := rfl
@[simp] theorem setCore_responses (s : State) (core : Nat) (x : Core) : (setCore s core x).responses = s.responses := rfl
@[simp] theorem setCore_pageRequests (s : State) (core : Nat) (x : Core) : (setCore s core x).pageRequests = s.pageRequests := rfl
@[simp] theorem setCore_classJobs (s : State) (core : Nat) (x : Core) : (setCore s core x).classJobs = s.classJobs := rfl
@[simp] theorem setCore_pulls (s : State) (core : Nat) (x : Core) : (setCore s core x).pulls = s.pulls := rfl
@[simp] theorem setCore_landed (s : State) (core : Nat) (x : Core) : (setCore s core x).landed = s.landed := rfl
@[simp] theorem setCore_peerPages (s : State) (core : Nat) (x : Core) : (setCore s core x).peerPages = s.peerPages := rfl
@[simp] theorem setCore_hostWaiting (s : State) (core : Nat) (x : Core) : (setCore s core x).hostWaiting = s.hostWaiting := rfl
@[simp] theorem setCore_replies (s : State) (core : Nat) (x : Core) : (setCore s core x).replies = s.replies := rfl
@[simp] theorem setCore_icEpoch (s : State) (core : Nat) (x : Core) : (setCore s core x).icEpoch = s.icEpoch := rfl
@[simp] theorem setCore_pcap (s : State) (core : Nat) (x : Core) : (setCore s core x).pcap = s.pcap := rfl
@[simp] theorem setCore_fownBase (s : State) (core : Nat) (x : Core) : (setCore s core x).fownBase = s.fownBase := rfl
@[simp] theorem setCore_grpBase (s : State) (core : Nat) (x : Core) : (setCore s core x).grpBase = s.grpBase := rfl
@[simp] theorem setCore_poolBase (s : State) (core : Nat) (x : Core) : (setCore s core x).poolBase = s.poolBase := rfl
@[simp] theorem setCore_expBase (s : State) (core : Nat) (x : Core) : (setCore s core x).expBase = s.expBase := rfl
@[simp] theorem setCore_agenda (s : State) (core : Nat) (x : Core) : (setCore s core x).agenda = s.agenda := rfl
@[simp] theorem setCore_actor (s : State) (core : Nat) (x : Core) : (setCore s core x).actor = s.actor := rfl
@[simp] theorem setCore_tick (s : State) (core : Nat) (x : Core) : (setCore s core x).tick = s.tick := rfl
@[simp] theorem setCore_issued (s : State) (core : Nat) (x : Core) : (setCore s core x).issued = s.issued := rfl
@[simp] theorem setCore_fresh (s : State) (core : Nat) (x : Core) : (setCore s core x).fresh = s.fresh := rfl

/-! ### modCore -/

@[simp] theorem modCore_booted (s : State) (core : Nat) (f : Core → Core) : (modCore s core f).booted = s.booted := rfl
@[simp] theorem modCore_poweredDown (s : State) (core : Nat) (f : Core → Core) : (modCore s core f).poweredDown = s.poweredDown := rfl
@[simp] theorem modCore_tripped (s : State) (core : Nat) (f : Core → Core) : (modCore s core f).tripped = s.tripped := rfl
@[simp] theorem modCore_vfEnable (s : State) (core : Nat) (f : Core → Core) : (modCore s core f).vfEnable = s.vfEnable := rfl
@[simp] theorem modCore_mem (s : State) (core : Nat) (f : Core → Core) : (modCore s core f).mem = s.mem := rfl
@[simp] theorem modCore_tags (s : State) (core : Nat) (f : Core → Core) : (modCore s core f).tags = s.tags := rfl
@[simp] theorem modCore_poison (s : State) (core : Nat) (f : Core → Core) : (modCore s core f).poison = s.poison := rfl
@[simp] theorem modCore_injected (s : State) (core : Nat) (f : Core → Core) : (modCore s core f).injected = s.injected := rfl
@[simp] theorem modCore_objects (s : State) (core : Nat) (f : Core → Core) : (modCore s core f).objects = s.objects := rfl
@[simp] theorem modCore_objectWrites (s : State) (core : Nat) (f : Core → Core) : (modCore s core f).objectWrites = s.objectWrites := rfl
@[simp] theorem modCore_clusters (s : State) (core : Nat) (f : Core → Core) : (modCore s core f).clusters = s.clusters := rfl
@[simp] theorem modCore_dies (s : State) (core : Nat) (f : Core → Core) : (modCore s core f).dies = s.dies := rfl
@[simp] theorem modCore_contexts (s : State) (core : Nat) (f : Core → Core) : (modCore s core f).contexts = s.contexts := rfl
@[simp] theorem modCore_launches (s : State) (core : Nat) (f : Core → Core) : (modCore s core f).launches = s.launches := rfl
@[simp] theorem modCore_functions (s : State) (core : Nat) (f : Core → Core) : (modCore s core f).functions = s.functions := rfl
@[simp] theorem modCore_channels (s : State) (core : Nat) (f : Core → Core) : (modCore s core f).channels = s.channels := rfl
@[simp] theorem modCore_homeWrites (s : State) (core : Nat) (f : Core → Core) : (modCore s core f).homeWrites = s.homeWrites := rfl
@[simp] theorem modCore_responses (s : State) (core : Nat) (f : Core → Core) : (modCore s core f).responses = s.responses := rfl
@[simp] theorem modCore_pageRequests (s : State) (core : Nat) (f : Core → Core) : (modCore s core f).pageRequests = s.pageRequests := rfl
@[simp] theorem modCore_classJobs (s : State) (core : Nat) (f : Core → Core) : (modCore s core f).classJobs = s.classJobs := rfl
@[simp] theorem modCore_pulls (s : State) (core : Nat) (f : Core → Core) : (modCore s core f).pulls = s.pulls := rfl
@[simp] theorem modCore_landed (s : State) (core : Nat) (f : Core → Core) : (modCore s core f).landed = s.landed := rfl
@[simp] theorem modCore_peerPages (s : State) (core : Nat) (f : Core → Core) : (modCore s core f).peerPages = s.peerPages := rfl
@[simp] theorem modCore_hostWaiting (s : State) (core : Nat) (f : Core → Core) : (modCore s core f).hostWaiting = s.hostWaiting := rfl
@[simp] theorem modCore_replies (s : State) (core : Nat) (f : Core → Core) : (modCore s core f).replies = s.replies := rfl
@[simp] theorem modCore_icEpoch (s : State) (core : Nat) (f : Core → Core) : (modCore s core f).icEpoch = s.icEpoch := rfl
@[simp] theorem modCore_pcap (s : State) (core : Nat) (f : Core → Core) : (modCore s core f).pcap = s.pcap := rfl
@[simp] theorem modCore_fownBase (s : State) (core : Nat) (f : Core → Core) : (modCore s core f).fownBase = s.fownBase := rfl
@[simp] theorem modCore_grpBase (s : State) (core : Nat) (f : Core → Core) : (modCore s core f).grpBase = s.grpBase := rfl
@[simp] theorem modCore_poolBase (s : State) (core : Nat) (f : Core → Core) : (modCore s core f).poolBase = s.poolBase := rfl
@[simp] theorem modCore_expBase (s : State) (core : Nat) (f : Core → Core) : (modCore s core f).expBase = s.expBase := rfl
@[simp] theorem modCore_agenda (s : State) (core : Nat) (f : Core → Core) : (modCore s core f).agenda = s.agenda := rfl
@[simp] theorem modCore_actor (s : State) (core : Nat) (f : Core → Core) : (modCore s core f).actor = s.actor := rfl
@[simp] theorem modCore_tick (s : State) (core : Nat) (f : Core → Core) : (modCore s core f).tick = s.tick := rfl
@[simp] theorem modCore_issued (s : State) (core : Nat) (f : Core → Core) : (modCore s core f).issued = s.issued := rfl
@[simp] theorem modCore_fresh (s : State) (core : Nat) (f : Core → Core) : (modCore s core f).fresh = s.fresh := rfl

/-! ### setCluster -/

@[simp] theorem setCluster_booted (s : State) (n : Nat) (x : Cluster) : (setCluster s n x).booted = s.booted := rfl
@[simp] theorem setCluster_poweredDown (s : State) (n : Nat) (x : Cluster) : (setCluster s n x).poweredDown = s.poweredDown := rfl
@[simp] theorem setCluster_tripped (s : State) (n : Nat) (x : Cluster) : (setCluster s n x).tripped = s.tripped := rfl
@[simp] theorem setCluster_vfEnable (s : State) (n : Nat) (x : Cluster) : (setCluster s n x).vfEnable = s.vfEnable := rfl
@[simp] theorem setCluster_mem (s : State) (n : Nat) (x : Cluster) : (setCluster s n x).mem = s.mem := rfl
@[simp] theorem setCluster_tags (s : State) (n : Nat) (x : Cluster) : (setCluster s n x).tags = s.tags := rfl
@[simp] theorem setCluster_poison (s : State) (n : Nat) (x : Cluster) : (setCluster s n x).poison = s.poison := rfl
@[simp] theorem setCluster_injected (s : State) (n : Nat) (x : Cluster) : (setCluster s n x).injected = s.injected := rfl
@[simp] theorem setCluster_objects (s : State) (n : Nat) (x : Cluster) : (setCluster s n x).objects = s.objects := rfl
@[simp] theorem setCluster_objectWrites (s : State) (n : Nat) (x : Cluster) : (setCluster s n x).objectWrites = s.objectWrites := rfl
@[simp] theorem setCluster_cores (s : State) (n : Nat) (x : Cluster) : (setCluster s n x).cores = s.cores := rfl
@[simp] theorem setCluster_dies (s : State) (n : Nat) (x : Cluster) : (setCluster s n x).dies = s.dies := rfl
@[simp] theorem setCluster_contexts (s : State) (n : Nat) (x : Cluster) : (setCluster s n x).contexts = s.contexts := rfl
@[simp] theorem setCluster_launches (s : State) (n : Nat) (x : Cluster) : (setCluster s n x).launches = s.launches := rfl
@[simp] theorem setCluster_functions (s : State) (n : Nat) (x : Cluster) : (setCluster s n x).functions = s.functions := rfl
@[simp] theorem setCluster_channels (s : State) (n : Nat) (x : Cluster) : (setCluster s n x).channels = s.channels := rfl
@[simp] theorem setCluster_homeWrites (s : State) (n : Nat) (x : Cluster) : (setCluster s n x).homeWrites = s.homeWrites := rfl
@[simp] theorem setCluster_responses (s : State) (n : Nat) (x : Cluster) : (setCluster s n x).responses = s.responses := rfl
@[simp] theorem setCluster_pageRequests (s : State) (n : Nat) (x : Cluster) : (setCluster s n x).pageRequests = s.pageRequests := rfl
@[simp] theorem setCluster_classJobs (s : State) (n : Nat) (x : Cluster) : (setCluster s n x).classJobs = s.classJobs := rfl
@[simp] theorem setCluster_pulls (s : State) (n : Nat) (x : Cluster) : (setCluster s n x).pulls = s.pulls := rfl
@[simp] theorem setCluster_landed (s : State) (n : Nat) (x : Cluster) : (setCluster s n x).landed = s.landed := rfl
@[simp] theorem setCluster_peerPages (s : State) (n : Nat) (x : Cluster) : (setCluster s n x).peerPages = s.peerPages := rfl
@[simp] theorem setCluster_hostWaiting (s : State) (n : Nat) (x : Cluster) : (setCluster s n x).hostWaiting = s.hostWaiting := rfl
@[simp] theorem setCluster_replies (s : State) (n : Nat) (x : Cluster) : (setCluster s n x).replies = s.replies := rfl
@[simp] theorem setCluster_icEpoch (s : State) (n : Nat) (x : Cluster) : (setCluster s n x).icEpoch = s.icEpoch := rfl
@[simp] theorem setCluster_pcap (s : State) (n : Nat) (x : Cluster) : (setCluster s n x).pcap = s.pcap := rfl
@[simp] theorem setCluster_fownBase (s : State) (n : Nat) (x : Cluster) : (setCluster s n x).fownBase = s.fownBase := rfl
@[simp] theorem setCluster_grpBase (s : State) (n : Nat) (x : Cluster) : (setCluster s n x).grpBase = s.grpBase := rfl
@[simp] theorem setCluster_poolBase (s : State) (n : Nat) (x : Cluster) : (setCluster s n x).poolBase = s.poolBase := rfl
@[simp] theorem setCluster_expBase (s : State) (n : Nat) (x : Cluster) : (setCluster s n x).expBase = s.expBase := rfl
@[simp] theorem setCluster_agenda (s : State) (n : Nat) (x : Cluster) : (setCluster s n x).agenda = s.agenda := rfl
@[simp] theorem setCluster_actor (s : State) (n : Nat) (x : Cluster) : (setCluster s n x).actor = s.actor := rfl
@[simp] theorem setCluster_tick (s : State) (n : Nat) (x : Cluster) : (setCluster s n x).tick = s.tick := rfl
@[simp] theorem setCluster_issued (s : State) (n : Nat) (x : Cluster) : (setCluster s n x).issued = s.issued := rfl
@[simp] theorem setCluster_fresh (s : State) (n : Nat) (x : Cluster) : (setCluster s n x).fresh = s.fresh := rfl

/-! ### modCluster -/

@[simp] theorem modCluster_booted (s : State) (n : Nat) (f : Cluster → Cluster) : (modCluster s n f).booted = s.booted := rfl
@[simp] theorem modCluster_poweredDown (s : State) (n : Nat) (f : Cluster → Cluster) : (modCluster s n f).poweredDown = s.poweredDown := rfl
@[simp] theorem modCluster_tripped (s : State) (n : Nat) (f : Cluster → Cluster) : (modCluster s n f).tripped = s.tripped := rfl
@[simp] theorem modCluster_vfEnable (s : State) (n : Nat) (f : Cluster → Cluster) : (modCluster s n f).vfEnable = s.vfEnable := rfl
@[simp] theorem modCluster_mem (s : State) (n : Nat) (f : Cluster → Cluster) : (modCluster s n f).mem = s.mem := rfl
@[simp] theorem modCluster_tags (s : State) (n : Nat) (f : Cluster → Cluster) : (modCluster s n f).tags = s.tags := rfl
@[simp] theorem modCluster_poison (s : State) (n : Nat) (f : Cluster → Cluster) : (modCluster s n f).poison = s.poison := rfl
@[simp] theorem modCluster_injected (s : State) (n : Nat) (f : Cluster → Cluster) : (modCluster s n f).injected = s.injected := rfl
@[simp] theorem modCluster_objects (s : State) (n : Nat) (f : Cluster → Cluster) : (modCluster s n f).objects = s.objects := rfl
@[simp] theorem modCluster_objectWrites (s : State) (n : Nat) (f : Cluster → Cluster) : (modCluster s n f).objectWrites = s.objectWrites := rfl
@[simp] theorem modCluster_cores (s : State) (n : Nat) (f : Cluster → Cluster) : (modCluster s n f).cores = s.cores := rfl
@[simp] theorem modCluster_dies (s : State) (n : Nat) (f : Cluster → Cluster) : (modCluster s n f).dies = s.dies := rfl
@[simp] theorem modCluster_contexts (s : State) (n : Nat) (f : Cluster → Cluster) : (modCluster s n f).contexts = s.contexts := rfl
@[simp] theorem modCluster_launches (s : State) (n : Nat) (f : Cluster → Cluster) : (modCluster s n f).launches = s.launches := rfl
@[simp] theorem modCluster_functions (s : State) (n : Nat) (f : Cluster → Cluster) : (modCluster s n f).functions = s.functions := rfl
@[simp] theorem modCluster_channels (s : State) (n : Nat) (f : Cluster → Cluster) : (modCluster s n f).channels = s.channels := rfl
@[simp] theorem modCluster_homeWrites (s : State) (n : Nat) (f : Cluster → Cluster) : (modCluster s n f).homeWrites = s.homeWrites := rfl
@[simp] theorem modCluster_responses (s : State) (n : Nat) (f : Cluster → Cluster) : (modCluster s n f).responses = s.responses := rfl
@[simp] theorem modCluster_pageRequests (s : State) (n : Nat) (f : Cluster → Cluster) : (modCluster s n f).pageRequests = s.pageRequests := rfl
@[simp] theorem modCluster_classJobs (s : State) (n : Nat) (f : Cluster → Cluster) : (modCluster s n f).classJobs = s.classJobs := rfl
@[simp] theorem modCluster_pulls (s : State) (n : Nat) (f : Cluster → Cluster) : (modCluster s n f).pulls = s.pulls := rfl
@[simp] theorem modCluster_landed (s : State) (n : Nat) (f : Cluster → Cluster) : (modCluster s n f).landed = s.landed := rfl
@[simp] theorem modCluster_peerPages (s : State) (n : Nat) (f : Cluster → Cluster) : (modCluster s n f).peerPages = s.peerPages := rfl
@[simp] theorem modCluster_hostWaiting (s : State) (n : Nat) (f : Cluster → Cluster) : (modCluster s n f).hostWaiting = s.hostWaiting := rfl
@[simp] theorem modCluster_replies (s : State) (n : Nat) (f : Cluster → Cluster) : (modCluster s n f).replies = s.replies := rfl
@[simp] theorem modCluster_icEpoch (s : State) (n : Nat) (f : Cluster → Cluster) : (modCluster s n f).icEpoch = s.icEpoch := rfl
@[simp] theorem modCluster_pcap (s : State) (n : Nat) (f : Cluster → Cluster) : (modCluster s n f).pcap = s.pcap := rfl
@[simp] theorem modCluster_fownBase (s : State) (n : Nat) (f : Cluster → Cluster) : (modCluster s n f).fownBase = s.fownBase := rfl
@[simp] theorem modCluster_grpBase (s : State) (n : Nat) (f : Cluster → Cluster) : (modCluster s n f).grpBase = s.grpBase := rfl
@[simp] theorem modCluster_poolBase (s : State) (n : Nat) (f : Cluster → Cluster) : (modCluster s n f).poolBase = s.poolBase := rfl
@[simp] theorem modCluster_expBase (s : State) (n : Nat) (f : Cluster → Cluster) : (modCluster s n f).expBase = s.expBase := rfl
@[simp] theorem modCluster_agenda (s : State) (n : Nat) (f : Cluster → Cluster) : (modCluster s n f).agenda = s.agenda := rfl
@[simp] theorem modCluster_actor (s : State) (n : Nat) (f : Cluster → Cluster) : (modCluster s n f).actor = s.actor := rfl
@[simp] theorem modCluster_tick (s : State) (n : Nat) (f : Cluster → Cluster) : (modCluster s n f).tick = s.tick := rfl
@[simp] theorem modCluster_issued (s : State) (n : Nat) (f : Cluster → Cluster) : (modCluster s n f).issued = s.issued := rfl
@[simp] theorem modCluster_fresh (s : State) (n : Nat) (f : Cluster → Cluster) : (modCluster s n f).fresh = s.fresh := rfl

/-! ### setDie -/

@[simp] theorem setDie_booted (s : State) (n : Nat) (x : Die) : (setDie s n x).booted = s.booted := rfl
@[simp] theorem setDie_poweredDown (s : State) (n : Nat) (x : Die) : (setDie s n x).poweredDown = s.poweredDown := rfl
@[simp] theorem setDie_tripped (s : State) (n : Nat) (x : Die) : (setDie s n x).tripped = s.tripped := rfl
@[simp] theorem setDie_vfEnable (s : State) (n : Nat) (x : Die) : (setDie s n x).vfEnable = s.vfEnable := rfl
@[simp] theorem setDie_mem (s : State) (n : Nat) (x : Die) : (setDie s n x).mem = s.mem := rfl
@[simp] theorem setDie_tags (s : State) (n : Nat) (x : Die) : (setDie s n x).tags = s.tags := rfl
@[simp] theorem setDie_poison (s : State) (n : Nat) (x : Die) : (setDie s n x).poison = s.poison := rfl
@[simp] theorem setDie_injected (s : State) (n : Nat) (x : Die) : (setDie s n x).injected = s.injected := rfl
@[simp] theorem setDie_objects (s : State) (n : Nat) (x : Die) : (setDie s n x).objects = s.objects := rfl
@[simp] theorem setDie_objectWrites (s : State) (n : Nat) (x : Die) : (setDie s n x).objectWrites = s.objectWrites := rfl
@[simp] theorem setDie_cores (s : State) (n : Nat) (x : Die) : (setDie s n x).cores = s.cores := rfl
@[simp] theorem setDie_clusters (s : State) (n : Nat) (x : Die) : (setDie s n x).clusters = s.clusters := rfl
@[simp] theorem setDie_contexts (s : State) (n : Nat) (x : Die) : (setDie s n x).contexts = s.contexts := rfl
@[simp] theorem setDie_launches (s : State) (n : Nat) (x : Die) : (setDie s n x).launches = s.launches := rfl
@[simp] theorem setDie_functions (s : State) (n : Nat) (x : Die) : (setDie s n x).functions = s.functions := rfl
@[simp] theorem setDie_channels (s : State) (n : Nat) (x : Die) : (setDie s n x).channels = s.channels := rfl
@[simp] theorem setDie_homeWrites (s : State) (n : Nat) (x : Die) : (setDie s n x).homeWrites = s.homeWrites := rfl
@[simp] theorem setDie_responses (s : State) (n : Nat) (x : Die) : (setDie s n x).responses = s.responses := rfl
@[simp] theorem setDie_pageRequests (s : State) (n : Nat) (x : Die) : (setDie s n x).pageRequests = s.pageRequests := rfl
@[simp] theorem setDie_classJobs (s : State) (n : Nat) (x : Die) : (setDie s n x).classJobs = s.classJobs := rfl
@[simp] theorem setDie_pulls (s : State) (n : Nat) (x : Die) : (setDie s n x).pulls = s.pulls := rfl
@[simp] theorem setDie_landed (s : State) (n : Nat) (x : Die) : (setDie s n x).landed = s.landed := rfl
@[simp] theorem setDie_peerPages (s : State) (n : Nat) (x : Die) : (setDie s n x).peerPages = s.peerPages := rfl
@[simp] theorem setDie_hostWaiting (s : State) (n : Nat) (x : Die) : (setDie s n x).hostWaiting = s.hostWaiting := rfl
@[simp] theorem setDie_replies (s : State) (n : Nat) (x : Die) : (setDie s n x).replies = s.replies := rfl
@[simp] theorem setDie_icEpoch (s : State) (n : Nat) (x : Die) : (setDie s n x).icEpoch = s.icEpoch := rfl
@[simp] theorem setDie_pcap (s : State) (n : Nat) (x : Die) : (setDie s n x).pcap = s.pcap := rfl
@[simp] theorem setDie_fownBase (s : State) (n : Nat) (x : Die) : (setDie s n x).fownBase = s.fownBase := rfl
@[simp] theorem setDie_grpBase (s : State) (n : Nat) (x : Die) : (setDie s n x).grpBase = s.grpBase := rfl
@[simp] theorem setDie_poolBase (s : State) (n : Nat) (x : Die) : (setDie s n x).poolBase = s.poolBase := rfl
@[simp] theorem setDie_expBase (s : State) (n : Nat) (x : Die) : (setDie s n x).expBase = s.expBase := rfl
@[simp] theorem setDie_agenda (s : State) (n : Nat) (x : Die) : (setDie s n x).agenda = s.agenda := rfl
@[simp] theorem setDie_actor (s : State) (n : Nat) (x : Die) : (setDie s n x).actor = s.actor := rfl
@[simp] theorem setDie_tick (s : State) (n : Nat) (x : Die) : (setDie s n x).tick = s.tick := rfl
@[simp] theorem setDie_issued (s : State) (n : Nat) (x : Die) : (setDie s n x).issued = s.issued := rfl
@[simp] theorem setDie_fresh (s : State) (n : Nat) (x : Die) : (setDie s n x).fresh = s.fresh := rfl

/-! ### modDie -/

@[simp] theorem modDie_booted (s : State) (n : Nat) (f : Die → Die) : (modDie s n f).booted = s.booted := rfl
@[simp] theorem modDie_poweredDown (s : State) (n : Nat) (f : Die → Die) : (modDie s n f).poweredDown = s.poweredDown := rfl
@[simp] theorem modDie_tripped (s : State) (n : Nat) (f : Die → Die) : (modDie s n f).tripped = s.tripped := rfl
@[simp] theorem modDie_vfEnable (s : State) (n : Nat) (f : Die → Die) : (modDie s n f).vfEnable = s.vfEnable := rfl
@[simp] theorem modDie_mem (s : State) (n : Nat) (f : Die → Die) : (modDie s n f).mem = s.mem := rfl
@[simp] theorem modDie_tags (s : State) (n : Nat) (f : Die → Die) : (modDie s n f).tags = s.tags := rfl
@[simp] theorem modDie_poison (s : State) (n : Nat) (f : Die → Die) : (modDie s n f).poison = s.poison := rfl
@[simp] theorem modDie_injected (s : State) (n : Nat) (f : Die → Die) : (modDie s n f).injected = s.injected := rfl
@[simp] theorem modDie_objects (s : State) (n : Nat) (f : Die → Die) : (modDie s n f).objects = s.objects := rfl
@[simp] theorem modDie_objectWrites (s : State) (n : Nat) (f : Die → Die) : (modDie s n f).objectWrites = s.objectWrites := rfl
@[simp] theorem modDie_cores (s : State) (n : Nat) (f : Die → Die) : (modDie s n f).cores = s.cores := rfl
@[simp] theorem modDie_clusters (s : State) (n : Nat) (f : Die → Die) : (modDie s n f).clusters = s.clusters := rfl
@[simp] theorem modDie_contexts (s : State) (n : Nat) (f : Die → Die) : (modDie s n f).contexts = s.contexts := rfl
@[simp] theorem modDie_launches (s : State) (n : Nat) (f : Die → Die) : (modDie s n f).launches = s.launches := rfl
@[simp] theorem modDie_functions (s : State) (n : Nat) (f : Die → Die) : (modDie s n f).functions = s.functions := rfl
@[simp] theorem modDie_channels (s : State) (n : Nat) (f : Die → Die) : (modDie s n f).channels = s.channels := rfl
@[simp] theorem modDie_homeWrites (s : State) (n : Nat) (f : Die → Die) : (modDie s n f).homeWrites = s.homeWrites := rfl
@[simp] theorem modDie_responses (s : State) (n : Nat) (f : Die → Die) : (modDie s n f).responses = s.responses := rfl
@[simp] theorem modDie_pageRequests (s : State) (n : Nat) (f : Die → Die) : (modDie s n f).pageRequests = s.pageRequests := rfl
@[simp] theorem modDie_classJobs (s : State) (n : Nat) (f : Die → Die) : (modDie s n f).classJobs = s.classJobs := rfl
@[simp] theorem modDie_pulls (s : State) (n : Nat) (f : Die → Die) : (modDie s n f).pulls = s.pulls := rfl
@[simp] theorem modDie_landed (s : State) (n : Nat) (f : Die → Die) : (modDie s n f).landed = s.landed := rfl
@[simp] theorem modDie_peerPages (s : State) (n : Nat) (f : Die → Die) : (modDie s n f).peerPages = s.peerPages := rfl
@[simp] theorem modDie_hostWaiting (s : State) (n : Nat) (f : Die → Die) : (modDie s n f).hostWaiting = s.hostWaiting := rfl
@[simp] theorem modDie_replies (s : State) (n : Nat) (f : Die → Die) : (modDie s n f).replies = s.replies := rfl
@[simp] theorem modDie_icEpoch (s : State) (n : Nat) (f : Die → Die) : (modDie s n f).icEpoch = s.icEpoch := rfl
@[simp] theorem modDie_pcap (s : State) (n : Nat) (f : Die → Die) : (modDie s n f).pcap = s.pcap := rfl
@[simp] theorem modDie_fownBase (s : State) (n : Nat) (f : Die → Die) : (modDie s n f).fownBase = s.fownBase := rfl
@[simp] theorem modDie_grpBase (s : State) (n : Nat) (f : Die → Die) : (modDie s n f).grpBase = s.grpBase := rfl
@[simp] theorem modDie_poolBase (s : State) (n : Nat) (f : Die → Die) : (modDie s n f).poolBase = s.poolBase := rfl
@[simp] theorem modDie_expBase (s : State) (n : Nat) (f : Die → Die) : (modDie s n f).expBase = s.expBase := rfl
@[simp] theorem modDie_agenda (s : State) (n : Nat) (f : Die → Die) : (modDie s n f).agenda = s.agenda := rfl
@[simp] theorem modDie_actor (s : State) (n : Nat) (f : Die → Die) : (modDie s n f).actor = s.actor := rfl
@[simp] theorem modDie_tick (s : State) (n : Nat) (f : Die → Die) : (modDie s n f).tick = s.tick := rfl
@[simp] theorem modDie_issued (s : State) (n : Nat) (f : Die → Die) : (modDie s n f).issued = s.issued := rfl
@[simp] theorem modDie_fresh (s : State) (n : Nat) (f : Die → Die) : (modDie s n f).fresh = s.fresh := rfl

/-! ### setContext -/

@[simp] theorem setContext_booted (s : State) (n : Nat) (x : Context) : (setContext s n x).booted = s.booted := rfl
@[simp] theorem setContext_poweredDown (s : State) (n : Nat) (x : Context) : (setContext s n x).poweredDown = s.poweredDown := rfl
@[simp] theorem setContext_tripped (s : State) (n : Nat) (x : Context) : (setContext s n x).tripped = s.tripped := rfl
@[simp] theorem setContext_vfEnable (s : State) (n : Nat) (x : Context) : (setContext s n x).vfEnable = s.vfEnable := rfl
@[simp] theorem setContext_mem (s : State) (n : Nat) (x : Context) : (setContext s n x).mem = s.mem := rfl
@[simp] theorem setContext_tags (s : State) (n : Nat) (x : Context) : (setContext s n x).tags = s.tags := rfl
@[simp] theorem setContext_poison (s : State) (n : Nat) (x : Context) : (setContext s n x).poison = s.poison := rfl
@[simp] theorem setContext_injected (s : State) (n : Nat) (x : Context) : (setContext s n x).injected = s.injected := rfl
@[simp] theorem setContext_objects (s : State) (n : Nat) (x : Context) : (setContext s n x).objects = s.objects := rfl
@[simp] theorem setContext_objectWrites (s : State) (n : Nat) (x : Context) : (setContext s n x).objectWrites = s.objectWrites := rfl
@[simp] theorem setContext_cores (s : State) (n : Nat) (x : Context) : (setContext s n x).cores = s.cores := rfl
@[simp] theorem setContext_clusters (s : State) (n : Nat) (x : Context) : (setContext s n x).clusters = s.clusters := rfl
@[simp] theorem setContext_dies (s : State) (n : Nat) (x : Context) : (setContext s n x).dies = s.dies := rfl
@[simp] theorem setContext_launches (s : State) (n : Nat) (x : Context) : (setContext s n x).launches = s.launches := rfl
@[simp] theorem setContext_functions (s : State) (n : Nat) (x : Context) : (setContext s n x).functions = s.functions := rfl
@[simp] theorem setContext_channels (s : State) (n : Nat) (x : Context) : (setContext s n x).channels = s.channels := rfl
@[simp] theorem setContext_homeWrites (s : State) (n : Nat) (x : Context) : (setContext s n x).homeWrites = s.homeWrites := rfl
@[simp] theorem setContext_responses (s : State) (n : Nat) (x : Context) : (setContext s n x).responses = s.responses := rfl
@[simp] theorem setContext_pageRequests (s : State) (n : Nat) (x : Context) : (setContext s n x).pageRequests = s.pageRequests := rfl
@[simp] theorem setContext_classJobs (s : State) (n : Nat) (x : Context) : (setContext s n x).classJobs = s.classJobs := rfl
@[simp] theorem setContext_pulls (s : State) (n : Nat) (x : Context) : (setContext s n x).pulls = s.pulls := rfl
@[simp] theorem setContext_landed (s : State) (n : Nat) (x : Context) : (setContext s n x).landed = s.landed := rfl
@[simp] theorem setContext_peerPages (s : State) (n : Nat) (x : Context) : (setContext s n x).peerPages = s.peerPages := rfl
@[simp] theorem setContext_hostWaiting (s : State) (n : Nat) (x : Context) : (setContext s n x).hostWaiting = s.hostWaiting := rfl
@[simp] theorem setContext_replies (s : State) (n : Nat) (x : Context) : (setContext s n x).replies = s.replies := rfl
@[simp] theorem setContext_icEpoch (s : State) (n : Nat) (x : Context) : (setContext s n x).icEpoch = s.icEpoch := rfl
@[simp] theorem setContext_pcap (s : State) (n : Nat) (x : Context) : (setContext s n x).pcap = s.pcap := rfl
@[simp] theorem setContext_fownBase (s : State) (n : Nat) (x : Context) : (setContext s n x).fownBase = s.fownBase := rfl
@[simp] theorem setContext_grpBase (s : State) (n : Nat) (x : Context) : (setContext s n x).grpBase = s.grpBase := rfl
@[simp] theorem setContext_poolBase (s : State) (n : Nat) (x : Context) : (setContext s n x).poolBase = s.poolBase := rfl
@[simp] theorem setContext_expBase (s : State) (n : Nat) (x : Context) : (setContext s n x).expBase = s.expBase := rfl
@[simp] theorem setContext_agenda (s : State) (n : Nat) (x : Context) : (setContext s n x).agenda = s.agenda := rfl
@[simp] theorem setContext_actor (s : State) (n : Nat) (x : Context) : (setContext s n x).actor = s.actor := rfl
@[simp] theorem setContext_tick (s : State) (n : Nat) (x : Context) : (setContext s n x).tick = s.tick := rfl
@[simp] theorem setContext_issued (s : State) (n : Nat) (x : Context) : (setContext s n x).issued = s.issued := rfl
@[simp] theorem setContext_fresh (s : State) (n : Nat) (x : Context) : (setContext s n x).fresh = s.fresh := rfl

/-! ### modContext -/

@[simp] theorem modContext_booted (s : State) (n : Nat) (f : Context → Context) : (modContext s n f).booted = s.booted := rfl
@[simp] theorem modContext_poweredDown (s : State) (n : Nat) (f : Context → Context) : (modContext s n f).poweredDown = s.poweredDown := rfl
@[simp] theorem modContext_tripped (s : State) (n : Nat) (f : Context → Context) : (modContext s n f).tripped = s.tripped := rfl
@[simp] theorem modContext_vfEnable (s : State) (n : Nat) (f : Context → Context) : (modContext s n f).vfEnable = s.vfEnable := rfl
@[simp] theorem modContext_mem (s : State) (n : Nat) (f : Context → Context) : (modContext s n f).mem = s.mem := rfl
@[simp] theorem modContext_tags (s : State) (n : Nat) (f : Context → Context) : (modContext s n f).tags = s.tags := rfl
@[simp] theorem modContext_poison (s : State) (n : Nat) (f : Context → Context) : (modContext s n f).poison = s.poison := rfl
@[simp] theorem modContext_injected (s : State) (n : Nat) (f : Context → Context) : (modContext s n f).injected = s.injected := rfl
@[simp] theorem modContext_objects (s : State) (n : Nat) (f : Context → Context) : (modContext s n f).objects = s.objects := rfl
@[simp] theorem modContext_objectWrites (s : State) (n : Nat) (f : Context → Context) : (modContext s n f).objectWrites = s.objectWrites := rfl
@[simp] theorem modContext_cores (s : State) (n : Nat) (f : Context → Context) : (modContext s n f).cores = s.cores := rfl
@[simp] theorem modContext_clusters (s : State) (n : Nat) (f : Context → Context) : (modContext s n f).clusters = s.clusters := rfl
@[simp] theorem modContext_dies (s : State) (n : Nat) (f : Context → Context) : (modContext s n f).dies = s.dies := rfl
@[simp] theorem modContext_launches (s : State) (n : Nat) (f : Context → Context) : (modContext s n f).launches = s.launches := rfl
@[simp] theorem modContext_functions (s : State) (n : Nat) (f : Context → Context) : (modContext s n f).functions = s.functions := rfl
@[simp] theorem modContext_channels (s : State) (n : Nat) (f : Context → Context) : (modContext s n f).channels = s.channels := rfl
@[simp] theorem modContext_homeWrites (s : State) (n : Nat) (f : Context → Context) : (modContext s n f).homeWrites = s.homeWrites := rfl
@[simp] theorem modContext_responses (s : State) (n : Nat) (f : Context → Context) : (modContext s n f).responses = s.responses := rfl
@[simp] theorem modContext_pageRequests (s : State) (n : Nat) (f : Context → Context) : (modContext s n f).pageRequests = s.pageRequests := rfl
@[simp] theorem modContext_classJobs (s : State) (n : Nat) (f : Context → Context) : (modContext s n f).classJobs = s.classJobs := rfl
@[simp] theorem modContext_pulls (s : State) (n : Nat) (f : Context → Context) : (modContext s n f).pulls = s.pulls := rfl
@[simp] theorem modContext_landed (s : State) (n : Nat) (f : Context → Context) : (modContext s n f).landed = s.landed := rfl
@[simp] theorem modContext_peerPages (s : State) (n : Nat) (f : Context → Context) : (modContext s n f).peerPages = s.peerPages := rfl
@[simp] theorem modContext_hostWaiting (s : State) (n : Nat) (f : Context → Context) : (modContext s n f).hostWaiting = s.hostWaiting := rfl
@[simp] theorem modContext_replies (s : State) (n : Nat) (f : Context → Context) : (modContext s n f).replies = s.replies := rfl
@[simp] theorem modContext_icEpoch (s : State) (n : Nat) (f : Context → Context) : (modContext s n f).icEpoch = s.icEpoch := rfl
@[simp] theorem modContext_pcap (s : State) (n : Nat) (f : Context → Context) : (modContext s n f).pcap = s.pcap := rfl
@[simp] theorem modContext_fownBase (s : State) (n : Nat) (f : Context → Context) : (modContext s n f).fownBase = s.fownBase := rfl
@[simp] theorem modContext_grpBase (s : State) (n : Nat) (f : Context → Context) : (modContext s n f).grpBase = s.grpBase := rfl
@[simp] theorem modContext_poolBase (s : State) (n : Nat) (f : Context → Context) : (modContext s n f).poolBase = s.poolBase := rfl
@[simp] theorem modContext_expBase (s : State) (n : Nat) (f : Context → Context) : (modContext s n f).expBase = s.expBase := rfl
@[simp] theorem modContext_agenda (s : State) (n : Nat) (f : Context → Context) : (modContext s n f).agenda = s.agenda := rfl
@[simp] theorem modContext_actor (s : State) (n : Nat) (f : Context → Context) : (modContext s n f).actor = s.actor := rfl
@[simp] theorem modContext_tick (s : State) (n : Nat) (f : Context → Context) : (modContext s n f).tick = s.tick := rfl
@[simp] theorem modContext_issued (s : State) (n : Nat) (f : Context → Context) : (modContext s n f).issued = s.issued := rfl
@[simp] theorem modContext_fresh (s : State) (n : Nat) (f : Context → Context) : (modContext s n f).fresh = s.fresh := rfl

/-! ### setLaunch -/

@[simp] theorem setLaunch_booted (s : State) (n : Nat) (x : Launch) : (setLaunch s n x).booted = s.booted := rfl
@[simp] theorem setLaunch_poweredDown (s : State) (n : Nat) (x : Launch) : (setLaunch s n x).poweredDown = s.poweredDown := rfl
@[simp] theorem setLaunch_tripped (s : State) (n : Nat) (x : Launch) : (setLaunch s n x).tripped = s.tripped := rfl
@[simp] theorem setLaunch_vfEnable (s : State) (n : Nat) (x : Launch) : (setLaunch s n x).vfEnable = s.vfEnable := rfl
@[simp] theorem setLaunch_mem (s : State) (n : Nat) (x : Launch) : (setLaunch s n x).mem = s.mem := rfl
@[simp] theorem setLaunch_tags (s : State) (n : Nat) (x : Launch) : (setLaunch s n x).tags = s.tags := rfl
@[simp] theorem setLaunch_poison (s : State) (n : Nat) (x : Launch) : (setLaunch s n x).poison = s.poison := rfl
@[simp] theorem setLaunch_injected (s : State) (n : Nat) (x : Launch) : (setLaunch s n x).injected = s.injected := rfl
@[simp] theorem setLaunch_objects (s : State) (n : Nat) (x : Launch) : (setLaunch s n x).objects = s.objects := rfl
@[simp] theorem setLaunch_objectWrites (s : State) (n : Nat) (x : Launch) : (setLaunch s n x).objectWrites = s.objectWrites := rfl
@[simp] theorem setLaunch_cores (s : State) (n : Nat) (x : Launch) : (setLaunch s n x).cores = s.cores := rfl
@[simp] theorem setLaunch_clusters (s : State) (n : Nat) (x : Launch) : (setLaunch s n x).clusters = s.clusters := rfl
@[simp] theorem setLaunch_dies (s : State) (n : Nat) (x : Launch) : (setLaunch s n x).dies = s.dies := rfl
@[simp] theorem setLaunch_contexts (s : State) (n : Nat) (x : Launch) : (setLaunch s n x).contexts = s.contexts := rfl
@[simp] theorem setLaunch_functions (s : State) (n : Nat) (x : Launch) : (setLaunch s n x).functions = s.functions := rfl
@[simp] theorem setLaunch_channels (s : State) (n : Nat) (x : Launch) : (setLaunch s n x).channels = s.channels := rfl
@[simp] theorem setLaunch_homeWrites (s : State) (n : Nat) (x : Launch) : (setLaunch s n x).homeWrites = s.homeWrites := rfl
@[simp] theorem setLaunch_responses (s : State) (n : Nat) (x : Launch) : (setLaunch s n x).responses = s.responses := rfl
@[simp] theorem setLaunch_pageRequests (s : State) (n : Nat) (x : Launch) : (setLaunch s n x).pageRequests = s.pageRequests := rfl
@[simp] theorem setLaunch_classJobs (s : State) (n : Nat) (x : Launch) : (setLaunch s n x).classJobs = s.classJobs := rfl
@[simp] theorem setLaunch_pulls (s : State) (n : Nat) (x : Launch) : (setLaunch s n x).pulls = s.pulls := rfl
@[simp] theorem setLaunch_landed (s : State) (n : Nat) (x : Launch) : (setLaunch s n x).landed = s.landed := rfl
@[simp] theorem setLaunch_peerPages (s : State) (n : Nat) (x : Launch) : (setLaunch s n x).peerPages = s.peerPages := rfl
@[simp] theorem setLaunch_hostWaiting (s : State) (n : Nat) (x : Launch) : (setLaunch s n x).hostWaiting = s.hostWaiting := rfl
@[simp] theorem setLaunch_replies (s : State) (n : Nat) (x : Launch) : (setLaunch s n x).replies = s.replies := rfl
@[simp] theorem setLaunch_icEpoch (s : State) (n : Nat) (x : Launch) : (setLaunch s n x).icEpoch = s.icEpoch := rfl
@[simp] theorem setLaunch_pcap (s : State) (n : Nat) (x : Launch) : (setLaunch s n x).pcap = s.pcap := rfl
@[simp] theorem setLaunch_fownBase (s : State) (n : Nat) (x : Launch) : (setLaunch s n x).fownBase = s.fownBase := rfl
@[simp] theorem setLaunch_grpBase (s : State) (n : Nat) (x : Launch) : (setLaunch s n x).grpBase = s.grpBase := rfl
@[simp] theorem setLaunch_poolBase (s : State) (n : Nat) (x : Launch) : (setLaunch s n x).poolBase = s.poolBase := rfl
@[simp] theorem setLaunch_expBase (s : State) (n : Nat) (x : Launch) : (setLaunch s n x).expBase = s.expBase := rfl
@[simp] theorem setLaunch_agenda (s : State) (n : Nat) (x : Launch) : (setLaunch s n x).agenda = s.agenda := rfl
@[simp] theorem setLaunch_actor (s : State) (n : Nat) (x : Launch) : (setLaunch s n x).actor = s.actor := rfl
@[simp] theorem setLaunch_tick (s : State) (n : Nat) (x : Launch) : (setLaunch s n x).tick = s.tick := rfl
@[simp] theorem setLaunch_issued (s : State) (n : Nat) (x : Launch) : (setLaunch s n x).issued = s.issued := rfl
@[simp] theorem setLaunch_fresh (s : State) (n : Nat) (x : Launch) : (setLaunch s n x).fresh = s.fresh := rfl

/-! ### modLaunch -/

@[simp] theorem modLaunch_booted (s : State) (n : Nat) (f : Launch → Launch) : (modLaunch s n f).booted = s.booted := rfl
@[simp] theorem modLaunch_poweredDown (s : State) (n : Nat) (f : Launch → Launch) : (modLaunch s n f).poweredDown = s.poweredDown := rfl
@[simp] theorem modLaunch_tripped (s : State) (n : Nat) (f : Launch → Launch) : (modLaunch s n f).tripped = s.tripped := rfl
@[simp] theorem modLaunch_vfEnable (s : State) (n : Nat) (f : Launch → Launch) : (modLaunch s n f).vfEnable = s.vfEnable := rfl
@[simp] theorem modLaunch_mem (s : State) (n : Nat) (f : Launch → Launch) : (modLaunch s n f).mem = s.mem := rfl
@[simp] theorem modLaunch_tags (s : State) (n : Nat) (f : Launch → Launch) : (modLaunch s n f).tags = s.tags := rfl
@[simp] theorem modLaunch_poison (s : State) (n : Nat) (f : Launch → Launch) : (modLaunch s n f).poison = s.poison := rfl
@[simp] theorem modLaunch_injected (s : State) (n : Nat) (f : Launch → Launch) : (modLaunch s n f).injected = s.injected := rfl
@[simp] theorem modLaunch_objects (s : State) (n : Nat) (f : Launch → Launch) : (modLaunch s n f).objects = s.objects := rfl
@[simp] theorem modLaunch_objectWrites (s : State) (n : Nat) (f : Launch → Launch) : (modLaunch s n f).objectWrites = s.objectWrites := rfl
@[simp] theorem modLaunch_cores (s : State) (n : Nat) (f : Launch → Launch) : (modLaunch s n f).cores = s.cores := rfl
@[simp] theorem modLaunch_clusters (s : State) (n : Nat) (f : Launch → Launch) : (modLaunch s n f).clusters = s.clusters := rfl
@[simp] theorem modLaunch_dies (s : State) (n : Nat) (f : Launch → Launch) : (modLaunch s n f).dies = s.dies := rfl
@[simp] theorem modLaunch_contexts (s : State) (n : Nat) (f : Launch → Launch) : (modLaunch s n f).contexts = s.contexts := rfl
@[simp] theorem modLaunch_functions (s : State) (n : Nat) (f : Launch → Launch) : (modLaunch s n f).functions = s.functions := rfl
@[simp] theorem modLaunch_channels (s : State) (n : Nat) (f : Launch → Launch) : (modLaunch s n f).channels = s.channels := rfl
@[simp] theorem modLaunch_homeWrites (s : State) (n : Nat) (f : Launch → Launch) : (modLaunch s n f).homeWrites = s.homeWrites := rfl
@[simp] theorem modLaunch_responses (s : State) (n : Nat) (f : Launch → Launch) : (modLaunch s n f).responses = s.responses := rfl
@[simp] theorem modLaunch_pageRequests (s : State) (n : Nat) (f : Launch → Launch) : (modLaunch s n f).pageRequests = s.pageRequests := rfl
@[simp] theorem modLaunch_classJobs (s : State) (n : Nat) (f : Launch → Launch) : (modLaunch s n f).classJobs = s.classJobs := rfl
@[simp] theorem modLaunch_pulls (s : State) (n : Nat) (f : Launch → Launch) : (modLaunch s n f).pulls = s.pulls := rfl
@[simp] theorem modLaunch_landed (s : State) (n : Nat) (f : Launch → Launch) : (modLaunch s n f).landed = s.landed := rfl
@[simp] theorem modLaunch_peerPages (s : State) (n : Nat) (f : Launch → Launch) : (modLaunch s n f).peerPages = s.peerPages := rfl
@[simp] theorem modLaunch_hostWaiting (s : State) (n : Nat) (f : Launch → Launch) : (modLaunch s n f).hostWaiting = s.hostWaiting := rfl
@[simp] theorem modLaunch_replies (s : State) (n : Nat) (f : Launch → Launch) : (modLaunch s n f).replies = s.replies := rfl
@[simp] theorem modLaunch_icEpoch (s : State) (n : Nat) (f : Launch → Launch) : (modLaunch s n f).icEpoch = s.icEpoch := rfl
@[simp] theorem modLaunch_pcap (s : State) (n : Nat) (f : Launch → Launch) : (modLaunch s n f).pcap = s.pcap := rfl
@[simp] theorem modLaunch_fownBase (s : State) (n : Nat) (f : Launch → Launch) : (modLaunch s n f).fownBase = s.fownBase := rfl
@[simp] theorem modLaunch_grpBase (s : State) (n : Nat) (f : Launch → Launch) : (modLaunch s n f).grpBase = s.grpBase := rfl
@[simp] theorem modLaunch_poolBase (s : State) (n : Nat) (f : Launch → Launch) : (modLaunch s n f).poolBase = s.poolBase := rfl
@[simp] theorem modLaunch_expBase (s : State) (n : Nat) (f : Launch → Launch) : (modLaunch s n f).expBase = s.expBase := rfl
@[simp] theorem modLaunch_agenda (s : State) (n : Nat) (f : Launch → Launch) : (modLaunch s n f).agenda = s.agenda := rfl
@[simp] theorem modLaunch_actor (s : State) (n : Nat) (f : Launch → Launch) : (modLaunch s n f).actor = s.actor := rfl
@[simp] theorem modLaunch_tick (s : State) (n : Nat) (f : Launch → Launch) : (modLaunch s n f).tick = s.tick := rfl
@[simp] theorem modLaunch_issued (s : State) (n : Nat) (f : Launch → Launch) : (modLaunch s n f).issued = s.issued := rfl
@[simp] theorem modLaunch_fresh (s : State) (n : Nat) (f : Launch → Launch) : (modLaunch s n f).fresh = s.fresh := rfl

/-! ### setFunc -/

@[simp] theorem setFunc_booted (s : State) (n : Nat) (x : Func) : (setFunc s n x).booted = s.booted := rfl
@[simp] theorem setFunc_poweredDown (s : State) (n : Nat) (x : Func) : (setFunc s n x).poweredDown = s.poweredDown := rfl
@[simp] theorem setFunc_tripped (s : State) (n : Nat) (x : Func) : (setFunc s n x).tripped = s.tripped := rfl
@[simp] theorem setFunc_vfEnable (s : State) (n : Nat) (x : Func) : (setFunc s n x).vfEnable = s.vfEnable := rfl
@[simp] theorem setFunc_mem (s : State) (n : Nat) (x : Func) : (setFunc s n x).mem = s.mem := rfl
@[simp] theorem setFunc_tags (s : State) (n : Nat) (x : Func) : (setFunc s n x).tags = s.tags := rfl
@[simp] theorem setFunc_poison (s : State) (n : Nat) (x : Func) : (setFunc s n x).poison = s.poison := rfl
@[simp] theorem setFunc_injected (s : State) (n : Nat) (x : Func) : (setFunc s n x).injected = s.injected := rfl
@[simp] theorem setFunc_objects (s : State) (n : Nat) (x : Func) : (setFunc s n x).objects = s.objects := rfl
@[simp] theorem setFunc_objectWrites (s : State) (n : Nat) (x : Func) : (setFunc s n x).objectWrites = s.objectWrites := rfl
@[simp] theorem setFunc_cores (s : State) (n : Nat) (x : Func) : (setFunc s n x).cores = s.cores := rfl
@[simp] theorem setFunc_clusters (s : State) (n : Nat) (x : Func) : (setFunc s n x).clusters = s.clusters := rfl
@[simp] theorem setFunc_dies (s : State) (n : Nat) (x : Func) : (setFunc s n x).dies = s.dies := rfl
@[simp] theorem setFunc_contexts (s : State) (n : Nat) (x : Func) : (setFunc s n x).contexts = s.contexts := rfl
@[simp] theorem setFunc_launches (s : State) (n : Nat) (x : Func) : (setFunc s n x).launches = s.launches := rfl
@[simp] theorem setFunc_channels (s : State) (n : Nat) (x : Func) : (setFunc s n x).channels = s.channels := rfl
@[simp] theorem setFunc_homeWrites (s : State) (n : Nat) (x : Func) : (setFunc s n x).homeWrites = s.homeWrites := rfl
@[simp] theorem setFunc_responses (s : State) (n : Nat) (x : Func) : (setFunc s n x).responses = s.responses := rfl
@[simp] theorem setFunc_pageRequests (s : State) (n : Nat) (x : Func) : (setFunc s n x).pageRequests = s.pageRequests := rfl
@[simp] theorem setFunc_classJobs (s : State) (n : Nat) (x : Func) : (setFunc s n x).classJobs = s.classJobs := rfl
@[simp] theorem setFunc_pulls (s : State) (n : Nat) (x : Func) : (setFunc s n x).pulls = s.pulls := rfl
@[simp] theorem setFunc_landed (s : State) (n : Nat) (x : Func) : (setFunc s n x).landed = s.landed := rfl
@[simp] theorem setFunc_peerPages (s : State) (n : Nat) (x : Func) : (setFunc s n x).peerPages = s.peerPages := rfl
@[simp] theorem setFunc_hostWaiting (s : State) (n : Nat) (x : Func) : (setFunc s n x).hostWaiting = s.hostWaiting := rfl
@[simp] theorem setFunc_replies (s : State) (n : Nat) (x : Func) : (setFunc s n x).replies = s.replies := rfl
@[simp] theorem setFunc_icEpoch (s : State) (n : Nat) (x : Func) : (setFunc s n x).icEpoch = s.icEpoch := rfl
@[simp] theorem setFunc_pcap (s : State) (n : Nat) (x : Func) : (setFunc s n x).pcap = s.pcap := rfl
@[simp] theorem setFunc_fownBase (s : State) (n : Nat) (x : Func) : (setFunc s n x).fownBase = s.fownBase := rfl
@[simp] theorem setFunc_grpBase (s : State) (n : Nat) (x : Func) : (setFunc s n x).grpBase = s.grpBase := rfl
@[simp] theorem setFunc_poolBase (s : State) (n : Nat) (x : Func) : (setFunc s n x).poolBase = s.poolBase := rfl
@[simp] theorem setFunc_expBase (s : State) (n : Nat) (x : Func) : (setFunc s n x).expBase = s.expBase := rfl
@[simp] theorem setFunc_agenda (s : State) (n : Nat) (x : Func) : (setFunc s n x).agenda = s.agenda := rfl
@[simp] theorem setFunc_actor (s : State) (n : Nat) (x : Func) : (setFunc s n x).actor = s.actor := rfl
@[simp] theorem setFunc_tick (s : State) (n : Nat) (x : Func) : (setFunc s n x).tick = s.tick := rfl
@[simp] theorem setFunc_issued (s : State) (n : Nat) (x : Func) : (setFunc s n x).issued = s.issued := rfl
@[simp] theorem setFunc_fresh (s : State) (n : Nat) (x : Func) : (setFunc s n x).fresh = s.fresh := rfl

/-! ### modFunc -/

@[simp] theorem modFunc_booted (s : State) (n : Nat) (f : Func → Func) : (modFunc s n f).booted = s.booted := rfl
@[simp] theorem modFunc_poweredDown (s : State) (n : Nat) (f : Func → Func) : (modFunc s n f).poweredDown = s.poweredDown := rfl
@[simp] theorem modFunc_tripped (s : State) (n : Nat) (f : Func → Func) : (modFunc s n f).tripped = s.tripped := rfl
@[simp] theorem modFunc_vfEnable (s : State) (n : Nat) (f : Func → Func) : (modFunc s n f).vfEnable = s.vfEnable := rfl
@[simp] theorem modFunc_mem (s : State) (n : Nat) (f : Func → Func) : (modFunc s n f).mem = s.mem := rfl
@[simp] theorem modFunc_tags (s : State) (n : Nat) (f : Func → Func) : (modFunc s n f).tags = s.tags := rfl
@[simp] theorem modFunc_poison (s : State) (n : Nat) (f : Func → Func) : (modFunc s n f).poison = s.poison := rfl
@[simp] theorem modFunc_injected (s : State) (n : Nat) (f : Func → Func) : (modFunc s n f).injected = s.injected := rfl
@[simp] theorem modFunc_objects (s : State) (n : Nat) (f : Func → Func) : (modFunc s n f).objects = s.objects := rfl
@[simp] theorem modFunc_objectWrites (s : State) (n : Nat) (f : Func → Func) : (modFunc s n f).objectWrites = s.objectWrites := rfl
@[simp] theorem modFunc_cores (s : State) (n : Nat) (f : Func → Func) : (modFunc s n f).cores = s.cores := rfl
@[simp] theorem modFunc_clusters (s : State) (n : Nat) (f : Func → Func) : (modFunc s n f).clusters = s.clusters := rfl
@[simp] theorem modFunc_dies (s : State) (n : Nat) (f : Func → Func) : (modFunc s n f).dies = s.dies := rfl
@[simp] theorem modFunc_contexts (s : State) (n : Nat) (f : Func → Func) : (modFunc s n f).contexts = s.contexts := rfl
@[simp] theorem modFunc_launches (s : State) (n : Nat) (f : Func → Func) : (modFunc s n f).launches = s.launches := rfl
@[simp] theorem modFunc_channels (s : State) (n : Nat) (f : Func → Func) : (modFunc s n f).channels = s.channels := rfl
@[simp] theorem modFunc_homeWrites (s : State) (n : Nat) (f : Func → Func) : (modFunc s n f).homeWrites = s.homeWrites := rfl
@[simp] theorem modFunc_responses (s : State) (n : Nat) (f : Func → Func) : (modFunc s n f).responses = s.responses := rfl
@[simp] theorem modFunc_pageRequests (s : State) (n : Nat) (f : Func → Func) : (modFunc s n f).pageRequests = s.pageRequests := rfl
@[simp] theorem modFunc_classJobs (s : State) (n : Nat) (f : Func → Func) : (modFunc s n f).classJobs = s.classJobs := rfl
@[simp] theorem modFunc_pulls (s : State) (n : Nat) (f : Func → Func) : (modFunc s n f).pulls = s.pulls := rfl
@[simp] theorem modFunc_landed (s : State) (n : Nat) (f : Func → Func) : (modFunc s n f).landed = s.landed := rfl
@[simp] theorem modFunc_peerPages (s : State) (n : Nat) (f : Func → Func) : (modFunc s n f).peerPages = s.peerPages := rfl
@[simp] theorem modFunc_hostWaiting (s : State) (n : Nat) (f : Func → Func) : (modFunc s n f).hostWaiting = s.hostWaiting := rfl
@[simp] theorem modFunc_replies (s : State) (n : Nat) (f : Func → Func) : (modFunc s n f).replies = s.replies := rfl
@[simp] theorem modFunc_icEpoch (s : State) (n : Nat) (f : Func → Func) : (modFunc s n f).icEpoch = s.icEpoch := rfl
@[simp] theorem modFunc_pcap (s : State) (n : Nat) (f : Func → Func) : (modFunc s n f).pcap = s.pcap := rfl
@[simp] theorem modFunc_fownBase (s : State) (n : Nat) (f : Func → Func) : (modFunc s n f).fownBase = s.fownBase := rfl
@[simp] theorem modFunc_grpBase (s : State) (n : Nat) (f : Func → Func) : (modFunc s n f).grpBase = s.grpBase := rfl
@[simp] theorem modFunc_poolBase (s : State) (n : Nat) (f : Func → Func) : (modFunc s n f).poolBase = s.poolBase := rfl
@[simp] theorem modFunc_expBase (s : State) (n : Nat) (f : Func → Func) : (modFunc s n f).expBase = s.expBase := rfl
@[simp] theorem modFunc_agenda (s : State) (n : Nat) (f : Func → Func) : (modFunc s n f).agenda = s.agenda := rfl
@[simp] theorem modFunc_actor (s : State) (n : Nat) (f : Func → Func) : (modFunc s n f).actor = s.actor := rfl
@[simp] theorem modFunc_tick (s : State) (n : Nat) (f : Func → Func) : (modFunc s n f).tick = s.tick := rfl
@[simp] theorem modFunc_issued (s : State) (n : Nat) (f : Func → Func) : (modFunc s n f).issued = s.issued := rfl
@[simp] theorem modFunc_fresh (s : State) (n : Nat) (f : Func → Func) : (modFunc s n f).fresh = s.fresh := rfl

/-! ### setChannel -/

@[simp] theorem setChannel_booted (s : State) (n : Nat) (x : Channel) : (setChannel s n x).booted = s.booted := rfl
@[simp] theorem setChannel_poweredDown (s : State) (n : Nat) (x : Channel) : (setChannel s n x).poweredDown = s.poweredDown := rfl
@[simp] theorem setChannel_tripped (s : State) (n : Nat) (x : Channel) : (setChannel s n x).tripped = s.tripped := rfl
@[simp] theorem setChannel_vfEnable (s : State) (n : Nat) (x : Channel) : (setChannel s n x).vfEnable = s.vfEnable := rfl
@[simp] theorem setChannel_mem (s : State) (n : Nat) (x : Channel) : (setChannel s n x).mem = s.mem := rfl
@[simp] theorem setChannel_tags (s : State) (n : Nat) (x : Channel) : (setChannel s n x).tags = s.tags := rfl
@[simp] theorem setChannel_poison (s : State) (n : Nat) (x : Channel) : (setChannel s n x).poison = s.poison := rfl
@[simp] theorem setChannel_injected (s : State) (n : Nat) (x : Channel) : (setChannel s n x).injected = s.injected := rfl
@[simp] theorem setChannel_objects (s : State) (n : Nat) (x : Channel) : (setChannel s n x).objects = s.objects := rfl
@[simp] theorem setChannel_objectWrites (s : State) (n : Nat) (x : Channel) : (setChannel s n x).objectWrites = s.objectWrites := rfl
@[simp] theorem setChannel_cores (s : State) (n : Nat) (x : Channel) : (setChannel s n x).cores = s.cores := rfl
@[simp] theorem setChannel_clusters (s : State) (n : Nat) (x : Channel) : (setChannel s n x).clusters = s.clusters := rfl
@[simp] theorem setChannel_dies (s : State) (n : Nat) (x : Channel) : (setChannel s n x).dies = s.dies := rfl
@[simp] theorem setChannel_contexts (s : State) (n : Nat) (x : Channel) : (setChannel s n x).contexts = s.contexts := rfl
@[simp] theorem setChannel_launches (s : State) (n : Nat) (x : Channel) : (setChannel s n x).launches = s.launches := rfl
@[simp] theorem setChannel_functions (s : State) (n : Nat) (x : Channel) : (setChannel s n x).functions = s.functions := rfl
@[simp] theorem setChannel_homeWrites (s : State) (n : Nat) (x : Channel) : (setChannel s n x).homeWrites = s.homeWrites := rfl
@[simp] theorem setChannel_responses (s : State) (n : Nat) (x : Channel) : (setChannel s n x).responses = s.responses := rfl
@[simp] theorem setChannel_pageRequests (s : State) (n : Nat) (x : Channel) : (setChannel s n x).pageRequests = s.pageRequests := rfl
@[simp] theorem setChannel_classJobs (s : State) (n : Nat) (x : Channel) : (setChannel s n x).classJobs = s.classJobs := rfl
@[simp] theorem setChannel_pulls (s : State) (n : Nat) (x : Channel) : (setChannel s n x).pulls = s.pulls := rfl
@[simp] theorem setChannel_landed (s : State) (n : Nat) (x : Channel) : (setChannel s n x).landed = s.landed := rfl
@[simp] theorem setChannel_peerPages (s : State) (n : Nat) (x : Channel) : (setChannel s n x).peerPages = s.peerPages := rfl
@[simp] theorem setChannel_hostWaiting (s : State) (n : Nat) (x : Channel) : (setChannel s n x).hostWaiting = s.hostWaiting := rfl
@[simp] theorem setChannel_replies (s : State) (n : Nat) (x : Channel) : (setChannel s n x).replies = s.replies := rfl
@[simp] theorem setChannel_icEpoch (s : State) (n : Nat) (x : Channel) : (setChannel s n x).icEpoch = s.icEpoch := rfl
@[simp] theorem setChannel_pcap (s : State) (n : Nat) (x : Channel) : (setChannel s n x).pcap = s.pcap := rfl
@[simp] theorem setChannel_fownBase (s : State) (n : Nat) (x : Channel) : (setChannel s n x).fownBase = s.fownBase := rfl
@[simp] theorem setChannel_grpBase (s : State) (n : Nat) (x : Channel) : (setChannel s n x).grpBase = s.grpBase := rfl
@[simp] theorem setChannel_poolBase (s : State) (n : Nat) (x : Channel) : (setChannel s n x).poolBase = s.poolBase := rfl
@[simp] theorem setChannel_expBase (s : State) (n : Nat) (x : Channel) : (setChannel s n x).expBase = s.expBase := rfl
@[simp] theorem setChannel_agenda (s : State) (n : Nat) (x : Channel) : (setChannel s n x).agenda = s.agenda := rfl
@[simp] theorem setChannel_actor (s : State) (n : Nat) (x : Channel) : (setChannel s n x).actor = s.actor := rfl
@[simp] theorem setChannel_tick (s : State) (n : Nat) (x : Channel) : (setChannel s n x).tick = s.tick := rfl
@[simp] theorem setChannel_issued (s : State) (n : Nat) (x : Channel) : (setChannel s n x).issued = s.issued := rfl
@[simp] theorem setChannel_fresh (s : State) (n : Nat) (x : Channel) : (setChannel s n x).fresh = s.fresh := rfl

/-! ### setObject -/

@[simp] theorem setObject_booted (s : State) (fn oid : Nat) (e : BitVec 128) : (setObject s fn oid e).booted = s.booted := rfl
@[simp] theorem setObject_poweredDown (s : State) (fn oid : Nat) (e : BitVec 128) : (setObject s fn oid e).poweredDown = s.poweredDown := rfl
@[simp] theorem setObject_tripped (s : State) (fn oid : Nat) (e : BitVec 128) : (setObject s fn oid e).tripped = s.tripped := rfl
@[simp] theorem setObject_vfEnable (s : State) (fn oid : Nat) (e : BitVec 128) : (setObject s fn oid e).vfEnable = s.vfEnable := rfl
@[simp] theorem setObject_mem (s : State) (fn oid : Nat) (e : BitVec 128) : (setObject s fn oid e).mem = s.mem := rfl
@[simp] theorem setObject_tags (s : State) (fn oid : Nat) (e : BitVec 128) : (setObject s fn oid e).tags = s.tags := rfl
@[simp] theorem setObject_poison (s : State) (fn oid : Nat) (e : BitVec 128) : (setObject s fn oid e).poison = s.poison := rfl
@[simp] theorem setObject_injected (s : State) (fn oid : Nat) (e : BitVec 128) : (setObject s fn oid e).injected = s.injected := rfl
@[simp] theorem setObject_objectWrites (s : State) (fn oid : Nat) (e : BitVec 128) : (setObject s fn oid e).objectWrites = s.objectWrites := rfl
@[simp] theorem setObject_cores (s : State) (fn oid : Nat) (e : BitVec 128) : (setObject s fn oid e).cores = s.cores := rfl
@[simp] theorem setObject_clusters (s : State) (fn oid : Nat) (e : BitVec 128) : (setObject s fn oid e).clusters = s.clusters := rfl
@[simp] theorem setObject_dies (s : State) (fn oid : Nat) (e : BitVec 128) : (setObject s fn oid e).dies = s.dies := rfl
@[simp] theorem setObject_contexts (s : State) (fn oid : Nat) (e : BitVec 128) : (setObject s fn oid e).contexts = s.contexts := rfl
@[simp] theorem setObject_launches (s : State) (fn oid : Nat) (e : BitVec 128) : (setObject s fn oid e).launches = s.launches := rfl
@[simp] theorem setObject_functions (s : State) (fn oid : Nat) (e : BitVec 128) : (setObject s fn oid e).functions = s.functions := rfl
@[simp] theorem setObject_channels (s : State) (fn oid : Nat) (e : BitVec 128) : (setObject s fn oid e).channels = s.channels := rfl
@[simp] theorem setObject_homeWrites (s : State) (fn oid : Nat) (e : BitVec 128) : (setObject s fn oid e).homeWrites = s.homeWrites := rfl
@[simp] theorem setObject_responses (s : State) (fn oid : Nat) (e : BitVec 128) : (setObject s fn oid e).responses = s.responses := rfl
@[simp] theorem setObject_pageRequests (s : State) (fn oid : Nat) (e : BitVec 128) : (setObject s fn oid e).pageRequests = s.pageRequests := rfl
@[simp] theorem setObject_classJobs (s : State) (fn oid : Nat) (e : BitVec 128) : (setObject s fn oid e).classJobs = s.classJobs := rfl
@[simp] theorem setObject_pulls (s : State) (fn oid : Nat) (e : BitVec 128) : (setObject s fn oid e).pulls = s.pulls := rfl
@[simp] theorem setObject_landed (s : State) (fn oid : Nat) (e : BitVec 128) : (setObject s fn oid e).landed = s.landed := rfl
@[simp] theorem setObject_peerPages (s : State) (fn oid : Nat) (e : BitVec 128) : (setObject s fn oid e).peerPages = s.peerPages := rfl
@[simp] theorem setObject_hostWaiting (s : State) (fn oid : Nat) (e : BitVec 128) : (setObject s fn oid e).hostWaiting = s.hostWaiting := rfl
@[simp] theorem setObject_replies (s : State) (fn oid : Nat) (e : BitVec 128) : (setObject s fn oid e).replies = s.replies := rfl
@[simp] theorem setObject_icEpoch (s : State) (fn oid : Nat) (e : BitVec 128) : (setObject s fn oid e).icEpoch = s.icEpoch := rfl
@[simp] theorem setObject_pcap (s : State) (fn oid : Nat) (e : BitVec 128) : (setObject s fn oid e).pcap = s.pcap := rfl
@[simp] theorem setObject_fownBase (s : State) (fn oid : Nat) (e : BitVec 128) : (setObject s fn oid e).fownBase = s.fownBase := rfl
@[simp] theorem setObject_grpBase (s : State) (fn oid : Nat) (e : BitVec 128) : (setObject s fn oid e).grpBase = s.grpBase := rfl
@[simp] theorem setObject_poolBase (s : State) (fn oid : Nat) (e : BitVec 128) : (setObject s fn oid e).poolBase = s.poolBase := rfl
@[simp] theorem setObject_expBase (s : State) (fn oid : Nat) (e : BitVec 128) : (setObject s fn oid e).expBase = s.expBase := rfl
@[simp] theorem setObject_agenda (s : State) (fn oid : Nat) (e : BitVec 128) : (setObject s fn oid e).agenda = s.agenda := rfl
@[simp] theorem setObject_actor (s : State) (fn oid : Nat) (e : BitVec 128) : (setObject s fn oid e).actor = s.actor := rfl
@[simp] theorem setObject_tick (s : State) (fn oid : Nat) (e : BitVec 128) : (setObject s fn oid e).tick = s.tick := rfl
@[simp] theorem setObject_issued (s : State) (fn oid : Nat) (e : BitVec 128) : (setObject s fn oid e).issued = s.issued := rfl
@[simp] theorem setObject_fresh (s : State) (fn oid : Nat) (e : BitVec 128) : (setObject s fn oid e).fresh = s.fresh := rfl

/-! ### setCast -/

@[simp] theorem setCast_booted (s : State) (core cast : Nat) (x : Cast) : (setCast s core cast x).booted = s.booted := rfl
@[simp] theorem setCast_poweredDown (s : State) (core cast : Nat) (x : Cast) : (setCast s core cast x).poweredDown = s.poweredDown := rfl
@[simp] theorem setCast_tripped (s : State) (core cast : Nat) (x : Cast) : (setCast s core cast x).tripped = s.tripped := rfl
@[simp] theorem setCast_vfEnable (s : State) (core cast : Nat) (x : Cast) : (setCast s core cast x).vfEnable = s.vfEnable := rfl
@[simp] theorem setCast_mem (s : State) (core cast : Nat) (x : Cast) : (setCast s core cast x).mem = s.mem := rfl
@[simp] theorem setCast_tags (s : State) (core cast : Nat) (x : Cast) : (setCast s core cast x).tags = s.tags := rfl
@[simp] theorem setCast_poison (s : State) (core cast : Nat) (x : Cast) : (setCast s core cast x).poison = s.poison := rfl
@[simp] theorem setCast_injected (s : State) (core cast : Nat) (x : Cast) : (setCast s core cast x).injected = s.injected := rfl
@[simp] theorem setCast_objects (s : State) (core cast : Nat) (x : Cast) : (setCast s core cast x).objects = s.objects := rfl
@[simp] theorem setCast_objectWrites (s : State) (core cast : Nat) (x : Cast) : (setCast s core cast x).objectWrites = s.objectWrites := rfl
@[simp] theorem setCast_clusters (s : State) (core cast : Nat) (x : Cast) : (setCast s core cast x).clusters = s.clusters := rfl
@[simp] theorem setCast_dies (s : State) (core cast : Nat) (x : Cast) : (setCast s core cast x).dies = s.dies := rfl
@[simp] theorem setCast_contexts (s : State) (core cast : Nat) (x : Cast) : (setCast s core cast x).contexts = s.contexts := rfl
@[simp] theorem setCast_launches (s : State) (core cast : Nat) (x : Cast) : (setCast s core cast x).launches = s.launches := rfl
@[simp] theorem setCast_functions (s : State) (core cast : Nat) (x : Cast) : (setCast s core cast x).functions = s.functions := rfl
@[simp] theorem setCast_channels (s : State) (core cast : Nat) (x : Cast) : (setCast s core cast x).channels = s.channels := rfl
@[simp] theorem setCast_homeWrites (s : State) (core cast : Nat) (x : Cast) : (setCast s core cast x).homeWrites = s.homeWrites := rfl
@[simp] theorem setCast_responses (s : State) (core cast : Nat) (x : Cast) : (setCast s core cast x).responses = s.responses := rfl
@[simp] theorem setCast_pageRequests (s : State) (core cast : Nat) (x : Cast) : (setCast s core cast x).pageRequests = s.pageRequests := rfl
@[simp] theorem setCast_classJobs (s : State) (core cast : Nat) (x : Cast) : (setCast s core cast x).classJobs = s.classJobs := rfl
@[simp] theorem setCast_pulls (s : State) (core cast : Nat) (x : Cast) : (setCast s core cast x).pulls = s.pulls := rfl
@[simp] theorem setCast_landed (s : State) (core cast : Nat) (x : Cast) : (setCast s core cast x).landed = s.landed := rfl
@[simp] theorem setCast_peerPages (s : State) (core cast : Nat) (x : Cast) : (setCast s core cast x).peerPages = s.peerPages := rfl
@[simp] theorem setCast_hostWaiting (s : State) (core cast : Nat) (x : Cast) : (setCast s core cast x).hostWaiting = s.hostWaiting := rfl
@[simp] theorem setCast_replies (s : State) (core cast : Nat) (x : Cast) : (setCast s core cast x).replies = s.replies := rfl
@[simp] theorem setCast_icEpoch (s : State) (core cast : Nat) (x : Cast) : (setCast s core cast x).icEpoch = s.icEpoch := rfl
@[simp] theorem setCast_pcap (s : State) (core cast : Nat) (x : Cast) : (setCast s core cast x).pcap = s.pcap := rfl
@[simp] theorem setCast_fownBase (s : State) (core cast : Nat) (x : Cast) : (setCast s core cast x).fownBase = s.fownBase := rfl
@[simp] theorem setCast_grpBase (s : State) (core cast : Nat) (x : Cast) : (setCast s core cast x).grpBase = s.grpBase := rfl
@[simp] theorem setCast_poolBase (s : State) (core cast : Nat) (x : Cast) : (setCast s core cast x).poolBase = s.poolBase := rfl
@[simp] theorem setCast_expBase (s : State) (core cast : Nat) (x : Cast) : (setCast s core cast x).expBase = s.expBase := rfl
@[simp] theorem setCast_agenda (s : State) (core cast : Nat) (x : Cast) : (setCast s core cast x).agenda = s.agenda := rfl
@[simp] theorem setCast_actor (s : State) (core cast : Nat) (x : Cast) : (setCast s core cast x).actor = s.actor := rfl
@[simp] theorem setCast_tick (s : State) (core cast : Nat) (x : Cast) : (setCast s core cast x).tick = s.tick := rfl
@[simp] theorem setCast_issued (s : State) (core cast : Nat) (x : Cast) : (setCast s core cast x).issued = s.issued := rfl
@[simp] theorem setCast_fresh (s : State) (core cast : Nat) (x : Cast) : (setCast s core cast x).fresh = s.fresh := rfl

/-! ### modCast -/

@[simp] theorem modCast_booted (s : State) (core cast : Nat) (f : Cast → Cast) : (modCast s core cast f).booted = s.booted := rfl
@[simp] theorem modCast_poweredDown (s : State) (core cast : Nat) (f : Cast → Cast) : (modCast s core cast f).poweredDown = s.poweredDown := rfl
@[simp] theorem modCast_tripped (s : State) (core cast : Nat) (f : Cast → Cast) : (modCast s core cast f).tripped = s.tripped := rfl
@[simp] theorem modCast_vfEnable (s : State) (core cast : Nat) (f : Cast → Cast) : (modCast s core cast f).vfEnable = s.vfEnable := rfl
@[simp] theorem modCast_mem (s : State) (core cast : Nat) (f : Cast → Cast) : (modCast s core cast f).mem = s.mem := rfl
@[simp] theorem modCast_tags (s : State) (core cast : Nat) (f : Cast → Cast) : (modCast s core cast f).tags = s.tags := rfl
@[simp] theorem modCast_poison (s : State) (core cast : Nat) (f : Cast → Cast) : (modCast s core cast f).poison = s.poison := rfl
@[simp] theorem modCast_injected (s : State) (core cast : Nat) (f : Cast → Cast) : (modCast s core cast f).injected = s.injected := rfl
@[simp] theorem modCast_objects (s : State) (core cast : Nat) (f : Cast → Cast) : (modCast s core cast f).objects = s.objects := rfl
@[simp] theorem modCast_objectWrites (s : State) (core cast : Nat) (f : Cast → Cast) : (modCast s core cast f).objectWrites = s.objectWrites := rfl
@[simp] theorem modCast_clusters (s : State) (core cast : Nat) (f : Cast → Cast) : (modCast s core cast f).clusters = s.clusters := rfl
@[simp] theorem modCast_dies (s : State) (core cast : Nat) (f : Cast → Cast) : (modCast s core cast f).dies = s.dies := rfl
@[simp] theorem modCast_contexts (s : State) (core cast : Nat) (f : Cast → Cast) : (modCast s core cast f).contexts = s.contexts := rfl
@[simp] theorem modCast_launches (s : State) (core cast : Nat) (f : Cast → Cast) : (modCast s core cast f).launches = s.launches := rfl
@[simp] theorem modCast_functions (s : State) (core cast : Nat) (f : Cast → Cast) : (modCast s core cast f).functions = s.functions := rfl
@[simp] theorem modCast_channels (s : State) (core cast : Nat) (f : Cast → Cast) : (modCast s core cast f).channels = s.channels := rfl
@[simp] theorem modCast_homeWrites (s : State) (core cast : Nat) (f : Cast → Cast) : (modCast s core cast f).homeWrites = s.homeWrites := rfl
@[simp] theorem modCast_responses (s : State) (core cast : Nat) (f : Cast → Cast) : (modCast s core cast f).responses = s.responses := rfl
@[simp] theorem modCast_pageRequests (s : State) (core cast : Nat) (f : Cast → Cast) : (modCast s core cast f).pageRequests = s.pageRequests := rfl
@[simp] theorem modCast_classJobs (s : State) (core cast : Nat) (f : Cast → Cast) : (modCast s core cast f).classJobs = s.classJobs := rfl
@[simp] theorem modCast_pulls (s : State) (core cast : Nat) (f : Cast → Cast) : (modCast s core cast f).pulls = s.pulls := rfl
@[simp] theorem modCast_landed (s : State) (core cast : Nat) (f : Cast → Cast) : (modCast s core cast f).landed = s.landed := rfl
@[simp] theorem modCast_peerPages (s : State) (core cast : Nat) (f : Cast → Cast) : (modCast s core cast f).peerPages = s.peerPages := rfl
@[simp] theorem modCast_hostWaiting (s : State) (core cast : Nat) (f : Cast → Cast) : (modCast s core cast f).hostWaiting = s.hostWaiting := rfl
@[simp] theorem modCast_replies (s : State) (core cast : Nat) (f : Cast → Cast) : (modCast s core cast f).replies = s.replies := rfl
@[simp] theorem modCast_icEpoch (s : State) (core cast : Nat) (f : Cast → Cast) : (modCast s core cast f).icEpoch = s.icEpoch := rfl
@[simp] theorem modCast_pcap (s : State) (core cast : Nat) (f : Cast → Cast) : (modCast s core cast f).pcap = s.pcap := rfl
@[simp] theorem modCast_fownBase (s : State) (core cast : Nat) (f : Cast → Cast) : (modCast s core cast f).fownBase = s.fownBase := rfl
@[simp] theorem modCast_grpBase (s : State) (core cast : Nat) (f : Cast → Cast) : (modCast s core cast f).grpBase = s.grpBase := rfl
@[simp] theorem modCast_poolBase (s : State) (core cast : Nat) (f : Cast → Cast) : (modCast s core cast f).poolBase = s.poolBase := rfl
@[simp] theorem modCast_expBase (s : State) (core cast : Nat) (f : Cast → Cast) : (modCast s core cast f).expBase = s.expBase := rfl
@[simp] theorem modCast_agenda (s : State) (core cast : Nat) (f : Cast → Cast) : (modCast s core cast f).agenda = s.agenda := rfl
@[simp] theorem modCast_actor (s : State) (core cast : Nat) (f : Cast → Cast) : (modCast s core cast f).actor = s.actor := rfl
@[simp] theorem modCast_tick (s : State) (core cast : Nat) (f : Cast → Cast) : (modCast s core cast f).tick = s.tick := rfl
@[simp] theorem modCast_issued (s : State) (core cast : Nat) (f : Cast → Cast) : (modCast s core cast f).issued = s.issued := rfl
@[simp] theorem modCast_fresh (s : State) (core cast : Nat) (f : Cast → Cast) : (modCast s core cast f).fresh = s.fresh := rfl

/-! ### setThread -/

@[simp] theorem setThread_booted (s : State) (core cast lane : Nat) (t : Thread) : (setThread s core cast lane t).booted = s.booted := rfl
@[simp] theorem setThread_poweredDown (s : State) (core cast lane : Nat) (t : Thread) : (setThread s core cast lane t).poweredDown = s.poweredDown := rfl
@[simp] theorem setThread_tripped (s : State) (core cast lane : Nat) (t : Thread) : (setThread s core cast lane t).tripped = s.tripped := rfl
@[simp] theorem setThread_vfEnable (s : State) (core cast lane : Nat) (t : Thread) : (setThread s core cast lane t).vfEnable = s.vfEnable := rfl
@[simp] theorem setThread_mem (s : State) (core cast lane : Nat) (t : Thread) : (setThread s core cast lane t).mem = s.mem := rfl
@[simp] theorem setThread_tags (s : State) (core cast lane : Nat) (t : Thread) : (setThread s core cast lane t).tags = s.tags := rfl
@[simp] theorem setThread_poison (s : State) (core cast lane : Nat) (t : Thread) : (setThread s core cast lane t).poison = s.poison := rfl
@[simp] theorem setThread_injected (s : State) (core cast lane : Nat) (t : Thread) : (setThread s core cast lane t).injected = s.injected := rfl
@[simp] theorem setThread_objects (s : State) (core cast lane : Nat) (t : Thread) : (setThread s core cast lane t).objects = s.objects := rfl
@[simp] theorem setThread_objectWrites (s : State) (core cast lane : Nat) (t : Thread) : (setThread s core cast lane t).objectWrites = s.objectWrites := rfl
@[simp] theorem setThread_clusters (s : State) (core cast lane : Nat) (t : Thread) : (setThread s core cast lane t).clusters = s.clusters := rfl
@[simp] theorem setThread_dies (s : State) (core cast lane : Nat) (t : Thread) : (setThread s core cast lane t).dies = s.dies := rfl
@[simp] theorem setThread_contexts (s : State) (core cast lane : Nat) (t : Thread) : (setThread s core cast lane t).contexts = s.contexts := rfl
@[simp] theorem setThread_launches (s : State) (core cast lane : Nat) (t : Thread) : (setThread s core cast lane t).launches = s.launches := rfl
@[simp] theorem setThread_functions (s : State) (core cast lane : Nat) (t : Thread) : (setThread s core cast lane t).functions = s.functions := rfl
@[simp] theorem setThread_channels (s : State) (core cast lane : Nat) (t : Thread) : (setThread s core cast lane t).channels = s.channels := rfl
@[simp] theorem setThread_homeWrites (s : State) (core cast lane : Nat) (t : Thread) : (setThread s core cast lane t).homeWrites = s.homeWrites := rfl
@[simp] theorem setThread_responses (s : State) (core cast lane : Nat) (t : Thread) : (setThread s core cast lane t).responses = s.responses := rfl
@[simp] theorem setThread_pageRequests (s : State) (core cast lane : Nat) (t : Thread) : (setThread s core cast lane t).pageRequests = s.pageRequests := rfl
@[simp] theorem setThread_classJobs (s : State) (core cast lane : Nat) (t : Thread) : (setThread s core cast lane t).classJobs = s.classJobs := rfl
@[simp] theorem setThread_pulls (s : State) (core cast lane : Nat) (t : Thread) : (setThread s core cast lane t).pulls = s.pulls := rfl
@[simp] theorem setThread_landed (s : State) (core cast lane : Nat) (t : Thread) : (setThread s core cast lane t).landed = s.landed := rfl
@[simp] theorem setThread_peerPages (s : State) (core cast lane : Nat) (t : Thread) : (setThread s core cast lane t).peerPages = s.peerPages := rfl
@[simp] theorem setThread_hostWaiting (s : State) (core cast lane : Nat) (t : Thread) : (setThread s core cast lane t).hostWaiting = s.hostWaiting := rfl
@[simp] theorem setThread_replies (s : State) (core cast lane : Nat) (t : Thread) : (setThread s core cast lane t).replies = s.replies := rfl
@[simp] theorem setThread_icEpoch (s : State) (core cast lane : Nat) (t : Thread) : (setThread s core cast lane t).icEpoch = s.icEpoch := rfl
@[simp] theorem setThread_pcap (s : State) (core cast lane : Nat) (t : Thread) : (setThread s core cast lane t).pcap = s.pcap := rfl
@[simp] theorem setThread_fownBase (s : State) (core cast lane : Nat) (t : Thread) : (setThread s core cast lane t).fownBase = s.fownBase := rfl
@[simp] theorem setThread_grpBase (s : State) (core cast lane : Nat) (t : Thread) : (setThread s core cast lane t).grpBase = s.grpBase := rfl
@[simp] theorem setThread_poolBase (s : State) (core cast lane : Nat) (t : Thread) : (setThread s core cast lane t).poolBase = s.poolBase := rfl
@[simp] theorem setThread_expBase (s : State) (core cast lane : Nat) (t : Thread) : (setThread s core cast lane t).expBase = s.expBase := rfl
@[simp] theorem setThread_agenda (s : State) (core cast lane : Nat) (t : Thread) : (setThread s core cast lane t).agenda = s.agenda := rfl
@[simp] theorem setThread_actor (s : State) (core cast lane : Nat) (t : Thread) : (setThread s core cast lane t).actor = s.actor := rfl
@[simp] theorem setThread_tick (s : State) (core cast lane : Nat) (t : Thread) : (setThread s core cast lane t).tick = s.tick := rfl
@[simp] theorem setThread_issued (s : State) (core cast lane : Nat) (t : Thread) : (setThread s core cast lane t).issued = s.issued := rfl
@[simp] theorem setThread_fresh (s : State) (core cast lane : Nat) (t : Thread) : (setThread s core cast lane t).fresh = s.fresh := rfl

/-! ### modThread -/

@[simp] theorem modThread_booted (s : State) (core cast lane : Nat) (f : Thread → Thread) : (modThread s core cast lane f).booted = s.booted := rfl
@[simp] theorem modThread_poweredDown (s : State) (core cast lane : Nat) (f : Thread → Thread) : (modThread s core cast lane f).poweredDown = s.poweredDown := rfl
@[simp] theorem modThread_tripped (s : State) (core cast lane : Nat) (f : Thread → Thread) : (modThread s core cast lane f).tripped = s.tripped := rfl
@[simp] theorem modThread_vfEnable (s : State) (core cast lane : Nat) (f : Thread → Thread) : (modThread s core cast lane f).vfEnable = s.vfEnable := rfl
@[simp] theorem modThread_mem (s : State) (core cast lane : Nat) (f : Thread → Thread) : (modThread s core cast lane f).mem = s.mem := rfl
@[simp] theorem modThread_tags (s : State) (core cast lane : Nat) (f : Thread → Thread) : (modThread s core cast lane f).tags = s.tags := rfl
@[simp] theorem modThread_poison (s : State) (core cast lane : Nat) (f : Thread → Thread) : (modThread s core cast lane f).poison = s.poison := rfl
@[simp] theorem modThread_injected (s : State) (core cast lane : Nat) (f : Thread → Thread) : (modThread s core cast lane f).injected = s.injected := rfl
@[simp] theorem modThread_objects (s : State) (core cast lane : Nat) (f : Thread → Thread) : (modThread s core cast lane f).objects = s.objects := rfl
@[simp] theorem modThread_objectWrites (s : State) (core cast lane : Nat) (f : Thread → Thread) : (modThread s core cast lane f).objectWrites = s.objectWrites := rfl
@[simp] theorem modThread_clusters (s : State) (core cast lane : Nat) (f : Thread → Thread) : (modThread s core cast lane f).clusters = s.clusters := rfl
@[simp] theorem modThread_dies (s : State) (core cast lane : Nat) (f : Thread → Thread) : (modThread s core cast lane f).dies = s.dies := rfl
@[simp] theorem modThread_contexts (s : State) (core cast lane : Nat) (f : Thread → Thread) : (modThread s core cast lane f).contexts = s.contexts := rfl
@[simp] theorem modThread_launches (s : State) (core cast lane : Nat) (f : Thread → Thread) : (modThread s core cast lane f).launches = s.launches := rfl
@[simp] theorem modThread_functions (s : State) (core cast lane : Nat) (f : Thread → Thread) : (modThread s core cast lane f).functions = s.functions := rfl
@[simp] theorem modThread_channels (s : State) (core cast lane : Nat) (f : Thread → Thread) : (modThread s core cast lane f).channels = s.channels := rfl
@[simp] theorem modThread_homeWrites (s : State) (core cast lane : Nat) (f : Thread → Thread) : (modThread s core cast lane f).homeWrites = s.homeWrites := rfl
@[simp] theorem modThread_responses (s : State) (core cast lane : Nat) (f : Thread → Thread) : (modThread s core cast lane f).responses = s.responses := rfl
@[simp] theorem modThread_pageRequests (s : State) (core cast lane : Nat) (f : Thread → Thread) : (modThread s core cast lane f).pageRequests = s.pageRequests := rfl
@[simp] theorem modThread_classJobs (s : State) (core cast lane : Nat) (f : Thread → Thread) : (modThread s core cast lane f).classJobs = s.classJobs := rfl
@[simp] theorem modThread_pulls (s : State) (core cast lane : Nat) (f : Thread → Thread) : (modThread s core cast lane f).pulls = s.pulls := rfl
@[simp] theorem modThread_landed (s : State) (core cast lane : Nat) (f : Thread → Thread) : (modThread s core cast lane f).landed = s.landed := rfl
@[simp] theorem modThread_peerPages (s : State) (core cast lane : Nat) (f : Thread → Thread) : (modThread s core cast lane f).peerPages = s.peerPages := rfl
@[simp] theorem modThread_hostWaiting (s : State) (core cast lane : Nat) (f : Thread → Thread) : (modThread s core cast lane f).hostWaiting = s.hostWaiting := rfl
@[simp] theorem modThread_replies (s : State) (core cast lane : Nat) (f : Thread → Thread) : (modThread s core cast lane f).replies = s.replies := rfl
@[simp] theorem modThread_icEpoch (s : State) (core cast lane : Nat) (f : Thread → Thread) : (modThread s core cast lane f).icEpoch = s.icEpoch := rfl
@[simp] theorem modThread_pcap (s : State) (core cast lane : Nat) (f : Thread → Thread) : (modThread s core cast lane f).pcap = s.pcap := rfl
@[simp] theorem modThread_fownBase (s : State) (core cast lane : Nat) (f : Thread → Thread) : (modThread s core cast lane f).fownBase = s.fownBase := rfl
@[simp] theorem modThread_grpBase (s : State) (core cast lane : Nat) (f : Thread → Thread) : (modThread s core cast lane f).grpBase = s.grpBase := rfl
@[simp] theorem modThread_poolBase (s : State) (core cast lane : Nat) (f : Thread → Thread) : (modThread s core cast lane f).poolBase = s.poolBase := rfl
@[simp] theorem modThread_expBase (s : State) (core cast lane : Nat) (f : Thread → Thread) : (modThread s core cast lane f).expBase = s.expBase := rfl
@[simp] theorem modThread_agenda (s : State) (core cast lane : Nat) (f : Thread → Thread) : (modThread s core cast lane f).agenda = s.agenda := rfl
@[simp] theorem modThread_actor (s : State) (core cast lane : Nat) (f : Thread → Thread) : (modThread s core cast lane f).actor = s.actor := rfl
@[simp] theorem modThread_tick (s : State) (core cast lane : Nat) (f : Thread → Thread) : (modThread s core cast lane f).tick = s.tick := rfl
@[simp] theorem modThread_issued (s : State) (core cast lane : Nat) (f : Thread → Thread) : (modThread s core cast lane f).issued = s.issued := rfl
@[simp] theorem modThread_fresh (s : State) (core cast lane : Nat) (f : Thread → Thread) : (modThread s core cast lane f).fresh = s.fresh := rfl

/-! ### setPart -/

@[simp] theorem setPart_booted (s : State) (core part : Nat) (p : Partition) : (setPart s core part p).booted = s.booted := rfl
@[simp] theorem setPart_poweredDown (s : State) (core part : Nat) (p : Partition) : (setPart s core part p).poweredDown = s.poweredDown := rfl
@[simp] theorem setPart_tripped (s : State) (core part : Nat) (p : Partition) : (setPart s core part p).tripped = s.tripped := rfl
@[simp] theorem setPart_vfEnable (s : State) (core part : Nat) (p : Partition) : (setPart s core part p).vfEnable = s.vfEnable := rfl
@[simp] theorem setPart_mem (s : State) (core part : Nat) (p : Partition) : (setPart s core part p).mem = s.mem := rfl
@[simp] theorem setPart_tags (s : State) (core part : Nat) (p : Partition) : (setPart s core part p).tags = s.tags := rfl
@[simp] theorem setPart_poison (s : State) (core part : Nat) (p : Partition) : (setPart s core part p).poison = s.poison := rfl
@[simp] theorem setPart_injected (s : State) (core part : Nat) (p : Partition) : (setPart s core part p).injected = s.injected := rfl
@[simp] theorem setPart_objects (s : State) (core part : Nat) (p : Partition) : (setPart s core part p).objects = s.objects := rfl
@[simp] theorem setPart_objectWrites (s : State) (core part : Nat) (p : Partition) : (setPart s core part p).objectWrites = s.objectWrites := rfl
@[simp] theorem setPart_clusters (s : State) (core part : Nat) (p : Partition) : (setPart s core part p).clusters = s.clusters := rfl
@[simp] theorem setPart_dies (s : State) (core part : Nat) (p : Partition) : (setPart s core part p).dies = s.dies := rfl
@[simp] theorem setPart_contexts (s : State) (core part : Nat) (p : Partition) : (setPart s core part p).contexts = s.contexts := rfl
@[simp] theorem setPart_launches (s : State) (core part : Nat) (p : Partition) : (setPart s core part p).launches = s.launches := rfl
@[simp] theorem setPart_functions (s : State) (core part : Nat) (p : Partition) : (setPart s core part p).functions = s.functions := rfl
@[simp] theorem setPart_channels (s : State) (core part : Nat) (p : Partition) : (setPart s core part p).channels = s.channels := rfl
@[simp] theorem setPart_homeWrites (s : State) (core part : Nat) (p : Partition) : (setPart s core part p).homeWrites = s.homeWrites := rfl
@[simp] theorem setPart_responses (s : State) (core part : Nat) (p : Partition) : (setPart s core part p).responses = s.responses := rfl
@[simp] theorem setPart_pageRequests (s : State) (core part : Nat) (p : Partition) : (setPart s core part p).pageRequests = s.pageRequests := rfl
@[simp] theorem setPart_classJobs (s : State) (core part : Nat) (p : Partition) : (setPart s core part p).classJobs = s.classJobs := rfl
@[simp] theorem setPart_pulls (s : State) (core part : Nat) (p : Partition) : (setPart s core part p).pulls = s.pulls := rfl
@[simp] theorem setPart_landed (s : State) (core part : Nat) (p : Partition) : (setPart s core part p).landed = s.landed := rfl
@[simp] theorem setPart_peerPages (s : State) (core part : Nat) (p : Partition) : (setPart s core part p).peerPages = s.peerPages := rfl
@[simp] theorem setPart_hostWaiting (s : State) (core part : Nat) (p : Partition) : (setPart s core part p).hostWaiting = s.hostWaiting := rfl
@[simp] theorem setPart_replies (s : State) (core part : Nat) (p : Partition) : (setPart s core part p).replies = s.replies := rfl
@[simp] theorem setPart_icEpoch (s : State) (core part : Nat) (p : Partition) : (setPart s core part p).icEpoch = s.icEpoch := rfl
@[simp] theorem setPart_pcap (s : State) (core part : Nat) (p : Partition) : (setPart s core part p).pcap = s.pcap := rfl
@[simp] theorem setPart_fownBase (s : State) (core part : Nat) (p : Partition) : (setPart s core part p).fownBase = s.fownBase := rfl
@[simp] theorem setPart_grpBase (s : State) (core part : Nat) (p : Partition) : (setPart s core part p).grpBase = s.grpBase := rfl
@[simp] theorem setPart_poolBase (s : State) (core part : Nat) (p : Partition) : (setPart s core part p).poolBase = s.poolBase := rfl
@[simp] theorem setPart_expBase (s : State) (core part : Nat) (p : Partition) : (setPart s core part p).expBase = s.expBase := rfl
@[simp] theorem setPart_agenda (s : State) (core part : Nat) (p : Partition) : (setPart s core part p).agenda = s.agenda := rfl
@[simp] theorem setPart_actor (s : State) (core part : Nat) (p : Partition) : (setPart s core part p).actor = s.actor := rfl
@[simp] theorem setPart_tick (s : State) (core part : Nat) (p : Partition) : (setPart s core part p).tick = s.tick := rfl
@[simp] theorem setPart_issued (s : State) (core part : Nat) (p : Partition) : (setPart s core part p).issued = s.issued := rfl
@[simp] theorem setPart_fresh (s : State) (core part : Nat) (p : Partition) : (setPart s core part p).fresh = s.fresh := rfl

/-! ### setCue -/

@[simp] theorem setCue_booted (s : State) (core : Nat) (q : Cue) : (setCue s core q).booted = s.booted := rfl
@[simp] theorem setCue_poweredDown (s : State) (core : Nat) (q : Cue) : (setCue s core q).poweredDown = s.poweredDown := rfl
@[simp] theorem setCue_tripped (s : State) (core : Nat) (q : Cue) : (setCue s core q).tripped = s.tripped := rfl
@[simp] theorem setCue_vfEnable (s : State) (core : Nat) (q : Cue) : (setCue s core q).vfEnable = s.vfEnable := rfl
@[simp] theorem setCue_mem (s : State) (core : Nat) (q : Cue) : (setCue s core q).mem = s.mem := rfl
@[simp] theorem setCue_tags (s : State) (core : Nat) (q : Cue) : (setCue s core q).tags = s.tags := rfl
@[simp] theorem setCue_poison (s : State) (core : Nat) (q : Cue) : (setCue s core q).poison = s.poison := rfl
@[simp] theorem setCue_injected (s : State) (core : Nat) (q : Cue) : (setCue s core q).injected = s.injected := rfl
@[simp] theorem setCue_objects (s : State) (core : Nat) (q : Cue) : (setCue s core q).objects = s.objects := rfl
@[simp] theorem setCue_objectWrites (s : State) (core : Nat) (q : Cue) : (setCue s core q).objectWrites = s.objectWrites := rfl
@[simp] theorem setCue_clusters (s : State) (core : Nat) (q : Cue) : (setCue s core q).clusters = s.clusters := rfl
@[simp] theorem setCue_dies (s : State) (core : Nat) (q : Cue) : (setCue s core q).dies = s.dies := rfl
@[simp] theorem setCue_contexts (s : State) (core : Nat) (q : Cue) : (setCue s core q).contexts = s.contexts := rfl
@[simp] theorem setCue_launches (s : State) (core : Nat) (q : Cue) : (setCue s core q).launches = s.launches := rfl
@[simp] theorem setCue_functions (s : State) (core : Nat) (q : Cue) : (setCue s core q).functions = s.functions := rfl
@[simp] theorem setCue_channels (s : State) (core : Nat) (q : Cue) : (setCue s core q).channels = s.channels := rfl
@[simp] theorem setCue_homeWrites (s : State) (core : Nat) (q : Cue) : (setCue s core q).homeWrites = s.homeWrites := rfl
@[simp] theorem setCue_responses (s : State) (core : Nat) (q : Cue) : (setCue s core q).responses = s.responses := rfl
@[simp] theorem setCue_pageRequests (s : State) (core : Nat) (q : Cue) : (setCue s core q).pageRequests = s.pageRequests := rfl
@[simp] theorem setCue_classJobs (s : State) (core : Nat) (q : Cue) : (setCue s core q).classJobs = s.classJobs := rfl
@[simp] theorem setCue_pulls (s : State) (core : Nat) (q : Cue) : (setCue s core q).pulls = s.pulls := rfl
@[simp] theorem setCue_landed (s : State) (core : Nat) (q : Cue) : (setCue s core q).landed = s.landed := rfl
@[simp] theorem setCue_peerPages (s : State) (core : Nat) (q : Cue) : (setCue s core q).peerPages = s.peerPages := rfl
@[simp] theorem setCue_hostWaiting (s : State) (core : Nat) (q : Cue) : (setCue s core q).hostWaiting = s.hostWaiting := rfl
@[simp] theorem setCue_replies (s : State) (core : Nat) (q : Cue) : (setCue s core q).replies = s.replies := rfl
@[simp] theorem setCue_icEpoch (s : State) (core : Nat) (q : Cue) : (setCue s core q).icEpoch = s.icEpoch := rfl
@[simp] theorem setCue_pcap (s : State) (core : Nat) (q : Cue) : (setCue s core q).pcap = s.pcap := rfl
@[simp] theorem setCue_fownBase (s : State) (core : Nat) (q : Cue) : (setCue s core q).fownBase = s.fownBase := rfl
@[simp] theorem setCue_grpBase (s : State) (core : Nat) (q : Cue) : (setCue s core q).grpBase = s.grpBase := rfl
@[simp] theorem setCue_poolBase (s : State) (core : Nat) (q : Cue) : (setCue s core q).poolBase = s.poolBase := rfl
@[simp] theorem setCue_expBase (s : State) (core : Nat) (q : Cue) : (setCue s core q).expBase = s.expBase := rfl
@[simp] theorem setCue_agenda (s : State) (core : Nat) (q : Cue) : (setCue s core q).agenda = s.agenda := rfl
@[simp] theorem setCue_actor (s : State) (core : Nat) (q : Cue) : (setCue s core q).actor = s.actor := rfl
@[simp] theorem setCue_tick (s : State) (core : Nat) (q : Cue) : (setCue s core q).tick = s.tick := rfl
@[simp] theorem setCue_issued (s : State) (core : Nat) (q : Cue) : (setCue s core q).issued = s.issued := rfl
@[simp] theorem setCue_fresh (s : State) (core : Nat) (q : Cue) : (setCue s core q).fresh = s.fresh := rfl

/-! ### modCue -/

@[simp] theorem modCue_booted (s : State) (core : Nat) (f : Cue → Cue) : (modCue s core f).booted = s.booted := by
  unfold modCue; split <;> rfl
@[simp] theorem modCue_poweredDown (s : State) (core : Nat) (f : Cue → Cue) : (modCue s core f).poweredDown = s.poweredDown := by
  unfold modCue; split <;> rfl
@[simp] theorem modCue_tripped (s : State) (core : Nat) (f : Cue → Cue) : (modCue s core f).tripped = s.tripped := by
  unfold modCue; split <;> rfl
@[simp] theorem modCue_vfEnable (s : State) (core : Nat) (f : Cue → Cue) : (modCue s core f).vfEnable = s.vfEnable := by
  unfold modCue; split <;> rfl
@[simp] theorem modCue_mem (s : State) (core : Nat) (f : Cue → Cue) : (modCue s core f).mem = s.mem := by
  unfold modCue; split <;> rfl
@[simp] theorem modCue_tags (s : State) (core : Nat) (f : Cue → Cue) : (modCue s core f).tags = s.tags := by
  unfold modCue; split <;> rfl
@[simp] theorem modCue_poison (s : State) (core : Nat) (f : Cue → Cue) : (modCue s core f).poison = s.poison := by
  unfold modCue; split <;> rfl
@[simp] theorem modCue_injected (s : State) (core : Nat) (f : Cue → Cue) : (modCue s core f).injected = s.injected := by
  unfold modCue; split <;> rfl
@[simp] theorem modCue_objects (s : State) (core : Nat) (f : Cue → Cue) : (modCue s core f).objects = s.objects := by
  unfold modCue; split <;> rfl
@[simp] theorem modCue_objectWrites (s : State) (core : Nat) (f : Cue → Cue) : (modCue s core f).objectWrites = s.objectWrites := by
  unfold modCue; split <;> rfl
@[simp] theorem modCue_clusters (s : State) (core : Nat) (f : Cue → Cue) : (modCue s core f).clusters = s.clusters := by
  unfold modCue; split <;> rfl
@[simp] theorem modCue_dies (s : State) (core : Nat) (f : Cue → Cue) : (modCue s core f).dies = s.dies := by
  unfold modCue; split <;> rfl
@[simp] theorem modCue_contexts (s : State) (core : Nat) (f : Cue → Cue) : (modCue s core f).contexts = s.contexts := by
  unfold modCue; split <;> rfl
@[simp] theorem modCue_launches (s : State) (core : Nat) (f : Cue → Cue) : (modCue s core f).launches = s.launches := by
  unfold modCue; split <;> rfl
@[simp] theorem modCue_functions (s : State) (core : Nat) (f : Cue → Cue) : (modCue s core f).functions = s.functions := by
  unfold modCue; split <;> rfl
@[simp] theorem modCue_channels (s : State) (core : Nat) (f : Cue → Cue) : (modCue s core f).channels = s.channels := by
  unfold modCue; split <;> rfl
@[simp] theorem modCue_homeWrites (s : State) (core : Nat) (f : Cue → Cue) : (modCue s core f).homeWrites = s.homeWrites := by
  unfold modCue; split <;> rfl
@[simp] theorem modCue_responses (s : State) (core : Nat) (f : Cue → Cue) : (modCue s core f).responses = s.responses := by
  unfold modCue; split <;> rfl
@[simp] theorem modCue_pageRequests (s : State) (core : Nat) (f : Cue → Cue) : (modCue s core f).pageRequests = s.pageRequests := by
  unfold modCue; split <;> rfl
@[simp] theorem modCue_classJobs (s : State) (core : Nat) (f : Cue → Cue) : (modCue s core f).classJobs = s.classJobs := by
  unfold modCue; split <;> rfl
@[simp] theorem modCue_pulls (s : State) (core : Nat) (f : Cue → Cue) : (modCue s core f).pulls = s.pulls := by
  unfold modCue; split <;> rfl
@[simp] theorem modCue_landed (s : State) (core : Nat) (f : Cue → Cue) : (modCue s core f).landed = s.landed := by
  unfold modCue; split <;> rfl
@[simp] theorem modCue_peerPages (s : State) (core : Nat) (f : Cue → Cue) : (modCue s core f).peerPages = s.peerPages := by
  unfold modCue; split <;> rfl
@[simp] theorem modCue_hostWaiting (s : State) (core : Nat) (f : Cue → Cue) : (modCue s core f).hostWaiting = s.hostWaiting := by
  unfold modCue; split <;> rfl
@[simp] theorem modCue_replies (s : State) (core : Nat) (f : Cue → Cue) : (modCue s core f).replies = s.replies := by
  unfold modCue; split <;> rfl
@[simp] theorem modCue_icEpoch (s : State) (core : Nat) (f : Cue → Cue) : (modCue s core f).icEpoch = s.icEpoch := by
  unfold modCue; split <;> rfl
@[simp] theorem modCue_pcap (s : State) (core : Nat) (f : Cue → Cue) : (modCue s core f).pcap = s.pcap := by
  unfold modCue; split <;> rfl
@[simp] theorem modCue_fownBase (s : State) (core : Nat) (f : Cue → Cue) : (modCue s core f).fownBase = s.fownBase := by
  unfold modCue; split <;> rfl
@[simp] theorem modCue_grpBase (s : State) (core : Nat) (f : Cue → Cue) : (modCue s core f).grpBase = s.grpBase := by
  unfold modCue; split <;> rfl
@[simp] theorem modCue_poolBase (s : State) (core : Nat) (f : Cue → Cue) : (modCue s core f).poolBase = s.poolBase := by
  unfold modCue; split <;> rfl
@[simp] theorem modCue_expBase (s : State) (core : Nat) (f : Cue → Cue) : (modCue s core f).expBase = s.expBase := by
  unfold modCue; split <;> rfl
@[simp] theorem modCue_agenda (s : State) (core : Nat) (f : Cue → Cue) : (modCue s core f).agenda = s.agenda := by
  unfold modCue; split <;> rfl
@[simp] theorem modCue_actor (s : State) (core : Nat) (f : Cue → Cue) : (modCue s core f).actor = s.actor := by
  unfold modCue; split <;> rfl
@[simp] theorem modCue_tick (s : State) (core : Nat) (f : Cue → Cue) : (modCue s core f).tick = s.tick := by
  unfold modCue; split <;> rfl
@[simp] theorem modCue_issued (s : State) (core : Nat) (f : Cue → Cue) : (modCue s core f).issued = s.issued := by
  unfold modCue; split <;> rfl
@[simp] theorem modCue_fresh (s : State) (core : Nat) (f : Cue → Cue) : (modCue s core f).fresh = s.fresh := by
  unfold modCue; split <;> rfl

/-! ### takeFresh -/

@[simp] theorem takeFresh_fst (s : State) : (takeFresh s).1 = s.fresh := rfl
@[simp] theorem takeFresh_booted (s : State) : (takeFresh s).2.booted = s.booted := rfl
@[simp] theorem takeFresh_poweredDown (s : State) : (takeFresh s).2.poweredDown = s.poweredDown := rfl
@[simp] theorem takeFresh_tripped (s : State) : (takeFresh s).2.tripped = s.tripped := rfl
@[simp] theorem takeFresh_vfEnable (s : State) : (takeFresh s).2.vfEnable = s.vfEnable := rfl
@[simp] theorem takeFresh_mem (s : State) : (takeFresh s).2.mem = s.mem := rfl
@[simp] theorem takeFresh_tags (s : State) : (takeFresh s).2.tags = s.tags := rfl
@[simp] theorem takeFresh_poison (s : State) : (takeFresh s).2.poison = s.poison := rfl
@[simp] theorem takeFresh_injected (s : State) : (takeFresh s).2.injected = s.injected := rfl
@[simp] theorem takeFresh_objects (s : State) : (takeFresh s).2.objects = s.objects := rfl
@[simp] theorem takeFresh_objectWrites (s : State) : (takeFresh s).2.objectWrites = s.objectWrites := rfl
@[simp] theorem takeFresh_cores (s : State) : (takeFresh s).2.cores = s.cores := rfl
@[simp] theorem takeFresh_clusters (s : State) : (takeFresh s).2.clusters = s.clusters := rfl
@[simp] theorem takeFresh_dies (s : State) : (takeFresh s).2.dies = s.dies := rfl
@[simp] theorem takeFresh_contexts (s : State) : (takeFresh s).2.contexts = s.contexts := rfl
@[simp] theorem takeFresh_launches (s : State) : (takeFresh s).2.launches = s.launches := rfl
@[simp] theorem takeFresh_functions (s : State) : (takeFresh s).2.functions = s.functions := rfl
@[simp] theorem takeFresh_channels (s : State) : (takeFresh s).2.channels = s.channels := rfl
@[simp] theorem takeFresh_homeWrites (s : State) : (takeFresh s).2.homeWrites = s.homeWrites := rfl
@[simp] theorem takeFresh_responses (s : State) : (takeFresh s).2.responses = s.responses := rfl
@[simp] theorem takeFresh_pageRequests (s : State) : (takeFresh s).2.pageRequests = s.pageRequests := rfl
@[simp] theorem takeFresh_classJobs (s : State) : (takeFresh s).2.classJobs = s.classJobs := rfl
@[simp] theorem takeFresh_pulls (s : State) : (takeFresh s).2.pulls = s.pulls := rfl
@[simp] theorem takeFresh_landed (s : State) : (takeFresh s).2.landed = s.landed := rfl
@[simp] theorem takeFresh_peerPages (s : State) : (takeFresh s).2.peerPages = s.peerPages := rfl
@[simp] theorem takeFresh_hostWaiting (s : State) : (takeFresh s).2.hostWaiting = s.hostWaiting := rfl
@[simp] theorem takeFresh_replies (s : State) : (takeFresh s).2.replies = s.replies := rfl
@[simp] theorem takeFresh_icEpoch (s : State) : (takeFresh s).2.icEpoch = s.icEpoch := rfl
@[simp] theorem takeFresh_pcap (s : State) : (takeFresh s).2.pcap = s.pcap := rfl
@[simp] theorem takeFresh_fownBase (s : State) : (takeFresh s).2.fownBase = s.fownBase := rfl
@[simp] theorem takeFresh_grpBase (s : State) : (takeFresh s).2.grpBase = s.grpBase := rfl
@[simp] theorem takeFresh_poolBase (s : State) : (takeFresh s).2.poolBase = s.poolBase := rfl
@[simp] theorem takeFresh_expBase (s : State) : (takeFresh s).2.expBase = s.expBase := rfl
@[simp] theorem takeFresh_agenda (s : State) : (takeFresh s).2.agenda = s.agenda := rfl
@[simp] theorem takeFresh_actor (s : State) : (takeFresh s).2.actor = s.actor := rfl
@[simp] theorem takeFresh_tick (s : State) : (takeFresh s).2.tick = s.tick := rfl
@[simp] theorem takeFresh_issued (s : State) : (takeFresh s).2.issued = s.issued := rfl

end Sys2Proof.Machine
end

