-- ==== Sys2Proof/Laws/Access.lean ====
section
/-! SUPPORT. Reading a part of the state after replacing a part: cores, casts, threads, the cue thread, the other units; and
what follows for the launch, the context and the mode of a core. -/

namespace Sys2Proof.Machine

/-! ### Units by number -/

@[simp] theorem getCore_setCore_same (s : State) (c : Nat) (x : Core) : getCore (setCore s c x) c = x := by
  simp [getCore, setCore]
theorem getCore_setCore_other (s : State) {c d : Nat} (x : Core) (h : d ≠ c) : getCore (setCore s c x) d = getCore s d := by
  simp [getCore, setCore, sget_sput_other _ _ _ h]
@[simp] theorem getCore_modCore_same (s : State) (c : Nat) (f : Core → Core) : getCore (modCore s c f) c = f (getCore s c) := by
  simp [modCore]
theorem getCore_modCore_other (s : State) {c d : Nat} (f : Core → Core) (h : d ≠ c) :
    getCore (modCore s c f) d = getCore s d := getCore_setCore_other s _ h

@[simp] theorem getCluster_setCluster_same (s : State) (c : Nat) (x : Cluster) : getCluster (setCluster s c x) c = x := by
  simp [getCluster, setCluster]
theorem getCluster_setCluster_other (s : State) {c d : Nat} (x : Cluster) (h : d ≠ c) :
    getCluster (setCluster s c x) d = getCluster s d := by
  simp [getCluster, setCluster, sget_sput_other _ _ _ h]

@[simp] theorem getDie_setDie_same (s : State) (c : Nat) (x : Die) : getDie (setDie s c x) c = x := by
  simp [getDie, setDie]
theorem getDie_setDie_other (s : State) {c d : Nat} (x : Die) (h : d ≠ c) : getDie (setDie s c x) d = getDie s d := by
  simp [getDie, setDie, sget_sput_other _ _ _ h]

@[simp] theorem getContext_setContext_same (s : State) (c : Nat) (x : Context) : getContext (setContext s c x) c = x := by
  simp [getContext, setContext]
theorem getContext_setContext_other (s : State) {c d : Nat} (x : Context) (h : d ≠ c) :
    getContext (setContext s c x) d = getContext s d := by
  simp [getContext, setContext, sget_sput_other _ _ _ h]

@[simp] theorem getLaunch_setLaunch_same (s : State) (c : Nat) (x : Launch) : getLaunch (setLaunch s c x) c = x := by
  simp [getLaunch, setLaunch]
theorem getLaunch_setLaunch_other (s : State) {c d : Nat} (x : Launch) (h : d ≠ c) :
    getLaunch (setLaunch s c x) d = getLaunch s d := by
  simp [getLaunch, setLaunch, sget_sput_other _ _ _ h]

@[simp] theorem getFunc_setFunc_same (s : State) (c : Nat) (x : Func) : getFunc (setFunc s c x) c = x := by
  simp [getFunc, setFunc]
theorem getFunc_setFunc_other (s : State) {c d : Nat} (x : Func) (h : d ≠ c) : getFunc (setFunc s c x) d = getFunc s d := by
  simp [getFunc, setFunc, sget_sput_other _ _ _ h]

@[simp] theorem getChannel_setChannel_same (s : State) (c : Nat) (x : Channel) : getChannel (setChannel s c x) c = x := by
  simp [getChannel, setChannel]

/-! ### Casts and threads -/

@[simp] theorem getCast_setCast_same (s : State) (c k : Nat) (x : Cast) : getCast (setCast s c k x) c k = x := by
  simp [getCast, setCast]
theorem getCast_setCast_cast (s : State) (c : Nat) {k j : Nat} (x : Cast) (h : j ≠ k) :
    getCast (setCast s c k x) c j = getCast s c j := by
  simp [getCast, setCast, sget_sput_other _ _ _ h]
theorem getCast_setCast_core (s : State) {c d : Nat} (k j : Nat) (x : Cast) (h : d ≠ c) :
    getCast (setCast s c k x) d j = getCast s d j := by
  simp [getCast, setCast, getCore_modCore_other _ _ h]


theorem getThread_setThread_same (s : State) (c k l : Nat) (t : Thread) (h : hasLane s c k l = true) :
    getThread (setThread s c k l t) c k l = t := by
  simp only [hasLane, decide_eq_true_eq] at h
  simp [getThread, setThread, modCast, h]
theorem getThread_setThread_lane (s : State) (c k : Nat) {l m : Nat} (t : Thread) (h : m ≠ l) :
    getThread (setThread s c k l t) c k m = getThread s c k m := by
  simp [getThread, setThread, modCast, List.getElem?_set_ne (Ne.symm h)]
theorem getThread_setThread_cast (s : State) (c : Nat) {k j : Nat} (l m : Nat) (t : Thread) (h : j ≠ k) :
    getThread (setThread s c k l t) c j m = getThread s c j m := by
  simp [getThread, setThread, modCast, getCast_setCast_cast _ _ _ h]
theorem getThread_setThread_core (s : State) {c d : Nat} (k l j m : Nat) (t : Thread) (h : d ≠ c) :
    getThread (setThread s c k l t) d j m = getThread s d j m := by
  simp [getThread, setThread, modCast, getCast_setCast_core _ _ _ _ h]

/-- Another thread of the core keeps what it holds. -/
theorem getThread_setThread_other (s : State) (c : Nat) {k l j m : Nat} (t : Thread) (h : (j, m) ≠ (k, l)) :
    getThread (setThread s c k l t) c j m = getThread s c j m := by
  by_cases hk : j = k
  · subst hk
    exact getThread_setThread_lane s c j t (fun hm => h (by rw [hm]))
  · exact getThread_setThread_cast s c l m t hk

theorem getThread_modThread_same (s : State) (c k l : Nat) (f : Thread → Thread) (h : hasLane s c k l = true) :
    getThread (modThread s c k l f) c k l = f (getThread s c k l) := getThread_setThread_same s c k l _ h
theorem getThread_modThread_other (s : State) (c : Nat) {k l j m : Nat} (f : Thread → Thread) (h : (j, m) ≠ (k, l)) :
    getThread (modThread s c k l f) c j m = getThread s c j m := getThread_setThread_other s c _ h

@[simp] theorem hasLane_setThread (s : State) (c k l d j m : Nat) (t : Thread) :
    hasLane (setThread s c k l t) d j m = hasLane s d j m := by
  by_cases hd : d = c
  · subst hd
    by_cases hj : j = k
    · subst hj; simp [hasLane, setThread, modCast]
    · simp [hasLane, setThread, modCast, getCast_setCast_cast _ _ _ hj]
  · simp [hasLane, setThread, modCast, getCast_setCast_core _ _ _ _ hd]
@[simp] theorem hasLane_modThread (s : State) (c k l d j m : Nat) (f : Thread → Thread) :
    hasLane (modThread s c k l f) d j m = hasLane s d j m := hasLane_setThread s c k l d j m _

/-- A cast keeps everything but its threads when a thread is replaced. -/
theorem getCast_setThread (s : State) (c k l : Nat) (t : Thread) :
    getCast (setThread s c k l t) c k = { getCast s c k with threads := (getCast s c k).threads.set l t } := by
  simp [setThread, modCast]
theorem getCast_setThread_other (s : State) (c : Nat) {k j : Nat} (l : Nat) (t : Thread) (h : j ≠ k) :
    getCast (setThread s c k l t) c j = getCast s c j := by
  simp [setThread, modCast, getCast_setCast_cast _ _ _ h]

/-- A core keeps everything but its casts when a thread is replaced. -/
theorem getCore_setThread (s : State) (c k l : Nat) (t : Thread) :
    getCore (setThread s c k l t) c = { getCore s c with casts := (getCore (setThread s c k l t) c).casts } := by
  simp [setThread, modCast, setCast]
theorem getCore_setThread_other (s : State) {c d : Nat} (k l : Nat) (t : Thread) (h : d ≠ c) :
    getCore (setThread s c k l t) d = getCore s d := by
  simp [setThread, modCast, setCast, getCore_modCore_other _ _ h]

/-! ### The launch, the context and the mode of a core -/

theorem coreLaunch_of_launch {s t : State} {c : Nat} (h : (getCore t c).launch = (getCore s c).launch)
    (hl : t.launches = s.launches) : coreLaunch t c = coreLaunch s c := by
  unfold coreLaunch getLaunch
  rw [h, hl]

theorem launch_setThread (s : State) (c k l d : Nat) (t : Thread) :
    (getCore (setThread s c k l t) d).launch = (getCore s d).launch := by
  by_cases hd : d = c
  · subst hd; rw [getCore_setThread]
  · rw [getCore_setThread_other s k l t hd]

@[simp] theorem coreLaunch_setThread (s : State) (c k l d : Nat) (t : Thread) :
    coreLaunch (setThread s c k l t) d = coreLaunch s d := coreLaunch_of_launch (launch_setThread s c k l d t) rfl
@[simp] theorem coreBill_setThread (s : State) (c k l d : Nat) (t : Thread) :
    coreBill (setThread s c k l t) d = coreBill s d := by simp [coreBill]
@[simp] theorem coreCtx_setThread (s : State) (c k l d : Nat) (t : Thread) :
    coreCtx (setThread s c k l t) d = coreCtx s d := by simp [coreCtx]
@[simp] theorem coreMode_setThread (s : State) (c k l d : Nat) (t : Thread) :
    coreMode (setThread s c k l t) d = coreMode s d := by simp [coreMode, getContext]
@[simp] theorem coreFn_setThread (s : State) (c k l d : Nat) (t : Thread) :
    coreFn (setThread s c k l t) d = coreFn s d := by simp [coreFn, getContext]
@[simp] theorem coreLaunch_modThread (s : State) (c k l d : Nat) (f : Thread → Thread) :
    coreLaunch (modThread s c k l f) d = coreLaunch s d := coreLaunch_setThread s c k l d _
@[simp] theorem coreBill_modThread (s : State) (c k l d : Nat) (f : Thread → Thread) :
    coreBill (modThread s c k l f) d = coreBill s d := coreBill_setThread s c k l d _
@[simp] theorem coreCtx_modThread (s : State) (c k l d : Nat) (f : Thread → Thread) :
    coreCtx (modThread s c k l f) d = coreCtx s d := coreCtx_setThread s c k l d _
@[simp] theorem coreMode_modThread (s : State) (c k l d : Nat) (f : Thread → Thread) :
    coreMode (modThread s c k l f) d = coreMode s d := coreMode_setThread s c k l d _
@[simp] theorem coreFn_modThread (s : State) (c k l d : Nat) (f : Thread → Thread) :
    coreFn (modThread s c k l f) d = coreFn s d := coreFn_setThread s c k l d _

/-! ### The cue thread -/

@[simp] theorem getCue_setCue (s : State) (c : Nat) (q : Cue) : getCue (setCue s c q) c = some q := by
  simp [getCue, setCue]
theorem getCue_modCue (s : State) (c : Nat) (f : Cue → Cue) : getCue (modCue s c f) c = (getCue s c).map f := by
  unfold modCue
  cases h : getCue s c <;> simp [h]
theorem modCue_some {s : State} {c : Nat} {q : Cue} (h : getCue s c = some q) (f : Cue → Cue) :
    modCue s c f = setCue s c (f q) := by
  simp [modCue, h]
theorem getCore_setCue (s : State) (c : Nat) (q : Cue) : getCore (setCue s c q) c = { getCore s c with cue := some q } := by
  simp [setCue]
theorem getCore_setCue_other (s : State) {c d : Nat} (q : Cue) (h : d ≠ c) : getCore (setCue s c q) d = getCore s d := by
  simp [setCue, getCore_modCore_other _ _ h]

/-! ### What a lane reads depends on its thread, its cast and the launch -/

theorem readV_congr {s t : State} {c k l : Nat} (n : Nat) (h : getThread t c k l = getThread s c k l) (ht : t.tick = s.tick) :
    readV t c k l n = readV s c k l n := by
  unfold readV laneFree
  rw [h, ht]
theorem readP_congr {s t : State} {c k l : Nat} (n : Nat) (h : getThread t c k l = getThread s c k l) (ht : t.tick = s.tick) :
    readP t c k l n = readP s c k l n := by
  unfold readP laneFree
  rw [h, ht]

theorem laneSrc_congr {s t : State} {fr : Frame} {k l : Nat} (f : Field)
    (h : getThread t fr.core k l = getThread s fr.core k l) (hk : (getCast t fr.core k).k = (getCast s fr.core k).k)
    (ht : t.tick = s.tick) : laneSrc t fr k l f = laneSrc s fr k l f := by
  have hv : readV t fr.core k l = readV s fr.core k l := funext fun n => readV_congr n h ht
  have hu (op : Op) (x n : Nat) : laneUniform (getCast t fr.core k) op x n = laneUniform (getCast s fr.core k) op x n := by
    simp [laneUniform, hk]
  unfold laneSrc
  simp only [hv, hu, readP_congr _ h ht]

end Sys2Proof.Machine
end

