-- ==== Sys2Proof/Laws/Images.lean ====
section
/-! SUPPORT. The lengths of an image's sections; reading the bytes of an object whose range lies in one piece; an image whose
sections are empty (R29, R231, R232). -/

namespace Sys2Proof.Machine

theorem span_drop (k : Nat) : ∀ lo n : Nat, (span lo n).drop k = span (lo + k) (n - k) := by
  induction k with
  | zero => intro lo n; simp
  | succ k ih =>
    intro lo n
    cases n with
    | zero => simp [span]
    | succ n => rw [span, List.drop_succ_cons, ih]; congr 1 <;> omega

theorem span_take (k : Nat) : ∀ lo n : Nat, k ≤ n → (span lo n).take k = span lo k := by
  induction k with
  | zero => intro lo n _; simp [span]
  | succ k ih =>
    intro lo n h
    cases n with
    | zero => omega
    | succ n => rw [span, span, List.take_succ_cons, ih (lo + 1) n (by omega)]

/-- A number in bytes that a function gives over a span. -/
theorem recNat_map_span {f : Nat → Byte} {lo n i k : Nat} (h : i + k ≤ n) :
    recNat ((span lo n).map f) i k = ofBytes ((span (lo + i) k).map f) := by
  rw [recNat, ← List.map_drop, ← List.map_take, span_drop, span_take k _ _ (by omega)]

/-- The bytes of an object whose range lies in one piece. -/
theorem readObject_flat {s : State} {q : Port} {oid base : Nat} : ∀ (n off : Nat),
    (∀ o, off ≤ o → o < off + n → resolve s q oid o = some (base + o)) →
    readObject s q oid off n = some ((span off n).map fun o => homeByte s (base + o)) := by
  intro n
  induction n with
  | zero => intro off _; rfl
  | succ n ih =>
    intro off h
    have hrest := ih (off + 1) fun o h1 h2 => h o (by omega) (by omega)
    simp only [readObject] at hrest
    simp only [readObject, span, List.foldr_cons, hrest, h off (by omega) (by omega), List.map_cons]

/-- An object in one extent of HBM or CXL memory that starts at offset 0, walked without TLBs. -/
theorem resolve_extent {s : State} {q : Port} {oid off base : Nat} (hq : q.core = none)
    (hv : objValid (getObject s q.fn oid) = true) (hs : off < objSize (getObject s q.fn oid))
    (hp : objPaged (getObject s q.fn oid) = false) (hn : objNext (getObject s q.fn oid) ≠ 0)
    (h0 : field (homeNat s (objRoot (getObject s q.fn oid)) 16) 127 88 = 0)
    (hl : off < field (homeNat s (objRoot (getObject s q.fn oid)) 16) 47 24 * tierPage (objTier (getObject s q.fn oid)))
    (hm : (homeNat s (objRoot (getObject s q.fn oid)) 16).testBit 1 = false)
    (hb : field (homeNat s (objRoot (getObject s q.fn oid)) 16) 87 48 * 4096 = base)
    (ht : objTier (getObject s q.fn oid) = 0) (hr : base + off < 2 ^ 39) :
    resolve s q oid off = some (base + off) := by
  obtain ⟨n, hn⟩ := Nat.exists_eq_succ_of_ne_zero hn
  have hpage : off / tierPage 0 * tierPage 0 ≤ off := Nat.div_mul_le_self _ _
  have hk : physKey 0 (base + off / tierPage 0 * tierPage 0) = some (base + off / tierPage 0 * tierPage 0) := by
    rw [physKey, if_pos (by omega)]
  rw [ht] at hl
  simp only [resolve, hv, hs, Bool.true_and, decide_true, if_true, lookup, hq, walkObject, hp, hn, Bool.false_eq_true, if_false,
    findExtent, h0, Nat.zero_le, Nat.zero_add, hl, and_self, ht, pageAt, hm, Nat.sub_zero, hb, hk, pageByte]
  congr 1
  omega

/-- Bytes whose cores' section is empty stand for an image without cores or launches. -/
theorem decodeImage_empty (s : State) (fn ctx : Nat) (bs : List Byte) (marked : Nat → Bool) (h : recNat bs 0x60 8 = 0) :
    (decodeImage s fn ctx bs marked).cores = [] ∧ (decodeImage s fn ctx bs marked).launches = [] := by
  have hdir : ((secDir bs).getD 3 (0, 0)).2 = 0 := h
  have hcores : (decodeImage s fn ctx bs marked).cores = [] := by
    simp only [decodeImage, hdir, List.take_zero]
    rfl
  refine ⟨hcores, ?_⟩
  have : (decodeImage s fn ctx bs marked).launches =
      (enum 0 (numbersIn (decodeImage s fn ctx bs marked).cores)).map fun e =>
        (e.2, launchOf (((((bs.drop ((secDir bs).getD 8 (0, 0)).1).take ((secDir bs).getD 8 (0, 0)).2).drop
          (10280 * e.1)).take 10280))) := rfl
  rw [this, hcores]
  rfl

/-- A header that gives a length of `n` makes an image of the `n` bytes. -/
theorem imageRead_of {s : State} {ctx oid off n : Nat} {q : Port} {h bs : List Byte} (hp : imagePlace s ctx = some (q, oid, off))
    (hh : readObject s q oid off 16 = some h) (hn : recNat h 8 8 = n) (hb : readObject s q oid off n = some bs) :
    imageRead s ctx = some bs := by
  simp only [imageRead, hp, hh, hn, hb]

/-- An image in one piece, whose cores' section is empty, holds nothing. -/
theorem imageOf_empty {s : State} {ctx oid off base n : Nat} {q : Port} (hp : imagePlace s ctx = some (q, oid, off))
    (h8 : 0x68 ≤ n) (hr : ∀ o, off ≤ o → o < off + n → resolve s q oid o = some (base + o))
    (ht : ofBytes ((span (off + 8) 8).map fun o => homeByte s (base + o)) = n)
    (hc : ofBytes ((span (off + 0x60) 8).map fun o => homeByte s (base + o)) = 0) :
    ∃ img, imageOf s ctx = some img ∧ img.cores = [] ∧ img.launches = [] := by
  have hread := readObject_flat n off hr
  have hhead := readObject_flat 16 off fun o h1 h2 => hr o h1 (by omega)
  have hbytes := imageRead_of hp hhead (by rw [recNat_map_span (by decide), ht]) hread
  have he := decodeImage_empty s (getContext s ctx).fn ctx _ (fun i => objectPoisoned s q oid (off + i) 1)
    (by rw [recNat_map_span h8, hc])
  exact ⟨_, by simp only [imageOf, hp, hbytes], he.1, he.2⟩

/-- An image without cores has its places free, and no launch to bring back. -/
theorem placesFree_empty {s : State} {ctx : Nat} {img : Image} (h : img.cores = []) : placesFree s ctx img = true := by
  simp [placesFree, h, clustersIn, coresIn]

/-! ### The lengths of the sections -/

@[simp] theorem length_toBytes (n : Nat) : ∀ x, (toBytes n x).length = n := by
  induction n with
  | zero => intro x; rfl
  | succ n ih => intro x; simp [toBytes, ih]

@[simp] theorem length_span (n : Nat) : ∀ lo, (span lo n).length = n := by
  induction n with
  | zero => intro lo; rfl
  | succ n ih => intro lo; simp [span, ih]

@[simp] theorem length_bytesAt (lo n : Nat) (m : Store Byte) : (bytesAt lo n m).length = n := by simp [bytesAt]

@[simp] theorem length_padTo (n : Nat) (bs : List Byte) : (padTo n bs).length = n := by simp [padTo]

/-- Items that all give lists of one length. -/
theorem length_flatMap_const {α β : Type} (f : α → List β) (n : Nat) (h : ∀ x, (f x).length = n) (l : List α) :
    (l.flatMap f).length = n * l.length := by
  induction l with
  | nil => simp
  | cons a l ih => rw [List.flatMap_cons, List.length_append, ih, h, List.length_cons, Nat.mul_succ, Nat.add_comm]

@[simp] theorem length_wordsBytes (n : Nat) (m : Store Word) : (wordsBytes n m).length = 4 * n := by
  rw [wordsBytes, length_flatMap_const _ 4 (fun _ => length_toBytes 4 _), List.length_range]

@[simp] theorem length_dwordsBytes (n : Nat) (m : Store DWord) : (dwordsBytes n m).length = 8 * n := by
  rw [dwordsBytes, length_flatMap_const _ 8 (fun _ => length_toBytes 8 _), List.length_range]

@[simp] theorem length_capsBytes (n : Nat) (m : Store Cap) : (capsBytes n m).length = 16 * n := by
  rw [capsBytes, length_flatMap_const _ 16 (fun _ => length_toBytes 16 _), List.length_range]

@[simp] theorem length_stackBytes (l : List Word) : (stackBytes l).length = 64 := by
  rw [stackBytes, length_flatMap_const _ 4 (fun _ => length_toBytes 4 _), List.length_range]

@[simp] theorem length_registerBytes (b : Playbill) (c : Cast) : (registerBytes b c).length = castSize b := by
  rw [registerBytes, List.length_append, length_flatMap_const _ (4 * b.vregs + 64) (fun l => by simp)]
  simp [castSize, Nat.mul_comm]
  omega

@[simp] theorem length_billBytes (b : Playbill) : (billBytes b).length = 512 := by
  simp only [billBytes, List.length_append, length_toBytes, length_flatMap_const _ 8 (fun _ => length_toBytes 8 _),
    length_flatMap_const _ 16 (fun _ => length_toBytes 16 _), List.length_range]

@[simp] theorem length_coreBytes (x : SavedCore) : (coreBytes x).length = 8192 := by
  unfold coreBytes
  dsimp only
  simp only [List.length_append]
  simp only [length_toBytes]
  rw [length_dwordsBytes, length_billBytes, length_billBytes, length_bytesAt, length_wordsBytes, length_padTo, length_padTo]

@[simp] theorem length_launchBytes (m : Store Ensemble) : (launchBytes m).length = 10280 := by
  rw [launchBytes, length_flatMap_const _ 40 (fun i => by simp [ensembleBytes]), List.length_range]

/-- Items whose lists have a length that a function gives. -/
theorem length_flatMap_sum {α β : Type} (f : α → List β) (g : α → Nat) (h : ∀ x, (f x).length = g x) (l : List α) :
    (l.flatMap f).length = (l.map g).sum := by
  rw [List.length_flatMap]
  congr 1
  exact List.map_congr_left fun x _ => h x

theorem length_threads (b : Playbill) (c : Cast) :
    ((List.range b.width).flatMap fun l => threadBytes (c.threads.getD l { live := false })).length = 20 * b.width := by
  rw [length_flatMap_const _ 20 (fun l => by simp [threadBytes]), List.length_range]

theorem length_replay (b : Xfer → Playbill) (l : List Xfer) : (l.flatMap fun y => entryBytes (b y) y).length = 32 * l.length :=
  length_flatMap_const _ 32 (fun y => by simp [entryBytes]) l

theorem length_tiles (l : List SavedCluster) : (l.flatMap fun x => wordsBytes 131072 x.z).length = 524288 * l.length :=
  length_flatMap_const (fun x : SavedCluster => wordsBytes 131072 x.z) 524288 (fun x => length_wordsBytes 131072 x.z) l

/-- The sections have the lengths that SECDIR gives. -/
theorem length_sections (img : Image) : img.sections.map List.length ++ [bookSize] = img.lengths := by
  rw [Image.sections, Image.lengths]
  simp only [List.map_cons, List.map_nil, List.cons_append, List.nil_append, length_tiles,
    length_flatMap_sum _ _ (fun x : SavedCast => length_registerBytes (img.bill x.core) x.cast),
    length_flatMap_sum _ _ (fun x : SavedCast => length_threads (img.bill x.core) x.cast),
    length_flatMap_const castBytes 16 (fun x => length_toBytes _ _), length_flatMap_const coreBytes 8192 length_coreBytes,
    length_flatMap_sum _ (fun x : SavedCore => 32 * x.replay.length) (fun x => length_replay _ x.replay),
    length_flatMap_sum _ _ (fun x : SavedCore => length_bytesAt 0 x.spadBytes x.spad),
    length_flatMap_const _ 2048 (fun x : SavedCluster => length_padTo 2048 (x.sources.flatMap sourceBytes)),
    length_flatMap_const _ 10280 (fun e : Nat × Store Ensemble => length_launchBytes e.2)]

end Sys2Proof.Machine
end

