-- ==== Sys2Proof/Laws/Lane.lean ====
section
/-! SUPPORT. What a word does for lanes: the one-lane run of an operation, the commit of a commit point, what a lane holds
afterwards and what stays. -/

namespace Sys2Proof.Machine

/-! ### One lane, unpaired -/

theorem laneIssues_iff {s : State} {core cast lane : Nat} {o : Opc} {op : Op} :
    laneIssues s core cast lane o op = true ↔ s.actor = .lanes core [(cast, lane)] ∧ hasLane s core cast lane = true ∧
      op.second = none ∧ legalIn (laneEnv s core) o op = true ∧ guardOf s core cast lane op = true ∧
      onTime s core cast lane o op = true ∧ (getThread s core cast lane).committed = false := by
  simp [laneIssues, and_assoc]

theorem checked_alone {s : State} {core cast lane : Nat} {o : Opc} {op : Op} (pc : Word)
    (h : onTime s core cast lane o op = true) :
    (if modeSchk (coreMode s core) then stallCheck s (frameAt core pc o op) [(cast, lane)] else (s, [(cast, lane)]))
      = (s, [(cast, lane)]) := by
  by_cases hm : modeSchk (coreMode s core) = true
  · simp only [onTime, hm, Bool.not_true, Bool.false_or, Option.isNone_iff_eq_none] at h
    simp [hm, stallCheck, frameAt, h]
  · simp [hm]

theorem withLeads_alone {s : State} {core cast lane : Nat} {o : Opc} {op : Op} (hs : op.second = none)
    (hg : guardOf s core cast lane op = true) :
    withLeads s (frameAt core (getThread s core cast lane).pc o op) [(cast, lane)] = laneFrame s core cast lane o op := by
  simp [withLeads, laneFrame, frameAt, hs, hg]

theorem laneWord_alone {s : State} {fr : Frame} {cast lane : Nat} {body : Body} {second : Second → Body} {c : Bool}
    (hs : fr.op.second = none) (hg : guardOf s fr.core cast lane fr.op = true) :
    laneWord fr body second c s cast lane =
      match body fr cast lane s with
      | .done s1 e => .next (finishLane s1 fr cast lane e none c)
      | .moved s1 => .next s1
      | .fault f => .next (takeFault s fr.core cast lane f)
      | .faultAt s1 f => .next (takeFault s1 fr.core cast lane f)
      | .page s1 p => .next (restartThread s1 fr.core cast lane p)
      | .hold s1 => .hold s1
      | .stop f => .stop f := by
  unfold laneWord
  simp only [hg, if_true, hs, Bool.and_true]
  all_goals cases body fr cast lane s <;> rfl

theorem laneFold_alone (fr : Frame) (body : Body) (second : Second → Body) (c : Bool) (cast lane : Nat) (s : State) :
    laneFold fr body second c [(cast, lane)] s =
      match laneWord fr body second c s cast lane with
      | .next s1 => .next s1
      | .hold s1 => .next (markHeld s1 fr.core (holdReason s1 fr.core fr.o c) c [(cast, lane)])
      | .stop f => .fault f := by
  simp only [laneFold]
  all_goals cases laneWord fr body second c s cast lane <;> rfl

/-- An operation that is no commit point, in one lane: what its body comes to. -/
theorem runLanes_alone {s : State} {core cast lane : Nat} {o : Opc} {op : Op} (h : laneIssues s core cast lane o op = true)
    (body : Body) (second : Second → Body) :
    runLanes o op false body second core [(cast, lane)] s =
      match body (laneFrame s core cast lane o op) cast lane s with
      | .done s1 e => .next (finishLane s1 (laneFrame s core cast lane o op) cast lane e none false)
      | .moved s1 => .next s1
      | .fault f => .next (takeFault s core cast lane f)
      | .faultAt s1 f => .next (takeFault s1 core cast lane f)
      | .page s1 p => .next (restartThread s1 core cast lane p)
      | .hold s1 => .next (markHeld s1 core (holdReason s1 core o false) false [(cast, lane)])
      | .stop f => .fault f := by
  obtain ⟨_, _, hs, hl, hg, ht, _⟩ := laneIssues_iff.mp h
  unfold runLanes
  simp only [groupPc, hl, Bool.not_true, Bool.false_eq_true, if_false]
  rw [checked_alone (getThread s core cast lane).pc ht]
  simp only [withLeads_alone hs hg]
  rw [laneFold_alone, laneWord_alone (fr := laneFrame s core cast lane o op) hs hg]
  have hc : (laneFrame s core cast lane o op).core = core := rfl
  have ho : (laneFrame s core cast lane o op).o = o := rfl
  cases body (laneFrame s core cast lane o op) cast lane s <;> simp only [hc, ho]

/-- A commit point in one lane: its commit, then what its body comes to. -/
theorem runLanes_commit {s s1 : State} {core cast lane : Nat} {o : Opc} {op : Op} (h : laneIssues s core cast lane o op = true)
    (hc : commitPoint s (laneFrame s core cast lane o op) [(cast, lane)] = .go s1 [(cast, lane)])
    (hg1 : guardOf s1 core cast lane op = true) (body : Body) (second : Second → Body) :
    runLanes o op true body second core [(cast, lane)] s =
      match body (laneFrame s core cast lane o op) cast lane s1 with
      | .done s2 e => .next (finishLane s2 (laneFrame s core cast lane o op) cast lane e none true)
      | .moved s2 => .next s2
      | .fault f => .next (takeFault s1 core cast lane f)
      | .faultAt s2 f => .next (takeFault s2 core cast lane f)
      | .page s2 p => .next (restartThread s2 core cast lane p)
      | .hold s2 => .next (markHeld s2 core (holdReason s2 core o true) true [(cast, lane)])
      | .stop f => .fault f := by
  obtain ⟨_, _, hs, hl, hg, ht, hn⟩ := laneIssues_iff.mp h
  unfold runLanes
  simp only [groupPc, hl, Bool.not_true, Bool.false_eq_true, if_false, if_true]
  rw [checked_alone (getThread s core cast lane).pc ht]
  simp only [withLeads_alone hs hg, List.filter_cons, hg, hn, Bool.not_false, Bool.and_self, if_true, List.filter_nil, hc]
  simp only [List.contains_cons, beq_self_eq_true, Bool.true_or, Bool.or_true, if_true]
  rw [laneFold_alone, laneWord_alone (fr := laneFrame s core cast lane o op) hs hg1]
  have hc : (laneFrame s core cast lane o op).core = core := rfl
  have ho : (laneFrame s core cast lane o op).o = o := rfl
  cases body (laneFrame s core cast lane o op) cast lane s1 <;> simp only [hc, ho]

/-! ### What the lane holds, what stays -/

theorem afterWord_plain (s : State) (fr : Frame) (e : Eff) (t : Thread) :
    SameThread (afterWord s fr e none false t)
      { t with
        v := e.v.foldl (fun v x => sset 0 x.1 x.2 v) t.v
        p := e.p.foldl (fun p x => withP x.1 x.2 p) t.p
        tstat := t.tstat ||| BitVec.ofNat 32 e.flags
        srstate := e.sr.getD t.srstate
        pc := e.goto.getD fr.next
        wait := e.wait
        committed := false } := by
  have hv (lat : Nat) (pc : Word) (l : List (Nat × Word)) (u : Thread) :
      SameThread (l.foldl (writeV lat pc) u) { u with v := l.foldl (fun v x => sset 0 x.1 x.2 v) u.v } := by
    induction l generalizing u with
    | nil => rfl
    | cons x l ih => exact ih (writeV lat pc u x)
  have hp (lat : Nat) (pc : Word) (l : List (Nat × Bool)) (u : Thread) :
      SameThread (l.foldl (writeP lat pc) u) { u with p := l.foldl (fun p x => withP x.1 x.2 p) u.p } := by
    induction l generalizing u with
    | nil => rfl
    | cons x l ih =>
      refine (ih (writeP lat pc u x)).trans ?_
      simp only [List.foldl_cons]
      by_cases hx : x.1 ≥ 7 <;> simp [undelayed, writeP, withP, hx]
  have key (lat stall : Nat) (pc : Word) (u : Thread) :
      SameThread (writeEff lat stall pc e u)
        { u with
          v := e.v.foldl (fun v x => sset 0 x.1 x.2 v) u.v
          p := e.p.foldl (fun p x => withP x.1 x.2 p) u.p
          tstat := u.tstat ||| BitVec.ofNat 32 e.flags
          srstate := e.sr.getD u.srstate } := by
    have h1 := hv (lat - (1 + stall)) pc e.v u
    have h2 := hp (lat - (1 + stall)) pc e.p (e.v.foldl (writeV (lat - (1 + stall)) pc) u)
    simp only [SameThread, undelayed, writeEff, Thread.mk.injEq] at h1 h2 ⊢
    cases e.sr <;> simp_all
  have := key (latencyOf fr.o) fr.op.stall.toNat fr.pc { t with producers := ageProducers fr.op.stall.toNat t.producers }
  simp only [SameThread, undelayed, afterWord, Bool.false_and, Bool.false_eq_true, if_false, Thread.mk.injEq] at this ⊢
  cases e.goto <;> simp_all

theorem onlyLanes_setThread (s : State) (core cast lane : Nat) (t : Thread) :
    OnlyLanes s (setThread s core cast lane t) core [(cast, lane)] := by
  refine ⟨rfl, fun c hc => getCore_setThread_other s cast lane t hc, getCore_setThread s core cast lane t, fun k => ?_,
    fun k l hn => ?_, fun key => rfl⟩
  · by_cases hk : k = cast
    · subst hk; rw [getCast_setThread]
    · rw [getCast_setThread_other s core lane t hk]
  · exact getThread_setThread_other s core t (by simpa using hn)

theorem onlyLanes_modThread (s : State) (core cast lane : Nat) (f : Thread → Thread) :
    OnlyLanes s (modThread s core cast lane f) core [(cast, lane)] := onlyLanes_setThread s core cast lane _

/-- An operation whose body changes nothing but its lane's registers: the state after it. -/
theorem finishLane_alone {s : State} {core cast lane : Nat} {o : Opc} {op : Op} (e : Eff)
    (h : hasLane s core cast lane = true) :
    getThread (finishLane s (laneFrame s core cast lane o op) cast lane e none false) core cast lane =
      afterWord s (laneFrame s core cast lane o op) e none false (getThread s core cast lane) := by
  unfold finishLane
  exact getThread_modThread_same s core cast lane _ h

end Sys2Proof.Machine
end

