-- ==== Sys2Proof/Laws/Memory.lean ====
section
/-! SUPPORT. Memory keeps its canonical form: the one write of a line keeps it, so does everything built from it; what leaves
memory alone; reset memory has the form. -/

namespace Sys2Proof.Machine

theorem wf_reset : Memory.wf State.reset.mem = true := rfl

theorem wf_putMemLine (s : State) (line : Nat) (d : LineData) (tags : BitVec 4) (h : Memory.wf s.mem = true) :
    Memory.wf (putMemLine s line d tags).mem = true := canonical_putBytes _ _ _ h

theorem wf_placeProgram (s : State) (key : Nat) (bs : List Byte) (h : Memory.wf s.mem = true) :
    Memory.wf (placeProgram s key bs).mem = true := canonical_putBytes _ _ _ h

/-- A loaded program leaves memory in its form. -/
theorem wf_withFetchWord (s : State) (nbits w : Nat) (h : Memory.wf s.mem = true) :
    Memory.wf (s.withFetchWord nbits w).mem = true := wf_placeProgram _ _ _ (wf_placeProgram _ _ _ h)

/-! ### What leaves memory alone -/

@[simp] theorem charge_mem (s : State) (ctx k : Nat) : (charge s ctx k).mem = s.mem := by
  unfold charge; dsimp only; split
  · rfl
  · split <;> rfl

@[simp] theorem checkLine_mem (s : State) (line cls ctx : Nat) : (checkLine s line cls ctx).mem = s.mem := by
  unfold checkLine; split
  · rfl
  · split
    · rfl
    · dsimp only; rw [charge_mem]; split <;> rfl

@[simp] theorem setDiePart_mem (s : State) (die ctx : Nat) (p : DiePart) : (setDiePart s die ctx p).mem = s.mem := rfl

@[simp] theorem trainL2_mem (s : State) (die ctx sig : Nat) (up : Bool) : (trainL2 s die ctx sig up).mem = s.mem := by
  unfold trainL2; dsimp only; split <;> rfl

@[simp] theorem insertL2_mem (s : State) (die line ctx : Nat) (sig : Option Nat) (lu : Bool) :
    (insertL2 s die line ctx sig lu).2.mem = s.mem := by
  unfold insertL2; cases sig with
  | none => rfl
  | some g => simp only [apply_ite State.mem, setDiePart_mem, ite_self]

@[simp] theorem noteApplied_mem (s : State) (h : Nat) (v : List Word) : (noteApplied s h v).mem = s.mem := rfl

@[simp] theorem spendToken_mem (s : State) (core : Nat) : (spendToken s core).mem = s.mem := rfl

@[simp] theorem hitL1_mem (s : State) (core : Nat) (l : L1Line) (lu : Bool) : (hitL1 s core l lu).mem = s.mem := rfl

@[simp] theorem joinMiss_mem (s : State) (core line : Nat) : (joinMiss s core line).mem = s.mem := rfl

@[simp] theorem openMiss_mem (s : State) (core line ctx sig : Nat) (far : Bool) (v : LineView) :
    (openMiss s core line ctx sig far v).mem = s.mem := rfl

@[simp] theorem sendWriteBack_mem (s : State) (core : Nat) (l : L1Line) : (sendWriteBack s core l).mem = s.mem := by
  unfold sendWriteBack; split <;> rfl

@[simp] theorem evictL1_mem (s : State) (core : Nat) (l : L1Line) : (evictL1 s core l).mem = s.mem := by
  unfold evictL1; dsimp only; rw [modCore_mem, sendWriteBack_mem]

@[simp] theorem makeRoomL1_mem (s : State) (core line : Nat) : (makeRoomL1 s core line).2.mem = s.mem := by
  unfold makeRoomL1; dsimp only; split
  · rfl
  · split
    · rfl
    · simp

@[simp] theorem ejectLine_mem (s : State) (core line : Nat) : (ejectLine s core line).mem = s.mem := by
  unfold ejectLine; dsimp only; rw [modCore_mem]; split
  · exact sendWriteBack_mem _ _ _
  · rfl

@[simp] theorem installL1_mem (s : State) (core line cls ctx sig : Nat) (lu : Bool) (v : LineView) :
    (installL1 s core line cls ctx sig lu v).mem = s.mem := by
  unfold installL1; simp

/-! ### The home -/

theorem wf_evictL2 (s : State) (die : Nat) (l : L2Line) (h : Memory.wf s.mem = true) :
    Memory.wf (evictL2 s die l).mem = true := by
  have hp : Memory.wf (if l.dirty then putMemLine (modDie s die fun d => { d with l2 := sdel l.line d.l2 }) l.line l.data l.tags
      else modDie s die fun d => { d with l2 := sdel l.line d.l2 }).mem = true := by
    split
    · exact wf_putMemLine _ _ _ _ h
    · exact h
  unfold evictL2; dsimp only; split
  · split
    · rw [trainL2_mem]; exact hp
    · exact hp
  · exact hp

theorem wf_makeRoomL2 (s : State) (die line ctx : Nat) (h : Memory.wf s.mem = true) :
    Memory.wf (makeRoomL2 s die line ctx).2.mem = true := by
  unfold makeRoomL2; dsimp only; split
  · exact h
  · split
    · exact h
    · exact wf_evictL2 _ _ _ h

theorem wf_touchL2 (s : State) (line ctx : Nat) (sig : Option Nat) (lu : Bool) (h : Memory.wf s.mem = true) :
    Memory.wf (touchL2 s line ctx sig lu).mem = true := by
  unfold touchL2; split
  · exact h
  · dsimp only; split
    · split
      · exact h
      · split
        · split
          · exact h
          · rw [trainL2_mem]; exact h
        · exact h
    · rw [modDie_mem, insertL2_mem]; exact wf_makeRoomL2 _ _ _ _ h

theorem wf_putHome (s : State) (line : Nat) (d : LineData) (tags : BitVec 4) (h : Memory.wf s.mem = true) :
    Memory.wf (putHome s line d tags).mem = true := by
  unfold putHome; split
  · exact wf_putMemLine _ _ _ _ h
  · dsimp only; split
    · exact h
    · exact wf_putMemLine _ _ _ _ h

theorem wf_writeHome (s : State) (line : Nat) (mask : BitVec 64) (d : LineData) (tags : BitVec 4) (poison : Bool) (cls ctx : Nat)
    (h : Memory.wf s.mem = true) : Memory.wf (writeHome s line mask d tags poison cls ctx).mem = true := by
  have hc : Memory.wf (if mask = fullMask then s else checkLine s line cls ctx).mem = true := by
    split
    · exact h
    · rw [checkLine_mem]; exact h
  unfold writeHome
  generalize (if mask = fullMask then s else checkLine s line cls ctx) = s1 at hc ⊢
  dsimp only; split
  · rw [charge_mem]; exact wf_putHome _ _ _ _ (wf_touchL2 _ _ _ _ _ hc)
  · split
    · exact wf_putHome _ _ _ _ (wf_touchL2 _ _ _ _ _ hc)
    · split <;> exact wf_putHome _ _ _ _ (wf_touchL2 _ _ _ _ _ hc)

theorem wf_readHome (s : State) (line cls ctx : Nat) (sig : Option Nat) (lu : Bool) (h : Memory.wf s.mem = true) :
    Memory.wf (readHome s line cls ctx sig lu).mem = true := by
  unfold readHome; exact wf_touchL2 _ _ _ _ _ (by rw [checkLine_mem]; exact h)

/-- A fold of operations that keep the form keeps it. -/
theorem wf_foldl {α : Type} (f : State → α → State) (hf : ∀ s x, Memory.wf s.mem = true → Memory.wf (f s x).mem = true)
    (l : List α) : ∀ s, Memory.wf s.mem = true → Memory.wf (l.foldl f s).mem = true := by
  induction l with
  | nil => intro s h; exact h
  | cons x l ih => intro s h; exact ih _ (hf s x h)

theorem wf_writeThrough (s : State) (h : Memory.wf s.mem = true) : Memory.wf (writeThrough s).mem = true := by
  unfold writeThrough
  refine wf_foldl _ (fun s die h => ?_) _ s h
  refine wf_foldl _ (fun s e h => ?_) _ s h
  dsimp only; rw [modDie_mem]
  exact wf_putMemLine s _ _ _ h

/-! ### L1 -/

theorem wf_loadLine (s : State) (core line cls ctx : Nat) (pc : Word) (alloc lu : Bool) (h : Memory.wf s.mem = true) :
    Memory.wf (loadLine s core line cls ctx pc alloc lu).mem = true := by
  unfold loadLine; split
  · exact h
  · dsimp only; split
    · rw [installL1_mem]; exact h
    · exact h
  · have hr := wf_readHome (spendToken s core) line cls ctx (some (sigL2 pc)) lu h
    dsimp only; split
    · rw [installL1_mem, openMiss_mem]; exact hr
    · rw [openMiss_mem]; exact hr

theorem wf_drainExtents (s : State) (tier : Nat) (es : List Extent) (h : Memory.wf s.mem = true) :
    Memory.wf (drainExtents s tier es).mem = true := by
  unfold drainExtents
  refine wf_foldl _ (fun s die h => ?_) _ _ ?_
  · refine wf_foldl _ (fun s e h => ?_) _ s h
    rw [modDie_mem]
    exact wf_putMemLine s _ _ _ h
  · refine wf_foldl _ (fun s core h => ?_) _ s h
    exact wf_foldl _ (fun s e h => by rw [ejectLine_mem]; exact h) _ s h

/-! ### Reading one byte at its home -/

/-- A byte of a line that no L2 holds is the byte of memory. -/
theorem homeByte_uncached {s : State} {key : Nat}
    (h : sfind (key / 64) (getDie s (homeDie (key / 64 * 64))).l2 = none) : homeByte s key = sget 0 key s.mem := by
  unfold homeByte; rw [h]; split <;> rfl

/-- What the homes hold depends on memory and the dies alone. -/
theorem homeByte_congr {s t : State} (hm : t.mem = s.mem) (hd : t.dies = s.dies) (key : Nat) : homeByte t key = homeByte s key := by
  unfold homeByte getDie; rw [hm, hd]

end Sys2Proof.Machine
end

