-- ==== Sys2Proof/Tests/Slice0.lean ====
section
/-! SUPPORT. Tests: ill-formed terms that the checks refuse, words written out from the encodings of the spec, single steps with
results from the spec, and for each statement with hypotheses a state and operands that meet them. -/

open Sys2Proof Sys2Proof.Machine Sys2Proof.Claims

namespace Sys2Proof.Tests

set_option maxRecDepth 100000
set_option Elab.async false

/-! ### Small states -/

/-- The launch with its fault handler at 0x100. -/
def handled (s : State) : State :=
  modLaunch s (launchKey programCtx 0) fun l => { l with bill := { l.bill with trapPc := 0x100 } }

/-- A loaded machine whose one-lane cast issues; nothing is fetched. -/
def lane1 : State := handled { loadProgram State.reset [] false with actor := .lanes 0 [(0, 0)], agenda := [] }

/-- The same machine with the lane's thread changed, and with the core changed. -/
def laneWith (f : Thread → Thread) : State := modThread lane1 0 0 0 f
def coreWith (f : Core → Core) : State := modCore lane1 0 f

/-- A loaded machine whose cue thread issues, with its thread changed. -/
def cueOf (hold : Bool) (f : Cue → Cue) : State :=
  modCue (handled { loadProgram State.reset [] true with actor := .cue 0 hold, agenda := [] }) 0 f

/-- A loaded machine with a whole cast of sixteen lanes that issue together, each changed by its number. -/
def cast16 (f : Nat → Thread → Thread) : State :=
  let s := modCast lane1 0 0 fun c => { c with threads := (List.range 16).map fun l => f l (openImplicit programBill {} 0) }
  { s with actor := .lanes 0 ((List.range 16).map fun l => (0, l)) }

/-- The lanes of that cast. -/
def all16 : List Nat := List.range 16

/-- A capability of the whole loaded object with some rights. -/
def capOf (rights : Nat) : Cap := mkCap 0 (2 ^ 21) programOid rights 0

/-- A lane with a capability in c1 and vector registers. -/
def laneMem (rights : Nat) (v : Store Word) : State :=
  modCast (laneWith fun t => { t with v }) 0 0 fun c => { c with a := [(1, capOf rights)] }

/-! ### Decoding: words written out from the opcode map (R56) and the fields of R36, with GRD p7 -/

def words1 : List (Nat × Nat × Instr) := [
  (96, 0x0000000000000000000000E1, .nop { form := .ext }),
  (96, 0x0000000000000000000002E1, .bra { form := .ext }),
  (96, 0x0000004000000000080004E1, .brc { form := .ext, a := 4, word2 := 0x40 }),
  (96, 0x0000000000000000080006E1, .jmpi { form := .ext, a := 4 }),
  (96, 0x0000000000000000000008E1, .call { form := .ext }),
  (96, 0x000000000000000008000AE1, .calli { form := .ext, a := 4 }),
  (96, 0x000000000000000000000CE1, .ret { form := .ext }),
  (96, 0x000000000000000000000EE1, .reform { form := .ext }),
  (160, 0x00000000000000000000000300000000000010E3, .scene { form := .extLit, word2 := 3 }),
  (96, 0x0000000000000000080012E1, .exit { form := .ext, a := 4 }),
  (96, 0x0000000000000000020014E1, .arrive { form := .ext, a := 1 }),
  (96, 0x0000000000000000020016E1, .bwait { form := .ext, a := 1 }),
  (96, 0x0000000000000006081418E1, .dqpush { form := .ext, d := 5, a := 4, b := 6 }),
  (96, 0x0000000000000000000C1AE1, .dqpop { form := .ext, d := 3 }),
  (96, 0x000000400000000602141CE1, .qenq { form := .ext, d := 5, a := 1, b := 6, word2 := 0x40 }),
  (96, 0x000000400000000002081EE1, .qdeq { form := .ext, d := 2, a := 1, word2 := 0x40 }),
  (96, 0x0000004000000000020820E1, .qstat { form := .ext, d := 2, a := 1, word2 := 0x40 }),
  (96, 0x0000004000000006021422E1, .launch { form := .ext, d := 5, a := 1, b := 6, word2 := 0x40 }),
  (96, 0x0000004000000000060024E1, .wait { form := .ext, a := 3, word2 := 0x40 }),
  (96, 0x0000000000000000000026E1, .ordy { form := .ext }),
  (96, 0x0000000000000000000028E1, .castsync { form := .ext }),
  (96, 0x000000000000000000002AE1, .yield { form := .ext }),
  (96, 0x0000000000000006080840E1, .iadd { form := .ext, d := 2, a := 4, b := 6 }),
  (96, 0x0000000000000006080842E1, .isub { form := .ext, d := 2, a := 4, b := 6 }),
  (96, 0x0000000000000006080844E1, .imul { form := .ext, d := 2, a := 4, b := 6 })]
def words2 : List (Nat × Nat × Instr) := [
  (96, 0x0000000000000006080846E1, .imulh { form := .ext, d := 2, a := 4, b := 6 }),
  (96, 0x0000000000000406080848E1, .imad { form := .ext, d := 2, a := 4, b := 6, c := 8 }),
  (96, 0x000000000000000608084AE1, .imin { form := .ext, d := 2, a := 4, b := 6 }),
  (96, 0x000000000000000608084CE1, .imax { form := .ext, d := 2, a := 4, b := 6 }),
  (96, 0x000000000000000008084EE1, .iabs { form := .ext, d := 2, a := 4 }),
  (96, 0x0000000000000000080850E1, .ineg { form := .ext, d := 2, a := 4 }),
  (96, 0x0000000000000006080852E1, .iadds { form := .ext, d := 2, a := 4, b := 6 }),
  (96, 0x0000000000000006080854E1, .isubs { form := .ext, d := 2, a := 4, b := 6 }),
  (96, 0x0000000000000006081456E1, .icmp { form := .ext, d := 5, a := 4, b := 6 }),
  (96, 0x0000000000000106080858E1, .sel { form := .ext, d := 2, a := 4, b := 6, c := 2 }),
  (96, 0x000000000000000008085AE1, .mov { form := .ext, d := 2, a := 4 }),
  (96, 0x000000400000000000085CE1, .movl { form := .ext, d := 2, word2 := 0x40 }),
  (96, 0x000000000000000000085EE1, .vidx { form := .ext, d := 2 }),
  (96, 0x0000000000000006080860E1, .and { form := .ext, d := 2, a := 4, b := 6 }),
  (96, 0x0000000000000006080862E1, .or { form := .ext, d := 2, a := 4, b := 6 }),
  (96, 0x0000000000000006080864E1, .xor { form := .ext, d := 2, a := 4, b := 6 }),
  (96, 0x0000000000000006080866E1, .andn { form := .ext, d := 2, a := 4, b := 6 }),
  (96, 0x0000000000000000080868E1, .not { form := .ext, d := 2, a := 4 }),
  (96, 0x000000000000000608086AE1, .shl { form := .ext, d := 2, a := 4, b := 6 }),
  (96, 0x000000000000000608086CE1, .shr { form := .ext, d := 2, a := 4, b := 6 }),
  (96, 0x000000000000000608086EE1, .sar { form := .ext, d := 2, a := 4, b := 6 }),
  (96, 0x0000000000000006080870E1, .rol { form := .ext, d := 2, a := 4, b := 6 }),
  (96, 0x0000000000000406080872E1, .bfx { form := .ext, d := 2, a := 4, b := 6, c := 8 }),
  (96, 0x0000000000000406080874E1, .bfi { form := .ext, d := 2, a := 4, b := 6, c := 8 }),
  (96, 0x0000000000000000080876E1, .popc { form := .ext, d := 2, a := 4 })]
def words3 : List (Nat × Nat × Instr) := [
  (96, 0x0000000000000000080878E1, .clz { form := .ext, d := 2, a := 4 }),
  (96, 0x000000000000000008087AE1, .ctz { form := .ext, d := 2, a := 4 }),
  (96, 0x000000000000000008087CE1, .brev { form := .ext, d := 2, a := 4 }),
  (96, 0x000000000000010204147EE1, .plog { form := .ext, d := 5, a := 2, b := 2, c := 2 }),
  (96, 0x0000000000000006080880E1, .padd16 { form := .ext, d := 2, a := 4, b := 6 }),
  (96, 0x0000000000000006080882E1, .psub16 { form := .ext, d := 2, a := 4, b := 6 }),
  (96, 0x0000000000000006080884E1, .pmul16 { form := .ext, d := 2, a := 4, b := 6 }),
  (96, 0x0000000000000406080886E1, .pmac16 { form := .ext, d := 2, a := 4, b := 6, c := 8 }),
  (96, 0x0000000000000006080888E1, .padd8 { form := .ext, d := 2, a := 4, b := 6 }),
  (96, 0x000000000000040608088AE1, .pdot8 { form := .ext, d := 2, a := 4, b := 6, c := 8 }),
  (96, 0x000000000000000608088CE1, .shrr { form := .ext, d := 2, a := 4, b := 6 }),
  (96, 0x000000000000000008088EE1, .satn { form := .ext, d := 2, a := 4 }),
  (96, 0x0000000000000006080890E1, .pmin16 { form := .ext, d := 2, a := 4, b := 6 }),
  (96, 0x0000000000000006080892E1, .pmax16 { form := .ext, d := 2, a := 4, b := 6 }),
  (96, 0x0000000000000006080894E1, .add64 { form := .ext, d := 2, a := 4, b := 6 }),
  (96, 0x0000000000000006080896E1, .sub64 { form := .ext, d := 2, a := 4, b := 6 }),
  (96, 0x0000000000000006080898E1, .shl64 { form := .ext, d := 2, a := 4, b := 6 }),
  (96, 0x000000000000000608089AE1, .shr64 { form := .ext, d := 2, a := 4, b := 6 }),
  (96, 0x000000000000000608089CE1, .mul32w { form := .ext, d := 2, a := 4, b := 6 }),
  (96, 0x00000000000000060808C0E1, .fadd { form := .ext, d := 2, a := 4, b := 6 }),
  (96, 0x00000000000000060808C2E1, .fsub { form := .ext, d := 2, a := 4, b := 6 }),
  (96, 0x00000000000000060808C4E1, .fmul { form := .ext, d := 2, a := 4, b := 6 }),
  (96, 0x00000000000004060808C6E1, .ffma { form := .ext, d := 2, a := 4, b := 6, c := 8 }),
  (96, 0x00000000000000060808C8E1, .fmin { form := .ext, d := 2, a := 4, b := 6 }),
  (96, 0x00000000000000060808CAE1, .fmax { form := .ext, d := 2, a := 4, b := 6 })]
def words4 : List (Nat × Nat × Instr) := [
  (96, 0x00000000000000000808CCE1, .fabs { form := .ext, d := 2, a := 4 }),
  (96, 0x00000000000000000808CEE1, .fneg { form := .ext, d := 2, a := 4 }),
  (96, 0x00000000000000060814D0E1, .fcmp { form := .ext, d := 5, a := 4, b := 6 }),
  (96, 0x00000000000000000808D2E1, .fclass { form := .ext, d := 2, a := 4 }),
  (96, 0x00000000000000000808D4E1, .frcp { form := .ext, d := 2, a := 4 }),
  (96, 0x00000000000000000808D6E1, .frsq { form := .ext, d := 2, a := 4 }),
  (96, 0x00000000000000000808D8E1, .fsqrt { form := .ext, d := 2, a := 4 }),
  (96, 0x00000000000000000808DAE1, .fexp2 { form := .ext, d := 2, a := 4 }),
  (96, 0x00000000000000000808DCE1, .flog2 { form := .ext, d := 2, a := 4 }),
  (96, 0x00000000000000000808DEE1, .ftanh { form := .ext, d := 2, a := 4 }),
  (96, 0x00000000000000000808E0E1, .frnd { form := .ext, d := 2, a := 4 }),
  (96, 0x00000000000000060808E2E1, .fscale { form := .ext, d := 2, a := 4, b := 6 }),
  (96, 0x00000000000000000808E4E1, .cvt { form := .ext, d := 2, a := 4 }),
  (96, 0x00000000000000060808E6E1, .cvtq { form := .ext, d := 2, a := 4, b := 6 }),
  (96, 0x00000000000000060808E8E1, .cvtd { form := .ext, d := 2, a := 4, b := 6 }),
  (96, 0x00000000000000060808EAE1, .hadd2 { form := .ext, d := 2, a := 4, b := 6 }),
  (96, 0x00000000000000060808ECE1, .hmul2 { form := .ext, d := 2, a := 4, b := 6 }),
  (96, 0x00000000000004060808EEE1, .hfma2 { form := .ext, d := 2, a := 4, b := 6, c := 8 }),
  (96, 0x00000000000004060808F0E1, .fdot2 { form := .ext, d := 2, a := 4, b := 6, c := 8 }),
  (96, 0x0000000000000006080940E1, .slide { form := .ext, d := 2, a := 4, b := 6 }),
  (96, 0x0000000000000006080942E1, .shfl { form := .ext, d := 2, a := 4, b := 6 }),
  (96, 0x0000000000000006080944E1, .bcast { form := .ext, d := 2, a := 4, b := 6 }),
  (96, 0x0000000000000000080946E1, .reduce { form := .ext, d := 2, a := 4 }),
  (96, 0x0000000000000000080948E1, .scan { form := .ext, d := 2, a := 4 }),
  (96, 0x000000000000000004094AE1, .vote { form := .ext, d := 2, a := 2 })]
def words5 : List (Nat × Nat × Instr) := [
  (96, 0x000000000000000008094CE1, .matchLanes { form := .ext, d := 2, a := 4 }),
  (96, 0x0000000000000000080D4EE1, .kmov { form := .ext, d := 3, a := 4 }),
  (96, 0x0000004000000006020980E1, .ld { form := .ext, d := 2, a := 1, b := 6, word2 := 0x40 }),
  (96, 0x0000004000000406020182E1, .st { form := .ext, a := 1, b := 6, c := 8, word2 := 0x40 }),
  (96, 0x0000004000000000080984E1, .lds { form := .ext, d := 2, a := 4, word2 := 0x40 }),
  (96, 0x0000004000000006080186E1, .sts { form := .ext, a := 4, b := 6, word2 := 0x40 }),
  (96, 0x0000004000000006020D88E1, .ldk { form := .ext, d := 3, a := 1, b := 6, word2 := 0x40 }),
  (96, 0x000000400000040602098AE1, .atom { form := .ext, d := 2, a := 1, b := 6, c := 8, word2 := 0x40 }),
  (96, 0x000000400000040608098CE1, .atoms { form := .ext, d := 2, a := 4, b := 6, c := 8, word2 := 0x40 }),
  (96, 0x000000400000000602018EE1, .pfch { form := .ext, a := 1, b := 6, word2 := 0x40 }),
  (96, 0x0000004000000006020990E1, .capld { form := .ext, d := 2, a := 1, b := 6, word2 := 0x40 }),
  (96, 0x0000004000000086020192E1, .capst { form := .ext, a := 1, b := 6, c := 1, word2 := 0x40 }),
  (96, 0x0000000000000406020994E1, .capnar { form := .ext, d := 2, a := 1, b := 6, c := 8 }),
  (96, 0x0000000000000000020996E1, .capinfo { form := .ext, d := 2, a := 1 }),
  (96, 0x0000004000000406020D98E1, .copy { form := .ext, d := 3, a := 1, b := 6, c := 8, word2 := 0x40 }),
  (96, 0x0000004000000406020D9AE1, .gatherb { form := .ext, d := 3, a := 1, b := 6, c := 8, word2 := 0x40 }),
  (96, 0x0000004000000401020D9CE1, .copyx { form := .ext, d := 3, a := 1, b := 1, c := 8, word2 := 0x40 }),
  (96, 0x000000000000000000019EE1, .rel { form := .ext }),
  (96, 0x00000000000000000001A0E1, .acq { form := .ext }),
  (96, 0x00000040000004060201A2E1, .icinv { form := .ext, a := 1, b := 6, c := 8, word2 := 0x40 }),
  (96, 0x00000000000004060209A4E1, .capmk { form := .ext, d := 2, a := 1, b := 6, c := 8 }),
  (96, 0x00000000000001860811B0E1, .mma { form := .ext, d := 4, a := 4, b := 6, c := 3 }),
  (96, 0x00000000000001860811B2E1, .mmas { form := .ext, d := 4, a := 4, b := 6, c := 3 }),
  (96, 0x0000004000000406020DB4E1, .wload { form := .ext, d := 3, a := 1, b := 6, c := 8, word2 := 0x40 }),
  (96, 0x00000000000001800011B6E1, .zclr { form := .ext, d := 4, c := 3 })]
def words6 : List (Nat × Nat × Instr) := [
  (96, 0x00000040000001860211B8E1, .zld { form := .ext, d := 4, a := 1, b := 6, c := 3, word2 := 0x40 }),
  (96, 0x00000040000001860211BAE1, .zst { form := .ext, d := 4, a := 1, b := 6, c := 3, word2 := 0x40 }),
  (96, 0x00000000000000060809BCE1, .zmov { form := .ext, d := 2, a := 4, b := 6 }),
  (96, 0x00000000000000060809BEE1, .spcomp { form := .ext, d := 2, a := 4, b := 6 }),
  (96, 0x00000000000000060809C0E1, .expq { form := .ext, d := 2, a := 4, b := 6 }),
  (96, 0x00000000000001860811C2E1, .cred { form := .ext, d := 4, a := 4, b := 6, c := 3 }),
  (96, 0x0000004000000006080DC4E1, .qcast { form := .ext, d := 3, a := 4, b := 6, word2 := 0x40 }),
  (96, 0x00000000000000060809C6E1, .topk { form := .ext, d := 2, a := 4, b := 6 }),
  (96, 0x00000000000004060801C8E1, .sacc { form := .ext, a := 4, b := 6, c := 8 }),
  (96, 0x00000000000000000801E0E1, .trap { form := .ext, a := 4 }),
  (96, 0x00000000000000000001E2E1, .resume { form := .ext }),
  (96, 0x00000000000000061009E4E1, .sysrd { form := .ext, d := 2, a := 8, b := 6 }),
  (96, 0x00000000000004061001E6E1, .syswr { form := .ext, a := 8, b := 6, c := 8 }),
  (96, 0x00000000000000060809E8E1, .pbkrd { form := .ext, d := 2, a := 4, b := 6 }),
  (96, 0x00000000000004060801EAE1, .pbkwr { form := .ext, a := 4, b := 6, c := 8 }),
  (96, 0x00000000000000000801ECE1, .pbkclr { form := .ext, a := 4 }),
  (96, 0x0000004000000006020DEEE1, .pbksave { form := .ext, d := 3, a := 1, b := 6, word2 := 0x40 }),
  (96, 0x0000004000000006020DF0E1, .pbkload { form := .ext, d := 3, a := 1, b := 6, word2 := 0x40 }),
  (96, 0x00000000000000000201F2E1, .step { form := .ext, a := 1 }),
  (96, 0x00000000000004060201F4E1, .fade { form := .ext, a := 1, b := 6, c := 8 }),
  (96, 0x00000000000004060201F6E1, .classmap { form := .ext, a := 1, b := 6, c := 8 }),
  (96, 0x00000000000000000001F8E1, .brkpt { form := .ext }),
  (96, 0x00000000000000060801FAE1, .trace { form := .ext, a := 4, b := 6 })]

/-- Does the decoder give the instruction of an entry: bits, word, instruction? -/
def decodes (e : Nat × Nat × Instr) : Bool := decodeTableWord e.1 e.2.1 == some e.2.2 && wellFormed e.2.2

theorem test_words : (words1 ++ words2 ++ words3 ++ words4 ++ words5 ++ words6).all decodes = true := by decide +kernel

/-- Words that the spec writes out beside its own instructions. -/
def specWords1 : List (Nat × Nat × Instr) := [
  (32, 0x400212E0, .exit { form := .base, a := 0x20, asel := true }),
  (160, 0x00000000000002060000000000004000000010E3, .scene { form := .extLit, mod := 1, lit := 0x206 }),
  (32, 0x08245B4C, .mov { form := .base, stall := 3, grd := 2, gneg := true, d := 9, a := 4 }),
  (96, 0x0000000000000009200580E1, .ld { form := .ext, d := 1, a := 16, b := 9 }),
  (96, 0x0000000000000309220182E1, .st { form := .ext, a := 17, b := 9, c := 6 }),
  (96, 0x0000000000420003041CE6E1, .cvtq { form := .ext, d := 7, a := 2, b := 3, mod := 8, fslot := 1 }),
  (96, 0x000003084000500406099AE1, .gatherb { form := .ext, d := 2, a := 3, b := 4, c := 0x20, csel := true, mod := 1, word2 := 0x308 }),
  (96, 0x0000000000000003041418E1, .dqpush { form := .ext, d := 5, a := 2, b := 3 }),
  (96, 0xFFFFFFE000000000080004E1, .brc { form := .ext, a := 4, word2 := 0xFFFFFFE0 }),
  (96, 0x0000000020004020020540E1, .slide { form := .ext, d := 1, a := 1, b := 0x20, bsel := true, mod := 1 }),
  (96, 0x000002000000C002281C22E1, .launch { form := .ext, d := 7, a := 20, b := 2, mod := 3, word2 := 0x200 }),
  (96, 0x000000000000000524101C61, .qenq { form := .ext, grd := 3, d := 4, a := 18, b := 5 }),
  (96, 0x00000000200080220211E8E1, .pbkrd { form := .ext, d := 4, a := 1, b := 0x22, bsel := true, mod := 2 }),
  (32, 0x4803ECE0, .pbkclr { form := .base, a := 0x24, asel := true }),
  (96, 0x00000300000000022001EEE1, .pbksave { form := .ext, a := 16, b := 2, word2 := 0x300 }),
  (96, 0x00000000204881022011B0E1, .mma { form := .ext, d := 4, a := 16, b := 2, c := 2, mod := 0x22, fslot := 1, bsel := true }),
  (96, 0x00000000008040030419BEE1, .spcomp { form := .ext, d := 6, a := 2, b := 3, mod := 1, fslot := 2 }),
  (96, 0x000008000000400B1401C4E1, .qcast { form := .ext, a := 10, b := 11, mod := 1, word2 := 0x800 }),
  (96, 0x000000000000400C1055C0E1, .expq { form := .ext, d := 21, a := 8, b := 12, mod := 1 })]
def specWords2 : List (Nat × Nat × Instr) := [
  (96, 0x00000000000000830421C2E1, .cred { form := .ext, d := 8, a := 2, b := 3, c := 1 }),
  (96, 0x00000000001140050829C6E1, .topk { form := .ext, d := 10, a := 4, b := 5, mod := 0x45 }),
  (96, 0x00000000000041820201C8E1, .sacc { form := .ext, a := 1, b := 2, c := 3, mod := 1 }),
  (96, 0x00000000000041820801F4E1, .fade { form := .ext, a := 4, b := 2, c := 3, mod := 1 }),
  (96, 0x00000000600090A30A01F6E1, .classmap { form := .ext, a := 5, b := 0x23, bsel := true, c := 0x21, csel := true, mod := 2 }),
  (96, 0x000000400060000A12198041, .ld { form := .ext, grd := 2, d := 6, a := 9, b := 10, mod := 0x80, fslot := 1, word2 := 0x40 }),
  (96, 0x000002004000501024059CE1, .copyx { form := .ext, d := 1, a := 18, b := 16, c := 0x20, csel := true, mod := 1, word2 := 0x200 }),
  (96, 0x000000000146430008098AE1, .atom { form := .ext, d := 2, a := 4, b := 0, c := 6, mod := 0x19, fslot := 5 }),
  (96, 0x0000000020000020001056E1, .icmp { form := .ext, d := 4, b := 0x20, bsel := true }),
  (96, 0x00000000200340000C0856E1, .icmp { form := .ext, d := 2, a := 6, b := 0, bsel := true, mod := 0x0D }),
  (96, 0x000000000030038304107EE1, .plog { form := .ext, d := 4, a := 2, b := 3, c := 7, mod := 0xC0 }),
  (96, 0x000000000000400000001761, .bwait { form := .ext, grd := 3, gneg := true, mod := 1 }),
  (96, 0x00000000009040000814E4E1, .cvt { form := .ext, d := 5, a := 4, mod := 0x41, fslot := 2 }),
  (32, 0x5A03E0E0, .trap { form := .base, a := 0x2D, asel := true }),
  (96, 0x00000301000044842A059A21, .gatherb { form := .ext, grd := 1, d := 1, a := 21, b := 4, c := 9, mod := 1, word2 := 0x301 }),
  (96, 0x00000000000042814003C821, .sacc { form := .ext, grd := 1, a := 0x20, asel := true, b := 1, c := 5, mod := 1 }),
  (96, 0x200010006000107F020C86E1, .pmac16 { form := .ext, d := 3, a := 1, b := 0x7F, bsel := true, c := 0x20, csel := true, word2 := 0x20001000 }),
  (96, 0xE1030820800001820214C6E1, .ffma { form := .ext, d := 5, a := 1, b := 2, c := 3, second := some { opc := .iadd, d2 := 8, a2 := 6, b2 := 4, grd2 := 7 } }),
  (96, 0xE00285478000000008108EE1, .satn { form := .ext, d := 4, a := 4, second := some { opc := .satn, d2 := 5, a2 := 5, b2 := 0, grd2 := 7 } })]

theorem test_spec_words : (specWords1 ++ specWords2).all decodes = true := by decide +kernel

/-! ### Register operations -/

/-- v1 + v2 into v3, the guard of a lane of `cast16` true in even lanes alone. -/
def addOp : Op := { form := .ext, d := 3, a := 1, b := 2 }
def addLane : State := laneWith fun t => { t with v := [(1, 0xFFFFFFFF), (2, 2)] }
def evenAdd : Op := { addOp with grd := 0 }
def evenCast : State := cast16 fun l t => { t with v := [(1, 0xFFFFFFFF), (2, BitVec.ofNat 32 l)], p := if l % 2 = 0 then 1 else 0 }

theorem witness_integer_lane : groupIssues addLane 0 [(0, 0)] .iadd addOp = true ∧ (integerResult .iadd).isSome = true := by
  decide +kernel

theorem witness_integer_guards : groupIssues evenCast 0 (all16.map fun l => (0, l)) .iadd evenAdd = true
    ∧ (integerResult .iadd).isSome = true := by decide +kernel

theorem witness_packed_lane : groupIssues addLane 0 [(0, 0)] .padd16 { addOp with mod := 1 } = true
    ∧ (packedResult .padd16).isSome = true := by decide +kernel

theorem witness_integer_cue :
    cueRuns (cueOf false fun q => { q with c := [(1, 7)] }) 0 .iadd { form := .ext, d := 3, a := 1, b := 1 } = true
      ∧ (integerResult .iadd).isSome = true := by decide +kernel

theorem witness_movl_vidx : groupIssues addLane 0 [(0, 0)] .movl { form := .ext, d := 3, word2 := 0x80000001 } = true
    ∧ groupIssues addLane 0 [(0, 0)] .vidx { form := .ext, d := 3, mod := 1 } = true := by decide +kernel

theorem witness_float_lane : groupIssues addLane 0 [(0, 0)] .fadd addOp = true ∧ (floatResult .fadd).isSome = true
    ∧ (fFadd (laneOperands addLane 0 (0, 0) .fadd addOp) = .ok 0x7FC00000 0 none) := by decide +kernel

/-- CVT.e4m3x2 whose value overflows under the trapping policy of OVF 3. -/
def trapOp : Op := { form := .ext, d := 3, a := 1, b := 2, mod := 0x20, ovf := 3 }
def hugeLane : State := laneWith fun t => { t with v := [(1, 0x7F000000), (2, 0)] }

theorem witness_float_trap : laneIssues hugeLane 0 0 0 .cvt trapOp = true ∧ handlerReady hugeLane 0 0 0 = true
    ∧ fCvt (laneOperands hugeLane 0 (0, 0) .cvt trapOp) = .trap := by decide +kernel

/-- CVT through slot 0, which the launch leaves unbound. -/
def unboundOp : Op := { form := .ext, d := 3, a := 1, mod := 0x40 }

theorem witness_float_illegal : laneIssues hugeLane 0 0 0 .cvt unboundOp = true ∧ handlerReady hugeLane 0 0 0 = true
    ∧ fCvt (laneOperands hugeLane 0 (0, 0) .cvt unboundOp) = .illegal := by decide +kernel

/-- IADD paired with ISUB of the same registers into others. -/
def pairOp : Op := { addOp with second := some { opc := .isub, d2 := 4, a2 := 1, b2 := 2, grd2 := 7 } }

theorem witness_pair : hasLane addLane 0 0 0 = true ∧ legalIn (laneEnv addLane 0) .iadd pairOp = true
    ∧ onTime addLane 0 0 0 .iadd pairOp = true ∧ guardOf addLane 0 0 0 pairOp = true
    ∧ guard2Of addLane 0 0 0 { opc := .isub, d2 := 4, a2 := 1, b2 := 2, grd2 := 7 } = true
    ∧ (integerResult .iadd).isSome = true ∧ (integerResult .isub).isSome = true := by decide +kernel

/-! ### Floating-point values -/

/-- Operands of an FP32 instruction: 1.0 and 2^-24, or the two words given. -/
def fpIn (a b c : Nat) : AluIn := { n := 32, a, b, c, mod := 0 }

theorem witness_arithmetic : finite (fpA (fpIn 0x3F800000 0x33800000 0)) = true ∧ finite (fpB (fpIn 0x3F800000 0x33800000 0)) = true
    ∧ finite (fpC (fpIn 0x3F800000 0x33800000 0)) = true := by decide +kernel

theorem witness_invalid_sum :
    let x := fpIn 0x7F800000 0xFF800000 0
    isInf (fpA x) = true ∧ isInf (fpB x) = true ∧ fNeg (fpA x) ≠ fNeg (fpB x) := by decide +kernel

theorem witness_invalid_difference :
    let x := fpIn 0x7F800000 0x7F800000 0
    isInf (fpA x) = true ∧ isInf (fpB x) = true ∧ fNeg (fpA x) = fNeg (fpB x) := by decide +kernel

theorem witness_invalid_product :
    isZero (fpA (fpIn 0x80000000 0x7F800000 0)) = true ∧ isInf (fpB (fpIn 0x80000000 0x7F800000 0)) = true := by decide +kernel

theorem witness_invalid_fma :
    let x := fpIn 0x7F800000 0x3F800000 0xFF800000
    isInf (mulF (fpA x) (fpB x)) = true ∧ isInf (fpC x) = true ∧ fNeg (mulF (fpA x) (fpB x)) ≠ fNeg (fpC x) := by decide +kernel

theorem witness_nan_operand : isNan (fpA (fpIn 0x7F800001 0 0)) = true ∧
    (let x := fpIn 0x3F800000 0 0x7FC00000
     isNan (fpC x) = true ∧ ¬ (isZero (fpA x) = true ∧ isInf (fpB x) = true ∨ isInf (fpA x) = true ∧ isZero (fpB x) = true)) := by
  decide +kernel

theorem witness_rounding : (0 : Nat) < 1 ∧ (0 : Nat) < 3 := by decide +kernel

/-! ### Control -/

/-- BRA of 8 and of -4 from PC 0; the last word of the object. -/
def braOp (words : Nat) : Op := { form := .base, d := BitVec.ofNat 7 (words / 128), a := BitVec.ofNat 7 words }
def stackLane (n : Nat) : State := laneWith fun t => { t with stack := List.replicate n 0x40 }
def farLane : State := laneWith fun t => { t with pc := BitVec.ofNat 32 (2 ^ 21 - 4), v := [(1, 6)] }

theorem witness_branch : laneIssues lane1 0 0 0 .bra (braOp 2) = true ∧ stackServes .bra (getThread lane1 0 0 0) = true
    ∧ laneTarget lane1 0 0 0 .bra (braOp 2) = some 8 ∧ goodTarget lane1 0 8 = true := by decide +kernel

theorem witness_branch_not_taken :
    laneIssues lane1 0 0 0 .brc { form := .ext, a := 0x20, asel := true, word2 := 0x10 } = true
      ∧ laneTarget lane1 0 0 0 .brc { form := .ext, a := 0x20, asel := true, word2 := 0x10 } = none
      ∧ immOf { form := .ext, a := 0x20, asel := true, word2 := 0x10 } % 4 = 0 ∧ (getThread lane1 0 0 0).pc.toNat % 4 = 0 := by decide +kernel

theorem witness_call_return :
    laneIssues (stackLane 15) 0 0 0 .call (braOp 2) = true ∧ stackServes .call (getThread (stackLane 15) 0 0 0) = true
      ∧ laneIssues (stackLane 1) 0 0 0 .ret { form := .base } = true ∧ stackServes .ret (getThread (stackLane 1) 0 0 0) = true
      ∧ laneTarget (stackLane 1) 0 0 0 .ret { form := .base } = some 0x40 ∧ goodTarget (stackLane 1) 0 0x40 = true := by decide +kernel

theorem witness_bad_targets :
    handlerReady farLane 0 0 0 = true ∧ laneIssues farLane 0 0 0 .bra (braOp 1) = true
      ∧ laneTarget farLane 0 0 0 .bra (braOp 1) = some (2 ^ 21) ∧ goodTarget farLane 0 (2 ^ 21) = false
      ∧ laneIssues farLane 0 0 0 .jmpi { form := .base, a := 1 } = true
      ∧ laneTarget farLane 0 0 0 .jmpi { form := .base, a := 1 } = some 6 ∧ goodTarget farLane 0 6 = false := by decide +kernel

theorem witness_call_state :
    handlerReady (stackLane 16) 0 0 0 = true ∧ laneIssues (stackLane 16) 0 0 0 .call (braOp 2) = true
      ∧ stackServes .call (getThread (stackLane 16) 0 0 0) = false ∧ handlerReady lane1 0 0 0 = true
      ∧ laneIssues lane1 0 0 0 .ret { form := .base } = true ∧ stackServes .ret (getThread lane1 0 0 0) = false := by decide +kernel

theorem witness_nop_castsync :
    groupIssues lane1 0 [(0, 0)] .nop { form := .base } = true ∧ cueRuns (cueOf false id) 0 .nop { form := .base } = true
      ∧ castIssues (cast16 fun _ t => t) 0 0 all16 .castsync { form := .base } = true := by decide +kernel

theorem witness_cue_branch :
    cueRuns (cueOf false id) 0 .bra (braOp 2) = true ∧ goodTarget (cueOf false id) 0 8 = true
      ∧ cueRuns (cueOf false fun q => { q with c := [(1, 16)] }) 0 .jmpi { form := .base, a := 1 } = true
      ∧ goodTarget (cueOf false fun q => { q with c := [(1, 16)] }) 0 16 = true := by decide +kernel

/-- A cue thread with some unresolved BRCs. -/
def check (x : DWord) (predicted : Bool) : Checkpoint :=
  { id := 0, pc := 0, cond := .known x, onZero := false, predicted, index := 0, target := 16, next := 12, c := [(1, 5)], pend := []
    dqTail := 0, logged := 0 }
def checksOf (n : Nat) (predicted : Bool) : State := cueOf false fun q => { q with checks := List.replicate n (check 1 predicted) }
def brcOp : Op := { form := .ext, a := 1, word2 := 0x10 }

theorem witness_cue_brc :
    (∀ n ∈ [3, 4], (match getCue (checksOf n true) 0 with
      | some q => cueMayIssue q && q.checks.length == n && ((q.pc.toNat : Int) + immOf brcOp) % 4 == 0
      | none => false) = true) ∧ legalIn (cueEnv (checksOf 3 true) 0) .brc brcOp = true
      ∧ legalIn (cueEnv (checksOf 4 true) 0) .brc brcOp = true := by decide +kernel

theorem witness_brc_resolve : ∀ predicted ∈ [true, false], (match getCue (checksOf 1 predicted) 0 with
      | some q => q.checks == [check 1 predicted] && q.parked.isNone
      | none => false) = true ∧ targetOut (checksOf 1 predicted) 0 16 = false := by decide +kernel

/-- Two casts of a partition: the first active, the second pending since clk 0. -/
def twoCasts : State :=
  modCore lane1 0 fun c => { c with
    casts := [(0, programCast), (1, programCast)], parts := [(0, { active := [(0, 0)], pending := [(1, 0)] })] }

theorem witness_reform_yield :
    laneIssues lane1 0 0 0 .reform { form := .base } = true ∧ laneIssues lane1 0 0 0 .yield { form := .base } = true
      ∧ (getPart lane1 0 0).pending.all (fun e => e.1 != 0) = true ∧ nextPending lane1 0 0 = none
      ∧ laneIssues twoCasts 0 0 0 .yield { form := .base } = true
      ∧ (getPart twoCasts 0 0).pending.all (fun e => e.1 != 0) = true ∧ nextPending twoCasts 0 0 = some 1 := by decide +kernel

/-- SCENE of v0 to v3, all uniform registers, budget 6. -/
def sceneOp : Op := { form := .extLit, mod := 6, word2 := 0xFFFFFFFF, lit := 0xF }

theorem witness_scene : laneIssues lane1 0 0 0 .scene sceneOp = true
    ∧ (committed lane1 0 0 0 .scene sceneOp).any (fun s => hasLane s 0 0 0) = true := by decide +kernel

theorem witness_empty_commit : laneIssues lane1 0 0 0 .scene sceneOp = true ∧ (getThread lane1 0 0 0).scene.stores = []
    ∧ (getThread lane1 0 0 0).scene.renewals = [] ∧ (getThread lane1 0 0 0).scene.training = []
    ∧ exhausted (getThread lane1 0 0 0) = false := by decide +kernel

/-- A lane that has buffered two stores of one scratchpad word. -/
def storedLane : State := laneWith fun t => { t with
  scene := { t.scene with
    count := 2
    stores := [{ seq := 1, pc := 0, kind := .spad, off := 8, bytes := [1, 2, 3, 4] },
               { seq := 2, pc := 0, kind := .spad, off := 8, bytes := [5, 0, 7, 8] }] } }

theorem witness_commit_stores : laneIssues storedLane 0 0 0 .scene sceneOp = true
    ∧ (getThread storedLane 0 0 0).scene.stores.length = 2 ∧ (getThread storedLane 0 0 0).scene.renewals = []
    ∧ (getThread storedLane 0 0 0).scene.training = [] ∧ exhausted (getThread storedLane 0 0 0) = false
    ∧ (getCore storedLane 0).ranges = [] ∧ (∀ st ∈ (getThread storedLane 0 0 0).scene.stores, st.kind = .spad)
    ∧ (getThread storedLane 0 0 0).scene.stores.Pairwise (fun a b => a.seq < b.seq) := by decide +kernel

theorem witness_trap_brkpt : handlerReady lane1 0 0 0 = true ∧ laneIssues lane1 0 0 0 .trap { form := .base, a := 1 } = true
    ∧ laneIssues lane1 0 0 0 .brkpt { form := .base } = true := by decide +kernel

/-- A lane in its handler, with the entry of its scene on the stack. -/
def inHandler : State := laneWith fun t =>
  { t with inh := true, exh := true, stack := [0x40], scene := { t.scene with snapStack := [0x40] } }

theorem witness_resume : laneIssues inHandler 0 0 0 .resume { form := .base } = true
    ∧ (getThread inHandler 0 0 0).inh = true ∧ (getThread inHandler 0 0 0).stack = [0x40]
    ∧ (committed inHandler 0 0 0 .resume { form := .base }).any (fun s => hasLane s 0 0 0 && (getThread s 0 0 0).inh
        && (getThread s 0 0 0).stack == [0x40]) = true
    ∧ laneIssues lane1 0 0 0 .resume { form := .base } = true ∧ (getThread lane1 0 0 0).inh = false
    ∧ handlerReady lane1 0 0 0 = true := by decide +kernel

/-- EXIT 5. -/
def exitOp : Op := { form := .base, a := 0x25, asel := true }

theorem witness_exit : laneIssues lane1 0 0 0 .exit exitOp = true
    ∧ (committed lane1 0 0 0 .exit exitOp).any (fun s => hasLane s 0 0 0 && (getCore s 0).launch == some (launchKey programCtx 0)
        && (getLaunch s (launchKey programCtx 0)).ctx * 65536 + (getLaunch s (launchKey programCtx 0)).number
          == launchKey programCtx 0) = true := by decide +kernel

/-! ### Waits, barriers, releases, system registers -/

/-- WAIT for w2 to fall to 3; a lane whose w2 stands at n. -/
def waitOp : Op := { form := .ext, a := 2, word2 := 3 }
def countLane (n : Nat) : State := laneWith fun t => { t with w := [(2, n)] }
def waitingLane (n : Nat) : State := laneWith fun t => { t with w := [(2, n)], wait := .counter 2 3 12 }

theorem witness_wait : laneIssues (countLane 3) 0 0 0 .wait waitOp = true ∧ laneIssues (countLane 4) 0 0 0 .wait waitOp = true
    ∧ (∀ n ∈ [3, 4], sget 0 2 (getThread (waitingLane n) 0 0 0).w = n ∧ hasLane (waitingLane n) 0 0 0 = true
      ∧ (getThread (waitingLane n) 0 0 0).wait = .counter 2 3 12 ∧ (getThread (waitingLane n) 0 0 0).live = true)
    ∧ sget 0 waitOp.a.toNat (getThread (countLane 3) 0 0 0).w ≤ (immOf waitOp).toNat
    ∧ sget 0 waitOp.a.toNat (getThread (countLane 4) 0 0 0).w > (immOf waitOp).toNat := by decide +kernel

theorem witness_wait_cue : cueCommands (cueOf false fun q => { q with counter := 3 }) 0 .wait { waitOp with a := 0 } = true
    ∧ (theCue (cueOf false fun q => { q with counter := 3 }) 0).counter ≤ (immOf { waitOp with a := 0 }).toNat := by decide +kernel

/-- A lane whose E1 names ensemble 7 with the given counts. -/
def ensLane (e : Ensemble) (wait : Wait) : State :=
  modLaunch (modCast (laneWith fun t => { t with wait }) 0 0 fun c => { c with ens := [0, 0x107, 0, 0] }) (launchKey programCtx 0)
    fun l => { l with ensembles := sput 7 e l.ensembles }
/-- ARRIVE and BWAIT on E1, scope thread; ARRIVE.drop; BWAIT.odd. -/
def arriveOp (drop : Bool) : Op := { form := .ext, a := 1, mod := if drop then 3 else 2 }
def arriveReady (e : Ensemble) (drop : Bool) : Bool :=
  let s := ensLane e .ready
  laneIssues s 0 0 0 .arrive (arriveOp drop) && (committed s 0 0 0 .arrive (arriveOp drop)).any fun s1 => hasLane s1 0 0 0
    && ensembleOf (getCast s1 0 0) 1 == some 7 && (getCore s1 0).launch == some (coreKey s1 0)
    && handlerReady s1 0 0 0 && (getThread s1 0 0 0).pc == (getThread s 0 0 0).pc && decide (coreEnsemble s1 0 7 = e)

theorem witness_arrive : arriveReady { expected := 2, next := 2, arrived := 1 } false = true
    ∧ arriveReady { expected := 2, next := 1 } true = true ∧ arriveReady { expected := 0 } false = true
    ∧ arriveReady { expected := 1, next := 0 } true = true ∧ nearScope ((arriveOp true).mod.toNat / 2 % 8) = true := by decide +kernel

theorem witness_bwait : ∀ phase ∈ [0, 1],
    let s := ensLane { expected := 2, phase } .ready
    let t := ensLane { expected := 2, phase } (.barrier 7 true 1 12)
    laneIssues s 0 0 0 .bwait (arriveOp true) = true ∧ ensembleOf (getCast s 0 0) 1 = some 7
      ∧ (coreEnsemble s 0 7).phase = phase ∧ hasLane t 0 0 0 = true ∧ (getThread t 0 0 0).wait = .barrier 7 true 1 12
      ∧ (getThread t 0 0 0).live = true ∧ contextRuns t 0 = true ∧ (coreEnsemble t 0 7).expected = 2 := by decide +kernel

/-- REL and ACQ of a scope. -/
def scopeOp (n : Nat) : Op := { form := .ext, mod := BitVec.ofNat 8 n }
/-- A core whose L1 holds two lines, the second written whole. -/
def lineOf (line : Nat) (dirty : BitVec 64) : L1Line :=
  { line, data := 5, dirty, tags := 0, poison := false, cls := 0, rrv := 2, ctx := 1, sig := 0, reuse := false, way := 0 }
def cachedCore : State := coreWith fun c => { c with l1 := [(0x8000, lineOf 0x8000 0), (0x8001, lineOf 0x8001 (BitVec.allOnes 64))] }

theorem witness_release_acquire :
    (∀ n ∈ [1, 2, 3], laneIssues lane1 0 0 0 .rel (scopeOp n) = true ∧ nearScope n = true
      ∧ (committed lane1 0 0 0 .rel (scopeOp n)).any (fun s => hasLane s 0 0 0) = true
      ∧ laneIssues lane1 0 0 0 .acq (scopeOp n) = true)
    ∧ laneIssues cachedCore 0 0 0 .acq (scopeOp 4) = true ∧ nearScope 4 = false
    ∧ (∀ e ∈ (getCore cachedCore 0).l1, e.1 = e.2.line) := by decide +kernel

/-- SYSRD of word b of register n. -/
def sysOp (n b : Nat) : Op := { form := .ext, d := 3, a := BitVec.ofNat 7 n, b := BitVec.ofNat 7 (0x20 + b), bsel := true }

theorem witness_sysrd :
    (∀ n ∈ [0x00, 0x01, 0x02, 0x03, 0x04, 0x08, 0x09, 0x10, 0x14], laneIssues lane1 0 0 0 .sysrd (sysOp n 0) = true
      ∧ (systemRegister lane1 0 0 0 n).isSome = true)
    ∧ laneIssues lane1 0 0 0 .sysrd (sysOp 0x40 7) = true ∧ handlerReady lane1 0 0 0 = true
    ∧ laneIssues lane1 0 0 0 .sysrd (sysOp 0x10 4) = true ∧ (systemRegister lane1 0 0 0 0x10).map Prod.snd = some 4
    ∧ laneSrc lane1 (laneFrame lane1 0 0 0 .sysrd (sysOp 0x10 4)) 0 0 .b = 4 := by decide +kernel

/-- SYSWR of word 0 of register n from v1; a context in service mode. -/
def syswrOp (n : Nat) : Op := { form := .ext, a := BitVec.ofNat 7 n, b := 0x20, bsel := true, c := 1 }
def serviceLane : State :=
  modContext (laneWith fun t => { t with v := [(1, 6)], tstat := 0x7 }) programCtx fun c => { c with mode := 1 }

theorem witness_syswr : (∀ n ∈ [0x08, 0x09, 0x03], laneIssues serviceLane 0 0 0 .syswr (syswrOp n) = true)
    ∧ laneSrc serviceLane (laneFrame serviceLane 0 0 0 .syswr (syswrOp 3)) 0 0 .b = 0
    ∧ (committed serviceLane 0 0 0 .syswr (syswrOp 3)).any (fun s => hasLane s 0 0 0
        && laneSrc s (laneFrame serviceLane 0 0 0 .syswr (syswrOp 3)) 0 0 .b == 0) = true := by decide +kernel

/-- TRACE in a context that traces or not, its ring with n records not yet read. -/
def traceLane (on : Bool) (n : Nat) : State :=
  modFunc (modContext lane1 programCtx fun c => { c with mode := if on then 0x10 else 0 }) 0 fun f => { f with trTail := BitVec.ofNat 32 n }
def traceOp : Op := { form := .ext, a := 1, b := 2 }

theorem witness_trace : laneIssues (traceLane false 0) 0 0 0 .trace traceOp = true
    ∧ modeTren (coreMode (traceLane false 0) 0) = false
    ∧ (∀ n ∈ [65535, 65536], laneIssues (traceLane true n) 0 0 0 .trace traceOp = true
      ∧ modeTren (coreMode (traceLane true n) 0) = true
      ∧ ((getFunc (traceLane true n) (coreFn (traceLane true n) 0)).trTail
        - (getFunc (traceLane true n) (coreFn (traceLane true n) 0)).trHead).toNat = n) := by decide +kernel

/-- A ring whose next record stands at 32 bytes in the object, and memory and caches in form. -/
def traceRing : State := modFunc (traceLane true 5) 0 fun f => { f with trBase := BitVec.ofNat 64 (2 ^ 40 + 0x800) }

theorem witness_trace_record : laneIssues traceRing 0 0 0 .trace traceOp = true ∧ modeTren (coreMode traceRing 0) = true
    ∧ (let f := getFunc traceRing (coreFn traceRing 0)
      (f.trTail - f.trHead).toNat < 65536 ∧ f.trBase.toNat % 32 = 0
        ∧ (resolve traceRing (outerPort (coreFn traceRing 0)) (f.trBase.toNat / 2 ^ 40)
          (f.trBase.toNat % 2 ^ 40 + 32 * (f.trTail.toNat % 2 ^ 16))).any (fun key => key % 32 == 0) = true)
    ∧ Memory.wf traceRing.mem = true ∧ (∀ d ∈ traceRing.dies, d.2.l2 = []) := by decide +kernel

/-! ### The scratchpad -/

/-- A lane with an offset in v1 and a value in v2, its scratchpad with some bytes. -/
def padLane (off : Word) : State := modCore (laneWith fun t => { t with v := [(1, off), (2, 0x80C0FFEE)] }) 0 fun c =>
  { c with spad := putBytes 65532 [1, 2, 3, 0x84] [] }
def ldsOp : Op := { form := .ext, d := 3, a := 1 }
def stsOp : Op := { form := .ext, a := 1, b := 2 }

theorem witness_lds : laneIssues (padLane 65532) 0 0 0 .lds ldsOp = true ∧ handlerReady (padLane 65536) 0 0 0 = true
    ∧ laneIssues (padLane 65536) 0 0 0 .lds ldsOp = true ∧ rangeBusy (getCore (padLane 65532) 0) 65532 4 = false
    ∧ (getCore (padLane 65532) 0).spadPoison = [] ∧ (coreBill (padLane 65532) 0).scratch = 1
    ∧ (laneSrc (padLane 65532) (laneFrame (padLane 65532) 0 0 0 .lds ldsOp) 0 0 .a : Int) + immOf ldsOp = 65532 := by decide +kernel

/-- A lane whose scene has buffered `n` stores of its budget of 2. -/
def spentLane (n : Nat) : State := modThread (padLane 8) 0 0 0 fun t => { t with scene := { t.scene with budget := 2, count := n } }

theorem witness_sts : ∀ n ∈ [1, 2], laneIssues (spentLane n) 0 0 0 .sts stsOp = true
    ∧ bufferUse (spentLane n) 0 (getCast (spentLane n) 0 0).part < 2048 ∧ handlerReady (spentLane n) 0 0 0 = true
    ∧ (getThread (spentLane n) 0 0 0).scene.count = n ∧ (getThread (spentLane n) 0 0 0).scene.budget = 2 := by decide +kernel

/-- ATOMS of operation k. -/
def atomsOp (k : Nat) : Op := { form := .ext, d := 3, a := 1, b := 2, c := 4, mod := BitVec.ofNat 8 k }

theorem witness_atoms : ∀ k ∈ [0, 1, 2, 3, 4, 5, 6, 7, 8, 9],
    let s := padLane 65532
    laneIssues s 0 0 0 .atoms (atomsOp k) = true
      ∧ (committed s 0 0 0 .atoms (atomsOp k)).any (fun s1 => hasLane s1 0 0 0 && (getCore s1 0).ranges.isEmpty
          && (getCore s1 0).spadPoison.isEmpty && modeRun (coreMode s1 0) != 2
          && (getContext s1 (coreCtx s1 0)).recording.isNone && (coreBill s1 0).scratch == 1
          && (laneSrc s1 (laneFrame s 0 0 0 .atoms (atomsOp k)) 0 0 .a : Int) + immOf (atomsOp k) == 65532) = true := by decide +kernel

/-! ### Instructions of a cast -/

/-- A cast whose lane l holds l + 7 in v1 and a source lane in v2; only its even lanes pass the guard p0. -/
def dataCast : State := cast16 fun l t => { t with v := [(1, BitVec.ofNat 32 (l + 7)), (2, BitVec.ofNat 32 (15 - l))], p := if l % 2 = 0 then 3 else 2 }
def crossOp (m : Nat) : Op := { form := .ext, d := 3, a := 1, b := 2, mod := BitVec.ofNat 8 m }
/-- The cast is complete at an operation, for every lane, and its result is given. -/
def crossReady (o : Opc) (op : Op) : Bool :=
  castIssues dataCast 0 0 all16 o op && wholeCast dataCast 0 0
    && all16.all fun l => (crossResult o op.mod.toNat 16 all16 (fun j => laneSrc dataCast (castFrame dataCast 0 0 o op) 0 j .a)
        (fun j => laneSrc dataCast (castFrame dataCast 0 0 o op) 0 j .b) l).isSome

theorem witness_cross_lane : crossReady .slide (crossOp 0x0C) = true ∧ crossReady .shfl (crossOp 1) = true
    ∧ crossReady .bcast (crossOp 0) = true ∧ crossReady .vote { crossOp 0 with b := 0 } = true
    ∧ crossReady .matchLanes { crossOp 0 with b := 0 } = true := by decide +kernel

theorem witness_reduce_scan : crossReady .reduce { crossOp 10 with b := 0 } = true
    ∧ crossReady .scan { crossOp 0x10 with b := 0 } = true := by decide +kernel

/-- A cast of sixteen lanes with the object's capability in c1 and numbers in v2 and v4. -/
def capCast (rights : Nat) (f : Nat → Thread → Thread) : State := modCast (cast16 f) 0 0 fun c => { c with a := [(1, capOf rights)] }
def numbers (_ : Nat) (t : Thread) : Thread := { t with v := [(2, 0x1000), (4, 0x100)] }
def castReady (s : State) (o : Opc) (op : Op) : Bool :=
  castIssues s 0 0 all16 o op && (castCommitted s 0 0 all16 o op).isSome

theorem witness_cast_registers :
    castReady dataCast .kmov { form := .ext, d := 3, a := 1, mod := 1 } = true
      ∧ castReady (capCast 3 numbers) .capnar { form := .ext, d := 2, a := 1, b := 2, c := 4, mod := 2 } = true
      ∧ castReady (capCast 3 numbers) .capmk { form := .ext, d := 2, a := 1, b := 2, c := 4, mod := 2 } = true
      ∧ capLower (capOf 3) + 0x1000 + 0x100 ≤ capUpper (capOf 3) ∧ classRank (capLc (capOf 3)) ≤ classRank 2
      ∧ capLc (capOf 3) ≠ 3 := by decide +kernel

/-- CVTQ through slot 1, bound to E4M3 with a policy that saturates, in MX blocks. -/
def slotCast : State :=
  modLaunch (cast16 fun l t => { t with v := [(1, BitVec.ofNat 32 (0x3F800000 + l * 0x100000)), (2, 0x40000000)] }) (launchKey programCtx 0)
    fun l => { l with bill := { l.bill with slots := [0, 0x5005, 0, 0, 0, 0, 0, 0] } }
def cvtqOp (scale : Bool) : Op := { form := .ext, d := 3, a := 1, b := 2, mod := if scale then 8 else 0, fslot := 1 }

theorem witness_cvtq : castIssues slotCast 0 0 all16 .cvtq (cvtqOp true) = true ∧ castIssues slotCast 0 0 all16 .cvtq (cvtqOp false) = true
    ∧ wholeCast slotCast 0 0 = true ∧ slotFmt (slotOf slotCast 0 (cvtqOp true)) = some .e4m3
    ∧ (slotPolicy (laneIn slotCast (castFrame slotCast 0 0 .cvtq (cvtqOp false)) 0 0)).isSome = true := by decide +kernel

/-- No lane active. -/
theorem witness_cvtq_idle : castIssues slotCast 0 0 [] .cvtq { cvtqOp false with grd := 0 } = true
    ∧ (slotPolicy (laneIn slotCast (castFrame slotCast 0 0 .cvtq (cvtqOp false)) 0 0)).any (fun pol => decide (pol < 3)) = true := by
  decide +kernel

theorem witness_cvtq_lanes : 
    let fr := castFrame slotCast 0 0 .cvtq (cvtqOp false)
    let marks := quantMarks .e4m3 (quantBlocks (slotOf slotCast 0 (cvtqOp false)) .e4m3 (quantRow slotCast fr 0 16 all16))
    all16.all (fun l => (quantLane (laneIn slotCast fr 0 l) .e4m3 1 (marks.getD (2 * l) (false, 0)) (marks.getD (2 * l + 1) (false, 0))
      ((quantRow slotCast fr 0 16 all16).getD (2 * l) .nan) ((quantRow slotCast fr 0 16 all16).getD (2 * l + 1) .nan)).isSome) = true := by
  decide +kernel

/-! ### Memory -/

/-- LD of a word at v2 under c1 into v3; the same lane with the line in L1. -/
def ldOp : Op := { form := .ext, d := 3, a := 1, b := 2 }
def loadLane (rights : Nat) : State := laneMem rights [(2, 0x100)]
def cachedLane : State := modCore (loadLane 1) 0 fun c => { c with l1 := [(0x8004, lineOf 0x8004 0)] }

/-- The access of a lane's operation goes through on a page whose bytes are whole. -/
def accessFine (s : State) (o : Opc) (op : Op) (acc n : Nat) (rights : List Nat) (p : State → TlbEntry → Bool) : Bool :=
  match laneAccess s 0 0 0 o op acc n rights with
  | .ok s1 e => p s1 e
  | _ => false

theorem witness_ld : laneIssues (loadLane 1) 0 0 0 .ld ldOp = true ∧ capHas (laneCap (loadLane 1) 0 0 1) 7 = false
    ∧ accessFine (loadLane 1) .ld ldOp 1 4 [0] (fun s1 p => !kclassFail (coreBill (loadLane 1) 0).kclass 0 p.cls
      && !p.poisoned && !(loadView (loadLine s1 0 (pageByte p 0x100 / 64) p.cls 1 0 true false) 0 (pageByte p 0x100 / 64)).poison) = true
    ∧ laneByte (loadLane 1) 0 0 0 .ld ldOp = 0x100 := by decide +kernel

theorem witness_ld_hit : laneIssues cachedLane 0 0 0 .ld ldOp = true
    ∧ accessFine cachedLane .ld ldOp 1 4 [0] (fun _ p => pageByte p 0x100 / 64 == 0x8004 && !p.poisoned) = true
    ∧ sfind 0x8004 (getCore cachedLane 0).l1 = some (lineOf 0x8004 0) := by decide +kernel

/-- A write of core 0 to a line that its home has not applied yet. -/
def writeTo (line : Nat) : HomeWrite :=
  { id := 9, line, mask := 15, data := 7, tags := 0, poison := false, cls := 0, ctx := 1, stamp := some [1, 0, 0, 0], die := 0, core := 0, applied := false }

theorem witness_ld_volatile : laneIssues (loadLane 0x81) 0 0 0 .ld ldOp = true ∧ capHas (laneCap (loadLane 0x81) 0 0 1) 7 = true
    ∧ accessFine (loadLane 0x81) .ld ldOp 1 4 [0] (fun s1 p => !kclassFail (coreBill (loadLane 0x81) 0).kclass 0 p.cls
      && (homeRead s1 0 1 0 p 0x100 4).2.isSome && (List.range 4).all fun i => !homePoison (homeRead s1 0 1 0 p 0x100 4).1 p (0x100 + i)) = true
    ∧ accessFine { loadLane 0x81 with homeWrites := [writeTo 0x8004] } .ld ldOp 1 4 [0] (fun s1 p => (homeRead s1 0 1 0 p 0x100 4).2.isNone) = true
    ∧ modeRun (coreMode (loadLane 0x81) 0) ≠ 2
    ∧ (getContext (loadLane 0x81) (coreCtx (loadLane 0x81) 0)).recording = none := by decide +kernel

/-- A lane that waits for a response. -/
def responseLane : State :=
  { laneWith (fun t => { t with wait := .response }) with
    responses := [{ agent := .lane 0 0 0, regs := [(3, 77)], flag := some (2, true), acquire := none, pc := 0 }] }

theorem witness_response : (responsesOf responseLane 0)[0]? =
      some { agent := .lane 0 0 0, regs := [(3, 77)], flag := some (2, true), acquire := none, pc := 0 }
    ∧ acquired (acquire { responseLane with homeWrites := [{ writeTo 0x8004 with stamp := none }] } 0 5) 0 5 = false
    ∧ hasLane responseLane 0 0 0 = true ∧ (getThread responseLane 0 0 0).wait = .response := by decide +kernel

/-- LDK and CAPLD of a cast. -/
def ldkOp : Op := { form := .ext, d := 4, a := 1, b := 2, mod := 1 }
def capldOp : Op := { form := .ext, d := 4, a := 1, b := 2 }
def castReads (o : Opc) (op : Op) (n : Nat) : Bool :=
  castIssues (capCast 1 numbers) 0 0 all16 o op && (castCommitted (capCast 1 numbers) 0 0 all16 o op).any fun s1 =>
    match castRead s1 (castFrame (capCast 1 numbers) 0 0 o op) 0 0 n with
    | .ok _ _ _ _ => true
    | _ => false

theorem witness_ldk_capld : castReads .ldk ldkOp 8 = true ∧ castReads .capld capldOp 16 = true := by decide +kernel

/-- ATOM of operation k with release and acquire of scope core; a lane with the rights for it. -/
def atomOp (k : Nat) : Op := { form := .ext, d := 4, a := 1, b := 2, c := 6, mod := BitVec.ofNat 8 (k + 0x30), fslot := 3 }
def atomLane : State := laneMem 8 [(2, 0x100), (6, 5), (7, 9)]
def atomReady (k n : Nat) : Bool :=
  let fr := laneFrame atomLane 0 0 0 .atom (atomOp k)
  laneIssues atomLane 0 0 0 .atom (atomOp k) && (committed atomLane 0 0 0 .atom (atomOp k)).any fun s1 =>
    hasLane s1 0 0 0 && modeRun (coreMode s1 0) != 2 && (getContext s1 (coreCtx s1 0)).recording.isNone &&
    match accessOne (modThread s1 0 0 0 fun t => { t with marker := none }) 0 (coreFn s1 0) (coreCtx s1 0) (viaOf fr .a 2) (laneCap s1 0 0 1)
      (laneOff s1 fr 0 0) n [3] (getThread s1 0 0 0).denied with
    | .ok s2 p => homeWriteReady (homeRead s2 0 1 0 p 0x100 n).1 0 (pageByte p 0x100 / 64) && (homeRead s2 0 1 0 p 0x100 n).2.isSome
        && !homePoison (homeRead s2 0 1 0 p 0x100 n).1 p 0x100 && pageByte p 0x100 % n == 0 && !isPeerLine (pageByte p 0x100 / 64)
    | _ => false

theorem witness_atom : atomReady 0 4 = true ∧ atomReady 9 4 = true ∧ atomReady 10 4 = true ∧ atomReady 11 8 = true
    ∧ nearScope (atomOp 0).fslot.toNat = true
    ∧ slotsUsed (getCore atomLane 0) + remoteLanes atomLane 0 (atomOp 0) [(0, 0)] ≤ 64 ∧ stampDie 0 0x8004 = 0 := by decide +kernel

/-- The object on a peer module. -/
def peerLane : State := setObject atomLane 0 programOid (BitVec.ofNat 128 (programObject.toNat + 3 * 2 ^ 6))

theorem witness_atom_peer : laneIssues peerLane 0 0 0 .atom (atomOp 0) = true
    ∧ ((committed peerLane 0 0 0 .atom (atomOp 0)).any fun s1 => hasLane s1 0 0 0 && decide (slotsUsed (getCore s1 0) < 64)
      && match accessOne (modThread s1 0 0 0 fun t => { t with marker := none }) 0 (coreFn s1 0) (coreCtx s1 0)
          (viaOf (laneFrame peerLane 0 0 0 .atom (atomOp 0)) .a 2) (laneCap s1 0 0 1) (laneOff s1 (laneFrame peerLane 0 0 0 .atom (atomOp 0)) 0 0) 4 [3]
          (getThread s1 0 0 0).denied with
        | .ok _ p => isPeerLine (pageByte p 0x100 / 64)
        | _ => false) = true := by decide +kernel

/-- ST and CAPST; the object of class Lightfast for the latter; a scene that has used up its budget or not. -/
def stOp : Op := { form := .ext, a := 1, b := 2, c := 4 }
def capstOp : Op := { form := .ext, a := 1, b := 2, c := 1 }
def lightfast (s : State) : State := setObject s 0 programOid (BitVec.ofNat 128 (programObject.toNat + 2 * 2 ^ 4))
def storeLane (n : Nat) : State := lightfast (modThread (laneMem 0x12 [(2, 0x100), (4, 9)]) 0 0 0 fun t =>
  { t with scene := { t.scene with count := n, budget := 2 } })

theorem witness_stores : ∀ n ∈ [1, 2], laneIssues (storeLane n) 0 0 0 .st stOp = true
    ∧ laneIssues (storeLane n) 0 0 0 .capst capstOp = true
    ∧ accessFine (storeLane n) .st stOp 2 4 [1] (fun _ _ => true) = true
    ∧ accessFine (storeLane n) .capst capstOp 2 16 [1, 4] (fun _ p => p.cls == 2) = true
    ∧ bufferUse (storeLane n) 0 (getCast (storeLane n) 0 0).part < 2048 ∧ handlerReady (storeLane n) 0 0 0 = true
    ∧ (getThread (storeLane n) 0 0 0).scene.count = n ∧ (getThread (storeLane n) 0 0 0).scene.budget = 2 := by decide +kernel

/-- A store of the last word of a line. -/
def lastWord : BufStore := { seq := 1, pc := 0, kind := .mem (capOf 2) false, off := 0x13C, bytes := [1, 2, 3, 4] }

theorem witness_performed_store : isFug (loadLane 2) (coreFn (loadLane 2) 0) (capOf 2) = false ∧ capHas (capOf 2) 7 = false
    ∧ (match translate (loadLane 2) 0 0 1 programOid lastWord.off with
      | (.valid p, _) => !p.poisoned && pageByte p lastWord.off % 64 + lastWord.bytes.length == 64
      | _ => false) = true := by decide +kernel

/-- ICINV of 16 bytes that may be executed, one cached word among them. -/
def icinvOp : Op := { form := .ext, a := 1, b := 2, c := 4 }
def codeLane : State := modCore (laneMem 4 [(2, 0x100), (4, 16)]) 0 fun c =>
  { c with code := [{ fn := 0, oid := programOid, off := 0x10C, word := 1, stale := none }] }

theorem witness_capinfo_pfch : groupIssues (loadLane 1) 0 [(0, 0)] .capinfo { form := .ext, d := 4, a := 1, mod := 2 } = true
    ∧ cueRuns (cueOf false id) 0 .capinfo { form := .ext, d := 4, a := 16, mod := 4 } = true
    ∧ laneIssues (loadLane 1) 0 0 0 .pfch { form := .ext, a := 1, b := 2 } = true
    ∧ laneIssues lane1 0 0 0 .pfch { form := .ext, a := 1, b := 2 } = true := by decide +kernel

theorem witness_icinv : laneIssues codeLane 0 0 0 .icinv icinvOp = true
    ∧ checkCap codeLane 0 (viaOf (laneFrame codeLane 0 0 0 .icinv icinvOp) .a 3) (laneCap codeLane 0 0 1)
        (laneOff codeLane (laneFrame codeLane 0 0 0 .icinv icinvOp) 0 0) 16 false [2] = none
    ∧ isFug codeLane 0 (capOf 4) = false ∧ firstMissing codeLane (corePort codeLane 0) programOid (pageSamples 0x100 16) = none
    ∧ classFails codeLane (corePort codeLane 0) (capOf 4) (pageSamples 0x100 16) = false
    ∧ laneByte codeLane 0 0 0 .icinv icinvOp = 0x100 ∧ coreFn codeLane 0 = 0
    ∧ laneSrc codeLane (laneFrame codeLane 0 0 0 .icinv icinvOp) 0 0 .c = 16 := by decide +kernel

/-! ### Transfers -/

/-- COPY of n bytes between v2 in memory and v4 in the scratchpad, in or out, on w3; COPYX from c2; GATHERB of rows of 2 words. -/
def copyOp (n : Nat) (out : Bool) : Op := { form := .ext, d := 3, a := 1, b := 2, c := 4, mod := if out then 1 else 0, word2 := BitVec.ofNat 32 n }
def copyLane : State := modCast (laneMem 0x63 [(2, 0x100), (4, 0xFF00)]) 0 0 fun c => { c with a := [(1, capOf 0x63), (2, capOf 0x63)] }
def copyxOp (n : Nat) : Op := { form := .ext, d := 3, a := 1, b := 2, c := 5, word2 := BitVec.ofNat 32 n }
def copyReady (o : Opc) (op : Op) (fault : State → Frame → Option FaultInfo) (range : Bool) : Bool :=
  laneIssues copyLane 0 0 0 o op && !issueHeld copyLane 0 [.lane 0 0 0] 3 1 range
    && (committed copyLane 0 0 0 o op).any fun s1 => hasLane s1 0 0 0 && (getCore s1 0).ranges.isEmpty
      && (fault s1 (laneFrame copyLane 0 0 0 o op)).isNone

theorem witness_copies : (∀ n ∈ [0, 4, 0x100], ∀ out ∈ [true, false],
      copyReady .copy (copyOp n out) (fun s fr => copyFault s fr (capOf 0x63) 0x100 0xFF00 n) (n != 0) = true)
    ∧ (∀ n ∈ [0, 64], copyReady .copyx (copyxOp n) (fun s fr => copyxFault s fr (capOf 0x63) (capOf 0x63) 0 n) false = true) := by
  decide +kernel

def gatherOp : Op := { form := .ext, d := 3, a := 1, b := 2, c := 4, mod := 1, word2 := 0x102 }
def gatherCast : State := capCast 0x41 fun l t => { t with v := [(2, BitVec.ofNat 32 (if l = 15 then 0x80000000 else l)), (4, 0x80)] }

theorem witness_gather : castIssues gatherCast 0 0 all16 .gatherb gatherOp = true
    ∧ (castCommitted gatherCast 0 0 all16 .gatherb gatherOp).any (fun s1 =>
      let fr := castFrame gatherCast 0 0 .gatherb gatherOp
      (getCore s1 0).ranges.isEmpty && (gatherFault s1 fr 0 all16 (geoOf gatherOp) (capOf 0x41) 0x80).isNone
        && gatherMoves s1 fr 0 all16 (geoOf gatherOp) (capOf 0x41) != []
        && !issueHeld s1 0 (all16.map fun l => .lane 0 0 l) 3 16 true) = true := by decide +kernel

/-- Every index of the cast out of bounds, and the blocks skipped. -/
def skipOp : Op := { gatherOp with mod := 2 }
def skipCast : State := capCast 0x41 fun _ t => { t with v := [(2, 0x80000000), (4, 0x80)] }

theorem witness_gather_skip : castIssues skipCast 0 0 all16 .gatherb skipOp = true
    ∧ (castCommitted skipCast 0 0 all16 .gatherb skipOp).any (fun s1 =>
      let fr := castFrame skipCast 0 0 .gatherb skipOp
      (gatherFault s1 fr 0 all16 (geoOf skipOp) (capOf 0x41) 0x80).isNone
        && gatherMoves s1 fr 0 all16 (geoOf skipOp) (capOf 0x41) == []) = true := by decide +kernel

/-- A core with one transfer of a kind, landed whole, in the name of its lane or of its cue thread. -/
def xferOf (kind : XferKind) (agent : Agent) : Xfer :=
  { id := 5, kind, agent, lanes := [0], ctr := 3, src := .book, dst := .book, len := 0, range := some 9, group := 9
    launch := some (launchKey programCtx 0) }
def landed (kind : XferKind) : State := modCore (laneWith fun t => { t with w := [(3, 2)] }) 0 fun c =>
  { c with xfers := [xferOf kind (.lane 0 0 0)], ranges := [{ id := 9, lo := 0, hi := 64 }] }
def landedCue (kind : XferKind) : State := modCore (cueOf false fun q => { q with counter := 2 }) 0 fun c =>
  { c with xfers := [{ xferOf kind (.cue 0) with lanes := [] }], ranges := [{ id := 9, lo := 0, hi := 64 }] }
/-- Beside a tile transfer, its request. -/
def tileState (load : Bool) : State := modCluster (landed (if load then .zld else .zst)) 0 fun c => { c with
  table := [{ id := 1, core := 0, cast := 0, lanes := [0], ctr := 3, tile := 2, high := false, posted := 0
              kind := if load then .zld 5 else .zst 5, launch := some (launchKey programCtx 0) }] }

theorem witness_transfers : (∀ k ∈ [XferKind.copyIn, .copyOut, .copyx, .gather, .pbksave, .pbkload],
      findXfer (landed k) 0 5 = some (xferOf k (.lane 0 0 0)))
    ∧ findXfer (landedCue .wload) 0 5 = some { xferOf .wload (.cue 0) with lanes := [] }
    ∧ findXfer (landedCue .qcast) 0 5 = some { xferOf .qcast (.cue 0) with lanes := [] }
    ∧ holdsLaunch (landed .copyIn) 0 (xferOf .copyIn (.lane 0 0 0)).launch = true ∧ holdsLaunch lane1 0 none = false
    ∧ (tileRequest (getCluster (tileState true) 0) 5).isSome = true ∧ (tileRequest (getCluster (tileState false) 0) 5).isSome = true
    ∧ (([xferOf .gather (.lane 0 0 0)].map fun y => (y.agent, y.lanes, y.ctr)) = ([0].map fun l => (Agent.lane 0 0 l, [l], 3))) := by
  decide +kernel

/-- A gather one of whose lanes still moves. -/
def halfGather : State := modCore (landed .gather) 0 fun c => { c with xfers := c.xfers ++ [{ xferOf .gather (.lane 0 0 1) with id := 6, len := 4 }] }

theorem witness_gather_moves : findXfer halfGather 0 5 = some (xferOf .gather (.lane 0 0 0))
    ∧ ∃ y ∈ (getCore halfGather 0).xfers, y.group = 9 ∧ y.len ≠ 0 :=
  ⟨by decide +kernel, { xferOf .gather (.lane 0 0 1) with id := 6, len := 4 }, by decide +kernel, rfl, by decide +kernel⟩

/-- A copy from an object with no entry in its table, and a refused copy. -/
def objectless (refused : Option (Nat × Nat)) : State := modCore lane1 0 fun c => { c with
  xfers := [{ xferOf .copyIn (.lane 0 0 0) with src := .mem (mkCap 0 4096 7 1 0) 0, dst := .spad 0, len := 64, refused, fn := 0 }] }
/-- The same object on an absent page. -/
def absentPage : State := setObject (objectless none) 0 7 (BitVec.ofNat 128 (4096 <<< 88 + 3))

theorem witness_refused : (match findXfer absentPage 0 5 with
      | some x => pieceReady absentPage 0 x && (match pieceMet absentPage 0 x with
        | .refused _ absent => absent
        | _ => false)
      | none => false) = true
    ∧ (∀ clk ∈ [255, 256], findXfer (modDie (objectless (some (1, 0))) 0 fun d => { d with clk }) 0 5
      = some { xferOf .copyIn (.lane 0 0 0) with
          src := .mem (mkCap 0 4096 7 1 0) 0, dst := .spad 0, len := 64, refused := some (1, 0), fn := 0 }) := by decide +kernel

/-- The object on a peer module. -/
def peerCopy : State := setObject (objectless none) 0 7 (BitVec.ofNat 128 (4096 <<< 88 + 3 <<< 6 + 3))

theorem witness_peer_lost : (findXfer peerCopy 0 5).any (fun x => x.refused.isNone && x.len != 0) = true
    ∧ objTier (getObject peerCopy 0 7) = 3 := by decide +kernel

/-! ### Queues -/

/-- DQPUSH of c1 for the casts that c2 names; the core's queue with n entries. -/
def pushOp : Op := { form := .ext, d := 5, a := 1, b := 2 }
def dqEntry (pos : Nat) (targets : NSet) : DqEntry := { pos, value := 0x100000007, targets, holds := [], pushed := 0 }
def pushCore (n : Nat) (mask : DWord) : State := modCore (cueOf false fun q => { q with c := [(1, 9), (2, mask)] }) 0 fun c =>
  { c with dq := (List.range n).map fun i => dqEntry i [0], dqTail := n }

theorem witness_dqpush : ∀ n ∈ [255, 256], ∀ mask ∈ [1, 2],
    let s := pushCore n (BitVec.ofNat 64 mask)
    cueRuns s 0 .dqpush pushOp = true ∧ modeRun (coreMode s 0) ≠ 2 ∧ (getContext s (coreCtx s 0)).recording = none
      ∧ (pushTargets (getCore s 0) mask).isEmpty = decide (mask = 2) ∧ (getCore s 0).dq.length = n ∧ (getCore s 0).dqSaved ≤ (getCore s 0).dqTail := by decide +kernel

/-- DQPOP of a pair in a cast to which an entry is visible, or none. -/
def popOp : Op := { form := .ext, d := 4 }
def popCast (n : Nat) : State := modDie (modCore (cast16 fun _ t => t) 0 fun c =>
  { c with dq := (List.range n).map fun i => dqEntry i [0], dqTail := n }) 0 fun d => { d with clk := 1 }

theorem witness_dqpop : ∀ n ∈ [0, 1], castIssues (popCast n) 0 0 all16 .dqpop popOp = true
    ∧ (castCommitted (popCast n) 0 0 all16 .dqpop popOp).any (fun s1 => (poppable s1 0 0).isSome == (n == 1)) = true := by decide +kernel

/-- A machine whose code begins with an instruction, at which the lanes of a small cast wait. -/
def waitingAt (i : Instr) (w : Wait) (lanes : Nat) (f : Core → Core) (c : Cast) : State :=
  let s := handled { loadProgram State.reset ((encode i).flatMap fun w => toBytes 4 w.toNat) false with agenda := [] }
  modDie (modCore s 0 fun x => f { x with casts := [(0, { c with
    threads := List.replicate lanes { openImplicit programBill {} 0 with wait := w } })] }) 0 fun d => { d with clk := 1 }
def popWaits (n : Nat) : State := waitingAt (.dqpop popOp) .dqpop 2 (fun c => { c with dq := (List.range n).map fun i => dqEntry i [0] }) {}

theorem witness_dqpop_wake : ∀ n ∈ [0, 1], lanesWaiting (popWaits n) 0 0 .dqpop = [0, 1] ∧ contextRuns (popWaits n) 0 = true
    ∧ waitingInstr (popWaits n) 0 0 0 = some (.dqpop popOp) ∧ (poppable (popWaits n) 0 0).isSome = decide (n = 1) := by decide +kernel

/-- An edge queue of two slots at offset 0x400 with `full` entries, and the queue instructions on it in two lanes. -/
def header (full : Nat) : QHead := { head := 2 ^ 64 - 1, tail := full + 2 ^ 64 - 1, lcap := 1, full, free := 2 - full }
def withQueue (full : Nat) (s : State) : State :=
  { s with mem := putBytes (programBase + 0x400) (toBytes 64 (packQueue (header full))) s.mem }
def queueOp (d : Nat) : Op := { form := .ext, d := BitVec.ofNat 7 d, a := 1, b := 2, word2 := 0x400 }
def queueCast (full : Nat) : State := withQueue full (modCast { lane1 with actor := .lanes 0 [(0, 0), (0, 1)] } 0 0 fun c => { c with
  a := [(1, capOf 11)]
  threads := (List.range 2).map fun l => { openImplicit programBill {} 0 with v := [(2, BitVec.ofNat 32 (7 + l))] } })
def queueDone (s s0 : State) (o : Opc) (op : Op) (kind : QKind) (short : Bool) : Bool :=
  match queueStep s0 0 0 [0, 1] o op kind with
  | .done s3 rs => !short && [0, 1].all (fun l => hasLane s3 0 0 l) && rs.length == 2
  | .short s3 => short && [0, 1].all (fun l => hasLane s3 0 0 l)
  | _ => s.booted && false

theorem witness_qstat : lanesTogether (queueCast 1) 0 0 [0, 1] .qstat { queueOp 3 with b := 0 } = true
    ∧ queueDone (queueCast 1) (queueCast 1) .qstat { queueOp 3 with b := 0 } .stat false = true := by decide +kernel

theorem witness_qdeq : ∀ n ∈ [1, 2], lanesTogether (queueCast n) 0 0 [0, 1] .qdeq { queueOp 3 with b := 0 } = true
    ∧ (togetherCommitted (queueCast n) 0 0 [0, 1] .qdeq { queueOp 3 with b := 0 }).any (fun s1 =>
        queueDone (queueCast n) s1 .qdeq { queueOp 3 with b := 0 } .deq (n == 1)) = true := by decide +kernel

theorem witness_qenq : ∀ n ∈ [0, 1, 2], lanesTogether (queueCast n) 0 0 [0, 1] .qenq (queueOp 3) = true
    ∧ (togetherCommitted (queueCast n) 0 0 [0, 1] .qenq (queueOp 3)).any (fun s1 =>
        let r := release s1 0 0 (getThread s1 0 0 0).marker
        r.finished && queueDone (queueCast n) (modThread r.state 0 0 0 fun t => { t with marker := r.marker }) .qenq (queueOp 3)
          .enq false) = true := by decide +kernel

/-- Two lanes that wait at a QDEQ. -/
def deqWaits (n : Nat) : State :=
  withQueue n (waitingAt (.qdeq { queueOp 3 with b := 0 }) (.qdeq 3) 2 id { a := [(1, capOf 11)] })

theorem witness_qdeq_wake : ∀ n ∈ [1, 2], contextRuns (deqWaits n) 0 = true ∧ (getThread (deqWaits n) 0 0 0).wait = .qdeq 3
    ∧ lanesWaiting (deqWaits n) 0 0 (.qdeq 3) = [0, 1]
    ∧ waitingInstr (deqWaits n) 0 0 0 = some (.qdeq { queueOp 3 with b := 0 })
    ∧ queueDone (deqWaits n) (deqWaits n) .qdeq { queueOp 3 with b := 0 } .deq (n == 1) = true := by decide +kernel

/-- The same two lanes with their object on a peer module. -/
def farQueue : State := setObject (queueCast 1) 0 programOid (BitVec.ofNat 128 (programObject.toNat + 3 * 2 ^ 6))

theorem witness_queue_remote : (∀ n ∈ [0, 1, 2], queueRemote (queueCast n) 0 0 (queueOp 3) = false)
    ∧ queueRemote (deqWaits 1) 0 0 { queueOp 3 with b := 0 } = false ∧ slotsUsed (getCore farQueue 0) + 2 ≤ 64
    ∧ lanesTogether farQueue 0 0 [0, 1] .qdeq { queueOp 3 with b := 0 } = true ∧ lanesTogether farQueue 0 0 [0, 1] .qenq (queueOp 3) = true
    ∧ (togetherCommitted farQueue 0 0 [0, 1] .qdeq { queueOp 3 with b := 0 }).any (fun s1 => queueRemote s1 0 0 { queueOp 3 with b := 0 }
      && (queueFault s1 0 .deq (viaOf (togetherFrame farQueue 0 0 [0, 1] .qdeq { queueOp 3 with b := 0 }) .a 2) (laneCap s1 0 0 1) 0x400).isNone) = true
    ∧ (togetherCommitted farQueue 0 0 [0, 1] .qenq (queueOp 3)).any (fun s1 =>
        let r := release s1 0 0 (getThread s1 0 0 0).marker
        r.finished && queueRemote r.state 0 0 (queueOp 3)
          && (queueFault r.state 0 .enq (viaOf (togetherFrame farQueue 0 0 [0, 1] .qenq (queueOp 3)) .a 2) (laneCap r.state 0 0 1) 0x400).isNone) = true := by
  decide +kernel

theorem witness_queue_header : queueSound (packQueue (header 2)) = true ∧ queueSound (packQueue (header 0)) = true
    ∧ modeRun (coreMode (queueCast 1) 0) ≠ 2 ∧ (getContext (queueCast 1) (coreCtx (queueCast 1) 0)).recording = none
    ∧ (match readRange (queueCast 1) 0 0 (capOid (laneCap (queueCast 1) 0 0 1)) (rangeChunks 0x400 64) with
      | .ok _ bs bad => queueSound (ofBytes bs) && !bad
      | _ => false) = true := by decide +kernel

/-! ### The matrix engine -/

/-- A launch whose slot 1 is E4M3 without scales, in a cast of sixteen lanes with the object's capability in c1. -/
def e4m3Slots (s : State) : State :=
  modLaunch s (launchKey programCtx 0) fun l => { l with bill := { l.bill with slots := [0, 0x5, 0, 0, 0, 0, 0, 0] } }
def passCast : State := e4m3Slots (capCast 3 fun l t => { t with v := [(16, BitVec.ofNat 32 (0x38383838 + l)), (2, 0)] })
/-- MMA and MMAS into tile 2 over registers v16 on, slot 1 on both sides, weights at the granule in v2, counted by w3; ZLD and ZST
of tile 2. -/
def mmaOp : Op := { form := .ext, d := 2, a := 16, b := 2, c := 3, mod := 0x11, fslot := 1 }
def tileOp : Op := { form := .ext, d := 2, a := 1, b := 4, c := 3 }
def postReady (o : Opc) (op : Op) (p : State → Bool) : Bool :=
  castIssues passCast 0 0 all16 o op && (castCommitted passCast 0 0 all16 o op).any fun s1 => !postHeld s1 0 0 all16 op.c.toNat && p s1

theorem witness_pass : (postReady .mma mmaOp fun s1 => (legalShape s1 0 false mmaOp).any fun p =>
      (passFault s1 (castFrame passCast 0 0 .mma mmaOp) 0 all16 false p 0).isNone) = true
    ∧ (postReady .mmas mmaOp fun s1 => (legalShape s1 0 true mmaOp).any fun p =>
      (passFault s1 (castFrame passCast 0 0 .mmas mmaOp) 0 all16 true p 0).isNone) = true := by decide +kernel

theorem witness_tile : (postReady .zld tileOp fun s1 => laneOff s1 (castFrame passCast 0 0 .zld tileOp) 0 0 % 128 == 0
      && !issueHeld s1 0 [] 3 1 false
      && (checkEngine s1 0 (coreFn s1 0) (coreCtx s1 0) (viaOf (castFrame passCast 0 0 .zld tileOp) .a 1) (laneCap s1 0 0 1) 0 2048 [0] []).isNone) = true
    ∧ (postReady .zst tileOp fun s1 =>
      (checkEngine s1 0 (coreFn s1 0) (coreCtx s1 0) (viaOf (castFrame passCast 0 0 .zst tileOp) .a 2) (laneCap s1 0 0 1) 0 2048 [1] []).isNone) = true
    ∧ (getCluster passCast 0).refill = [] ∧ (postReady .zclr { form := .ext, d := 2, c := 3 } fun _ => true) = true := by decide +kernel

/-- A core with n ranges in flight. -/
def rangeCast (n : Nat) : State := modCore passCast 0 fun c => { c with ranges := (List.range n).map fun i => { id := i, lo := 0, hi := 4 } }

theorem witness_ordy : ∀ n ∈ [0, 1], castIssues (rangeCast n) 0 0 all16 .ordy { form := .base } = true
    ∧ (getCore (rangeCast n) 0).ranges.length = n ∧ (getCluster (rangeCast n) 0).loads = [] := by decide +kernel

/-- A cluster whose table holds a pass and a ZCLR that are posted, the first granted or not. -/
def passRequest (granted : Bool) : Request :=
  { id := 1, core := 0, cast := 0, lanes := [0, 1], ctr := 3, tile := 2, high := false, posted := 0, granted, launch := some (launchKey programCtx 0)
    kind := .pass false mmaOp 0 [(0, List.replicate 32 0x38), (1, List.replicate 32 0x40)]
      (blockBytes (getCluster passCast 0) 0 16) [] }
def clearRequest (granted : Bool) : Request := { passRequest granted with id := 2, tile := 3, kind := .zclr }
def tableOf (l : List Request) : State := modCluster (modThread passCast 0 0 0 fun t => { t with w := [(3, 2)] }) 0 fun c =>
  { c with table := l, z := [(zKey 2 0 0, 5), (zKey 3 1 1, 6)], zPoison := [129, 193], weights := [(0, 0x38), (33, 0x40)] }

theorem witness_grant : ((getCluster (tableOf [passRequest false, clearRequest false]) 0).table.all fun r => !r.granted) = true
    ∧ (getCluster (tableOf [passRequest false, clearRequest false]) 0).refill = []
    ∧ ofEngine (passRequest false) = true
    ∧ requestHeld (getCluster (tableOf [passRequest false, clearRequest false]) 0) (passRequest false) = false
    ∧ ((getCluster (tableOf [passRequest true]) 0).table.any fun r => r.granted) = true := by decide +kernel

/-- The pass as it is granted, over the block and the registers as they stand. -/
def grantedPass : State :=
  let row (w : Word) (t : Thread) : Thread := { t with v := (List.range 8).map fun i => (16 + i, w) }
  let s := modThread (modThread (tableOf []) 0 0 0 (row 0x38383838)) 0 0 1 (row 0x40404040)
  modCluster s 0 fun c => { c with table := [{ passRequest true with
    kind := .pass false mmaOp 0 [(0, List.replicate 32 0x38), (1, List.replicate 32 0x40)]
      (blockBytes c 0 ((passShape false 5 5).elim 0 fun p => p.granules false 5)) [] }] }

theorem witness_pass_completion :
    (match (getCluster grantedPass 0).table.find? (fun x => x.granted) with
      | some r => r.lanes == [0, 1] && (match r.kind with
        | .pass false op 0 _ block [] => op == mmaOp && (passShape false (slotA grantedPass 0 op) (slotB grantedPass 0 op)).any fun p =>
            block == blockBytes (getCluster grantedPass 0) 0 (p.granules false (slotB grantedPass 0 op))
        | _ => false)
      | none => false) = true
    ∧ (getCluster (tableOf [clearRequest true]) 0).table.find? (fun x => x.granted) = some (clearRequest true)
    ∧ registerRow grantedPass 0 0 0 16 32 = List.replicate 32 0x38 ∧ registerRow grantedPass 0 0 1 16 32 = List.replicate 32 0x40 := by decide +kernel

/-- ZMOV of a column of tile 2 in lane 1, which the table may still write, which poison may mark. -/
def zmovOp : Op := { form := .ext, d := 6, a := 2, b := 4 }
def zmovState (col : Nat) (pending poison zchk : Bool) : State :=
  modContext (modCluster { modThread (tableOf []) 0 0 1 (fun t => { t with v := [(4, BitVec.ofNat 32 col)] }) with actor := .lanes 0 [(0, 1)] } 0
    fun c => { c with
      table := if pending then [passRequest false] else []
      zPoison := if poison then [129] else [] }) programCtx fun c => { c with mode := if zchk then 8 else 0 }

theorem witness_zmov : (∀ col ∈ [31, 32], ∀ pending ∈ [true, false], ∀ poison ∈ [true, false],
      let s := zmovState col pending poison true
      laneIssues s 0 0 1 .zmov zmovOp = true ∧ handlerReady s 0 0 1 = true
        ∧ laneSrc s (laneFrame s 0 0 1 .zmov zmovOp) 0 1 .b = col ∧ (pendingWrites s 0 0 2).isEmpty = !pending
        ∧ nmem (64 * 2 + 1) (getCluster s 0).zPoison = poison ∧ modeZchk (coreMode s 0) = true)
    ∧ (∀ v ∈ (getCluster (zmovState 31 false false true) 0).views, nmem 0 v.hidden = true → sfind (zKey 2 1 31) v.old = none)
    ∧ modeZchk (coreMode (zmovState 31 true false false) 0) = false
    ∧ laneIssues (zmovState 31 true false false) 0 0 1 .zmov zmovOp = true := by decide +kernel

/-! ### Commands of the cue thread, and the book -/

/-- A cue thread with capability arguments from c16 on and values in c2, c3; WLOAD and QCAST of 128 bytes; LAUNCH in queue 3. -/
def cueCaps (rights : Nat) (x y : DWord) : State :=
  let s := modLaunch (cueOf false fun q => { q with c := [(2, x), (3, y)] }) (launchKey programCtx 0) fun l =>
    { l with bill := { l.bill with args := List.replicate 16 (capOf rights) }, ensembles := [(1, { cluster := true, casts := [0] })] }
  { s with actor := .cue 0 false }
def wloadOp : Op := { form := .ext, a := 16, b := 2, c := 3, word2 := 128 }
def qcastOp : Op := { form := .ext, a := 2, b := 3, word2 := 128, mod := 1 }

theorem witness_wload : let s := cueCaps 1 0x100 2097024
    cueCommands s 0 .wload wloadOp = true ∧ (getCluster s 0).refill = [] ∧ (getCluster s 0).loads = [] ∧ (cueSrc (theCue s 0).c (cueFrame s 0 .wload wloadOp) .b) = 0x100
    ∧ (cueSrc (theCue s 0).c (cueFrame s 0 .wload wloadOp) .c) = 2097024
    ∧ checkEngine s 0 (coreFn s 0) (coreCtx s 0) (viaOf (cueFrame s 0 .wload wloadOp) .a 1) (cueCap s 0 16) 0x100 128 [0] [] = none := by decide +kernel

theorem witness_qcast : let s := cueCaps 1 0 65408
    cueCommands s 0 .qcast qcastOp = true ∧ holdsClustered s 0 = true ∧ issueHeld s 0 [.cue 0] 0 1 false = false
    ∧ qcastTargets s 0 1 (((getCore s 0).launch).getD 0) = [] ∧ qcastTargets s 0 0 (((getCore s 0).launch).getD 0) = [0]
    ∧ (getCore s 0).ranges = [] := by decide +kernel

def launchOp : Op := { form := .ext, d := 4, a := 16, b := 2, mod := 3 }
def launchState (tail : Word) : State :=
  let s := setObject (cueCaps 1 0x200 0) 0 programOid (BitVec.ofNat 128 (programObject.toNat + 2 * 2 ^ 4))
  modDie s 0 fun d => { d with queues := [(3, { base := BitVec.ofNat 64 (2 ^ 40 + 0x800), src := true, en := true, ctx := 1, tail })] }
def launchReady (tail : Word) : Bool :=
  let s := launchState tail
  match launchAccess s (cueFrame s 0 .launch launchOp) (capOf 1) 0x200 with
  | .ok s1 _ => let q := getQueue s1 0 3
      cueCommands s 0 .launch launchOp && q.en && q.src && q.ctx.toNat == coreCtx s 0 && (getCore s1 0).fifo.isEmpty && drained s1 0
        && (tail == 16 || !unitMissing s1 q) && (pendingUnits q == ringUnits q) == (tail == 16)
        && (resolve s1 { fn := queueFn q, ctx := coreCtx s 0, core := none } (unitAt q q.tail.toNat).1 (unitAt q q.tail.toNat).2).any fun k => k % 16 == 0
  | _ => false

theorem witness_launch : launchReady 15 = true ∧ launchReady 16 = true
    ∧ (theCue (launchState 15) 0).marker = none ∧ modeRun (coreMode (launchState 15) 0) ≠ 2
    ∧ (getContext (launchState 15) 1).recording = none := by decide +kernel

/-- Book instructions on the core's tables; PBKSAVE and PBKLOAD through c1 at v2. -/
def bookOp (tab : Nat) : Op := { form := .ext, d := 3, a := 2, b := 4, c := 6, mod := BitVec.ofNat 8 tab }
def bookLane (i w : Word) : State := modCore (laneMem 3 [(2, i), (4, w), (6, 0xDEADBEEF)]) 0 fun c =>
  { c with bank := { bp := [(5, 3)], hist := 0x123, pf := [(1, 0x11112222333344445555666677778888)], l1s := [(2, 7)] } }
def saveOp (die : Bool) : Op := { form := .ext, d := 3, a := 1, b := 2, mod := if die then 1 else 0 }

theorem witness_book : laneIssues (bookLane 1 2) 0 0 0 .pbkrd (bookOp 2) = true ∧ handlerReady (bookLane 1 4) 0 0 0 = true
    ∧ bookRange (bookLane 1 2) 0 2 1 2 32 = true ∧ bookRange (bookLane 1 4) 0 2 1 4 32 = false
    ∧ (∀ t ∈ [0, 1, 2, 3, 4, 5, 6], (committed (bookLane 0 0) 0 0 0 .pbkwr (bookOp t)).any (fun s1 =>
        laneIssues (bookLane 0 0) 0 0 0 .pbkwr (bookOp t) && hasLane s1 0 0 0 && bookRange s1 0 t 0 0 32) = true)
    ∧ (committed (bookLane 0x25 0) 0 0 0 .pbkclr (bookOp 0)).any (fun s1 =>
        laneIssues (bookLane 0x25 0) 0 0 0 .pbkclr (bookOp 0) && hasLane s1 0 0 0) = true := by decide +kernel

theorem witness_book_cue : let s := cueCaps 1 3 1
    cueRuns s 0 .pbkrd { bookOp 2 with b := 3 } = true ∧ bookRange s 0 2 3 1 64 = true := by decide +kernel

theorem witness_book_part : ∀ save ∈ [true, false], ∀ die ∈ [true, false],
    let o : Opc := if save then .pbksave else .pbkload
    (committed (bookLane 0x40 0) 0 0 0 o (saveOp die)).any (fun s1 => laneIssues (bookLane 0x40 0) 0 0 0 o (saveOp die) && hasLane s1 0 0 0
      && (pbkFault s1 (laneFrame (bookLane 0x40 0) 0 0 0 o (saveOp die)) save (capOf 3) 0x40).isNone
      && !pbkHeld s1 0 (.lane 0 0 0) 3 && !pbkBehind s1 0 0 0 (laneFrame (bookLane 0x40 0) 0 0 0 o (saveOp die)).pc) = true := by decide +kernel

/-! ### Attention across a cluster, and the score table -/

/-- A cast that belongs to cluster ensemble 1, with accumulators; CRED of tiles 2 and 3 on w3. -/
def credCast : State :=
  let s := modLaunch (tableOf []) (launchKey programCtx 0) fun l => { l with ensembles := [(1, { cluster := true, casts := [0], expected := 1, next := 1 })] }
  modCast s 0 0 fun c => { c with ens := [0x101, 0, 0, 0], threads := c.threads.map fun t => { t with w := [(3, 2)], v := [(1, 0x3F800000), (2, 0x40000000)] } }
def credOp : Op := { form := .ext, d := 2, a := 1, b := 2, c := 3 }

theorem witness_cred : castIssues credCast 0 0 all16 .cred credOp = true
    ∧ (castCommitted credCast 0 0 all16 .cred credOp).any (fun s1 => clusterEnsemble s1 0 0 0 == some 1
      && (getCluster s1 0).rounds.isEmpty && !postHeld s1 0 0 all16 3) = true := by decide +kernel

/-- Its round, with one post, full; not ready behind an earlier request of its cast; not full beside another live cast. -/
def post : Contribution :=
  { core := 0, cast := 0, position := 0, lanes := [0, 1], tile := 2, ctr := 3, m := [(0, 0x3F800000), (1, 0)], l := [(0, 0x40000000), (1, 0)]
    request := 4, scenes := [] }
def round : Round := { launch := launchKey programCtx 0, ens := 1, posts := [post] }
def credState (earlier second : Bool) : State :=
  let s := modCluster credCast 0 fun c => { c with
    rounds := [round]
    table := (if earlier then [{ clearRequest false with id := 3 }] else [])
      ++ [{ passRequest false with id := 4, core := 0, cast := 0, kind := .cred 1, launch := some (launchKey programCtx 0) }] }
  modCore (modLaunch s (launchKey programCtx 0) fun l => { l with ensembles := [(1, { cluster := true, casts := if second then [0, 7] else [0] })] }) 1
    fun c => { c with launch := some (launchKey programCtx 0), casts := [(7, programCast)] }

theorem witness_round : (∀ e ∈ [true, false], ∀ d ∈ [true, false],
      (getCluster (credState e d) 0).rounds.find? (isRound (launchKey programCtx 0) 1) = some round
      ∧ roundFull (credState e d) 0 round = !d ∧ roundReady (fun _ => false) (getCluster (credState e d) 0) round = !e)
    ∧ (round.posts.all fun x => ((getCluster (credState false false) 0).table.find? fun q => q.id == x.request).any fun q =>
        q.core == x.core && q.cast == x.cast && q.lanes == x.lanes && q.ctr == x.ctr
          && holdsLaunch (credState false false) x.core q.launch) = true
    ∧ round.posts.find? (fun x => !x.lanes.isEmpty) = some post
    ∧ [{ post with lanes := [] }].find? (fun x => !x.lanes.isEmpty) = none := by decide +kernel

/-- The table of R351: eight tokens at scratchpad 0x100. -/
def scoreCast : State :=
  let s := cast16 fun l t => { t with
    p := if l < 2 then 2 else 0
    v := [(1, 0x100), (2, if l = 0 then 0 else 4), (3, if l = 0 then 0x00496C78 else 0x786C0049), (5, 8)] }
  let words := [0x3F000000, 0x3F800000, 0x3F000000, 0x7FC00000, 0x3F000000, 0x3FB00000, 0x3F800000, 0x3F000000]
  modCore s 0 fun c => { c with spad := putBytes 0x100 (words.flatMap (toBytes 4)) [] }
def saccOp : Op := { form := .ext, a := 1, b := 2, c := 3, mod := 1, grd := 1 }
def topkOp (ord : Bool) : Op := { form := .ext, d := 10, a := 1, b := 5, mod := if ord then 0x43 else 3 }
def scoreFine (s1 : State) (words : List Nat) : Bool :=
  words.all fun w => !spadBad (getCore s1 0) w && !rangeBusy (getCore s1 0) w 4

theorem witness_sacc : castIssues scoreCast 0 0 [0, 1] .sacc saccOp = true
    ∧ (castCommitted scoreCast 0 0 [0, 1] .sacc saccOp).any (fun s1 =>
      scoreFine s1 ((span 0 4 ++ span 4 4).map fun i => 0x100 + 4 * i)) = true := by decide +kernel

theorem witness_topk : ∀ ord ∈ [true, false], castIssues scoreCast 0 0 all16 .topk (topkOp ord) = true
    ∧ (castCommitted scoreCast 0 0 all16 .topk (topkOp ord)).any (fun s1 =>
      scoreFine s1 ((span 0 8).map fun i => 0x100 + 4 * i) && !rangeBusy (getCore s1 0) 0x100 32) = true := by decide +kernel

/-- The next state, where there is one. -/
def nextOf (s : State) (i : Instr) : State :=
  match exec i s with
  | .next t => t
  | _ => s
def saccDone : State := nextOf scoreCast (.sacc saccOp)
def again : State := { saccDone with actor := .lanes 0 (all16.map fun l => (0, l)) }

theorem test_sacc_example : bytesAt 0x100 32 (getCore saccDone 0).spad =
    [0x3FC00000, 0x3FB00000, 0x3F048000, 0x7FC00000, 0x3F048000, 0x3FB00000, 0x3FB00000, 0x3FC00000].flatMap (toBytes 4) := by
  decide +kernel

theorem test_topk_example : (all16.map fun l => sget 0 10 (getThread (nextOf again (.topk (topkOp false))) 0 0 l).v) =
      [0, 7, 1, 5] ++ List.replicate 12 0xFFFFFFFF
    ∧ (List.range 5).map (fun l => sget 0 10 (getThread (nextOf again (.topk (topkOp true))) 0 0 l).v) = [0, 1, 5, 7, 0xFFFFFFFF] := by
  decide +kernel

/-! ### The fader and CLASSMAP -/

/-- A Fugitive region of two tiles over 16 chunks, with descriptors and free bitmap, in an object of 4 MiB. -/
def regionHeader (nfree : Nat) : Nat := 2 <<< 64 + 0x100 <<< 160 + 0x200 <<< 200 + (2 ^ 21) <<< 240 + 16 <<< 280 + nfree <<< 312
def regionOf (descs : List Nat) (s : State) : State :=
  let s1 := setObject s 0 programOid (BitVec.ofNat 128 ((2 ^ 22) <<< 88 + 1 <<< 48 + 1 <<< 32 + 3 <<< 4 + 1))
  { s1 with mem := putBytes (programBase + 0x200) [0xF0, 0xFF] (putBytes (programBase + 0x100) (descs.flatMap (toBytes 16))
      (putBytes programBase (toBytes 64 (regionHeader 12)) (putBytes programExtents (toBytes 16 ((programBase / 4096) <<< 48 + 2 <<< 24)) s1.mem))) }
def absentDesc : Nat := 3 <<< 14
def faderLane (n : Word) : State := regionOf [absentDesc, absentDesc]
  (modCast (laneMem 2 [(2, 1), (4, n)]) 0 0 fun c => { c with a := [(1, mkCap 0 1024 programOid 2 3)] })
def faderOp (rung : Nat) : Op := { form := .ext, a := 1, b := 2, c := 4, mod := BitVec.ofNat 8 rung }
def regionReady (o : Opc) (op : Op) (p : State → FugHdr → Bool) : Bool :=
  laneIssues (faderLane 1) 0 0 0 o op && (committed (faderLane 1) 0 0 0 o op).any fun s1 => hasLane s1 0 0 0
    && match checkRegion s1 (corePort s1 0) (viaOf (laneFrame (faderLane 1) 0 0 0 o op) .a 2) (laneCap s1 0 0 1) with
      | .ok s0 f => p s0 f
      | _ => false

theorem witness_step : regionReady .step { form := .base, a := 1 } (fun s0 _ => (getThread s0 0 0 0).marker.isNone
      && (getCore s0 0).fifo.isEmpty && drained s0 0 && !issueHeld s0 0 [] 0 1 false) = true
    ∧ slotsUsed (getCore (faderLane 1) 0) < 64 := by decide +kernel

theorem witness_fade : regionReady .fade (faderOp 1) (fun s1 f => f.ntile == 2 && !issueHeld s1 0 [] 0 1 false) = true
    ∧ regionReady .fade (faderOp 3) (fun s1 f => f.ntile == 2 && !faderBusy s1 0 programOid s1.fresh
      && planFresh f.nchunk (absentTiles s1 (corePort s1 0) programOid f 1 1) (fugNat s1 (corePort s1 0) programOid f.boff (bitmapBytes f)) == some [(1, 4)]
      && (firstMissing s1 (corePort s1 0) programOid (pageSamples (f.doff + 16) 16)).isNone
      && (firstMissing s1 (corePort s1 0) programOid (planOffsets f [(1, 4)])).isNone) = true
    ∧ planFresh 16 [0, 1] 0xFFF0 = some [(0, 4), (1, 8)] := by decide +kernel

/-- A STEP or a FADE in progress for a lane that waits. -/
def job (kind : XferKind) (started : Bool) (tile len : Nat) : Xfer :=
  { id := 5, kind, agent := .lane 0 0 0, src := .mem (mkCap 0 1024 programOid 2 3) 0, dst := .mem (mkCap 0 1024 programOid 2 3) 0
    mod := 1, len, tile, started, group := 1, ctx := programCtx, launch := some (launchKey programCtx 0) }
def faderPort : Port := xferPort 0 (job .step true 0 2)
def jobState (kind : XferKind) (started : Bool) (tile len : Nat) (busy : Bool) : State :=
  modCore (modThread (faderLane 1) 0 0 0 fun t => { t with wait := .response }) 0 fun c => { c with
    xfers := job kind started tile len :: if busy then [{ job .step true 0 1 with id := 4 }] else [] }

theorem witness_fader : (∀ busy ∈ [true, false], let s := jobState .step true 0 2 busy
      findXfer s 0 5 = some (job .step true 0 2) ∧ transfersMove s programCtx = true ∧ (fugHeader s (faderPort) programOid).isSome = true
        ∧ (firstMissing s faderPort programOid (fugHeaderOffsets s faderPort programOid)).isNone = true ∧ faderBusy s 0 programOid 5 = busy)
    ∧ (∀ tile ∈ [0, 1], let s := jobState .fade false tile (2 - tile) false
      (fugHeader s faderPort programOid).any (fun f => let d := fugDesc s faderPort programOid f tile
        (firstMissing s faderPort programOid (fugFadeOffsets s faderPort programOid f tile (descNxt d)
        (fadeGoal (job .fade false tile (2 - tile)) f d))).isNone && descNxt d == 0 && descSt d == 3) = true)
    ∧ holdsLaunch (jobState .step true 1 1 false) 0 (job .step true 1 1).launch = true ∧ hasLane (jobState .step true 1 1 false) 0 0 0 = true ∧ Memory.wf (jobState .step true 1 1 false).mem = true
    ∧ (∀ d ∈ (jobState .step true 1 1 false).dies, d.2.l2 = []) := by decide +kernel

/-- CLASSMAP of the loaded object: to a class, from pool 0 of one whole group of eight units. -/
def classOp (cls : Nat) : Op := { form := .ext, a := 1, b := 2, c := 4, mod := BitVec.ofNat 8 cls }
def classLane (priv : Bool) : State :=
  let s := modContext (laneMem 0x22 [(2, 0), (4, 1)]) programCtx fun c => { c with mode := if priv then 0x20 else 0 }
  { s with poolBase := 0x3000, mem := putBytes 0x3000 (toBytes 16 (0x4000 <<< 76 + 8 <<< 32)) (putBytes 0x4000 ((span 16 8).flatMap (toBytes 4)) s.mem) }

theorem witness_classmap : ∀ priv ∈ [true, false], ∀ cls ∈ [0, 2], let s := classLane priv
    laneIssues s 0 0 0 .classmap (classOp cls) = true ∧ handlerReady s 0 0 0 = true
    ∧ (committed s 0 0 0 .classmap (classOp cls)).any (fun s1 => hasLane s1 0 0 0 && modePriv (coreMode s1 0) == priv
      && (getThread s1 0 0 0).pc == (laneFrame s 0 0 0 .classmap (classOp cls)).pc
      && (release s1 0 6 (getThread s1 0 0 0).marker).finished) = true
    ∧ takeGroups s 0 0 2 (pagesFrom programObject 0) = some [16] ∧ objValid programObject = true
    ∧ capLower (capOf 0x22) = 0 ∧ capUpper (capOf 0x22) = objSize programObject ∧ objClass programObject = 0 := by decide +kernel

/-- A CLASSMAP of the object in progress for another lane. -/
def classBusy : State := { classLane true with
  classJobs := [{ id := 8, agent := none, ctx := 1, fn := 0, oid := programOid, cls := 2, pool := 0, groups := [16], keep := true }] }

theorem witness_classmap_busy : laneIssues classBusy 0 0 0 .classmap (classOp 2) = true
    ∧ (committed classBusy 0 0 0 .classmap (classOp 2)).any (fun s1 => hasLane s1 0 0 0 && modePriv (coreMode s1 0)
      && (release s1 0 6 (getThread s1 0 0 0).marker).finished
      && (release s1 0 6 (getThread s1 0 0 0).marker).state.classJobs.any fun j => j.fn == coreFn s1 0 && j.oid == programOid) = true := by
  decide +kernel

/-- A job that waits for its lane, with a write to the object's lines in flight, or elsewhere. -/
def classJob : ClassJob := { id := 8, agent := some (.lane 0 0 0), ctx := 1, fn := 0, oid := 9, cls := 2, pool := 0, groups := [16], keep := true }
/-- The object of the job: 128 bytes in the same page. -/
def smallObject : BitVec 128 := BitVec.ofNat 128 (128 <<< 88 + 1 <<< 48 + 1 <<< 32 + 1)
def classState (line : Nat) : State :=
  { setObject (modThread (classLane true) 0 0 0 fun t => { t with wait := .response }) 0 9 smallObject with
    classJobs := [classJob], homeWrites := [{ id := 3, die := 0, core := 0, stamp := none, line, data := 0, mask := 0, tags := 0, poison := false, cls := 0 }] }

theorem witness_class_job : (∀ line ∈ [0x8000, 0x4000],
      (classState line).classJobs.find? (fun j => j.id == 8) = some classJob)
    ∧ inExtents 0 (extentsOf (classState 0x8000) smallObject) 0x8000 = true
    ∧ inExtents 0 (extentsOf (classState 0x4000) smallObject) 0x4000 = false := by decide +kernel

/-! ### The memory hierarchy, restarts, gathers, commands -/

/-- A state whose L2s hold nothing has sound caches. -/
theorem sound_of_empty (s : State) (h : ∀ die, (getDie s die).l2 = []) : CachesSound s := fun die =>
  ⟨by rw [h]; rfl, by rw [h]; simp⟩

/-- A core with a miss, and a release FIFO. -/
def missCore (fifo : List FifoEntry) : State := modCore cachedCore 0 fun c => { c with
  misses := [{ line := 0x8000, ctx := 1, sig := 0, opened := 0, joined := 1 }], fifo, tokens := 1, dlmiss := [(0, 5)] }

/-- The same, 100 clk after it opened, in a context of service class 0 with a slack of 99. -/
def lateCore : State := modContext (modDie (missCore []) 0 fun d => { d with clk := 100 }) 1 fun c => { c with svc := 0, slack := [(0, 99)] }

theorem witness_fill : (∀ m ∈ (getCore (missCore []) 0).misses, m.line ≠ 0x8001)
    ∧ ((getCore (missCore []) 0).misses.any fun m => m.line == 0x8000) = true ∧ (getCore (missCore []) 0).fifo = []
    ∧ (getCore (missCore [.marker 4, .line 0x8001]) 0).fifo = [.marker 4, .line 0x8001]
    ∧ sfind 0x8001 (getCore (missCore [.line 0x8001]) 0).l1 = some (lineOf 0x8001 (BitVec.allOnes 64))
    ∧ (lineOf 0x8001 (BitVec.allOnes 64)).dirty ≠ 0 ∧ (getContext lateCore 1).svc = 0
    ∧ (sget 0 0 (getContext lateCore 1).slack).toNat < coreClk lateCore 0 - (0 + 0) := by decide +kernel

/-- A home write in flight, stamped or not, applied or not, behind an earlier one or not. -/
def writeOf (stamp : Option (List Word)) (applied : Bool) : HomeWrite :=
  { id := 9, die := 0, core := 0, stamp, line := 0x8002, data := 0x0102, mask := 3, tags := 0, poison := false, cls := 0, applied }
def writing (w : HomeWrite) (earlier : Bool) : State :=
  { lane1 with homeWrites := (if earlier then [{ w with id := 2, applied := false }] else []) ++ [w] }
/-- Does the write wait at its home, for an earlier write of its core or for the counts of its stamp? -/
def waitsAtHome (s : State) (w : HomeWrite) : Bool :=
  w.applied || renewWaits s w || (s.homeWrites.any fun x => decide (x.id < w.id ∧ x.core = w.core ∧ x.line = w.line ∧ x.applied = false))
    || w.stamp.any fun v => (List.range 4).any fun f =>
        !serialGe ((getDie s (homeDie (w.line * 64))).app.getD f 0) (if f = w.die then v.getD f 0 - 1 else v.getD f 0)

theorem witness_home_write : waitsAtHome (writing (writeOf none true) false) (writeOf none true) = true
    ∧ waitsAtHome (writing (writeOf none false) true) (writeOf none false) = true
    ∧ waitsAtHome (writing (writeOf (some [2, 0, 0, 0]) false) false) (writeOf (some [2, 0, 0, 0]) false) = true
    ∧ waitsAtHome (writing (writeOf (some [1, 0, 0, 0]) false) false) (writeOf (some [1, 0, 0, 0]) false) = false
    ∧ waitsAtHome (writing (writeOf none false) false) (writeOf none false) = false
    ∧ (writing (writeOf none false) true).homeWrites[1]? = some (writeOf none false)
    ∧ (∀ d ∈ (writing (writeOf none false) false).dies, d.2.l2 = []) := by decide +kernel

/-- Threads that wait for a page: valid, or of no object; refused. -/
def pageLane (w : Wait) : State := modThread lane1 0 0 0 fun t => { t with wait := w }
def thePage (oid : Nat) : PageKey := { fn := 0, oid, off := 0 }
def pageCue (oid : Nat) (denied : Bool) : State :=
  cueOf false fun q => { q with page := some (thePage oid), denied := if denied then some (thePage oid) else none }

theorem witness_restart : hasLane (pageLane (.page (thePage 1))) 0 0 0 = true ∧ pageValid (pageLane (.page (thePage 1))) 0 (thePage 1) = true
    ∧ pageValid (pageLane (.page (thePage 6))) 0 (thePage 6) = false ∧ (getThread (pageLane (.refused (thePage 6))) 0 0 0).wait = .refused (thePage 6)
    ∧ (theCue (pageCue 6 true) 0).denied = some (thePage 6) ∧ (theCue (pageCue 6 false) 0).denied ≠ some (thePage 6) := by decide +kernel

/-- Lanes of a cast at CASTSYNC, all or all but one; in ORDY. -/
def syncState (all : Bool) : State := waitingAt (.castsync { form := .base }) .gather 3 id {}
  |> fun s => modThread s 0 0 2 fun t => if all then { t with pc := 4 } else { t with wait := .ordy [] [] 8 }

theorem witness_gather_complete : contextRuns (syncState true) 0 = true
    ∧ (∀ t ∈ (getCast (syncState true) 0 0).threads, t.live = true → t.wait = .gather)
    ∧ ((getCast (syncState false) 0 0).threads.any fun t => t.live && t.wait != .gather) = true
    ∧ endOrdy (syncState true) 0 0 = syncState true ∧ hasLane (syncState true) 0 0 0 = true
    ∧ waitingInstr (syncState true) 0 0 0 = some (.castsync { form := .base })
    ∧ waitingInstr (syncState true) 0 0 1 = some (.castsync { form := .base })
    ∧ (getThread (syncState true) 0 0 0).pc = 0 ∧ (getThread (syncState true) 0 0 1).pc = 0 ∧ (getThread (syncState true) 0 0 2).pc = 4 := by
  decide +kernel

/-- A cue thread with WLOADs in its buffer: one issued there, one performed, one behind a BRC, one whose source is bad. -/
def held (hold : Bool) (n : Nat) (at' : DWord) (checks : Bool) : State :=
  let s := { cueCaps 1 0x100 at' with actor := .cue 0 hold }
  modCue s 0 fun q => { q with
    checks := if checks then [check 1 true] else []
    buf := (List.range n).map fun i =>
      { id := 7 + i, pc := 12, instr := .wload wloadOp, a := 0, b := 0x100, c := at', regs := [], pend := [], dqTail := 0, logged := 0 } }

theorem witness_buffered : cueIssues (held true 31 64 false) 0 .wload wloadOp = true ∧ (theCue (held true 31 64 false) 0).buf.length = 31
    ∧ cueIssues (held false 1 64 false) 0 .wload wloadOp = true ∧ (commandBody .wload).isSome = true := by decide +kernel

theorem witness_performed : contextRuns (held true 1 64 false) 0 = true ∧ (theCue (held true 1 64 true) 0).checks.any (fun k => k.id ≤ 7) = true
    ∧ (theCue (held true 1 64 false) 0).checks = [] ∧ (theCue (held true 1 64 false) 0).page = none
    ∧ opcOf (.wload wloadOp) = some (.wload, wloadOp) ∧ (getCore (held true 1 64 false) 0).launch = some (coreKey (held true 1 64 false) 0)
    ∧ (match (commandBody .wload).map fun f => f (frameAt 0 12 .wload wloadOp) 0 0x100 64 (held true 1 64 false) with
      | some (CueStep.done s1 _ _) => (getCue s1 0).any fun q => q.parked.isNone
      | _ => false) = true
    ∧ (match (commandBody .wload).map fun f => f (frameAt 0 12 .wload wloadOp) 0 0x100 1 (held true 1 1 false) with
      | some (CueStep.fault _) => true
      | _ => false) = true
    ∧ (match (commandBody .ld).map fun f => f (frameAt 0 12 .ld { ldOp with a := 16 }) 0 0x100 0 (cueCaps 0x81 0x100 0) with
      | some (CueStep.await s1) => (getCue s1 0).isSome
      | _ => false) = true := by decide +kernel

/-! ### Bins, swaps, turns, owners, tokens -/

/-- A partition with two bins, the first of a thread filed at clk 0, the second of two filed at clk `since` and later; the die at
clk 300. -/
def binState (since : Nat) : State :=
  let s := modCore (cast16 fun l t => { t with filed := if l = 0 then 0 else since + l - 1 }) 0 fun c => { c with
      parts := [(0, { active := [(0, 0)], bins := [(1, { key := 0, threads := [(0, 0)] }), (2, { key := 4, threads := [(0, 1), (0, 2)] })] })] }
  modDie s 0 fun d => { d with clk := 300 }

theorem witness_bin : (∀ since ∈ [0, 50], let s := binState since
      sfind 1 (getPart s 0 0).bins = some { key := 0, threads := [(0, 0)] } ∧ binSince (filedAt s 0) { key := 0, threads := [(0, 0)] } + 256 < coreClk s 0
        ∧ (getPart s 0 0).bins.all (fun e => e.1 == 1 || decide (0 < binSince (filedAt s 0) e.2)
          || decide (lowestGidx (coreBill s 0) [(0, 0)] < lowestGidx (coreBill s 0) e.2.threads)) = true)
    ∧ ((getPart (binState 0) 0 0).bins.all fun e => decide (e.2.threads.length < 16) && decide (256 ≤ binSince (filedAt (binState 0) 0) e.2 + 256)) = true := by
  decide +kernel

/-- An active cast whose lane waits at a barrier, or not, since clk 236 or 237; a pending one that can issue since clk 108 or 109. -/
def swapState (waits : Bool) (entered pending : Nat) : State :=
  let s := modCore lane1 0 fun c => { c with
    casts := [(0, { threads := [{ openImplicit programBill {} 0 with wait := if waits then .barrier 0 false 0 4 else .ready }] }), (1, programCast)]
    parts := [(0, { active := [(0, entered)], pending := [(1, pending)] })] }
  modDie s 0 fun d => { d with clk := 300 }
def maySwap (s : State) : Bool :=
  let p := getPart s 0 0
  p.active.any (fun e => e.1 == 0) && !p.swapping.any (fun e => e.1 == 0) && !castAble s 0 p 0
    && (getCast s 0 0).threads.any (longWait s 0) && nextPending s 0 0 == some 1

theorem witness_swap : maySwap (swapState true 0 0) = true ∧ maySwap (swapState false 0 0) = false := by decide +kernel

/-- The same, with unfiled threads of the pending cast, and a bin of the active one. -/
def filingState : State := modCore (modLaunch (swapState true 0 0) (launchKey programCtx 0) fun l =>
    { l with bill := { l.bill with width := 4 } }) 0 fun c => { c with
  casts := c.casts.map fun e => (e.1, if e.1 = 1 then { e.2 with threads := e.2.threads ++ e.2.threads } else e.2)
  parts := [(0, { active := [(0, 0)], pending := [(1, 0)], unfiled := [(1, 1)], bins := [(1, { key := 0, threads := [(0, 0)] })] })] }

theorem witness_refiled : maySwap filingState = true ∧ (getCast filingState 0 1).part = 0
    ∧ ((getPart filingState 0 0).unfiled.filter fun th => decide (th.1 = 1)) = [(1, 1)] ∧ hasLane filingState 0 1 1 = true
    ∧ sortedFrom 0 (getPart filingState 0 0).bins = true ∧ 1 < (coreBill filingState 0).width := by decide +kernel

theorem witness_due : ∀ entered ∈ [236, 237], ∀ pending ∈ [108, 109], let s := swapState false entered pending
    castAble s 0 (getPart s 0 0) 1 = true ∧ decide (pending + 192 ≤ coreClk s 0) = decide (pending = 108)
      ∧ ((getPart s 0 0).active.find? fun e => decide (e.2 + 64 ≤ coreClk s 0) && (getPart s 0 0).swapping.all fun x => decide (x.1 ≠ e.1)).isSome
        = decide (entered = 236) := by decide +kernel

/-- A die at a clk, with tokens left at two cores. -/
def tokenState (clk : Nat) : State :=
  modDie (modCore (modCore lane1 0 fun c => { c with tokens := 7, backlog := true }) 1 fun c => { c with tokens := 9 }) 0 fun d => { d with clk }

theorem witness_tokens : (getDie (tokenState 1023) 0).clk < (getDie (tokenState 1023) 0).refilled + 1024
    ∧ (getDie (tokenState 1024) 0).refilled + 1024 ≤ (getDie (tokenState 1024) 0).clk ∧ (∀ e ∈ (tokenState 1024).contexts, e.2.fn < 17) := by
  decide +kernel

/-- The header of an image whose book is its tenth section, and a history of 5 in the bank of core 0. -/
def bookHeader : List Byte := toBytes 0x100 (0x10000 <<< (8 * 0xB8) + 198656 <<< (8 * 0xC0))
def bookImage : List (Nat × List Byte) := [(programBase + 0x1000, bookHeader), (programBase + 0x11000, bankBytes { hist := 5 })]

/-- A free core that belongs to context 1, with or without an image; a second context with a book or without one. -/
def ownerState (launch : Option Nat) (old new : Bool) : State :=
  let place (b : Bool) : Option (Nat × Nat) := if b then some (programOid, 0x1000) else none
  let s := setContext (modContext lane1 1 fun c => { c with image := place old }) 2 { image := place new }
  let s1 := { s with mem := bookImage.foldl (fun m e => putBytes e.1 e.2 m) s.mem }
  modCore s1 0 fun c => { c with launch, bank := { hist := 3 }, spad := [(4, 1)] }

theorem witness_owner : (∀ old ∈ [true, false], let s := ownerState none old true
      (getCore s 0).launch = none ∧ (getCore s 0).owner = some 1 ∧ (sfind 2 s.contexts).isSome = true ∧ bankReady s 0 2 = true
      ∧ ownTransfers s 0 2 = true ∧ (incomingBank s 0 2).isSome = true ∧ (getCore s 0).l1 = [] ∧ residentOn s 0 2 = false ∧ noBook s 1 = !old
      ∧ (bankPlace s 1 0).isSome = old) ∧ (getCore (ownerState (some 3) true true) 0).launch ≠ none := by decide +kernel

/-- A cluster that the context of function 0 holds, with a deficit; another function with work for it, or none. -/
def turnState' (left : Int) (other held : Bool) (run : RunState) : State :=
  let s0 := modFunc (modFunc lane1 0 fun f => { f with pclu := 1 }) 2 fun f => { f with pclu := 1 }
  let s := modContext (modCluster s0 0 fun c => { c with ctx := some 1, turnFn := some 0, deficit := [(0, left), (5, 9)] }) 1 fun c =>
    { c with run, image := some (programOid, 0x4000) }
  let s1 := setLaunch s (launchKey programCtx 0) { programLaunch with bill := { programBill with casts := 2 } }
  let s2 := if held then s1 else modCore s1 0 fun c => { c with launch := none }
  if other then setLaunch (setContext s2 3 { fn := 2 }) (launchKey 3 0) { programLaunch with ctx := 3, next := 0 } else s2

theorem witness_turn : (∀ held ∈ [true, false], clusterHeld (turnState' 0 true held .running) 0 = held)
    ∧ functionWork (turnState' 0 true true .running) 0 2 = true ∧ ((List.range 17).all fun f => f == 0 || !functionWork (turnState' 0 false true .running) 0 f) = true
    ∧ (getContext (turnState' 0 true true .running) 1).image = some (1, 0x4000) ∧ restReady (turnState' 0 true true .running) 1 = true
    ∧ (getContext (turnState' 0 true true .halted) 1).run = .halted ∧ restReady (turnState' 0 true true .halted) 1 = true
    ∧ (functionsAfter 0).takeWhile (fun f => f != 2) = [1] ∧ functionWork (turnState' 0 true false .running) 0 1 = false
    ∧ nextContext (turnState' 0 true false .running) 0 2 = some 3 ∧ (getContext (turnState' 0 true false .running) 3).run ≠ .parked := by decide +kernel

/-! ### Launches -/

/-- A queue of die 0 whose ring stands at offset 0x800 of the object, and its units. -/
def ringQueue : Queue := { base := BitVec.ofNat 64 (2 ^ 40 + 0x800), en := true, ctx := 1 }
def queueState (q : Queue) (units : List Nat) : State :=
  let s := modDie (lightfast lane1) 0 fun d => { d with queues := [(3, q)] }
  { s with mem := putBytes (programBase + 0x800) (units.flatMap (toBytes 16)) s.mem }

theorem witness_doorbell : (16 : Word).toNat ≤ 2 ^ (ringQueue.lsize.toNat + 4) ∧ 2 ^ (ringQueue.lsize.toNat + 4) < (17 : Word).toNat
    ∧ getQueue (queueState { ringQueue with halt := true, skip := some 2 } []) 0 3 = { ringQueue with halt := true, skip := some 2 }
    ∧ (queueState ringQueue []).hostWaiting = [] ∧ { lane1 with hostWaiting := [.cmdDoor 0 1] }.hostWaiting ≠ [] := by decide +kernel

/-- What stands at the head: a NOP, a LAUNCH, a reserved type, a WAITSET on the 8 bytes at 0x900, reached or not. -/
def billAt : Nat := 2 ^ 40 + 0x1000
def nopUnit : Nat := 0x0100
def launchUnit : Nat := 1 + 1 <<< 8 + billAt <<< 64
def waitUnits (value : Nat) : List Nat := [2 + 2 <<< 8 + 1 <<< 16, value <<< 64 + 2 ^ 40 + 0x900]
/-- The bytes of a playbill of one cast of width 16 (R253). -/
def billBytes (tickets ctx : Nat) : List Byte :=
  toBytes 512 (0x00010000 + 0xFFFFFFFF <<< 96 + programBill.code.toNat <<< 128 + 1 <<< 256 + 16 <<< 288 + 128 <<< 296 + 1 <<< 304
    + tickets <<< 320 + ctx <<< 336)
def headState (q : Queue) (units : List Nat) (bill : List Byte) : State :=
  let s := queueState q units
  { s with mem := putBytes (programBase + 0x1000) bill (putBytes (programBase + 0x900) [5] s.mem) }
def pendingQ (n : Nat) : Queue := { ringQueue with tail := BitVec.ofNat 32 n }
def headIs (n : Nat) (units : List Nat) (p : Head → Bool) : Bool :=
  p (headOf (headState (pendingQ n) units (billBytes 2 1)) (pendingQ n)).2

theorem witness_heads : headIs 1 [nopUnit] (fun h => match h with | .nop n => n == 1 | _ => false) = true
    ∧ headIs 1 [launchUnit] (fun h => match h with | .launch r k => r.toNat == billAt && k == 2 | _ => false) = true
    ∧ headIs 1 [3 + 1 <<< 8] (fun h => match h with | .refuse c k => c == 0x0C && k == 1 | _ => false) = true
    ∧ (∀ v ∈ [5, 6], headIs 2 (waitUnits v) (fun h => match h with
        | .waitset n cs => n == 2 && (countersReached 0 cs (headState (pendingQ 2) (waitUnits v) [])).2 == (v == 5)
        | _ => false) = true)
    ∧ (let s := headState (pendingQ 1) [launchUnit] (billBytes 0 1)
      (match headOf s (pendingQ 1) with
        | (s1, .refuseBill 4 bs) => (match refuseEarly s1 0 4 (parseBill bs) with
          | .refuse s2 _ es => (refusalRecord s2 0 0 1 4 (parseBill bs) es).2
          | _ => false)
        | _ => false) = true) := by decide +kernel

theorem witness_units : ∀ x ∈ [nopUnit, launchUnit, 3 + 1 <<< 8], pendingUnits (pendingQ 1) ≠ 0
    ∧ (match readUnits (pendingQ 1) 1 0 (headState (pendingQ 1) [x] []) with
      | (_, some (some [bs])) => bs.length == 16 && ofBytes bs == x
      | _ => false) = true := by decide +kernel

/-- Two queues with LAUNCH packets that stand ready; the playbill of the second is sound, or names another context. -/
def drawState (n k : Nat) (bill : List Byte) : State :=
  let q (t : Nat) : Queue := { ringQueue with tail := 1, ready := some (BitVec.ofNat 64 billAt, t) }
  let s := modFunc (headState ringQueue [] bill) 0 fun f => { f with pclu := 2 }
  modDie s 0 fun d => { d with queues := [(n, q k), (n + 1, q 3)] }
def drawReady (k : Nat) (bill : List Byte) (ok : Bool) : Bool :=
  let s := drawState 4 k bill
  let lot := xorshift64 (diePart s 0 1).lot.toNat
  eligibleQueues s 0 1 == [(4, k), (5, 3)] && (partitionOn s 0 0).any (fun m => turnOf s m 1)
    && decide (lot % (k + 3) < k) && !(s.launches.any fun e => e.2.ctx == 1 && e.2.die == 0 && toPlace e.2)
    && match frontRead s 0 1 0x1000 512 with
      | .ok s1 bs => (match checkBill s1 0 0 1 bs with
        | .ok _ _ => ok
        | .refuse _ c _ => !ok && c == 2
        | .waits _ => false)
      | _ => false

theorem witness_draw : drawReady 5 (billBytes 2 1) true = true ∧ drawReady 5 (billBytes 2 5) false = true
    ∧ (sfind 1 (drawState 4 5 []).contexts).isSome = true ∧ (getContext (drawState 4 5 []) 1).run = .running
    ∧ (getContext (drawState 4 5 []) 1).recording = none ∧ (parseBill (billBytes 2 5)).doneCap = 0 := by decide +kernel

/-- A launch still to be placed on cluster 0, held by core 0 already, or by no core. -/
def placeState (number : Nat) (run : RunState) : State :=
  let s := modContext (modFunc lane1 0 fun f => { f with pclu := 1 }) 1 fun c => { c with run }
  setLaunch s (launchKey 1 number) { programLaunch with number, next := if number = 0 then 1 else 0, bill := { programBill with casts := 2, lanePc := 0x40 } }

theorem witness_place : (∀ number ∈ [0, 1], let s := placeState number .running
      toPlace (getLaunch s (launchKey 1 number)) = true ∧ (getLaunch s (launchKey 1 number)).waiting = [] ∧ (getLaunch s (launchKey 1 number)).ahead = []
      ∧ (getLaunch s (launchKey 1 number)).saved = [] ∧ clusterList (getLaunch s (launchKey 1 number)) 0 = none
      ∧ (getPart (freeCores s 0) (if number = 0 then 0 else 1) (1 - number)).unfiled = []
      ∧ placeFor (freeCores s 0) (launchKey 1 number) (partitionCores (freeCores s 0) 0 0) = some (if number = 0 then (0, 1) else (1, 0)))
    ∧ (getContext (placeState 0 .halted) 1).run ≠ .running := by decide +kernel

/-- A kernel record, and an ensemble's, that are to be written at offset 0x700. -/
def recordState (scope : Nat) (written busy : Bool) (oid : Nat := 1) : State :=
  let e : Ensemble := { reports := true, closer := some 0, written, nexit := 16, stmin := 3, stor := 7, thmin := 2, nnz := 1, casts := [0] }
  let s := modLaunch (lightfast lane1) (launchKey 1 0) fun l => { l with
    bill := { l.bill with doneCap := mkCap 0x700 0x800 oid 2 0 }, ensembles := [(scope, e)], next := 1 }
  modCore s 0 fun c => { c with seqno := 9, xfers := if busy then [xferOf .copyIn (.lane 0 0 0)] else [] }

def recordPort : Port := { fn := 0, ctx := 1, core := some 0 }

theorem witness_record : (∀ scope ∈ [4, kernelScope], ∀ busy ∈ [true, false],
      asyncBusy (recordState scope false busy) (launchKey 1 0) (if scope = kernelScope then none else some [0]) = busy
      ∧ (sget {} scope (getLaunch (recordState scope false busy) (launchKey 1 0)).ensembles).closer = some 0)
    ∧ toPlace (getLaunch (recordState kernelScope false false) (launchKey 1 0)) = false ∧ drained (recordState 4 false false) 0 = true
    ∧ (release (recordState 4 false false) 0 6 none).finished = true ∧ (programBase + 0x700) % 64 ≤ 32
    ∧ (∀ oid ∈ [1, 6], let r := release (recordState 4 false false oid) 0 6 none
      recordReady (dropOwn r.state 0 recordPort oid 0x700 32) 0 recordPort oid 0x700 32 = decide (oid = 1))
    ∧ resolve (dropOwn (release (recordState 4 false false) 0 6 none).state 0 recordPort 1 0x700 32) recordPort 1 0x700 = some (programBase + 0x700) := by
  decide +kernel

/-! ### Registers, power, channels -/

/-- A function whose ring of 16 slots has room, or has not, with events that wait. -/
def ringState (tail : Word) (events : List (BitVec 256)) : State :=
  modFunc (lightfast lane1) 0 fun f => { f with evBase := BitVec.ofNat 64 (2 ^ 40 + 0xA00), evLog := 4, evTail := tail, events }

theorem witness_registers : (getFunc (ringState 16 []) 0).events = [] ∧ (getFunc (ringState 16 [5]) 0).events ≠ []
    ∧ (let f := getFunc (ringState 16 [5]) 0
      eventRoom { f with evHead := 1 } = true
        ∧ rangeMapped (modFunc (ringState 16 [5]) 0 fun f => { f with evHead := 1 }) (outerPort 0) (eventPlace f).1 (eventPlace f).2 32 = true)
    ∧ (0x12000 ≤ 0x12000 ∧ (0 : Nat) ≠ physFn) ∧ queueFn (getQueue (queueState ringQueue []) 0 3) ≠ 1
    ∧ queueFn (getQueue (queueState ringQueue []) 0 3) = 0 := by decide +kernel

theorem witness_blocks : (0x0400_0000_0000_0000 : DWord).getLsbD 58 = true ∧ (getQueue lane1 0 3).en = false
    ∧ (0 : DWord).getLsbD 58 = false ∧ (getQueue (queueState ringQueue []) 0 3).en = true
    ∧ sget {} 2 (getDie lane1 0).watch = watchOf (sget {} 2 (getDie lane1 0).watch).raw := by decide +kernel

theorem witness_power : (600 ≤ (600 : Word).toNat ∧ (600 : Word).toNat ≤ 2400) ∧ (599 : Word).toNat < 600 ∧ 2400 < (2401 : Word).toNat
    ∧ (-8 < (getChannel lane1 0).bal ∧ (getChannel lane1 0).bal + 9 ≤ 9)
    ∧ (-8 ≤ (getChannel lane1 0).bal ∧ (getChannel lane1 0).bal ≤ 8) := by decide +kernel

/-! ### Commands -/

/-- A command of a function, in a ring at offset 0xB00 of its object 1, over any state. -/
def commandBits (op ctx oid off ops : Nat) : Nat := op + 7 <<< 16 + ctx <<< 32 + off <<< 64 + oid <<< 104 + ops <<< 128
def commanded (s0 : State) (fn x : Nat) : State :=
  let s := setObject (lightfast s0) physFn programOid (BitVec.ofNat 128 (programObject.toNat + 2 * 2 ^ 4))
  modFunc { s with mem := putBytes (programBase + 0xB00) (toBytes 64 x) s.mem } fn fun f =>
    { f with cmdBase := BitVec.ofNat 64 (2 ^ 40 + 0xB00), cmdLog := 4, cmdDoor := 1, evBase := BitVec.ofNat 64 (2 ^ 40 + 0xA00), evLog := 4 }
/-- Is it one that may act (CommandStarts)? -/
def startsAs (s : State) (fn op used : Nat) (pf : Bool) (p : State → Cmd → Bool) : Bool :=
  match readCommand s fn with
  | (s1, some c) => c.op == op && cmdReserved used c && (!pf || fn == physFn) && !foreignCtx s fn c && p s1 c
  | _ => false

theorem witness_commands : (getFunc lane1 0).cmdHead = (getFunc lane1 0).cmdDoor
    ∧ (∀ f ∈ commandForms physFn, startsAs (commanded lane1 physFn (commandBits f.2.1 1 1 0 0)) physFn f.2.1 f.2.2.1 f.2.2.2 (fun _ _ => true) = true)
    ∧ (∀ f ∈ commandForms physFn, (readCommand (commanded lane1 physFn (commandBits f.2.1 1 1 0 0 + 2 ^ 44)) physFn).2.any
        (fun c => c.op == f.2.1 && !cmdReserved f.2.2.1 c) = true)
    ∧ (∀ f ∈ commandForms 5, (readCommand (commanded lane1 5 (commandBits f.2.1 1 1 0 0)) 5).2.isNone = true)
    ∧ (∀ x ∈ [0x00, 0x0B], (readCommand (commanded lane1 physFn (commandBits x 1 1 0 0)) physFn).2.any (fun c => c.op == x) = true) := by
  decide +kernel

/-- A virtual function that gives a command for a context of another one. -/
def foreignState (op : Nat) : State := commanded (setContext lane1 9 { fn := 4 }) 0 (commandBits op 9 1 0 0)

theorem witness_foreign : (∀ f ∈ commandForms 0, (readCommand (foreignState f.2.1) 0).2.any (fun c => c.op == f.2.1 && cmdReserved f.2.2.1 c
      && (foreignCtx (foreignState f.2.1) 0 c)) = true) := by decide +kernel

/-- PREEMPT into the object at an offset; of a context that is not there, in a state that cannot be pre-empted, into too small an
object, while weights are loaded again for a request that waits. -/
def preemptState (ctx : Nat) (run : RunState) (off : Nat) (refills : Bool := false) : State :=
  commanded (modCluster (modContext lane1 1 fun c => { c with run }) 0 fun c =>
    if refills then { c with refill := [5], table := [passRequest false] } else c) 0 (commandBits 0x01 ctx 1 off 0)
def imageRoom : Nat := 2 ^ 21 - (makeImage lane1 1).total

theorem witness_preempt : startsAs (preemptState 1 .running 0x4000) 0 0x01 (2 ^ 12 - 1) false (fun s1 c =>
      (sfind 1 s1.contexts).isSome && preemptable (commandTaken s1 0) 1 && restReady (commandTaken s1 0) 1
        && decide (c.off + (makeImage (commandTaken s1 0) 1).total ≤ 2 ^ 21)) = true
    ∧ startsAs (preemptState 1 .running 0x4000 true) 0 0x01 (2 ^ 12 - 1) false (fun s1 _ => !restReady (commandTaken s1 0) 1) = true
    ∧ startsAs (preemptState 1 .running (imageRoom + 1)) 0 0x01 (2 ^ 12 - 1) false (fun s1 c =>
      decide (2 ^ 21 < c.off + (makeImage (commandTaken s1 0) 1).total)) = true
    ∧ startsAs (preemptState 1 .saved 0) 0 0x01 (2 ^ 12 - 1) false (fun s1 _ => !preemptable (commandTaken s1 0) 1) = true
    ∧ startsAs (preemptState 8 .running 0) 0 0x01 (2 ^ 12 - 1) false (fun s1 _ => (sfind 8 s1.contexts).isNone) = true
    ∧ objClass (getObject (preemptState 1 .running 0) 0 1) = 2 ∧ objValid (getObject (preemptState 1 .running 0) 0 1) = true := by decide +kernel

def savingState (asked : Option Nat) (oid : Nat := programOid) : State :=
  modContext (lightfast lane1) 1 fun c => { c with run := .saving 7 asked (oid, 0x4000) }

theorem witness_saved : (getContext (savingState (some 0)) 1).run = .saving 7 (some 0) (1, 0x4000) ∧ 0 ∈ ownedCores (savingState none) 1
    ∧ placeReady (savingState none) 1 (1, 0x4000) (makeImage (savingState none) 1) = true
    ∧ placeReady (savingState none 6) 1 (6, 0x4000) (makeImage (savingState none 6) 1) = false
    ∧ (makeImage (savingState none) 1).launches.map Prod.fst = [0] := by decide +kernel

/-- RESUME of context 9 from a header at offset 0x1000 of the object; its image holds nothing. -/
def imageHeader (ctxid : Nat) : List Byte :=
  toBytes 0x100 (0x10000 + 10 <<< 32 + 65536 <<< 64 + ctxid <<< 160 + ((List.range 10).map fun i => 65536 <<< (8 * (0x28 + 16 * i))).sum)
def resumeState (ctx ctxid fn : Nat) : State :=
  let s := commanded lane1 fn (commandBits 0x02 ctx 1 0x1000 (2 + 5 <<< 32))
  { s with mem := putBytes (programBase + 0x1000) (imageHeader ctxid) s.mem }
/-- The state in which the items of its image are looked for. -/
def resumed (ctxid : Nat) : Option State :=
  match readCommand (resumeState 9 ctxid 0) 0 with
  | (s1, some c) =>
    let s2 := commandTaken s1 0
    match frontRead s2 0 c.oid c.off 0x100 with
    | .ok s3 bs => (match frontRead s3 0 c.oid c.off (min 65536 (0x100 + 4 * recNat bs 0xF0 4)) with
      | .ok s4 hdr =>
        let sec := (secDir hdr).getLastD (0, 0)
        let place : Nat × Nat := (c.oid, c.off)
        if headerSound 9 (2 ^ 21 - c.off) hdr && !draining s4 (ctxidFn ctxid) && (objList hdr).isEmpty && recNat hdr 0x10 4 % 4 == 0
            && recNat hdr 0x14 4 == ctxid && rangeMapped s4 (outerPort 0) c.oid c.off (recNat hdr 8 8) then
          match readBook s4 0 c.oid (c.off + sec.1) sec.2 with
          | .parts b => some (modContext (loadParts (unstage s4 9 place) 9 b) 9 (headerContext c place hdr))
          | .waits _ => none
        else none
      | _ => none)
    | _ => none
  | _ => none
def resumedState : State := (resumed 9).getD lane1

theorem witness_resumed : (resumed 9).isSome = true ∧ (resumed 0x3009).isSome = true ∧ ctxidFn 9 = 0 ∧ ctxidFn 0x3009 = 3
    ∧ imagePlace resumedState 9 = some ({ fn := 0, ctx := 9, core := none }, 1, 0x1000) := by decide +kernel

theorem resumed_object : let o := getObject resumedState 0 1
    objValid o = true ∧ objSize o = 2 ^ 21 ∧ objPaged o = false ∧ objNext o ≠ 0 ∧ objTier o = 0
      ∧ (let x := homeNat resumedState (objRoot o) 16
        field x 127 88 = 0 ∧ field x 47 24 * tierPage 0 = 2 ^ 21 ∧ x.testBit 1 = false ∧ field x 87 48 * 4096 = programBase)
      ∧ ofBytes ((span (0x1000 + 8) 8).map fun o => homeByte resumedState (programBase + o)) = 65536
      ∧ ofBytes ((span (0x1000 + 0x60) 8).map fun o => homeByte resumedState (programBase + o)) = 0 := by decide +kernel

theorem witness_resume_runs : ∃ img, imageOf resumedState 9 = some img
    ∧ placesFree (modContext resumedState 9 fun z => { z with homes := clustersIn img.cores }) 9 img = true
    ∧ ∃ s5, launchesBack 0 9 img img.launches (modContext resumedState 9 fun z => { z with homes := clustersIn img.cores }) = .ok s5 [] := by
  obtain ⟨h1, h2, h3, h4, h5, ⟨h6, h7, h8, h9⟩, h10, h11⟩ := resumed_object
  obtain ⟨img, himg, hcores, hlaunches⟩ := imageOf_empty witness_resumed.2.2.2.2 (n := 65536) (by decide) (fun o _ ho =>
    resolve_extent rfl h1 (by rw [h2]; omega) h3 h4 h6 (by rw [h5, h7]; omega) h8 h9 h5 (by simp only [programBase]; omega)) h10 h11
  exact ⟨img, himg, placesFree_empty hcores, _, by rw [hlaunches]; rfl⟩

theorem witness_resume_command : (sfind 9 lane1.contexts) = none
    ∧ startsAs (resumeState 1 1 0) 0 0x02 (3 + (2 ^ 32 - 1) * 2 ^ 32) false (fun s1 _ => (getContext s1 1).run == .running) = true
    ∧ startsAs (resumeState 0 0 0) 0 0x02 (3 + (2 ^ 32 - 1) * 2 ^ 32) false (fun _ c => c.ctx == 0) = true := by decide +kernel

theorem witness_record_continue : (∀ m ∈ [0, 1, 2, 3], ∀ ctx ∈ [0, 1], ∀ oid ∈ [1, 2],
      startsAs (commanded lane1 0 (commandBits 0x08 ctx oid 0 m)) 0 0x08 3 false (fun s1 c => c.ops % 4 == m && c.ctx == ctx
        && objValid (getObject s1 0 oid) == (oid == 1)) = true)
    ∧ (∀ run ∈ [RunState.running, .halted], startsAs (commanded (modContext lane1 1 fun c => { c with run }) 0 (commandBits 0x0A 1 0 0 0)) 0 0x0A 0 false
        (fun s1 _ => (getContext s1 1).run == run && !draining (commandTaken s1 0) 0) = true)
    ∧ startsAs (commanded (modContext lane1 1 fun c => { c with run := .parked, held := true }) 0 (commandBits 0x0A 1 0 0 0)) 0 0x0A 0 false
        (fun s1 _ => (getContext s1 1).run == .parked && (getContext s1 1).held) = true
    ∧ 0 ∈ coresOf lane1 1 := by decide +kernel

/-- A request of a peer that has been refused for a page. -/
def peerAsk : PeerAsk := { key := thePage 1, off := 0x40, size := 8, op := .read }

/-- The loaded object, half as large. -/
def newEntry : BitVec 128 := BitVec.ofNat 128 (programObject.toNat % 2 ^ 88 + 2 ^ 20 <<< 88)

/-- INVAL and PAGERESP, with a command before them that is not finished, or not; the host has written the object's entry. -/
def waitingPage (busy : Bool) (op ops : Nat) : State :=
  let s := modCore (modThread lane1 0 0 0 fun t => { t with wait := .page (thePage 1) }) 0 fun c => { c with
    cue := some { page := some (thePage 1) }
    tlb := [{ fn := 0, ctx := 1, oid := 1, off := 0, size := 2 ^ 21, phys := 0, tier := 0, cls := 0, poisoned := false }] }
  commanded { s with pageRequests := [thePage 1], objectWrites := [(1, newEntry)], peerPages := [(peerAsk, false)], pulls := if busy then [{ id := 4, fn := 0, oid := 1, off := 0, source := 0, pages := 1, lost := [], tag := 0, ctx := 1 }] else [] }
    0 (commandBits op 1 1 0x10 ops)

theorem witness_inval_pageresp : ∀ busy ∈ [true, false],
    startsAs (waitingPage busy 0x03 64) 0 0x03 (2 ^ 40 - 1) false (fun s1 _ => cmdsBusy (commandTaken s1 0) 0 == busy
      && sfind 1 s1.objectWrites == some newEntry) = true
    ∧ (∀ m ∈ [0, 1], startsAs (waitingPage busy 0x04 m) 0 0x04 1 false (fun s1 c => cmdsBusy (commandTaken s1 0) 0 == busy
        && s1.pageRequests.contains (pageKeyOf s1 0 c.oid c.off)) = true) := by decide +kernel

/-- FUGSET of object 9 of the physical function: a region of 16 chunks, with a pool of one group of 32 units. -/
def fugsetState (ctx oid off cls : Nat) (header : Nat := regionHeader 12) (writes : List HomeWrite := []) : State :=
  let s := commanded lane1 physFn (commandBits 0x05 ctx oid off 0)
  let s1 := setObject s physFn 9 (BitVec.ofNat 128 ((2 ^ 21 + 2048) <<< 88 + 2 <<< 48 + 1 <<< 32 + cls <<< 4 + 1))
  let m := putBytes 0x2000 (toBytes 16 ((0x800000 / 4096) <<< 48 + 2 <<< 24)) s1.mem
  let m1 := putBytes 0x800200 [0xF0, 0xFF] (putBytes 0x800000 (toBytes 64 header) m)
  { s1 with homeWrites := writes, poolBase := 0x3000, mem := putBytes 0x4000 ((span 32 32).flatMap (toBytes 4)) (putBytes 0x3000 (toBytes 16 (0x4000 <<< 76 + 32 <<< 32)) m1) }
/-- A write to the object that waits at its home. -/
def fugsetWrite : HomeWrite := { writeOf (some [2, 0, 0, 0]) false with line := 0x20000 }
/-- The state in which FUGSET looks at the header. -/
def fugsetDrained (s1 : State) (t : Nat) : State :=
  let s2 := commandTaken s1 physFn
  drainExtents s2 (objTier (getObject s1 t 9)) (extentsOf s2 (getObject s1 t 9))
def fugsetReady (s : State) (p : State → Cmd → Nat → Bool) : Bool :=
  startsAs s physFn 0x05 (2 ^ 8 - 1) true fun s1 c => (tableFn s1 c).any fun t => p s1 c t

theorem witness_fugset : fugsetReady (fugsetState 0 8 0 2) (fun s1 _ t => !objValid (getObject s1 t 8)) = true
    ∧ fugsetReady (fugsetState 0 9 0 0) (fun s1 _ t => objClass (getObject s1 t 9) != 2) = true
    ∧ fugsetReady (fugsetState 0 9 64 2) (fun _ c _ => c.off != 0) = true
    ∧ fugsetReady (fugsetState 0 9 0 2) (fun s1 _ t => let o := getObject s1 t 9
      objValid o && objClass o == 2 && !objPaged o && objTier o == 0 && !objectUsed (commandTaken s1 physFn) t 9
        && (fugsetDrained s1 t).homeWrites.isEmpty && (firstMissing (fugsetDrained s1 t) (outerPort t) 9 [0]).isNone
        && (fugHeader (fugsetDrained s1 t) (outerPort t) 9).any fun f =>
          takeGroups (fugsetDrained s1 t) 0 0 1 (pagesFrom o f.poff) == some [32]) = true := by decide +kernel

theorem witness_fugset_no : fugsetReady (fugsetState 0 9 0 2 0) (fun s1 _ t => let o := getObject s1 t 9
      objValid o && objClass o == 2 && !objPaged o && objTier o == 0 && !objectUsed (commandTaken s1 physFn) t 9
        && (fugsetDrained s1 t).homeWrites.isEmpty && (firstMissing (fugsetDrained s1 t) (outerPort t) 9 [0]).isNone
        && (fugHeader (fugsetDrained s1 t) (outerPort t) 9).isNone) = true
    ∧ fugsetReady (fugsetState 0 9 0 2 (regionHeader 12) [fugsetWrite]) (fun s1 _ t => let o := getObject s1 t 9
      objValid o && objClass o == 2 && !objPaged o && objTier o == 0 && !objectUsed (commandTaken s1 physFn) t 9
        && (fugsetDrained s1 t).homeWrites.any fun w =>
          !w.applied && inExtents (objTier o) (extentsOf (commandTaken s1 physFn) o) w.line) = true := by decide +kernel

/-- A paged object of 1 GiB on one page that migrates, and PULL of its pages. -/
def pagedState (s : State) (fn x : Nat) : State :=
  let s1 := setObject (commanded s fn x) fn 10 (BitVec.ofNat 128 ((2 ^ 30) <<< 88 + 5 <<< 48 + 2 <<< 4 + 3))
  { s1 with mem := putBytes 0x5000 (toBytes 8 (2 ^ 63 + 2 ^ 62 + 2 ^ 61 + 2 ^ 30)) s1.mem }
def pullState (oid pages : Nat) : State := pagedState lane1 0 (commandBits 0x06 1 oid 0x2000 (pages <<< 64 + 0x7000))

theorem witness_inject_attest_pull :
    startsAs (commanded lane1 physFn (commandBits 0x07 0 1 0x40 1)) physFn 0x07 1 true (fun s1 c => tableFn s1 c == some physFn
      && objValid (getObject s1 physFn 1) && (resolve (commandTaken s1 physFn) (outerPort physFn) 1 0x40).isSome) = true
    ∧ startsAs (commanded lane1 0 (commandBits 0x09 1 1 (2 ^ 21 - 512) 0xABCD)) 0 0x09 (2 ^ 384 - 1) false (fun s1 c =>
      objValid (getObject s1 0 1) && decide (c.off + 512 ≤ objSize (getObject s1 0 1)) && objClass (getObject s1 0 1) != 3
        && rangeMapped (commandTaken s1 0) (outerPort 0) 1 c.off 512) = true
    ∧ startsAs (pullState 3 2) 0 0x06 (2 ^ 96 - 1) false (fun s1 _ => !objValid (getObject s1 0 3)) = true
    ∧ (∀ pages ∈ [0, 3], startsAs (pullState 10 pages) 0 0x06 (2 ^ 96 - 1) false (fun s1 c => objPaged (getObject s1 0 10)
      && c.off % 4096 == 0 && field c.ops 95 64 == pages && allMigrating (commandTaken s1 0) 0 10 c.off pages) = true) := by decide +kernel

def pullJob (pages : Nat) : PullJob := { id := 4, fn := 0, oid := 10, off := 0x2000, source := 0x7000, pages, lost := [], tag := 7, ctx := 1 }
def pulling (pages : Nat) : State := { pagedState lane1 0 0 with pulls := [pullJob pages] }

theorem witness_pull : (∀ j ∈ lane1.pulls, j.id ≠ 4) ∧ (∀ n ∈ [1, 3], (pulling n).pulls.find? (fun j => j.id == 4) = some (pullJob n))
    ∧ ((leafPages 0 10 0 (2 ^ 30)).any fun k => !(({ fn := 0, oid := 10, off := 0x2000 } : PageKey) :: (pulling 3).landed).contains k) = true
    ∧ leafOf (pulling 3) 0 10 0x2000 = some (0x5000, 0, 2 ^ 30) ∧ 0x2000 + 4096 < 0 + 2 ^ 30 ∧ objClass (getObject (pulling 3) 0 10) ≠ 0
    ∧ physKey (objTier (getObject (pulling 3) 0 10)) (field (homeNat (pulling 3) 0x5000 8) 51 12 * 4096 + (0x2000 - 0)) = some (2 ^ 30 + 0x2000)
    ∧ ((List.range 64).all fun i => !isPeerLine ((2 ^ 30 + 0x2000) / 64 + i)) = true
    ∧ ((pulling 3).dies.all fun d => d.2.l2.isEmpty) = true := by decide +kernel

/-! ### The host, peers, errors, resets, watchpoints -/

/-- The aperture of function 0 on the object, and the export 3 of it with some rights and of one page. -/
def outerState (oid : Nat) (rights : Nat) : State :=
  let s := modFunc (pagedState (lightfast lane1) 0 0) 0 fun f => { f with winOid := BitVec.ofNat 32 oid, winOff := 0x1000 }
  { s with expBase := 0x6000, mem := putBytes 0x6030 (toBytes 16 (1 + rights <<< 8 + 1 <<< 32 + 0x2000 <<< 64 + oid <<< 104)) s.mem }
/-- An access that the host has made before, to a page that migrates; pages asked for on behalf of peers. -/
def earlier : HostAccess := { fn := 0, oid := 10, off := 0x1000, bytes := none, size := 4 }
def peerPage : PeerAsk := { key := pageKeyOf (outerState 10 7) 0 10 0x2000, off := 0x2000, size := 8, op := .read }
/-- The export's object with its page absent. -/
def absentState (pages : List (PeerAsk × Bool)) : State :=
  { outerState 10 7 with mem := putBytes 0x5000 (toBytes 8 0) (outerState 10 7).mem, peerPages := pages }

theorem witness_aperture : 2 ^ 30 < 2 ^ 30 - 7 + 8 ∧ objValid (getObject (outerState 6 0) 0 6) = false
    ∧ outerPlace (outerState 1 0) (outerPort 0) 1 0x103C 4 = .ok ∧ (outerState 1 0).hostWaiting = []
    ∧ resolve (outerState 1 0) (outerPort 0) 1 0x103C = some (programBase + 0x103C) ∧ (programBase + 0x103C) % 64 + 4 ≤ 64
    ∧ outerPlace (outerState 10 0) (outerPort 0) 10 0x1000 4 = .missing 0x1000 false
    ∧ { outerState 1 0 with hostWaiting := [.access earlier] }.hostWaiting ≠ []
    ∧ ((outerState 1 0).dies.all fun d => d.2.l2.isEmpty) = true := by decide +kernel

theorem witness_aperture_clean : CleanRange (outerState 1 7) (outerPort 0) 1 0x103C 4 ∧ CleanRange (outerState 1 7) (outerPort 0) 1 0x2FF8 8 := by
  have h : (outerState 1 7).injected = [] := by decide +kernel
  exact ⟨⟨by decide +kernel, fun c _ key _ => by rw [h]; rfl⟩, by decide +kernel, fun c _ key _ => by rw [h]; rfl⟩

theorem witness_peer : (∀ r ∈ [0, 7], let x := homeNat (outerState 1 r) ((outerState 1 r).expBase.toNat + 16 * 3) 16
      x.testBit 0 = true ∧ x.testBit 8 = (r == 7) ∧ x.testBit 9 = (r == 7) ∧ x.testBit 10 = (r == 7) ∧ x.testBit 11 = false
        ∧ field x 63 32 = 1 ∧ field x 103 64 = 0x2000 ∧ field x 127 104 = 1)
    ∧ outerPlace (outerState 1 7) (outerPort 0) 1 0x2FF8 8 = .ok ∧ (readObject (outerState 1 7) (outerPort 0) 1 0x2FF8 8).isSome = true
    ∧ resolve (outerState 1 7) (outerPort 0) 1 0x2FF8 = some (programBase + 0x2FF8) ∧ atomKind 0x0B ≤ 11 ∧ atomBytes 0x0B = 8
    ∧ outerPlace (outerState 6 7) (outerPort 0) 6 0x2000 8 = .unsupported
    ∧ outerPlace (outerState 10 7) (outerPort 0) 10 0x2000 8 = .missing 0x2000 false
    ∧ (∀ p ∈ [[], [(peerPage, false)], [(peerPage, true)]], outerPlace (absentState p) (outerPort 0) 10 0x2000 8 = .missing 0x2000 true)
    ∧ pageKeyOf (absentState []) 0 10 0x2000 = peerPage.key := by decide +kernel

/-- An L2 that holds a line of context 1, whose object has a class; an error injected in it; owners in the ownership table. -/
def errorState (cls : Nat) (bad : Option Bool) : State :=
  let s := setObject lane1 0 programOid (BitVec.ofNat 128 (programObject.toNat + cls <<< 4))
  let s1 := modDie s 0 fun d => { d with l2 := [(0x8000, { line := 0x8000, data := 0, tags := 0, dirty := false, rrv := 0, ctx := 1, sig := none, reuse := false, way := 0 })] }
  let s2 := modContext s1 1 fun c => { c with ebud := 9 }
  { s2 with
    injected := match bad with
      | some b => [(0x8000, b)]
      | none => []
    fownBase := 0x6000, grpBase := 0x7000
    mem := putBytes 0x7104 (toBytes 4 (2 ^ 31 + 1)) (putBytes 0x6010 (toBytes 16 (1 + 1 <<< 40 + 1 <<< 65)) s2.mem) }

theorem witness_errors : (∀ cls ∈ [0, 2], lineClass (errorState cls none) 0x8000 = some cls)
    ∧ (∀ e ∈ (errorState 2 none).contexts, getContext (errorState 2 none) e.1 = e.2) ∧ holdsData (.l2Slice 0 0) = true
    ∧ blastSet (errorState 2 none) (.l2Slice 0 0) = [0] ∧ blastSet (errorState 2 none) (.l2Slice 0 1) = []
    ∧ (getCore (errorState 2 none) 0).launch.isSome = true ∧ coreCtx (errorState 2 none) 0 = 1 ∧ (getThread (errorState 2 none) 0 0 0).live = true
    ∧ ((getDie (errorState 2 none) 0).l2.any fun e => e.1 % 32 == 0 && e.2.ctx == 1) = true := by decide +kernel

theorem witness_scrub : ∀ bad ∈ [true, false], sfind 0x8000 (errorState 2 (some bad)).injected = some bad
    ∧ nmem 0x8000 (errorState 2 (some bad)).poison = false ∧ ownershipSet (errorState 2 (some bad)) 0x8000 = [1]
    ∧ sfind 0x8000 (errorState 2 none).injected = none := by decide +kernel

/-- A function in a reset, with others. -/
def resetState (flr : Flr) (image : Option (Nat × Nat) := none) : State :=
  modFunc (modCore (modContext (queueState ringQueue []) 1 fun c => { c with image }) 0 fun c => { c with tlb := [{ fn := 0, ctx := 1, oid := 1, off := 0, size := 2 ^ 21, phys := 0, tier := 0, cls := 0, poisoned := false }] })
    0 fun f => { f with flr, pclu := 3 }

theorem witness_resets : draining (resetState (.draining 0)) 0 = true ∧ draining (resetState .idle) 0 = false
    ∧ (∀ f ∈ (resetState (.draining 0)).functions, f.2.flr ≠ .queued) ∧ (∀ fn < 16, draining (resetState .idle) fn = false)
    ∧ movedContexts (resetState .idle) 0 [1] = [] ∧ movedContexts (resetState .idle) 0 [0] = [1]
    ∧ (∀ image ∈ [none, some (6, 0x4000)], movedContexts (resetState .idle image) 0 [0] = [1] ∧ restReady (resetState .idle image) 1 = true
      ∧ (getContext (resetState .idle image) 1).run = .running ∧ (getContext (resetState .idle image) 1).image = image
      ∧ preemptable (resetState .idle image) 1 = true)
    ∧ (getCluster (resetState .idle) 0).refill = [] ∧ oldNeeded (resetState .idle) 1 = false
    ∧ restReady (modCluster (resetState .idle) 0 fun c => { c with refill := [5], table := [passRequest false] }) 1 = false
    ∧ (sfind 9 (setContext (resetState .idle) 9 { fn := 2 }).contexts) = some { fn := 2 } := by decide +kernel

/-- A lane that has performed a read of 0x100, which watchpoints 2 and, perhaps, 5 meet, with their programs in the code. -/
def access : Performed := { oid := 1, off := 0x100, size := 4, kind := .read, value := 7, pc := 0 }
def watchState (code : List Instr) (program : DWord) (more running : Bool) : State :=
  let w : Watchpoint := { valid := true, oid := 1, lo := 0x100, hi := 0x104, onRead := true, ctx := 1, program }
  let s := { loadProgram State.reset (code.flatMap fun i => (encode i).flatMap fun w => toBytes 4 w.toNat) false with agenda := [] }
  let s1 := modThread s 0 0 0 fun t => { t with performed := [access] }
  modDie s1 0 fun d => { d with
    watch := if more then [(2, w), (5, w)] else [(2, w)]
    predicate := if running then some { agent := .lane 0 0 0, watch := 2, access } else none }
def exitWith (n : Nat) : Instr := .exit { form := .base, a := BitVec.ofNat 7 (0x20 + n), asel := true }
def predicateEnds (code : List Instr) (program : DWord) (p : PredicateEnd → Bool) : Bool :=
  let s := watchState code program false true
  p (predicateOf s 0 0 0 (sget {} 2 (getDie s 0).watch) access)

theorem witness_match : watchedThreads (watchState [] 0 true false) 0 = [(0, 0, 0, access)]
    ∧ matching (watchState [] 0 true false) 0 access 0 = [2, 5] ∧ matching (modDie (watchState [] 0 true false) 0 fun d => { d with watch := [] }) 0 access 0 = []
    ∧ hasLane (watchState [] 0 true false) 0 0 0 = true ∧ (getDie (watchState [] 0 true true) 0).predicate.isSome = true := by decide +kernel

theorem witness_predicate : predicateEnds [exitWith 0] (2 ^ 40) (fun e => match e with
      | .exits s1 n => n == 0 && hasLane s1 0 0 0 && matching s1 0 access 3 == []
      | _ => false) = true
    ∧ predicateEnds [exitWith 3] (2 ^ 40) (fun e => match e with | .exits _ n => n == 3 | _ => false) = true
    ∧ predicateEnds [.trap { form := .base, a := 1 }] (2 ^ 40) (fun e => match e with | .faults _ => true | _ => false) = true
    ∧ matching (watchState [] 0 true true) 0 access 3 = [5] ∧ contextRuns (watchState [] 0 true true) 0 = true := by decide +kernel

/-- A program that branches to itself comes to its 256th instruction. -/
theorem witness_predicate_long :
    predicateEnds [.bra { form := .base }] (2 ^ 40) (fun e => match e with | .tooLong _ => true | _ => false) = true := by decide +kernel

/-- A program on an absent page: the paged object of another state; the host has not been asked, has been, has refused it. -/
def awayPage : PageKey := { fn := 0, oid := 10, off := 0 }
def awayState (page : Option (PageKey × Bool)) : State :=
  modDie { watchState [] (10 * 2 ^ 40) false true with
    objects := sput 10 (BitVec.ofNat 128 ((2 ^ 30) <<< 88 + 5 <<< 48 + 2 <<< 4 + 3)) (watchState [] 0 false true).objects } 0 fun d =>
      { d with predicate := some { agent := .lane 0 0 0, watch := 2, access, page } }
/-- A program whose load of weights finds sixteen loads in flight. -/
def crowdedState : State :=
  modCluster (modLaunch (watchState [.wload { form := .ext, a := 16, b := 2, c := 2, word2 := 128 }] (2 ^ 40) false true) (launchKey programCtx 0)
    fun l => { l with bill := { l.bill with args := List.replicate 16 (capOf 1) } }) 0 fun c =>
      { c with loads := (List.range 16).map fun i => { id := i, lo := 0, hi := 64 } }

theorem witness_predicate_page : (∀ p ∈ [none, some (awayPage, false), some (awayPage, true)],
      (match predicateOf (awayState p) 0 0 0 (sget {} 2 (getDie (awayState p) 0).watch) access with
        | .page k => k == awayPage
        | _ => false) = true
      ∧ lookup (awayState p) (corePort (awayState p) 0) 10 0 = .absent)
    ∧ (match predicateOf crowdedState 0 0 0 (sget {} 2 (getDie crowdedState 0).watch) access with
      | .waits => true
      | _ => false) = true := by decide +kernel

/-! ### Ill-formed instructions, steps, fetch, invariants -/

/-- One ill-formed operation for each check. -/
theorem test_ill_formed :
    (decode [0x61, 0x40, 0, 0, 0, 0, 0, 0] matches .error .truncated) = true
    ∧ decodeTableWord 32 0x0001FEE0 = none ∧ (decode (toBytes 4 0x0001FEE0) matches .error .opcode) = true
    ∧ rejects .iadd { form := .base, d := 3 } = some .form
    ∧ rejects .iadd { form := .ext, d := 3, a := 0x70, asel := true } = some .operand
    ∧ rejects .ordy { form := .base, b := 1 } = some .form
    ∧ rejects .iadd { form := .ext, d := 3, a := 1, b := 2, word2 := 5 } = some .immediate
    ∧ rejects .reduce { form := .ext, d := 3, a := 1, mod := 11 } = some .modifier
    ∧ rejects .iadd { form := .ext, d := 3, a := 1, b := 2, fslot := 1 } = some .formatField
    ∧ rejects .castsync { form := .base, grd := 1 } = some .guard
    ∧ rejects .fadd { form := .ext, d := 3, a := 1, b := 2, second := some { opc := .fadd, d2 := 4, a2 := 1, b2 := 2, grd2 := 7 } } = some .pair
    ∧ wellFormed .moduleBoot = false := by decide +kernel

/-- The state after reset with one instruction, after one step. -/
def stepped (nbits w : Nat) : Option State :=
  match step (State.reset.withFetchWord nbits w) with
  | .next t => some t
  | _ => none

/-- IADD v3, 3, 2 in a lane; `EXIT 0`; a word that is no instruction (R33, R55). -/
theorem test_step_add : ((stepped 96 0x20000022_460E40E1).map fun t => ((getThread t 0 0 0).pc, sget 0 3 (getThread t 0 0 0).v)) = some (12, 5) := by
  decide +kernel

theorem test_step_exit : ((stepped 32 0x400212E0).map fun t => (getThread t 0 0 0).live) = some false := by decide +kernel

theorem test_step_dqpush : ((stepped 96 0x00000003_041418E1).map fun t => ((theCue t 0).pc, sget 9 5 (theCue t 0).c, (getCore t 0).dq.length)) =
    some (12, 1, 0) := by decide +kernel

/-- An unassigned opcode faults with code 0x01, its word and its opcode in the record, and goes to the handler, where there is one (R55, R219). -/
def faulted : Option State :=
  match step (handled (State.reset.withFetchWord 32 0x0001FEE0)) with
  | .next t => some t
  | _ => none
theorem test_step_illegal : (faulted.map fun t => let u := getThread t 0 0 0
    (u.pc, u.inh, u.frec == frecOf { code := 1, info := 0x0001FEE0, opcode := 0xFF } 0 0)) = some (0x100, true, true) := by decide +kernel

/-- Turns of each kind that meet the conditions of a step. -/
def nopState : State := State.reset.withFetchWord 32 0xE0
def cueState : State := State.reset.withFetchWord 96 0x00000003_041418E1
def fetches (f : FetchStep) (p : List Word → Bool) : Bool :=
  match f with
  | .ok _ ws => p ws
  | _ => false

theorem witness_step_runs : nopState.agenda = [.lanes 0 [(0, 0)]] ∧ nopState.booted = true ∧ nopState.poweredDown = false
    ∧ groupMayIssue (splitDrawn (turnState nopState []) 0) 0 [(0, 0)] = true
    ∧ fetches (fetchAt (splitDrawn (turnState nopState []) 0) 0 0 0 none) (fun ws => decodeWords ws matches .ok _) = true
    ∧ fetches (fetchAt (splitDrawn (turnState (State.reset.withFetchWord 32 0x0001FEE0) []) 0) 0 0 0 none) (fun ws => decodeWords ws matches .error _) = true
    ∧ cueState.agenda = [.cue 0 false] ∧ contextRuns (turnState cueState []) 0 = true ∧ (getCue (turnState cueState []) 0).any cueMayIssue = true
    ∧ fetches (fetchAt (turnState cueState []) 0 0 0 none) (fun ws => decodeWords ws matches .ok _) = true
    ∧ opcOf (.tokenRefill 0) = none ∧ groupMayIssue (splitDrawn (turnState nopState []) 0) 0 [(0, 1)] = false
    ∧ State.reset.booted = false ∧ State.reset.agenda = [] := by decide +kernel

/-- The code of function 0 is not valid any more, or lies on an absent page. -/
def codeless (s : State) (absent : Bool) : State :=
  { s with objects := sput programOid (if absent then BitVec.ofNat 128 ((2 ^ 30) <<< 88 + 5 <<< 48 + 2 <<< 4 + 3) else 0) s.objects }

theorem witness_fetch_fails : (fetchAt (splitDrawn (turnState (codeless nopState false) []) 0) 0 0 0 none matches .fault _) = true
    ∧ (fetchAt (splitDrawn (turnState (codeless nopState true) []) 0) 0 0 0 none matches .page _ _) = true
    ∧ groupMayIssue (splitDrawn (turnState (codeless nopState false) []) 0) 0 [(0, 0)] = true
    ∧ (fetchAt (turnState (codeless cueState false) []) 0 0 0 none matches .fault _) = true
    ∧ (fetchAt (turnState (codeless cueState true) []) 0 0 0 none matches .page _ _) = true := by decide +kernel

/-- Code in no cache, in poison, held marked, held unmarked. -/
def codeCap (rights : Nat) : Cap := mkCap 0 (2 ^ 21) programOid rights 0
def codeHeld (stale : Option Nat) : State := modCore nopState 0 fun c => { c with code := [{ fn := 0, oid := 1, off := 0, word := 0xE0, stale }] }

theorem witness_fetch : isFug nopState 0 (codeCap 4) = false
    ∧ isFug (setObject nopState 0 programOid (BitVec.ofNat 128 ((2 ^ 21) <<< 88 + 3 <<< 4 + 1))) 0 (mkCap 0 (2 ^ 21) programOid 4 3) = true
    ∧ boundsFail nopState 0 (codeCap 4) (2 ^ 21) 4 false = true ∧ boundsFail nopState 0 (codeCap 4) (2 ^ 21 - 4) 4 false = false
    ∧ capHas (codeCap 3) 2 = false ∧ capHas (codeCap 4) 2 = true
    ∧ heldCode (getCore (codeHeld (some 1)) 0) 0 1 0 0 = some 0xE0 ∧ heldCode (getCore (codeHeld none) 0) 0 1 0 0 = none
    ∧ freshCode (getCore (codeHeld none) 0) 0 1 0 = some 0xE0 ∧ resolve (codeHeld none) { fn := 0, ctx := 1, core := some 0 } 1 0 = some programBase
    ∧ homeNat (codeHeld none) programBase 4 = 0xE0 ∧ heldCode (getCore nopState 0) 0 1 0 0 = none ∧ freshCode (getCore nopState 0) 0 1 0 = none
    ∧ (match (translate nopState 0 0 1 1 0).1 with
      | .valid p => !classFail (codeCap 4) p.tier p.cls && !p.poisoned && pageByte p 0 == programBase
      | _ => false) = true
    ∧ nmem (programBase / 64) { nopState with poison := [programBase / 64] }.poison = true ∧ nopState.poison = [] ∧ nopState.injected = [] := by
  decide +kernel

theorem witness_fetch_caches : CachesSound nopState := sound_of_empty _ fun die => by
  rcases die with _ | _ <;> rfl

/-- Well-formed instructions, and words that decode. -/
theorem witness_encoding : wellFormed (.nop { form := .base }) = true ∧ (decodeWords [0xE0] matches .ok _) = true := by decide +kernel

/-- A state with memory in form and sound caches, of which a step answers a next state. -/
theorem witness_invariants : Memory.wf nopState.mem = true ∧ (step nopState matches .next _) = true := by decide +kernel

end Sys2Proof.Tests
end

section
/-! SUPPORT. What the model's `wrap`, `sext`, saturation, shifts, bit fields, counts and packed elements are in terms of bit
vectors and of the rules' own words (R58, R72, R94 to R107). -/

namespace Sys2Proof.Proofs

open Machine Claims

theorem wrap_eq_ofInt (i : Int) (n : Nat) : wrap i n = (BitVec.ofInt n i).toNat := (BitVec.toNat_ofInt i).symm

theorem sext_eq_toInt (v n : Nat) : sext v n = (BitVec.ofNat n v).toInt := by
  rw [BitVec.toInt_eq_toNat_cond, BitVec.toNat_ofNat]; rfl

theorem ofNat_toNat_of_lt {v n : Nat} (h : v < 2 ^ n) : (BitVec.ofNat n v).toNat = v := by
  rw [BitVec.toNat_ofNat, Nat.mod_eq_of_lt h]

theorem wrap_lt (i : Int) (n : Nat) : wrap i n < 2 ^ n := wrap_eq_ofInt i n ▸ BitVec.isLt _

theorem wrap_div_eq_extract (p : Int) (n : Nat) :
    wrap (p / 2 ^ n) n = (BitVec.extractLsb' n n (BitVec.ofInt (2 * n) p)).toNat := by
  have hn : (0 : Int) < 2 ^ n := by positivity
  have hq : p % (2 ^ n * 2 ^ n) / 2 ^ n = p / 2 ^ n % 2 ^ n := by
    rw [Int.emod_def p, Int.emod_def (p / 2 ^ n), ← Int.ediv_ediv_of_nonneg hn.le, mul_assoc, sub_eq_add_neg, ← mul_neg,
      Int.add_mul_ediv_left _ _ hn.ne', ← sub_eq_add_neg]
  have h0 : 0 ≤ p % (2 ^ n * 2 ^ n) := Int.emod_nonneg _ (by positivity)
  rw [BitVec.extractLsb'_toNat, BitVec.toNat_ofInt, Nat.shiftRight_eq_div_pow, two_mul, pow_add]
  apply Int.ofNat_inj.mp
  push_cast
  rw [Int.toNat_of_nonneg h0, hq, Int.emod_emod_of_dvd _ dvd_rfl, wrap]
  push_cast
  exact Int.toNat_of_nonneg (Int.emod_nonneg _ hn.ne')

theorem wrap_natAbs (a n : Nat) :
    wrap ((sext a n).natAbs : Int) n =
      (if (BitVec.ofNat n a).msb then -BitVec.ofNat n a else BitVec.ofNat n a).toNat := by
  rw [sext_eq_toInt, wrap_eq_ofInt, BitVec.msb_eq_toInt]
  congr 1
  split
  next h =>
    rw [Int.ofNat_natAbs_of_nonpos (by simpa using h : (BitVec.ofNat n a).toInt < 0).le, BitVec.ofInt_neg, BitVec.ofInt_toInt]
  next h =>
    rw [Int.natAbs_of_nonneg (by simpa using h), BitVec.ofInt_toInt]

theorem satS_eq_clampSigned (x : Int) (n : Nat) : satS x n = clampSigned x n := by
  have h1 : (0 : Int) < 2 ^ (n - 1) := by positivity
  unfold satS clampSigned flagSat wrap
  generalize (2 : Int) ^ (n - 1) = p at h1
  dsimp only
  split
  next hlo => rw [min_eq_left (by omega), max_eq_left (by omega), if_neg (by omega)]
  next hlo =>
    split
    next hhi => rw [min_eq_right (by omega), max_eq_right (by omega), if_neg (by omega)]
    next hhi => rw [min_eq_left (by omega), max_eq_right (by omega), if_pos rfl]

theorem satN_eq_clampUnsigned (x : Int) (n : Nat) : satN x n = clampUnsigned x n := by
  have h1 : (0 : Int) < 2 ^ n := by positivity
  have hw {y : Int} (h0 : 0 ≤ y) (h : y ≤ 2 ^ n - 1) : wrap y n = y.toNat := by
    rw [wrap, Int.emod_eq_of_lt h0 (by push_cast; omega)]
  unfold satN clampUnsigned flagSat
  dsimp only
  split
  next hlo => rw [min_eq_left (by omega), max_eq_left (by omega), if_neg (by omega)]; rfl
  next hlo =>
    split
    next hhi => rw [hw (by omega) le_rfl, min_eq_right (by omega), max_eq_right (by omega), if_neg (by omega)]
    next hhi => rw [hw (by omega) (by omega), min_eq_left (by omega), max_eq_right (by omega), if_pos rfl]

/-! ### Counting zeros, reversal -/

theorem countP_range_split (p : Nat → Bool) {n k : Nat} (hk : k ≤ n) :
    (List.range n).countP p = (List.range k).countP p + (List.range (n - k)).countP fun i => p (k + i) := by
  obtain ⟨m, rfl⟩ := Nat.exists_eq_add_of_le hk
  rw [List.range_add, List.countP_append, List.countP_map, Nat.add_sub_cancel_left]
  rfl

theorem countP_range_eq_of_lt {p : Nat → Bool} {n k : Nat} (hk : k ≤ n) (h : ∀ i < n, p i = true ↔ i < k) :
    (List.range n).countP p = k := by
  have hlow : (List.range k).countP p = (List.range k).length :=
    List.countP_eq_length.mpr fun i hi => (h i (by simp at hi; omega)).mpr (List.mem_range.mp hi)
  have hhigh : ((List.range (n - k)).countP fun i => p (k + i)) = 0 :=
    List.countP_eq_zero.mpr fun i hi => by rw [h (k + i) (by simp at hi; omega)]; omega
  rw [countP_range_split p hk, hlow, hhigh, List.length_range, Nat.add_zero]

theorem countP_range_eq_of_ge {p : Nat → Bool} {n k : Nat} (hk : k ≤ n) (h : ∀ i < n, p i = true ↔ k ≤ i) :
    (List.range n).countP p = n - k := by
  have hlow : (List.range k).countP p = 0 :=
    List.countP_eq_zero.mpr fun i hi => by rw [h i (by simp at hi; omega)]; simpa using hi
  have hhigh : ((List.range (n - k)).countP fun i => p (k + i)) = (List.range (n - k)).length :=
    List.countP_eq_length.mpr fun i hi => (h (k + i) (by simp at hi; omega)).mpr (by omega)
  rw [countP_range_split p hk, hlow, hhigh, List.length_range, Nat.zero_add]

theorem mod_two_pow_eq_zero_iff (a m : Nat) : a % 2 ^ m = 0 ↔ ∀ i < m, a.testBit i = false := by
  constructor
  · intro h i hi
    have := Nat.testBit_mod_two_pow a m i
    simpa [h, hi] using this.symm
  · intro h
    refine Nat.eq_of_testBit_eq fun i => ?_
    by_cases hi : i < m <;> simp [Nat.testBit_mod_two_pow, hi, h]

theorem trailingZeros_eq_countP (a n : Nat) :
    trailingZeros a n = (List.range n).countP fun i => decide (a % 2 ^ (i + 1) = 0) := by
  unfold trailingZeros
  split
  next k hk =>
    obtain ⟨hbit, hkn, hlow⟩ := List.find?_range_eq_some.mp hk
    refine (countP_range_eq_of_lt (List.mem_range.mp hkn).le fun i _ => ?_).symm
    rw [decide_eq_true_eq, mod_two_pow_eq_zero_iff]
    refine ⟨fun h => ?_, fun h j hj => by simpa using hlow j (by omega)⟩
    by_contra hki
    simp [h k (by omega)] at hbit
  next hk =>
    have hlow := List.find?_range_eq_none.mp hk
    refine (countP_range_eq_of_lt le_rfl fun i hi => ?_).symm
    rw [decide_eq_true_eq, mod_two_pow_eq_zero_iff]
    exact ⟨fun _ => hi, fun _ j hj => by simpa using hlow j (by omega)⟩

theorem leadingZeros_eq_countP {a n : Nat} (ha : a < 2 ^ n) :
    leadingZeros a n = (List.range n).countP fun i => decide (a < 2 ^ i) := by
  have below {m : Nat} (hm : m ≤ n) (h : ∀ j < m, a.testBit (n - 1 - j) = false) : a < 2 ^ (n - m) := by
    refine Nat.lt_pow_two_of_testBit _ fun i hi => ?_
    by_cases hin : i < n
    · have := h (n - 1 - i) (by omega)
      rwa [show n - 1 - (n - 1 - i) = i by omega] at this
    · exact Nat.testBit_lt_two_pow (lt_of_lt_of_le ha (Nat.pow_le_pow_right two_pos (by omega)))
  unfold leadingZeros
  split
  next k hk =>
    obtain ⟨hbit, hkn, hhigh⟩ := List.find?_range_eq_some.mp hk
    have hkn := List.mem_range.mp hkn
    have hsize : a < 2 ^ (n - k) := below hkn.le fun j hj => by simpa using hhigh j hj
    rw [countP_range_eq_of_ge (k := n - k) (by omega) fun i _ => ?_]
    · omega
    rw [decide_eq_true_eq]
    refine ⟨fun h => ?_, fun h => lt_of_lt_of_le hsize (Nat.pow_le_pow_right two_pos h)⟩
    by_contra hki
    have := Nat.ge_two_pow_of_testBit hbit
    exact absurd (lt_of_lt_of_le h (Nat.pow_le_pow_right two_pos (by omega))) (not_lt.mpr this)
  next hk =>
    have hzero : a < 2 ^ (n - n) := below le_rfl fun j hj => by simpa using List.find?_range_eq_none.mp hk j hj
    rw [countP_range_eq_of_ge (Nat.zero_le n) fun i _ => ?_, Nat.sub_zero]
    simp_all

theorem reverseBits_eq_toNat_reverse (a n : Nat) : reverseBits a n = (BitVec.ofNat n a).reverse.toNat := by
  have hstep (k : Nat) (hk : k ≤ n) :
      (List.range k).foldl (fun acc j => acc + b2n (a.testBit j) <<< (n - 1 - j)) 0
        = (BitVec.ofNat n a).reverse.toNat / 2 ^ (n - k) * 2 ^ (n - k) := by
    induction k with
    | zero => simp [Nat.div_eq_of_lt (BitVec.isLt _)]
    | succ k ih =>
      obtain ⟨m, hm⟩ : ∃ m, n - k = m + 1 := ⟨n - k - 1, by omega⟩
      have hbit : (BitVec.ofNat n a).reverse.toNat / 2 ^ m % 2 = b2n (a.testBit k) := by
        have h := BitVec.getLsbD_reverse (i := m) (x := BitVec.ofNat n a)
        rw [← BitVec.testBit_toNat, BitVec.getMsbD_eq_getLsbD, BitVec.getLsbD_ofNat, show n - 1 - m = k by omega,
          Nat.testBit_eq_decide_div_mod_eq] at h
        simp only [show m < n by omega, show k < n by omega, decide_true, Bool.true_and] at h
        unfold b2n; rw [← h]; split <;> simp_all
      rw [List.range_succ, List.foldl_append, ih (by omega), List.foldl_cons, List.foldl_nil, hm, ← hbit,
        show n - 1 - k = m by omega, show n - (k + 1) = m by omega, Nat.shiftLeft_eq, pow_succ, ← Nat.div_div_eq_div_mul]
      generalize (BitVec.ofNat n a).reverse.toNat / 2 ^ m = q
      rw [mul_comm (2 ^ m) 2, ← mul_assoc, ← add_mul, Nat.div_add_mod']
  simpa [reverseBits] using hstep n le_rfl

/-! ### Logic and shifts -/

theorem notN_eq_toNat_not {v n : Nat} (h : v < 2 ^ n) : notN v n = (~~~BitVec.ofNat n v).toNat := by
  refine Nat.eq_of_testBit_eq fun i => ?_
  rw [notN, Nat.testBit_xor, Nat.testBit_two_pow_sub_one, BitVec.testBit_toNat, BitVec.getLsbD_not, BitVec.getLsbD_ofNat]
  by_cases hi : i < n
  · simp [hi]
  · simp [hi, Nat.testBit_lt_two_pow (lt_of_lt_of_le h (Nat.pow_le_pow_right two_pos (not_lt.mp hi)))]

theorem shlN_eq_toNat_shiftLeft (a s n : Nat) : shlN a s n = (BitVec.ofNat n a <<< s).toNat := by
  rw [shlN, BitVec.toNat_shiftLeft, BitVec.toNat_ofNat, Nat.shiftLeft_eq, Nat.shiftLeft_eq, Nat.mod_mul_mod]
  split
  next h => exact (Nat.mod_eq_zero_of_dvd ((Nat.pow_dvd_pow 2 h).mul_left a)).symm
  next => rfl

theorem shrN_eq_toNat_ushiftRight {a n : Nat} (s : Nat) (ha : a < 2 ^ n) : shrN a s n = (BitVec.ofNat n a >>> s).toNat := by
  rw [shrN, BitVec.toNat_ushiftRight, ofNat_toNat_of_lt ha, Nat.shiftRight_eq_div_pow]
  split
  next h => exact (Nat.div_eq_of_lt (lt_of_lt_of_le ha (Nat.pow_le_pow_right two_pos h))).symm
  next => rfl

/-- A signed `n`-bit value shifted by `n` or more leaves copies of its sign. -/
theorem toInt_shiftRight_min {n : Nat} (x : BitVec n) (s : Nat) : x.toInt / 2 ^ min s n = x.toInt >>> s := by
  rw [Int.shiftRight_eq_div_pow]
  rcases le_total s n with h | h
  · rw [min_eq_left h]; push_cast; rfl
  · have hs : (2 : Int) ^ n ≤ 2 ^ s := pow_le_pow_right₀ (by norm_num) h
    have hpos : (0 : Int) < 2 ^ n := by positivity
    have hlt : x.toInt < 2 ^ n := by have := x.two_mul_toInt_lt; omega
    have hle : -(2 : Int) ^ n ≤ x.toInt := by have := x.le_two_mul_toInt; omega
    rw [min_eq_right h]
    push_cast
    rcases lt_or_ge x.toInt 0 with h0 | h0
    · rw [Int.ediv_eq_neg_one_of_neg_of_le h0 (by omega), Int.ediv_eq_neg_one_of_neg_of_le h0 (by omega)]
    · rw [Int.ediv_eq_zero_of_lt h0 hlt, Int.ediv_eq_zero_of_lt h0 (by omega)]

theorem sarN_eq_toNat_sshiftRight (a s n : Nat) : sarN a s n = ((BitVec.ofNat n a).sshiftRight s).toNat := by
  rw [sarN, sext_eq_toInt, toInt_shiftRight_min, wrap_eq_ofInt]
  rfl

theorem rolN_eq_toNat_rotateLeft {a n : Nat} (s : Nat) (ha : a < 2 ^ n) :
    rolN a s n = ((BitVec.ofNat n a).rotateLeft s).toNat := by
  rw [BitVec.toNat_rotateLeft, ofNat_toNat_of_lt ha]
  rfl

/-! ### Bit fields -/

/-- The field that BFX extracts, bits at or above the width read as 0. -/
theorem setWidth_ushiftRight {a n : Nat} (s len : Nat) (ha : a < 2 ^ n) :
    (BitVec.ofNat n a >>> s).setWidth len = BitVec.ofNat len (if s ≥ n then 0 else a >>> s % 2 ^ len) := by
  apply BitVec.eq_of_toNat_eq
  rw [BitVec.toNat_setWidth, ← shrN_eq_toNat_ushiftRight s ha, BitVec.toNat_ofNat, shrN]
  split
  next => rfl
  next => rw [Nat.mod_mod]

theorem extract_unsigned {a n s len : Nat} (hl : len ≤ n) (ha : a < 2 ^ n) :
    (if s ≥ n then 0 else a >>> s % 2 ^ len) = (((BitVec.ofNat n a >>> s).setWidth len).setWidth n).toNat := by
  have hlt : (if s ≥ n then 0 else a >>> s % 2 ^ len) < 2 ^ len := by
    split
    · exact Nat.two_pow_pos _
    · exact Nat.mod_lt _ (Nat.two_pow_pos _)
  rw [setWidth_ushiftRight s len ha, BitVec.toNat_setWidth, ofNat_toNat_of_lt hlt,
    Nat.mod_eq_of_lt (lt_of_lt_of_le hlt (Nat.pow_le_pow_right two_pos hl))]

theorem extract_signed {a n : Nat} (s len : Nat) (ha : a < 2 ^ n) :
    wrap (sext (if s ≥ n then 0 else a >>> s % 2 ^ len) len) n =
      (((BitVec.ofNat n a >>> s).setWidth len).signExtend n).toNat := by
  rw [setWidth_ushiftRight s len ha, sext_eq_toInt, wrap_eq_ofInt]
  rfl

theorem insert_eq {a b n : Nat} (pos len : Nat) (ha : a < 2 ^ n) :
    (a &&& notN ((2 ^ len - 1) <<< pos % 2 ^ n) n) ||| (b <<< pos % 2 ^ n &&& (2 ^ len - 1) <<< pos % 2 ^ n) =
      ((BitVec.ofNat n a &&& ~~~BitVec.ofNat n ((2 ^ len - 1) * 2 ^ pos)) |||
        (BitVec.ofNat n b <<< pos &&& BitVec.ofNat n ((2 ^ len - 1) * 2 ^ pos))).toNat := by
  have hmask : BitVec.ofNat n ((2 ^ len - 1) * 2 ^ pos) = BitVec.ofNat n ((2 ^ len - 1) <<< pos % 2 ^ n) := by
    rw [Nat.shiftLeft_eq]
    exact BitVec.eq_of_toNat_eq (by simp)
  have hlt : (2 ^ len - 1) <<< pos % 2 ^ n < 2 ^ n := Nat.mod_lt _ (Nat.two_pow_pos _)
  rw [hmask, BitVec.toNat_or, BitVec.toNat_and, BitVec.toNat_and, ← notN_eq_toNat_not hlt, ofNat_toNat_of_lt ha,
    ofNat_toNat_of_lt hlt, BitVec.toNat_shiftLeft, BitVec.toNat_ofNat, Nat.shiftLeft_eq b, Nat.shiftLeft_eq (b % _),
    Nat.mod_mul_mod]

/-! ### Packed -/

theorem signedElem_eq (v m j : Nat) : signedElem v m j = sext (elem v m j) m := by
  simp [signedElem, elem, sext, Nat.shiftRight_eq_div_pow]

theorem unsignedElem_eq (v m j : Nat) : unsignedElem v m j = (elem v m j : Int) := by
  simp [unsignedElem, elem, Nat.shiftRight_eq_div_pow]

theorem elem_lt (v m j : Nat) : elem v m j < 2 ^ m := Nat.mod_lt _ (Nat.two_pow_pos m)

theorem wrap_sext {v n : Nat} (h : v < 2 ^ n) : wrap (sext v n) n = v := by
  rw [sext_eq_toInt, wrap_eq_ofInt, BitVec.ofInt_toInt, ofNat_toNat_of_lt h]

theorem wrap_of_lt {i : Int} {n : Nat} (h0 : 0 ≤ i) (h : i < 2 ^ n) : wrap i n = i.toNat := by
  rw [wrap, Int.emod_eq_of_lt h0 (by push_cast; exact h)]

theorem sext_bounds (v : Nat) {n : Nat} (hn : n ≤ 32) : -2 ^ 32 ≤ sext v n ∧ sext v n < 2 ^ 32 := by
  have hp : 2 ^ n ≤ 2 ^ 32 := Nat.pow_le_pow_right two_pos hn
  have hv : v % 2 ^ n < 2 ^ n := Nat.mod_lt _ (Nat.two_pow_pos n)
  unfold sext
  dsimp only
  split <;> omega

/-- A value of one element of width `m`, with SAT or without a flag. -/
def ElementFits (m : Nat) (r : Nat × Nat) : Prop := r.1 < 2 ^ m ∧ (r.2 = 0 ∨ r.2 = 1)

theorem wrap_fits (i : Int) (m : Nat) : ElementFits m (wrap i m, 0) := ⟨wrap_lt i m, .inl rfl⟩

theorem clampSigned_fits (x : Int) (m : Nat) : ElementFits m (clampSigned x m) := by
  refine ⟨wrap_lt _ m, ?_⟩
  unfold clampSigned; dsimp only; split <;> simp

theorem clampUnsigned_fits (x : Int) (m : Nat) : ElementFits m (clampUnsigned x m) := by
  have h1 : (0 : Int) < 2 ^ m := by positivity
  constructor
  · unfold clampUnsigned; zify; simp
  · unfold clampUnsigned; dsimp only; split <;> simp

/-- The model joins elements from the lowest up, with the flags of all. -/
theorem joinElems_eq_perElement {m : Nat} {f : Nat → Nat × Nat} (hf : ∀ j, ElementFits m (f j)) :
    joinElems m f (32 / m) = perElement m f := by
  have sum_add (l : List Nat) (x y : Nat) : l.foldr (fun j acc => acc + (f j).1 % 2 ^ m * 2 ^ (m * j)) (x + y)
      = l.foldr (fun j acc => acc + (f j).1 % 2 ^ m * 2 ^ (m * j)) x + y := by
    induction l with
    | nil => rfl
    | cons i l ih => simp only [List.foldr_cons, ih]; omega
  have key (l : List Nat) (acc : Nat × Nat) (ha : acc.2 = 0 ∨ acc.2 = 1) :
      l.foldl (fun acc j => (acc.1 + (f j).1 <<< (m * j), acc.2 ||| (f j).2)) acc
        = (l.foldr (fun j acc => acc + (f j).1 % 2 ^ m * 2 ^ (m * j)) acc.1,
            if acc.2 != 0 || l.any (fun j => (f j).2 != 0) then 1 else 0) := by
    induction l generalizing acc with
    | nil => rcases acc with ⟨x, y⟩; rcases ha with h | h <;> simp_all
    | cons i l ih =>
      obtain ⟨hd, hi⟩ := hf i
      rw [List.foldl_cons, ih _ (by rcases ha with h | h <;> rcases hi with h' | h' <;> simp [h, h']), List.foldr_cons,
        Nat.shiftLeft_eq, sum_add, Nat.mod_eq_of_lt hd]
      rcases ha with h | h <;> rcases hi with h' | h' <;> simp [h, h']
  exact (key _ (0, 0) (.inl rfl)).trans (by simp [perElement])

theorem flagged_joinElems {m : Nat} {f g : Nat → Nat × Nat} (h : ∀ j, g j = f j) (hf : ∀ j, ElementFits m (f j)) :
    flagged (joinElems m g (32 / m)) = flagged (perElement m f) := by
  rw [funext h, joinElems_eq_perElement hf]

/-- A rounded shift by 40 or more of a value of at most 32 bits is 0. -/
theorem shrr_eq_halfUp {v : Int} (s : Nat) (hlo : -2 ^ 32 ≤ v) (hhi : v < 2 ^ 32) :
    shrr v s = if s = 0 then v else (v + 2 ^ (s - 1)) / 2 ^ s := by
  unfold shrr
  split
  next => rfl
  next h0 =>
    split
    next h =>
      obtain ⟨k, rfl⟩ : ∃ k, s = k + 1 := ⟨s - 1, by omega⟩
      have hk : (2 : Int) ^ 33 ≤ 2 ^ k := pow_le_pow_right₀ (by norm_num) (by omega)
      rw [Nat.add_sub_cancel, pow_succ, Int.ediv_eq_zero_of_lt (by omega) (by omega)]
    next => rfl

theorem halfUp_bounds {v : Int} (s : Nat) (h0 : 0 ≤ v) (hv : v < 2 ^ 32) :
    0 ≤ (if s = 0 then v else (v + 2 ^ (s - 1)) / 2 ^ s) ∧ (if s = 0 then v else (v + 2 ^ (s - 1)) / 2 ^ s) < 2 ^ 32 := by
  split
  next => exact ⟨h0, hv⟩
  next hs =>
    have hp : (0 : Int) < 2 ^ (s - 1) := by positivity
    have hd : (2 : Int) ^ s = 2 ^ (s - 1) * 2 := by rw [← pow_succ]; congr 1; omega
    rw [hd]
    refine ⟨Int.ediv_nonneg (by omega) (by omega), Int.ediv_lt_of_lt_mul (by omega) ?_⟩
    nlinarith

theorem dotSum_two (f : Nat → Int) : dotSum f 2 = f 0 + f 1 := by simp [dotSum, List.range_succ]
theorem dotSum_four (f : Nat → Int) : dotSum f 4 = f 0 + f 1 + f 2 + f 3 := by simp [dotSum, List.range_succ]

end Sys2Proof.Proofs
end

section
/-! SUPPORT. The value functions of the integer, logic, move, 64-bit and packed instructions give the results of their rules
(R94 to R107) on operands as lanes and the cue thread read them (R37, R46). -/

namespace Sys2Proof.Proofs

open Machine Claims

/-- The value function with which the model runs an integer, logic, move, 64-bit or packed instruction. -/
def regAlu (o : Opc) : Option (AluIn → AluOut) :=
  match o with
  | .iadd => some fIadd
  | .isub => some fIsub
  | .imul => some fImul
  | .imulh => some fImulh
  | .imad => some fImad
  | .imin => some fImin
  | .imax => some fImax
  | .iabs => some fIabs
  | .ineg => some fIneg
  | .iadds => some fIadds
  | .isubs => some fIsubs
  | .icmp => some fIcmp
  | .sel => some fSel
  | .mov => some fMov
  | .and => some fAnd
  | .or => some fOr
  | .xor => some fXor
  | .andn => some fAndn
  | .not => some fNot
  | .shl => some fShl
  | .shr => some fShr
  | .sar => some fSar
  | .rol => some fRol
  | .bfx => some fBfx
  | .bfi => some fBfi
  | .popc => some fPopc
  | .clz => some fClz
  | .ctz => some fCtz
  | .brev => some fBrev
  | .plog => some fPlog
  | .padd16 => some fPadd16
  | .psub16 => some fPsub16
  | .pmul16 => some fPmul16
  | .pmac16 => some fPmac16
  | .padd8 => some fPadd8
  | .pdot8 => some fPdot8
  | .shrr => some fShrr
  | .satn => some fSatn
  | .pmin16 => some fPmin16
  | .pmax16 => some fPmax16
  | .add64 => some fAdd64
  | .sub64 => some fSub64
  | .shl64 => some fShl64
  | .shr64 => some fShr64
  | .mul32w => some fMul32w
  | _ => none

theorem exec_regAlu {o : Opc} {g : AluIn → AluOut} (h : regAlu o = some g) (op : Op) (s : State) :
    exec (instrOf o op) s = execAlu o g op s := by
  cases o <;> cases h <;> rfl

/-- The bits of a source: 64 in cue mode, in lane mode those of its registers, and of one register at least (R46, R101). -/
def sourceBits (o : Opc) (x : AluIn) (fd : Field) : Nat := if x.n = 64 then 64 else 32 * max 1 (span32 o x.mod fd)

/-- Operands as one of the two modes reads them, in a mode in which the opcode is legal. -/
structure OperandsFit (o : Opc) (x : AluIn) : Prop where
  width : x.n = 32 ∨ x.n = 64 ∧ (opRow o).modes ≠ .lane
  a : x.a < 2 ^ sourceBits o x .a
  b : x.b < 2 ^ sourceBits o x .b
  c : x.c < 2 ^ sourceBits o x .c

namespace OperandsFit

variable {o : Opc} {x : AluIn} {fd : Field}

theorem bits_single (hx : OperandsFit o x) (h : span32 o x.mod fd = 1) : sourceBits o x fd = x.n := by
  rcases hx.width with hn | ⟨hn, _⟩ <;> simp [sourceBits, hn, h]

theorem bits_pair (h : span32 o x.mod fd = 2) : sourceBits o x fd = 64 := by
  simp [sourceBits, h]

theorem a_lt (hx : OperandsFit o x) (h : span32 o x.mod .a = 1) : x.a < 2 ^ x.n := hx.bits_single h ▸ hx.a
theorem b_lt (hx : OperandsFit o x) (h : span32 o x.mod .b = 1) : x.b < 2 ^ x.n := hx.bits_single h ▸ hx.b
theorem c_lt (hx : OperandsFit o x) (h : span32 o x.mod .c = 1) : x.c < 2 ^ x.n := hx.bits_single h ▸ hx.c

theorem a_lt_pair (hx : OperandsFit o x) (h : span32 o x.mod .a = 2) : x.a < 2 ^ 64 := bits_pair h ▸ hx.a

theorem lane_width (hx : OperandsFit o x) (h : (opRow o).modes = .lane) : x.n = 32 :=
  hx.width.resolve_right fun hn => hn.2 h

end OperandsFit

/-! ### Results of one instruction -/

theorem wrap_add (a b n : Nat) : wrap ((a : Int) + b) n = (BitVec.ofNat n a + BitVec.ofNat n b).toNat := by
  simp only [wrap_eq_ofInt, BitVec.ofInt_add, BitVec.ofInt_natCast]

theorem wrap_neg (a n : Nat) : wrap (-(a : Int)) n = (-BitVec.ofNat n a).toNat := by
  rw [wrap_eq_ofInt, BitVec.ofInt_neg, BitVec.ofInt_natCast]

theorem wrap_sub (a b n : Nat) : wrap ((a : Int) - b) n = (BitVec.ofNat n a - BitVec.ofNat n b).toNat := by
  rw [wrap_eq_ofInt, Int.sub_eq_add_neg, BitVec.ofInt_add, BitVec.ofInt_neg, BitVec.ofInt_natCast, BitVec.ofInt_natCast,
    BitVec.sub_eq_add_neg]

theorem wrap_mul (a b n : Nat) : wrap ((a : Int) * b) n = (BitVec.ofNat n a * BitVec.ofNat n b).toNat := by
  simp only [wrap_eq_ofInt, BitVec.ofInt_mul, BitVec.ofInt_natCast]

theorem wrap_mul_add (a b c n : Nat) :
    wrap ((a : Int) * b + c) n = (BitVec.ofNat n a * BitVec.ofNat n b + BitVec.ofNat n c).toNat := by
  simp only [wrap_eq_ofInt, BitVec.ofInt_add, BitVec.ofInt_mul, BitVec.ofInt_natCast]

section
variable {a b n : Nat} (ha : a < 2 ^ n) (hb : b < 2 ^ n)
include ha hb

theorem and_eq_toNat : a &&& b = (BitVec.ofNat n a &&& BitVec.ofNat n b).toNat := by
  rw [BitVec.toNat_and, ofNat_toNat_of_lt ha, ofNat_toNat_of_lt hb]
theorem or_eq_toNat : a ||| b = (BitVec.ofNat n a ||| BitVec.ofNat n b).toNat := by
  rw [BitVec.toNat_or, ofNat_toNat_of_lt ha, ofNat_toNat_of_lt hb]
theorem xor_eq_toNat : a ^^^ b = (BitVec.ofNat n a ^^^ BitVec.ofNat n b).toNat := by
  rw [BitVec.toNat_xor, ofNat_toNat_of_lt ha, ofNat_toNat_of_lt hb]
theorem andn_eq_toNat : a &&& notN b n = (BitVec.ofNat n a &&& ~~~BitVec.ofNat n b).toNat := by
  rw [BitVec.toNat_and, ofNat_toNat_of_lt ha, notN_eq_toNat_not hb]
theorem ite_eq_toNat (p : Prop) [Decidable p] :
    (if p then a else b) = (if p then BitVec.ofNat n a else BitVec.ofNat n b).toNat := by
  rw [apply_ite BitVec.toNat, ofNat_toNat_of_lt ha, ofNat_toNat_of_lt hb]

end

theorem fImulh_eq {x : AluIn} (ha : x.a < 2 ^ x.n) (hb : x.b < 2 ^ x.n) :
    fImulh x = plain (if x.mod % 2 == 1
      then BitVec.extractLsb' x.n x.n ((BitVec.ofNat x.n x.a).setWidth (2 * x.n) * (BitVec.ofNat x.n x.b).setWidth (2 * x.n))
      else BitVec.extractLsb' x.n x.n
        ((BitVec.ofNat x.n x.a).signExtend (2 * x.n) * (BitVec.ofNat x.n x.b).signExtend (2 * x.n))).toNat := by
  have widen {v : Nat} (h : v < 2 ^ x.n) : (BitVec.ofNat x.n v).setWidth (2 * x.n) = BitVec.ofInt (2 * x.n) v := by
    rw [BitVec.ofInt_natCast]
    exact BitVec.eq_of_toNat_eq (by rw [BitVec.toNat_setWidth, ofNat_toNat_of_lt h, BitVec.toNat_ofNat])
  unfold fImulh unsignedForm sx
  dsimp only
  split
  next => rw [wrap_div_eq_extract, BitVec.ofInt_mul, widen ha, widen hb]
  next => rw [wrap_div_eq_extract, BitVec.ofInt_mul, sext_eq_toInt, sext_eq_toInt]; rfl

theorem fImin_eq {x : AluIn} (ha : x.a < 2 ^ x.n) (hb : x.b < 2 ^ x.n) :
    fImin x = plain (if (if x.mod % 2 == 1 then (BitVec.ofNat x.n x.a).ule (BitVec.ofNat x.n x.b)
      else (BitVec.ofNat x.n x.a).sle (BitVec.ofNat x.n x.b)) then BitVec.ofNat x.n x.a else BitVec.ofNat x.n x.b).toNat := by
  unfold fImin unsignedForm sx
  split
  next => simp only [BitVec.ule, decide_eq_true_eq, apply_ite BitVec.toNat, ofNat_toNat_of_lt ha, ofNat_toNat_of_lt hb, min_def]
  next => simp only [BitVec.sle_iff_toInt_le, apply_ite BitVec.toNat, ofNat_toNat_of_lt ha, ofNat_toNat_of_lt hb, sext_eq_toInt]

theorem fImax_eq {x : AluIn} (ha : x.a < 2 ^ x.n) (hb : x.b < 2 ^ x.n) :
    fImax x = plain (if (if x.mod % 2 == 1 then (BitVec.ofNat x.n x.b).ule (BitVec.ofNat x.n x.a)
      else (BitVec.ofNat x.n x.b).sle (BitVec.ofNat x.n x.a)) then BitVec.ofNat x.n x.a else BitVec.ofNat x.n x.b).toNat := by
  unfold fImax unsignedForm sx
  split
  next =>
    rw [max_comm]
    simp only [BitVec.ule, decide_eq_true_eq, apply_ite BitVec.toNat, ofNat_toNat_of_lt ha, ofNat_toNat_of_lt hb, max_def]
  next =>
    simp only [BitVec.sle_iff_toInt_le, apply_ite BitVec.toNat, ofNat_toNat_of_lt ha, ofNat_toNat_of_lt hb, sext_eq_toInt,
      ge_iff_le]

theorem fIcmp_eq (x : AluIn) : fIcmp x = plain (b2n (if x.mod.testBit 3 then compares (x.mod % 8) x.a x.b
    else compares (x.mod % 8) (sext x.a x.n) (sext x.b x.n))) := by
  have htype : x.mod.testBit 3 = (x.mod / 8 % 2 == 1) := by
    rw [Nat.testBit_eq_decide_div_mod_eq]; rfl
  have hcond (k : Nat) (a b : Int) : (match k with
      | 0 => decide (a = b)
      | 1 => decide (a ≠ b)
      | 2 => decide (a < b)
      | 3 => decide (a ≤ b)
      | 4 => decide (a > b)
      | _ => decide (a ≥ b)) = compares k a b := by
    rcases k with _ | _ | _ | _ | _ | k <;> simp [compares, bne, beq_eq_decide]
  unfold fIcmp
  rw [htype]
  cases (x.mod / 8 % 2 == 1) <;> exact congrArg (fun r => plain (b2n r)) (hcond _ _ _)

theorem fBfx_eq {x : AluIn} (ha : x.a < 2 ^ x.n) :
    fBfx x = plain (if x.mod % 2 == 1
      then ((BitVec.ofNat x.n x.a >>> x.b).setWidth (min x.c x.n)).signExtend x.n
      else ((BitVec.ofNat x.n x.a >>> x.b).setWidth (min x.c x.n)).setWidth x.n).toNat := by
  have hs := extract_signed x.b (min x.c x.n) ha
  have hu := extract_unsigned (s := x.b) (min_le_right x.c x.n) ha
  unfold fBfx
  by_cases hm : x.mod % 2 = 1
  · by_cases hl : min x.c x.n = 0
    · have hzero : sext (if x.b ≥ x.n then 0 else x.a >>> x.b % 2 ^ min x.c x.n) (min x.c x.n) = 0 := by
        rw [hl]; simp [sext, Nat.mod_one]
      rw [if_pos (by simpa using hm), ← hs, hzero]
      simp [hl, wrap, Nat.mod_one]
    · simp only [hm, hl, ne_eq, not_false_eq_true, and_self, if_true, beq_self_eq_true, hs]
  · simp only [hm, false_and, if_false, beq_iff_eq, hu]

theorem fMul32w_eq (x : AluIn) : fMul32w x = flagged
    (if x.mod % 2 == 1 then (((sext x.a 32 * sext x.b 32) % (2 ^ 64 : Nat)).toNat, 0)
      else (x.a % 2 ^ 32 * (x.b % 2 ^ 32), 0)) := by
  have hmod (v : Nat) : sext (v % 2 ^ 32) 32 = sext v 32 := by simp only [sext, Nat.mod_mod]
  unfold fMul32w
  dsimp only
  rw [hmod, hmod]
  by_cases hm : x.mod % 2 = 1
  · simp only [hm, if_true, beq_self_eq_true]; rfl
  · simp only [hm, if_false, beq_iff_eq]; rfl

theorem integerResult_agrees {o : Opc} {f : AluIn → Nat × Nat} (h : integerResult o = some f) :
    ∃ g, regAlu o = some g ∧ ∀ x, OperandsFit o x → g x = flagged (f x) := by
  cases o <;> cases h
  case iadd.refl => exact ⟨fIadd, rfl, fun x _ => congrArg plain (wrap_add x.a x.b x.n)⟩
  case isub.refl => exact ⟨fIsub, rfl, fun x _ => congrArg plain (wrap_sub x.a x.b x.n)⟩
  case imul.refl => exact ⟨fImul, rfl, fun x _ => congrArg plain (wrap_mul x.a x.b x.n)⟩
  case imulh.refl => exact ⟨fImulh, rfl, fun x hx => fImulh_eq (hx.a_lt rfl) (hx.b_lt rfl)⟩
  case imad.refl =>
    refine ⟨fImad, rfl, fun x hx => congrArg plain ?_⟩
    rw [← hx.lane_width rfl]
    exact wrap_mul_add x.a x.b x.c x.n
  case imin.refl => exact ⟨fImin, rfl, fun x hx => fImin_eq (hx.a_lt rfl) (hx.b_lt rfl)⟩
  case imax.refl => exact ⟨fImax, rfl, fun x hx => fImax_eq (hx.a_lt rfl) (hx.b_lt rfl)⟩
  case iabs.refl => exact ⟨fIabs, rfl, fun x _ => congrArg plain (wrap_natAbs x.a x.n)⟩
  case ineg.refl => exact ⟨fIneg, rfl, fun x _ => congrArg plain (wrap_neg x.a x.n)⟩
  case iadds.refl =>
    refine ⟨fIadds, rfl, fun x hx => congrArg flagged ?_⟩
    simp only [sx, hx.lane_width rfl, satN_eq_clampUnsigned, satS_eq_clampSigned, unsignedForm]
  case isubs.refl =>
    refine ⟨fIsubs, rfl, fun x hx => congrArg flagged ?_⟩
    simp only [sx, hx.lane_width rfl, satN_eq_clampUnsigned, satS_eq_clampSigned, unsignedForm]
  case icmp.refl => exact ⟨fIcmp, rfl, fun x _ => fIcmp_eq x⟩
  case sel.refl => exact ⟨fSel, rfl, fun x hx => congrArg plain (ite_eq_toNat (hx.a_lt rfl) (hx.b_lt rfl) _)⟩
  case mov.refl => exact ⟨fMov, rfl, fun x hx => congrArg plain (ofNat_toNat_of_lt (hx.a_lt rfl)).symm⟩
  case and.refl => exact ⟨fAnd, rfl, fun x hx => congrArg plain (and_eq_toNat (hx.a_lt rfl) (hx.b_lt rfl))⟩
  case or.refl => exact ⟨fOr, rfl, fun x hx => congrArg plain (or_eq_toNat (hx.a_lt rfl) (hx.b_lt rfl))⟩
  case xor.refl => exact ⟨fXor, rfl, fun x hx => congrArg plain (xor_eq_toNat (hx.a_lt rfl) (hx.b_lt rfl))⟩
  case andn.refl => exact ⟨fAndn, rfl, fun x hx => congrArg plain (andn_eq_toNat (hx.a_lt rfl) (hx.b_lt rfl))⟩
  case not.refl => exact ⟨fNot, rfl, fun x hx => congrArg plain (notN_eq_toNat_not (hx.a_lt rfl))⟩
  case shl.refl => exact ⟨fShl, rfl, fun x _ => congrArg plain (shlN_eq_toNat_shiftLeft x.a x.b x.n)⟩
  case shr.refl => exact ⟨fShr, rfl, fun x hx => congrArg plain (shrN_eq_toNat_ushiftRight x.b (hx.a_lt rfl))⟩
  case sar.refl => exact ⟨fSar, rfl, fun x _ => congrArg plain (sarN_eq_toNat_sshiftRight x.a x.b x.n)⟩
  case rol.refl => exact ⟨fRol, rfl, fun x hx => congrArg plain (rolN_eq_toNat_rotateLeft x.b (hx.a_lt rfl))⟩
  case bfx.refl => exact ⟨fBfx, rfl, fun x hx => fBfx_eq (hx.a_lt rfl)⟩
  case bfi.refl => exact ⟨fBfi, rfl, fun x hx => congrArg plain (insert_eq _ _ (hx.a_lt rfl))⟩
  case popc.refl => exact ⟨fPopc, rfl, fun x _ => congrArg plain List.countP_eq_length_filter.symm⟩
  case clz.refl => exact ⟨fClz, rfl, fun x hx => congrArg plain (leadingZeros_eq_countP (hx.a_lt rfl))⟩
  case ctz.refl => exact ⟨fCtz, rfl, fun x _ => congrArg plain (trailingZeros_eq_countP x.a x.n)⟩
  case brev.refl => exact ⟨fBrev, rfl, fun x _ => congrArg plain (reverseBits_eq_toNat_reverse x.a x.n)⟩
  case plog.refl => exact ⟨fPlog, rfl, fun x _ => rfl⟩
  case add64.refl => exact ⟨fAdd64, rfl, fun x _ => congrArg plain (wrap_add x.a x.b 64)⟩
  case sub64.refl => exact ⟨fSub64, rfl, fun x _ => congrArg plain (wrap_sub x.a x.b 64)⟩
  case shl64.refl => exact ⟨fShl64, rfl, fun x _ => congrArg plain (shlN_eq_toNat_shiftLeft x.a x.b 64)⟩
  case shr64.refl =>
    exact ⟨fShr64, rfl, fun x hx => congrArg plain (shrN_eq_toNat_ushiftRight x.b (hx.a_lt_pair rfl))⟩
  case mul32w.refl => exact ⟨fMul32w, rfl, fun x _ => fMul32w_eq x⟩

/-- The sums and differences of R102 on one element; `sign` is -1 for a difference. -/
def elementSum (m : Nat) (sign : Int) (x : AluIn) (j : Nat) : Nat × Nat :=
  match x.mod with
  | 0 => (wrap (unsignedElem x.a m j + sign * unsignedElem x.b m j) m, 0)
  | 1 => clampSigned (signedElem x.a m j + sign * signedElem x.b m j) m
  | _ => clampUnsigned (unsignedElem x.a m j + sign * unsignedElem x.b m j) m

theorem elementSum_fits (m : Nat) (sign : Int) (x : AluIn) (j : Nat) : ElementFits m (elementSum m sign x j) := by
  unfold elementSum
  split
  · exact wrap_fits _ m
  · exact clampSigned_fits _ m
  · exact clampUnsigned_fits _ m

theorem packedSum_eq (x : AluIn) (m : Nat) (sub : Bool) :
    packedSum x m sub = flagged (perElement m (elementSum m (if sub then -1 else 1) x)) := by
  have hcomb (p q : Int) : (if sub then p - q else p + q) = p + (if sub then -1 else 1) * q := by
    cases sub <;> simp [sub_eq_add_neg]
  refine flagged_joinElems (fun j => ?_) (elementSum_fits m _ x)
  unfold elementSum
  simp only [hcomb, signedElem_eq, unsignedElem_eq, satS_eq_clampSigned, satN_eq_clampUnsigned] <;> rfl

theorem fPmul16_eq (x : AluIn) {f : AluIn → Nat × Nat} (h : packedResult .pmul16 = some f) : fPmul16 x = flagged (f x) := by
  cases h
  refine flagged_joinElems (m := 16) (fun j => ?_) (fun j => ?_)
  · simp only [signedElem_eq, unsignedElem_eq, satS_eq_clampSigned, satN_eq_clampUnsigned] <;> rfl
  · split
    · exact clampSigned_fits _ 16
    · exact clampUnsigned_fits _ 16
    · exact clampSigned_fits _ 16

theorem fPmac16_eq (x : AluIn) {f : AluIn → Nat × Nat} (h : packedResult .pmac16 = some f) : fPmac16 x = flagged (f x) := by
  cases h
  simp only [fPmac16, dotSum_two, signedElem_eq, unsignedElem_eq, satS_eq_clampSigned, satN_eq_clampUnsigned, apply_ite flagged]

theorem fPdot8_eq (x : AluIn) {f : AluIn → Nat × Nat} (h : packedResult .pdot8 = some f) : fPdot8 x = flagged (f x) := by
  cases h
  simp only [fPdot8, dotSum_four, signedElem_eq, unsignedElem_eq, satS_eq_clampSigned, satN_eq_clampUnsigned]
  rcases x.mod with _ | _ | k <;> rfl

theorem fShrr_eq {x : AluIn} {f : AluIn → Nat × Nat} (ha : x.a < 2 ^ 32) (h : packedResult .shrr = some f) :
    fShrr x = flagged (f x) := by
  cases h
  have hsigned (v : Nat) {n : Nat} (hn : n ≤ 32) :=
    shrr_eq_halfUp x.b (sext_bounds v hn).left (sext_bounds v hn).right
  have hunsigned := shrr_eq_halfUp (v := (x.a : Int)) x.b (by omega) (by omega)
  obtain ⟨hpos, hlt⟩ := halfUp_bounds (v := (x.a : Int)) x.b (by omega) (by omega)
  unfold fShrr
  rcases hm : x.mod with _ | _ | k
  · rw [hsigned x.a le_rfl]; simp only [hm]; rfl
  · rw [hunsigned, wrap_of_lt hpos hlt]; simp only [hm]; rfl
  · simp only [hm]
    exact flagged_joinElems (m := 16) (f := fun j => (wrap _ 16, 0)) (fun j => by rw [hsigned _ (by norm_num), ← signedElem_eq])
      (fun j => wrap_fits _ 16)

theorem fSatn_eq (x : AluIn) {f : AluIn → Nat × Nat} (h : packedResult .satn = some f) : fSatn x = flagged (f x) := by
  cases h
  simp only [fSatn, satS_eq_clampSigned, satN_eq_clampUnsigned]
  rcases x.mod with _ | _ | _ | k <;> rfl

/-- The element that PMIN16 or PMAX16 picks (R105): the lesser or the greater, read unsigned or signed. -/
def elementPick (pick : Int → Int → Int) (x : AluIn) (j : Nat) : Nat × Nat :=
  if x.mod % 2 = 1 then ((pick (unsignedElem x.a 16 j) (unsignedElem x.b 16 j)).toNat, 0)
  else (wrap (pick (signedElem x.a 16 j) (signedElem x.b 16 j)) 16, 0)

theorem elementPick_eq (greater : Bool) (x : AluIn) (j : Nat) :
    elementPick (if greater then max else min) x j =
      (if (if unsignedForm x then decide (elem x.a 16 j ≤ elem x.b 16 j)
        else decide (sext (elem x.a 16 j) 16 ≤ sext (elem x.b 16 j) 16)) != greater
      then elem x.a 16 j else elem x.b 16 j, 0) := by
  have hwrap (p : Prop) [Decidable p] : (if p then elem x.a 16 j else elem x.b 16 j)
      = wrap (if p then sext (elem x.a 16 j) 16 else sext (elem x.b 16 j) 16) 16 := by
    rw [apply_ite (wrap · 16), wrap_sext (elem_lt _ _ _), wrap_sext (elem_lt _ _ _)]
  unfold elementPick
  simp only [unsignedElem_eq, signedElem_eq, unsignedForm, beq_iff_eq]
  split
  next =>
    congr 1
    by_cases h : elem x.a 16 j ≤ elem x.b 16 j <;> cases greater <;> simp [h] <;> omega
  next =>
    rw [hwrap]
    congr 2
    by_cases h : sext (elem x.a 16 j) 16 ≤ sext (elem x.b 16 j) 16 <;> cases greater <;> simp [h] <;> omega

theorem elementPick_fits (greater : Bool) (x : AluIn) (j : Nat) :
    ElementFits 16 (elementPick (if greater then max else min) x j) := by
  refine elementPick_eq greater x j ▸ ⟨?_, .inl rfl⟩
  generalize ((if unsignedForm x then _ else _) != greater) = takesA
  cases takesA
  · exact elem_lt x.b 16 j
  · exact elem_lt x.a 16 j

theorem packedPick_eq (x : AluIn) (greater : Bool) :
    packedPick x greater = flagged (perElement 16 (elementPick (if greater then max else min) x)) := by
  unfold packedPick
  simp only [← elementPick_eq]
  exact flagged_joinElems (m := 16) (fun _ => rfl) (elementPick_fits greater x)

theorem fPmin16_eq (x : AluIn) : fPmin16 x = flagged (perElement 16 (elementPick min x)) :=
  (packedPick_eq x false).trans (by rw [if_neg Bool.false_ne_true])

theorem fPmax16_eq (x : AluIn) : fPmax16 x = flagged (perElement 16 (elementPick max x)) :=
  (packedPick_eq x true).trans (by rw [if_pos rfl])

theorem packedResult_agrees {o : Opc} {f : AluIn → Nat × Nat} (h : packedResult o = some f) :
    ∃ g, regAlu o = some g ∧ ∀ x, OperandsFit o x → g x = flagged (f x) := by
  cases o <;> cases id h
  case padd16.refl => exact ⟨fPadd16, rfl, fun x _ => packedSum_eq x 16 false⟩
  case psub16.refl => exact ⟨fPsub16, rfl, fun x _ => packedSum_eq x 16 true⟩
  case padd8.refl => exact ⟨fPadd8, rfl, fun x _ => packedSum_eq x 8 false⟩
  case pmul16.refl => exact ⟨fPmul16, rfl, fun x _ => fPmul16_eq x h⟩
  case pmac16.refl => exact ⟨fPmac16, rfl, fun x _ => fPmac16_eq x h⟩
  case pdot8.refl => exact ⟨fPdot8, rfl, fun x _ => fPdot8_eq x h⟩
  case shrr.refl => exact ⟨fShrr, rfl, fun x hx => fShrr_eq (hx.lane_width rfl ▸ hx.a_lt rfl) h⟩
  case satn.refl => exact ⟨fSatn, rfl, fun x _ => fSatn_eq x h⟩
  case pmin16.refl => exact ⟨fPmin16, rfl, fun x _ => fPmin16_eq x⟩
  case pmax16.refl => exact ⟨fPmax16, rfl, fun x _ => fPmax16_eq x⟩

/-- Each integer or packed opcode runs with a value function that gives the result of its rule. -/
theorem register_result_agrees {o : Opc} {f : AluIn → Nat × Nat} (h : integerResult o = some f ∨ packedResult o = some f) :
    ∃ g, regAlu o = some g ∧ ∀ x, OperandsFit o x → g x = flagged (f x) :=
  h.elim integerResult_agrees packedResult_agrees

/-! ### Operands fit -/

theorem b2n_le_one (b : Bool) : b2n b ≤ 1 := by cases b <;> decide

theorem joinWords_succ (r : Nat → Word) (x n : Nat) :
    joinWords r x (n + 1) = (r x).toNat + joinWords r (x + 1) n <<< 32 := rfl

theorem joinWords_lt (r : Nat → Word) (x n : Nat) : joinWords r x n < 2 ^ (32 * n) := by
  induction n generalizing x with
  | zero => exact Nat.two_pow_pos _
  | succ n ih =>
    have hlow := (r x).isLt
    have hrest := ih (x + 1)
    rw [joinWords_succ, Nat.shiftLeft_eq, mul_add, pow_add, mul_one]
    generalize joinWords r (x + 1) n = y at hrest
    omega

theorem laneUniform_lt (c : Cast) (op : Op) (x n : Nat) : laneUniform c op x n < 2 ^ (32 * n) := by
  unfold laneUniform
  split
  · exact joinWords_lt _ x n
  · split <;> exact wrap_lt _ _

theorem fieldVal_lt (op : Op) (fd : Field) : fieldVal op fd < 2 ^ 7 := by
  cases fd <;> exact BitVec.isLt _

theorem laneSrc_lt (s : State) (fr : Frame) (cast lane : Nat) (fd : Field) :
    laneSrc s fr cast lane fd < 2 ^ (32 * max 1 (span32 fr.o fr.op.mod.toNat fd)) := by
  have widen {v k : Nat} (hv : v < 2 ^ k) (hk : k ≤ 32 * max 1 (span32 fr.o fr.op.mod.toNat fd)) :
      v < 2 ^ (32 * max 1 (span32 fr.o fr.op.mod.toNat fd)) := lt_of_lt_of_le hv (Nat.pow_le_pow_right two_pos hk)
  unfold laneSrc
  dsimp only
  split
  case h_1 | h_2 =>
    split
    · exact widen (laneUniform_lt ..) (by omega)
    · exact widen (joinWords_lt ..) (by omega)
  case h_3 => exact widen (k := 1) (Nat.lt_succ_of_le (b2n_le_one _)) (by omega)
  all_goals exact widen (fieldVal_lt _ _) (by omega)

theorem laneOperands_fit (s : State) (core : Nat) (th : Nat × Nat) (o : Opc) (op : Op) :
    OperandsFit o (laneOperands s core th o op) :=
  have hlt := laneSrc_lt s (laneFrame s core th.1 th.2 o op) th.1 th.2
  ⟨.inl rfl, hlt .a, hlt .b, hlt .c⟩

theorem cueOperands_fit {s : State} {core : Nat} {o : Opc} {op : Op} (h : legalIn (cueEnv s core) o op = true) :
    OperandsFit o (cueOperands s core o op) := by
  refine ⟨.inr ⟨rfl, fun hm => ?_⟩, Nat.mod_lt _ (Nat.two_pow_pos _), Nat.mod_lt _ (Nat.two_pow_pos _),
    Nat.mod_lt _ (Nat.two_pow_pos _)⟩
  simp [legalIn, modeLegal, hm, cueEnv] at h

end Sys2Proof.Proofs
end

section
/-! SUPPORT. A group of lanes runs an operation that only writes registers: the lanes run one after another, none changes what
another reads, and each ends as if it ran alone (R43, R58). The cue thread runs an operation that executes at once (R182, R183). -/

namespace Sys2Proof.Proofs

open Machine Claims

/-! ### A group of lanes -/

/-- What a lane reads is in `u` as in `s`: its thread, the uniform registers of its cast, the launch, the free bits of the turn. -/
structure LaneReadsAs (s u : State) (core : Nat) (th : Nat × Nat) : Prop where
  thread : getThread u core th.1 th.2 = getThread s core th.1 th.2
  uniform : (getCast u core th.1).k = (getCast s core th.1).k
  bill : coreBill u core = coreBill s core
  tick : u.tick = s.tick

theorem LaneReadsAs.refl (s : State) (core : Nat) (th : Nat × Nat) : LaneReadsAs s s core th := ⟨rfl, rfl, rfl, rfl⟩

theorem LaneReadsAs.trans {s u w : State} {core : Nat} {th : Nat × Nat} (h : LaneReadsAs s u core th)
    (h' : LaneReadsAs u w core th) : LaneReadsAs s w core th :=
  ⟨h'.thread.trans h.thread, h'.uniform.trans h.uniform, h'.bill.trans h.bill, h'.tick.trans h.tick⟩

theorem LaneReadsAs.guardOf_eq {s u : State} {core : Nat} {th : Nat × Nat} (h : LaneReadsAs s u core th) (op : Op) :
    guardOf u core th.1 th.2 op = guardOf s core th.1 th.2 op := by
  rw [guardOf, guardOf, readP_congr _ h.thread h.tick]

theorem LaneReadsAs.laneIn_eq {s u : State} {fr : Frame} {th : Nat × Nat} (h : LaneReadsAs s u fr.core th) :
    laneIn u fr th.1 th.2 = laneIn s fr th.1 th.2 := by
  have hsrc (fd : Field) : laneSrc u fr th.1 th.2 fd = laneSrc s fr th.1 th.2 fd := laneSrc_congr fd h.thread h.uniform h.tick
  simp only [laneIn, hsrc, slotOf, h.bill, h.thread]

/-- Another lane reads after one lane has ended its word what it read before. -/
theorem laneReadsAs_modThread (s : State) (core : Nat) {th th' : Nat × Nat} (f : Thread → Thread) (h : th' ≠ th) :
    LaneReadsAs s (modThread s core th.1 th.2 f) core th' := by
  refine ⟨getThread_modThread_other s core f h, ?_, coreBill_modThread s core th.1 th.2 core f, rfl⟩
  by_cases hk : th'.1 = th.1
  · rw [hk, modThread, getCast_setThread]
  · rw [modThread, getCast_setThread_other s core th.2 _ hk]

theorem onlyLanes_refl (s : State) (core : Nat) : OnlyLanes s s core [] :=
  ⟨rfl, fun _ _ => rfl, rfl, fun _ => rfl, fun _ _ _ => rfl, fun _ => rfl⟩

theorem onlyLanes_trans {s u t : State} {core : Nat} {th : Nat × Nat} {ths : List (Nat × Nat)} (h : OnlyLanes s u core [th])
    (h' : OnlyLanes u t core ths) : OnlyLanes s t core (th :: ths) := by
  obtain ⟨hstate, hcores, hcore, hcasts, hthreads, hmem⟩ := h
  obtain ⟨hstate', hcores', hcore', hcasts', hthreads', hmem'⟩ := h'
  refine ⟨?_, fun c hc => (hcores' c hc).trans (hcores c hc), ?_, fun k => ?_, fun k l hn => ?_,
    fun key => (hmem' key).trans (hmem key)⟩
  · rw [hstate'.trans (congrArg (fun w : State => { w with cores := t.cores }) hstate)]
  · rw [hcore'.trans (congrArg (fun w : Core => { w with casts := (getCore t core).casts }) hcore)]
  · rw [(hcasts' k).trans (congrArg (fun w : Cast => { w with threads := (getCast t core k).threads }) (hcasts k))]
  · rw [List.mem_cons, not_or] at hn
    exact (hthreads' k l hn.2).trans (hthreads k l (by simpa using hn.1))

theorem getThread_of_onlyLanes {s t : State} {core k l : Nat} {ths : List (Nat × Nat)} (h : OnlyLanes s t core ths)
    (hn : (k, l) ∉ ths) : getThread t core k l = getThread s core k l := by
  obtain ⟨_, _, _, _, hthreads, _⟩ := h
  exact hthreads k l hn

/-- A lane after a word whose operation wrote `e`, up to what only delays it. -/
def laneResult (fr : Frame) (e : Eff) (t : Thread) : Thread :=
  { t with
    v := e.v.foldl (fun v x => sset 0 x.1 x.2 v) t.v
    p := e.p.foldl (fun p x => withP x.1 x.2 p) t.p
    tstat := t.tstat ||| BitVec.ofNat 32 e.flags
    srstate := e.sr.getD t.srstate
    pc := e.goto.getD fr.next
    wait := e.wait
    committed := false }

/-- What a register operation writes in a lane: nothing where its guard is false. -/
def laneEff (s : State) (fr : Frame) (E : Nat × Nat → Eff) (th : Nat × Nat) : Eff :=
  if guardOf s fr.core th.1 th.2 fr.op then E th else {}

/-- The body writes `E` in each lane whose guard is true and does nothing else, whatever the other lanes have done before. -/
def WritesOnly (s : State) (fr : Frame) (body : Body) (E : Nat × Nat → Eff) (ths : List (Nat × Nat)) : Prop :=
  ∀ th ∈ ths, guardOf s fr.core th.1 th.2 fr.op = true → ∀ u, LaneReadsAs s u fr.core th →
    body fr th.1 th.2 u = .done u (E th)

theorem laneWord_writes {s u : State} {fr : Frame} {body : Body} {second : Second → Body} {E : Nat × Nat → Eff} {th : Nat × Nat}
    (hs : fr.op.second = none) (hu : LaneReadsAs s u fr.core th)
    (hb : guardOf s fr.core th.1 th.2 fr.op = true → body fr th.1 th.2 u = .done u (E th)) :
    laneWord fr body second false u th.1 th.2 = .next (finishLane u fr th.1 th.2 (laneEff s fr E th) none false) := by
  unfold laneWord laneEff
  rw [hu.guardOf_eq]
  cases hg : guardOf s fr.core th.1 th.2 fr.op
  · simp [hs]
  · simp [hs, hb hg]

theorem laneFold_writes {s : State} {fr : Frame} {body : Body} {second : Second → Body} {E : Nat × Nat → Eff}
    (hs : fr.op.second = none) : ∀ {ths : List (Nat × Nat)} {u : State}, ths.Nodup →
    (∀ th ∈ ths, hasLane u fr.core th.1 th.2 = true) → (∀ th ∈ ths, LaneReadsAs s u fr.core th) → WritesOnly s fr body E ths →
    ∃ t, laneFold fr body second false ths u = .next t ∧ OnlyLanes u t fr.core ths ∧
      ∀ th ∈ ths, SameThread (getThread t fr.core th.1 th.2)
        (laneResult fr (laneEff s fr E th) (getThread s fr.core th.1 th.2)) := by
  intro ths
  induction ths with
  | nil => exact fun {u} _ _ _ _ => ⟨u, rfl, onlyLanes_refl u fr.core, by simp⟩
  | cons th rest ih =>
    intro u hnd hl hu hb
    obtain ⟨hth, hnd⟩ := List.nodup_cons.mp hnd
    have hne {th' : Nat × Nat} (h : th' ∈ rest) : th' ≠ th := fun heq => hth (heq ▸ h)
    have hword := laneWord_writes (second := second) hs (hu th List.mem_cons_self)
      (fun hg => hb th List.mem_cons_self hg u (hu th List.mem_cons_self))
    obtain ⟨t, hrun, honly, hres⟩ := ih (u := finishLane u fr th.1 th.2 (laneEff s fr E th) none false) hnd
      (fun th' h => (hasLane_modThread ..).trans (hl th' (List.mem_cons_of_mem _ h)))
      (fun th' h => (hu th' (List.mem_cons_of_mem _ h)).trans (laneReadsAs_modThread u fr.core _ (hne h)))
      (fun th' h => hb th' (List.mem_cons_of_mem _ h))
    refine ⟨t, by rw [laneFold, hword, ← hrun], onlyLanes_trans (onlyLanes_modThread ..) honly, fun th' h => ?_⟩
    rcases List.mem_cons.mp h with rfl | h
    · rw [getThread_of_onlyLanes honly hth, finishLane,
        getThread_modThread_same u fr.core th'.1 th'.2 _ (hl th' List.mem_cons_self), (hu th' List.mem_cons_self).thread]
      exact afterWord_plain ..
    · exact hres th' h

theorem groupIssues_iff {s : State} {core : Nat} {ths : List (Nat × Nat)} {o : Opc} {op : Op} :
    groupIssues s core ths o op = true ↔ s.actor = .lanes core ths ∧ ths.Nodup ∧ op.second = none ∧
      legalIn (laneEnv s core) o op = true ∧ ∀ th ∈ ths, hasLane s core th.1 th.2 = true ∧
        (getThread s core th.1 th.2).pc = groupPc s core ths ∧ onTime s core th.1 th.2 o op = true ∧
        (getThread s core th.1 th.2).committed = false := by
  simp [groupIssues, and_assoc]

theorem stallCheck_onTime {s : State} {core : Nat} {o : Opc} {op : Op} (pc : Word) (hm : modeSchk (coreMode s core) = true)
    {ths : List (Nat × Nat)} (h : ∀ th ∈ ths, onTime s core th.1 th.2 o op = true) :
    stallCheck s (frameAt core pc o op) ths = (s, ths) := by
  induction ths with
  | nil => rfl
  | cons th rest ih =>
    have hth : stallShort s core th.1 th.2 o op = none := by simpa [onTime, hm] using h th List.mem_cons_self
    have hrest := ih fun th' h' => h th' (List.mem_cons_of_mem _ h')
    simp only [stallCheck, hrest]
    simp [frameAt, hth]

/-- The frame in which a group runs an operation. -/
def groupFrame (s : State) (core : Nat) (ths : List (Nat × Nat)) (o : Opc) (op : Op) : Frame :=
  withLeads s (frameAt core (groupPc s core ths) o op) ths

theorem runLanes_group {s : State} {core : Nat} {ths : List (Nat × Nat)} {o : Opc} {op : Op}
    (h : groupIssues s core ths o op = true) (body : Body) (second : Second → Body) :
    runLanes o op false body second core ths s = laneFold (groupFrame s core ths o op) body second false ths s := by
  obtain ⟨_, _, _, hl, hths⟩ := groupIssues_iff.mp h
  unfold runLanes groupFrame
  simp only [hl, Bool.not_true, Bool.false_eq_true, if_false]
  by_cases hm : modeSchk (coreMode s core) = true
  · have htimes : ∀ th ∈ ths, onTime s core th.1 th.2 o op = true := fun th hth => by
      obtain ⟨_, _, ht, _⟩ := hths th hth
      exact ht
    rw [if_pos hm, stallCheck_onTime _ hm htimes]
  · rw [if_neg hm]

theorem destEff_flags (fr : Frame) (d : Nat) : (destEff fr d).flags = 0 := by unfold destEff; split <;> rfl
theorem destEff_sr (fr : Frame) (d : Nat) : (destEff fr d).sr = none := by unfold destEff; split <;> rfl
theorem destEff_goto (fr : Frame) (d : Nat) : (destEff fr d).goto = none := by unfold destEff; split <;> rfl
theorem destEff_wait (fr : Frame) (d : Nat) : (destEff fr d).wait = .ready := by unfold destEff; split <;> rfl

/-- A result for the destination, with flags. -/
def resultEff (fr : Frame) (d fl : Nat) : Eff := { destEff fr d with flags := fl }

theorem resultEff_zero (fr : Frame) (d : Nat) : resultEff fr d 0 = destEff fr d := by
  rw [resultEff, ← destEff_flags fr d]

theorem withFlags_zero (t : Thread) : withFlags 0 t = t := by
  simp [withFlags]

theorem laneResult_none {t : Thread} (fr : Frame) (h : t.committed = false) : laneResult fr {} t = readyAt fr.next t := by
  simp [laneResult, readyAt, ← h]

theorem withDest_eq (fr : Frame) (d : Nat) (t : Thread) :
    withDest fr.o fr.op d t =
      { t with
        v := (destEff fr d).v.foldl (fun v x => sset 0 x.1 x.2 v) t.v
        p := (destEff fr d).p.foldl (fun p x => withP x.1 x.2 p) t.p } := by
  unfold withDest destEff
  cases kindOf fr.o .d <;> rfl

theorem laneResult_result {t : Thread} (fr : Frame) (d fl : Nat) (h : t.committed = false) :
    laneResult fr (resultEff fr d fl) t = readyAt fr.next (withFlags fl (withDest fr.o fr.op d t)) := by
  rw [withDest_eq]
  simp [laneResult, resultEff, destEff_sr, destEff_goto, destEff_wait, withFlags, readyAt, ← h]

theorem runLanes_results {s : State} {core : Nat} {ths : List (Nat × Nat)} {o : Opc} {op : Op} {body : Body}
    {second : Second → Body} {d fl : Nat × Nat → Nat} (h : groupIssues s core ths o op = true)
    (hb : WritesOnly s (groupFrame s core ths o op) body (fun th => resultEff (groupFrame s core ths o op) (d th) (fl th)) ths) :
    ∃ t, runLanes o op false body second core ths s = .next t ∧ OnlyLanes s t core ths ∧
      ∀ th ∈ ths, LaneAfter s t core o op th fun old => withFlags (fl th) (withDest o op (d th) old) := by
  obtain ⟨_, hnd, hs, _, hths⟩ := groupIssues_iff.mp h
  obtain ⟨t, hrun, honly, hres⟩ := laneFold_writes (fr := groupFrame s core ths o op) (second := second) hs hnd
    (fun th hth => (hths th hth).left) (fun th _ => .refl s core th) hb
  refine ⟨t, (runLanes_group h body second).trans hrun, honly, fun th hth => (hres th hth).trans ?_⟩
  obtain ⟨_, hpc, _, hc⟩ := hths th hth
  have hnext : (groupFrame s core ths o op).next = nextPc (getThread s core th.1 th.2).pc op := by rw [hpc]; rfl
  dsimp only
  rw [← hnext]
  unfold laneEff
  change SameThread (laneResult _ (if guardOf s core th.1 th.2 op = true then _ else _) (getThread s core th.1 th.2)) _
  split
  · exact congrArg undelayed (laneResult_result _ _ _ hc)
  · exact congrArg undelayed (laneResult_none _ hc)

/-! ### The cue thread -/

theorem onlyCue_setCue (s : State) (core : Nat) (q : Cue) : OnlyCue s (setCue s core q) core :=
  ⟨rfl, fun _ hc => getCore_setCue_other s q hc, by rw [getCore_setCue], fun _ => rfl⟩

theorem theCue_of_some {s : State} {core : Nat} {q : Cue} (h : getCue s core = some q) : theCue s core = q := by
  simp [theCue, h]

theorem cueRuns_iff {s : State} {core : Nat} {o : Opc} {op : Op} :
    cueRuns s core o op = true ↔ ((∃ hold, s.actor = .cue core hold) ∧ legalIn (cueEnv s core) o op = true ∧
      ∃ q, getCue s core = some q ∧ cueMayIssue q = true ∧ cueReady q o op false = true) := by
  have hactor : (s.actor == .cue core true || s.actor == .cue core false) = true ↔ ∃ hold, s.actor = .cue core hold := by
    simp [Bool.exists_bool, or_comm]
  unfold cueRuns cueIssues
  rw [Bool.and_eq_true, hactor, Bool.and_eq_true, and_comm (b := legalIn _ _ _ = true)]
  cases getCue s core <;> simp

/-- An operation of the cue thread whose body gives a value for its destination. -/
theorem runCueNow_value {s : State} {core : Nat} {o : Opc} {op : Op} {q : Cue} {body : CueBody} {d : Nat} {v : DWord}
    (hq : getCue s core = some q) (hm : cueMayIssue q = true) (hl : legalIn (cueEnv s core) o op = true)
    (hr : cueReady q o op false = true) (hd : cueDest o op = some d)
    (hb : body (cueFrame s core o op) (BitVec.ofNat 64 (cueSrc q.c (cueFrame s core o op) .a))
      (BitVec.ofNat 64 (cueSrc q.c (cueFrame s core o op) .b)) (BitVec.ofNat 64 (cueSrc q.c (cueFrame s core o op) .c)) s
        = .done s (some v) none) :
    runCueNow o op body core s = .next (setCue s core (cueWith s core op (some (d, v)))) := by
  simp only [cueFrame, theCue_of_some hq] at hb
  unfold runCueNow
  simp only [hq, hm, hl, hr, Bool.not_true, Bool.false_eq_true, if_false, hb, hd, modCue_some hq, cueWith, theCue_of_some hq]
  rfl

end Sys2Proof.Proofs
end

section
/-! The register instructions write their results, in lanes and in the cue thread (R46, R94 to R107). -/

namespace Sys2Proof.Proofs

open Machine Claims

theorem aluBody_writesOnly {s : State} {core : Nat} {ths : List (Nat × Nat)} {o : Opc} {op : Op} {g : AluIn → AluOut}
    {f : AluIn → Nat × Nat} (h : ∀ x, OperandsFit o x → g x = flagged (f x)) :
    WritesOnly s (groupFrame s core ths o op) (aluBody g) (fun th => resultEff (groupFrame s core ths o op)
      (f (laneOperands s core th o op)).1 (f (laneOperands s core th o op)).2) ths := by
  intro th _ _ u hu
  have hin : laneIn u (groupFrame s core ths o op) th.1 th.2 = laneOperands s core th o op := hu.laneIn_eq
  unfold aluBody
  rw [hin, h _ (laneOperands_fit s core th o op)]
  simp only [flagged, resultEff, Option.map_none, destEff_sr]

theorem integerInstructionsInLanes : IntegerInstructionsInLanes := by
  intro s core ths o op f h hf
  obtain ⟨g, hg, hval⟩ := register_result_agrees hf
  have hactor := (groupIssues_iff.mp h).1
  have hexec : exec (instrOf o op) s = runLanes o op false (aluBody g) secondBody core ths s := by
    rw [exec_regAlu hg, execAlu, hactor]
  rw [hexec]
  exact runLanes_results h (aluBody_writesOnly hval)

theorem exec_movl (op : Op) (s : State) : exec (.movl op) s = execBoth .movl false bodyMovl cueMovl op s := rfl
theorem exec_vidx (op : Op) (s : State) : exec (.vidx op) s = execLane .vidx false bodyVidx op s := rfl

theorem movlAndVidxInLanes : MovlAndVidxInLanes := by
  intro s core ths op
  refine ⟨fun h => ?_, fun h => ?_⟩
  · have hactor := (groupIssues_iff.mp h).1
    have hexec : exec (.movl op) s = runLanes .movl op false bodyMovl secondBody core ths s := by
      rw [exec_movl, execBoth, hactor]
    have hb : WritesOnly s (groupFrame s core ths .movl op) bodyMovl
        (fun _ => resultEff (groupFrame s core ths .movl op) (BitVec.ofInt 32 (immOf op)).toNat 0) ths := by
      intro th _ _ u _
      rw [resultEff_zero, ← wrap_eq_ofInt]; rfl
    rw [hexec]
    simpa only [withFlags_zero] using runLanes_results h hb
  · have hactor := (groupIssues_iff.mp h).1
    have hexec : exec (.vidx op) s = runLanes .vidx op false bodyVidx secondBody core ths s := by
      rw [exec_vidx, execLane, hactor]
    have hb : WritesOnly s (groupFrame s core ths .vidx op) bodyVidx (fun th => resultEff (groupFrame s core ths .vidx op)
        (threadIndex (coreBill s core) th.1 th.2 op.mod.toNat) 0) ths := by
      intro th _ _ u hu
      have hbill : coreBill u core = coreBill s core := hu.bill
      dsimp only
      rw [resultEff_zero, ← hbill]; rfl
    have hrun := runLanes_results (second := secondBody) h hb
    simp only [withFlags_zero] at hrun
    rw [hexec]
    exact hrun

theorem cueDest_regAlu {o : Opc} {g : AluIn → AluOut} (h : regAlu o = some g) (op : Op) : cueDest o op = some op.d.toNat := by
  cases o <;> cases h <;> rfl

theorem aluCue_value {s : State} {core : Nat} {o : Opc} {op : Op} {q : Cue} {g : AluIn → AluOut} {f : AluIn → Nat × Nat}
    (hq : getCue s core = some q) (hl : legalIn (cueEnv s core) o op = true) (h : ∀ x, OperandsFit o x → g x = flagged (f x)) :
    aluCue g (cueFrame s core o op) (BitVec.ofNat 64 (cueSrc q.c (cueFrame s core o op) .a))
      (BitVec.ofNat 64 (cueSrc q.c (cueFrame s core o op) .b)) (BitVec.ofNat 64 (cueSrc q.c (cueFrame s core o op) .c)) s
      = .done s (some (BitVec.ofNat 64 (f (cueOperands s core o op)).1)) none := by
  have hin : ({ n := 64, a := (BitVec.ofNat 64 (cueSrc q.c (cueFrame s core o op) .a)).toNat
                b := (BitVec.ofNat 64 (cueSrc q.c (cueFrame s core o op) .b)).toNat
                c := (BitVec.ofNat 64 (cueSrc q.c (cueFrame s core o op) .c)).toNat, mod := op.mod.toNat } : AluIn)
      = cueOperands s core o op := by
    simp only [cueOperands, theCue_of_some hq, BitVec.toNat_ofNat]
  have hop : (cueFrame s core o op).op = op := rfl
  unfold aluCue
  rw [hop, hin, h _ (cueOperands_fit hl)]
  rfl

theorem integerInstructionsInCueThread : IntegerInstructionsInCueThread := by
  intro s core o op f h hf
  obtain ⟨⟨hold, hactor⟩, hl, q, hq, hm, hr⟩ := cueRuns_iff.mp h
  obtain ⟨g, hg, hval⟩ := integerResult_agrees hf
  have hexec : exec (instrOf o op) s = runCueNow o op (aluCue g) core s := by
    rw [exec_regAlu hg, execAlu, hactor]
  exact ⟨_, hexec.trans (runCueNow_value hq hm hl hr (cueDest_regAlu hg op) (aluCue_value hq hl hval)),
    onlyCue_setCue .., getCue_setCue ..⟩

/-- Settles O3: the value functions give the results of the rules, and a group of lanes or the cue thread writes
them and nothing else. -/
theorem registerInstructionsWriteTheirResults : Obligations.RegisterInstructionsWriteTheirResults :=
  ⟨integerInstructionsInLanes, integerInstructionsInCueThread, movlAndVidxInLanes⟩

end Sys2Proof.Proofs
end

section
/-! A scene opens, and a commit performs its stores: the commit of one lane that has buffered scratchpad stores or nothing, the
scene that SCENE opens (R57, R152, R209 to R211, R226). -/

namespace Sys2Proof.Proofs

open Machine Claims

/-! ### What one lane changes -/

theorem onlyLanes_mono {s t : State} {core : Nat} {ths ths' : List (Nat × Nat)} (h : OnlyLanes s t core ths) (hsub : ths ⊆ ths') :
    OnlyLanes s t core ths' := by
  obtain ⟨hstate, hcores, hcore, hcasts, hthreads, hmem⟩ := h
  exact ⟨hstate, hcores, hcore, hcasts, fun k l hn => hthreads k l fun hin => hn (hsub hin), hmem⟩

theorem spad_modThread (s : State) (core cast lane : Nat) (f : Thread → Thread) :
    (getCore (modThread s core cast lane f) core).spad = (getCore s core).spad := by
  rw [modThread, getCore_setThread]

/-! ### Performing scratchpad stores -/

/-- The bytes of a scratchpad after some stores, one after another. -/
def scratchAfter (stores : List BufStore) (m : Store Byte) : Store Byte :=
  stores.foldl (fun m st => putBytes st.off st.bytes m) m

/-- A core performs some stores to its scratchpad, one after another. -/
def storeScratch (s : State) (core : Nat) (stores : List BufStore) : State :=
  stores.foldl (fun s st => modCore s core fun c => { c with spad := putBytes st.off st.bytes c.spad }) s

theorem getCore_storeScratch (s : State) (core : Nat) (stores : List BufStore) :
    getCore (storeScratch s core stores) core =
      { getCore s core with spad := scratchAfter stores (getCore s core).spad } := by
  induction stores generalizing s with
  | nil => rfl
  | cons st rest ih => exact (ih _).trans (by rw [getCore_modCore_same]; rfl)

theorem homeByte_storeScratch (s : State) (core : Nat) (stores : List BufStore) (key : Nat) :
    homeByte (storeScratch s core stores) key = homeByte s key := by
  induction stores generalizing s with
  | nil => rfl
  | cons st rest ih => exact ih _

theorem getCast_storeScratch (s : State) (core cast : Nat) (stores : List BufStore) :
    getCast (storeScratch s core stores) core cast = getCast s core cast := by
  rw [getCast, getCore_storeScratch, getCast]

theorem getThread_storeScratch (s : State) (core cast lane : Nat) (stores : List BufStore) :
    getThread (storeScratch s core stores) core cast lane = getThread s core cast lane := by
  rw [getThread, getCast_storeScratch, getThread]

theorem hasLane_storeScratch (s : State) (core cast lane : Nat) (stores : List BufStore) :
    hasLane (storeScratch s core stores) core cast lane = hasLane s core cast lane := by
  rw [hasLane, getCast_storeScratch, hasLane]

theorem performStore_spad {s : State} {core cast lane : Nat} {st : BufStore} (h : st.kind = .spad) :
    performStore s core cast lane st = modCore s core fun c => { c with spad := putBytes st.off st.bytes c.spad } := by
  simp only [performStore, storeAccess, landStore, h]

/-- The stores of one lane in the order of their issue stay in that order (R152). -/
theorem insertJobs_ordered (cast lane : Nat) {stores : List BufStore} (h : stores.Pairwise fun a b => a.seq < b.seq) :
    (stores.map fun st => (cast, lane, st)).foldr insertJob [] = stores.map fun st => (cast, lane, st) := by
  induction h with
  | nil => rfl
  | @cons a rest hlt _ ih =>
    rw [List.map_cons, List.foldr_cons, ih]
    cases rest with
    | nil => rfl
    | cons b rest => simp [insertJob, hlt b List.mem_cons_self]

theorem storeJobs_alone {s : State} {core cast lane : Nat}
    (h : (getThread s core cast lane).scene.stores.Pairwise fun a b => a.seq < b.seq) :
    storeJobs s core [(cast, lane)] = (getThread s core cast lane).scene.stores.map fun st => (cast, lane, st) := by
  rw [storeJobs, List.flatMap_cons, List.flatMap_nil, List.append_nil]
  exact insertJobs_ordered cast lane h

theorem performStores_spad (core cast lane : Nat) {stores : List BufStore} (h : ∀ st ∈ stores, st.kind = .spad) (s : State) :
    (stores.map fun st => (cast, lane, st)).foldl (fun s j => performStore s core j.1 j.2.1 j.2.2) s
      = storeScratch s core stores := by
  induction stores generalizing s with
  | nil => rfl
  | cons st rest ih =>
    rw [List.map_cons, List.foldl_cons, performStore_spad (h st List.mem_cons_self)]
    exact ih (fun x hx => h x (List.mem_cons_of_mem _ hx)) _

/-! ### The commit of one lane -/

/-- The thread's buffer is empty: what the commit of a scene without renewals and training leaves. -/
def emptied (t : Thread) : Thread :=
  { t with scene := { t.scene with count := 0, stores := [], renewals := [], training := [] } }

/-- The lane passes a commit point at `pc`: the implicit scene opens there (R210, R226). -/
def passCommitPoint (s : State) (core cast lane : Nat) (pc : Word) : State :=
  modThread s core cast lane fun t => passBoundary s (openImplicit (coreBill s core) t pc)

/-- A commit of a thread that neither waits nor faults and reaches no memory: not worn out, no renewals and no training, its
stores to scratchpad bytes that no transfer holds, in the order of their issue. -/
structure ScratchCommit (s : State) (core : Nat) (t : Thread) : Prop where
  sound : exhausted t = false
  renewals : t.scene.renewals = []
  training : t.scene.training = []
  spad : ∀ st ∈ t.scene.stores, st.kind = .spad
  free : ∀ st ∈ t.scene.stores, rangeBusy (getCore s core) st.off st.bytes.length = false
  ordered : t.scene.stores.Pairwise fun a b => a.seq < b.seq

theorem storesReady_spad {s : State} {core : Nat} {stores : List BufStore} (hspad : ∀ st ∈ stores, st.kind = .spad)
    (hfree : ∀ st ∈ stores, rangeBusy (getCore s core) st.off st.bytes.length = false) :
    storesReady s core stores = .ready := by
  induction stores with
  | nil => rfl
  | cons st rest ih =>
    have hst : storeReady s core st = .ready := by
      simp [storeReady, hspad st List.mem_cons_self, hfree st List.mem_cons_self]
    rw [storesReady, hst]
    exact ih (fun x hx => hspad x (List.mem_cons_of_mem _ hx)) fun x hx => hfree x (List.mem_cons_of_mem _ hx)

theorem ScratchCommit.sceneReady {s : State} {core : Nat} {t : Thread} (h : ScratchCommit s core t) :
    sceneReady s core t = .ready := by
  rw [Machine.sceneReady, storesReady_spad h.spad h.free, h.renewals]
  rfl

theorem ScratchCommit.sceneStamps {s : State} {core : Nat} {t : Thread} (h : ScratchCommit s core t) :
    sceneStamps s core t = [] := by
  have hnone : t.scene.stores.filter (stampedStore s (coreFn s core)) = [] :=
    List.filter_eq_nil_iff.mpr fun st hst => by simp [stampedStore, h.spad st hst]
  rw [Machine.sceneStamps, hnone, h.renewals]
  rfl

theorem finishCommit_plain {s : State} {core cast lane : Nat} (hr : (getThread s core cast lane).scene.renewals = [])
    (ht : (getThread s core cast lane).scene.training = []) :
    finishCommit s core (cast, lane) = modThread s core cast lane emptied := by
  simp only [finishCommit, hr, ht]
  rfl

theorem ScratchCommit.commitThreads {s : State} {core cast lane : Nat} (h : ScratchCommit s core (getThread s core cast lane)) :
    commitThreads s core [(cast, lane)] =
      modThread (storeScratch s core (getThread s core cast lane).scene.stores) core cast lane emptied := by
  rw [Machine.commitThreads, storeJobs_alone h.ordered, performStores_spad core cast lane h.spad]
  exact finishCommit_plain (by rw [getThread_storeScratch, h.renewals]) (by rw [getThread_storeScratch, h.training])

/-- A lane that is not worn out, whose scene can be committed and stamps no home write, commits. -/
theorem commitPoint_alone {s : State} {fr : Frame} {cast lane : Nat} (hw : exhausted (getThread s fr.core cast lane) = false)
    (hr : sceneReady s fr.core (getThread s fr.core cast lane) = .ready)
    (hs : sceneStamps s fr.core (getThread s fr.core cast lane) = []) :
    commitPoint s fr [(cast, lane)] =
      .go (passCommitPoint (commitThreads s fr.core [(cast, lane)]) fr.core cast lane fr.pc) [(cast, lane)] := by
  have hscan : scanCommits s fr.core [(cast, lane)] = .ready [(cast, lane)] [] := by simp only [scanCommits, hr]
  have hstamp : mayStamp s [] = true := rfl
  simp only [commitPoint, List.filter_cons, List.filter_nil, hw, Bool.not_false, if_true, hscan, List.flatMap_cons,
    List.flatMap_nil, List.append_nil, hs, hstamp]
  rfl

/-- The state after the commit of a lane whose scene holds scratchpad stores alone. -/
def scratchCommitted (s : State) (core cast lane : Nat) : State :=
  passCommitPoint (modThread (storeScratch s core (getThread s core cast lane).scene.stores) core cast lane emptied)
    core cast lane (getThread s core cast lane).pc

theorem ScratchCommit.commitPoint {s : State} {core cast lane : Nat} (o : Opc) (op : Op)
    (h : ScratchCommit s core (getThread s core cast lane)) :
    commitPoint s (laneFrame s core cast lane o op) [(cast, lane)] = .go (scratchCommitted s core cast lane) [(cast, lane)] := by
  rw [scratchCommitted, ← h.commitThreads]
  exact commitPoint_alone (fr := laneFrame s core cast lane o op) h.sound h.sceneReady h.sceneStamps

theorem openImplicit_emptied (b : Playbill) (t : Thread) (pc : Word) :
    openImplicit b (emptied t) pc = { t with scene := implicitScene b t pc } := rfl

theorem getThread_passCommitPoint {s : State} {core cast lane : Nat} (pc : Word) (h : hasLane s core cast lane = true) :
    getThread (passCommitPoint (modThread s core cast lane emptied) core cast lane pc) core cast lane =
      { getThread s core cast lane with
        scene := implicitScene (coreBill s core) (getThread s core cast lane) pc, codeEpoch := s.icEpoch } := by
  rw [passCommitPoint, getThread_modThread_same _ core cast lane _ ((hasLane_modThread ..).trans h),
    getThread_modThread_same s core cast lane _ h, coreBill_modThread, openImplicit_emptied]
  rfl

theorem emptyCommitOpensImplicitScene : EmptyCommitOpensImplicitScene := by
  intro s core cast lane o op h old hstores hrenewals htraining hsound
  obtain ⟨_, hlane, _⟩ := laneIssues_iff.mp h
  have hcommit : ScratchCommit s core old :=
    ⟨hsound, hrenewals, htraining, by simp [hstores], by simp [hstores], by simp [hstores]⟩
  have hstate : scratchCommitted s core cast lane =
      passCommitPoint (modThread s core cast lane emptied) core cast lane old.pc := by
    rw [scratchCommitted, hstores]
    rfl
  refine ⟨_, hcommit.commitPoint o op, ?_, ?_⟩
  · rw [hstate]
    exact onlyLanes_mono (onlyLanes_trans (onlyLanes_modThread s core cast lane emptied) (onlyLanes_modThread ..)) (by simp)
  · rw [hstate]
    exact getThread_passCommitPoint old.pc hlane

theorem commitPerformsScratchpadStores : CommitPerformsScratchpadStores := by
  intro s core cast lane o op h old hrenewals htraining hsound hranges hspad hordered
  obtain ⟨_, hlane, _⟩ := laneIssues_iff.mp h
  have hcommit : ScratchCommit s core old :=
    ⟨hsound, hrenewals, htraining, hspad, fun _ _ => by rw [rangeBusy, hranges]; rfl, hordered⟩
  refine ⟨_, hcommit.commitPoint o op, ?_, ?_, fun key => ?_⟩
  · rw [scratchCommitted, passCommitPoint, spad_modThread, spad_modThread, getCore_storeScratch]
    rfl
  · rw [scratchCommitted, getThread_passCommitPoint _ ((hasLane_storeScratch ..).trans hlane)]
    rfl
  · exact homeByte_storeScratch s core old.scene.stores key

/-! ### SCENE -/

theorem exec_scene (op : Op) (s : State) : exec (.scene op) s = execLane .scene true bodyScene op s := rfl

theorem committed_eq_some {s s1 : State} {core cast lane : Nat} {o : Opc} {op : Op} (h : committed s core cast lane o op = some s1) :
    commitPoint s (laneFrame s core cast lane o op) [(cast, lane)] = .go s1 [(cast, lane)] ∧
      guardOf s1 core cast lane op = true := by
  unfold committed at h
  split at h
  case h_1 s2 th hgo =>
    split at h
    next hboth =>
      obtain ⟨hth, hguard⟩ := Bool.and_eq_true_iff.mp hboth
      cases h
      have hth : th = (cast, lane) := eq_of_beq hth
      exact ⟨hth ▸ hgo, hguard⟩
    next => cases h
  all_goals cases h

/-- A thread `t`, which was `old` before its SCENE, enters the scene that the SCENE of a frame declares, of a launch with
playbill `b`; it keeps a refused page where the scene restarts (R140). -/
def enterScene (b : Playbill) (fr : Frame) (old t : Thread) : Thread :=
  { openScene t fr.pc (sceneLive b fr.op) fr.op.word2 (fr.op.mod.toNat % 32) with
    denied := if old.scene.entry = fr.pc then old.denied else none }

theorem sameThread_enterScene {t u : Thread} (b : Playbill) (fr : Frame) (old : Thread) (h : SameThread t u) :
    SameThread (enterScene b fr old t) (enterScene b fr old u) := congrArg (enterScene b fr old) h

theorem bodyScene_eq (s : State) (fr : Frame) (cast lane : Nat) : bodyScene fr cast lane s =
    .moved (modThread s fr.core cast lane fun t => enterScene (coreBill s fr.core) fr t (afterWord s fr {} none false t)) := rfl

/-- SCENE in a lane: the lane stands at the next instruction, in a scene that the SCENE enters and declares (R57, R209). -/
theorem bodyScene_opens {s : State} {fr : Frame} {cast lane : Nat} (h : hasLane s fr.core cast lane = true) :
    let old := getThread s fr.core cast lane
    ∃ t, bodyScene fr cast lane s = .moved t ∧ OnlyLanes s t fr.core [(cast, lane)] ∧
      SameThread (getThread t fr.core cast lane)
        (enterScene (coreBill s fr.core) fr old { old with pc := fr.next, wait := .ready, committed := false }) := by
  intro old
  have hword : SameThread (afterWord s fr {} none false old) { old with pc := fr.next, wait := .ready, committed := false } := by
    simpa using afterWord_plain s fr {} old
  refine ⟨_, bodyScene_eq s fr cast lane, onlyLanes_modThread .., ?_⟩
  rw [getThread_modThread_same s fr.core cast lane _ h]
  exact sameThread_enterScene _ fr old hword

theorem sceneOpensAtItself : SceneOpensAtItself := by
  intro s s1 core cast lane op h hlane hcommitted old
  obtain ⟨hactor, _⟩ := laneIssues_iff.mp h
  obtain ⟨hcommit, hguard⟩ := committed_eq_some hcommitted
  obtain ⟨t, hbody, honly, hsame⟩ := bodyScene_opens (fr := laneFrame s core cast lane .scene op) hlane
  have hrun := runLanes_commit h hcommit hguard bodyScene secondBody
  rw [hbody] at hrun
  have hexec : exec (.scene op) s = runLanes .scene op true bodyScene secondBody core [(cast, lane)] s := by
    rw [exec_scene, execLane, hactor]
  exact ⟨t, hexec.trans hrun, honly, (congrArg Thread.pc hsame :), (congrArg Thread.scene hsame :), (congrArg Thread.v hsame :),
    (congrArg Thread.p hsame :), (congrArg Thread.tstat hsame :), (congrArg Thread.srstate hsame :),
    (congrArg Thread.w hsame :), (congrArg Thread.stack hsame :)⟩

/-- Settles O9: SCENE opens its scene over what the commit leaves; a commit without stores to memory changes its lane and the
bytes of the scratchpad that it stores. -/
theorem scenesOpenAndCommit : Obligations.ScenesOpenAndCommit :=
  ⟨sceneOpensAtItself, emptyCommitOpensImplicitScene, commitPerformsScratchpadStores⟩

end Sys2Proof.Proofs
end

section
/-! SUPPORT. One change of the threads of some lanes of a cast: what it does to each of them, and what it leaves unchanged (R148, R172). -/

namespace Sys2Proof.Proofs

open Machine Claims

/-- The threads of some lanes of a cast change, one after another. -/
def modLanes (s : State) (core cast : Nat) (ls : List Nat) (f : Thread → Thread) : State :=
  ls.foldl (fun s l => modThread s core cast l f) s

theorem onlyLanes_modLanes (s : State) (core cast : Nat) (ls : List Nat) (f : Thread → Thread) :
    OnlyLanes s (modLanes s core cast ls f) core (ls.map fun l => (cast, l)) := by
  induction ls generalizing s with
  | nil => exact onlyLanes_refl s core
  | cons l rest ih => exact onlyLanes_trans (onlyLanes_modThread s core cast l f) (ih _)

@[simp] theorem hasLane_modLanes (s : State) (core cast : Nat) (ls : List Nat) (f : Thread → Thread) (c k l : Nat) :
    hasLane (modLanes s core cast ls f) c k l = hasLane s c k l := by
  induction ls generalizing s with
  | nil => rfl
  | cons l rest ih => exact (ih _).trans (hasLane_modThread ..)

theorem getThread_modLanes_other (s : State) (core cast : Nat) (ls : List Nat) (f : Thread → Thread) {c k l : Nat}
    (h : (c, k) ≠ (core, cast) ∨ l ∉ ls) : getThread (modLanes s core cast ls f) c k l = getThread s c k l := by
  obtain ⟨_, hcores, _, _, hthreads, _⟩ := onlyLanes_modLanes s core cast ls f
  by_cases hc : c = core
  · subst hc
    refine hthreads k l fun hin => ?_
    obtain ⟨m, hm, heq⟩ := List.mem_map.mp hin
    obtain ⟨rfl, rfl⟩ := Prod.mk.inj heq
    exact h.elim (fun hne => hne rfl) fun hnot => hnot hm
  · rw [getThread, getCast, hcores c hc, getThread, getCast]

theorem getThread_modLanes_mem {s : State} {core cast : Nat} {ls : List Nat} (f : Thread → Thread) {l : Nat} (hnd : ls.Nodup)
    (hl : l ∈ ls) (h : hasLane s core cast l = true) :
    getThread (modLanes s core cast ls f) core cast l = f (getThread s core cast l) := by
  induction ls generalizing s with
  | nil => cases hl
  | cons m rest ih =>
    obtain ⟨hm, hnd⟩ := List.nodup_cons.mp hnd
    change getThread (modLanes (modThread s core cast m f) core cast rest f) core cast l = _
    rcases List.mem_cons.mp hl with rfl | hl
    · rw [getThread_modLanes_other _ core cast rest f (.inr hm), getThread_modThread_same s core cast l f h]
    · rw [ih hnd hl ((hasLane_modThread ..).trans h),
        getThread_modThread_other s core f fun heq => hm (by rwa [← (Prod.mk.inj heq).2])]

theorem clusters_modLanes (s : State) (core cast : Nat) (ls : List Nat) (f : Thread → Thread) :
    (modLanes s core cast ls f).clusters = s.clusters := by
  obtain ⟨hstate, _⟩ := onlyLanes_modLanes s core cast ls f
  rw [hstate]

@[simp] theorem getCluster_modLanes (s : State) (core cast : Nat) (ls : List Nat) (f : Thread → Thread) (k : Nat) :
    getCluster (modLanes s core cast ls f) k = getCluster s k := by
  rw [getCluster, clusters_modLanes, getCluster]

theorem homeByte_modLanes (s : State) (core cast : Nat) (ls : List Nat) (f : Thread → Thread) (key : Nat) :
    homeByte (modLanes s core cast ls f) key = homeByte s key := by
  obtain ⟨_, _, _, _, _, hmem⟩ := onlyLanes_modLanes s core cast ls f
  exact hmem key

@[simp] theorem launch_modLanes (s : State) (core cast : Nat) (ls : List Nat) (f : Thread → Thread) (c : Nat) :
    (getCore (modLanes s core cast ls f) c).launch = (getCore s c).launch := by
  induction ls generalizing s with
  | nil => rfl
  | cons l rest ih => exact (ih _).trans (launch_setThread ..)

/-- The counters of some lanes rise, or fall (R148). -/
theorem raiseAll_lanes (s : State) (core cast : Nat) (ls : List Nat) (n : Nat) :
    raiseAll s (ls.map fun l => .lane core cast l) n = modLanes s core cast ls (counterUp n) := by
  rw [raiseAll, List.foldl_map]
  rfl
theorem lowerAll_lanes (s : State) (core cast : Nat) (ls : List Nat) (n : Nat) :
    lowerAll s (ls.map fun l => .lane core cast l) n = modLanes s core cast ls (counterDown n) := by
  rw [lowerAll, List.foldl_map]
  rfl

end Sys2Proof.Proofs
end

section
/-! SUPPORT. A CRED round completes: what its merge leaves of the accumulators, and what becomes of its requests and counters
(R336, R337). -/

namespace Sys2Proof.Proofs

open Machine Claims

/-! ### The elements and the poison of merged rows -/

/-- Keys of elements in range name their element. -/
theorem zKey_inj {tile tile' row row' n n' : Nat} (hr : row < 64) (hr' : row' < 64) (hn : n < 32) (hn' : n' < 32) :
    zKey tile row n = zKey tile' row' n' ↔ tile = tile' ∧ row = row' ∧ n = n' := by
  unfold zKey
  omega

theorem zRow_inj {tile tile' row row' : Nat} (hr : row < 64) (hr' : row' < 64) :
    zRow tile row = zRow tile' row' ↔ tile = tile' ∧ row = row' := by
  unfold zRow
  omega

/-- What an element reads after a row's elements from column `from` on have been set. -/
theorem sget_putRow (tile row : Nat) {tile' row' n : Nat} (hr : row < 64) (hr' : row' < 64) (hn : n < 32) (xs : List Nat)
    (first : Nat) (hx : first + xs.length ≤ 32) (z : Store Word) :
    sget 0 (zKey tile' row' n) (putRow tile row xs first z) =
      if tile' = tile ∧ row' = row ∧ first ≤ n ∧ n < first + xs.length then BitVec.ofNat 32 (xs.getD (n - first) 0)
      else sget 0 (zKey tile' row' n) z := by
  induction xs generalizing first z with
  | nil =>
    simp only [List.length_nil, Nat.add_zero]
    rw [if_neg (by omega), putRow]
  | cons x xs ih =>
    rw [List.length_cons] at hx
    rw [putRow, ih (first + 1) (by omega), sget_sset, List.length_cons]
    simp only [zKey_inj hr' hr hn (show first < 32 by omega)]
    by_cases hlane : tile' = tile ∧ row' = row
    · obtain ⟨rfl, rfl⟩ := hlane
      by_cases hfirst : n = first
      · subst hfirst
        simp
      · by_cases hin : first + 1 ≤ n ∧ n < first + 1 + xs.length
        · rw [if_pos ⟨rfl, rfl, hin⟩, if_pos ⟨rfl, rfl, by omega, by omega⟩,
            show n - first = (n - (first + 1)) + 1 by omega, List.getD_cons_succ]
        · rw [if_neg (by omega), if_neg (by omega), if_neg (by omega)]
    · rw [if_neg (by tauto), if_neg (by tauto), if_neg (by tauto)]

/-- An element of a lane's row of tile `tile'` once the merged row `r` has been written to the lead's tile `tile` and the next, where
it held `x` (R337). -/
def leadElem (r : PartRow) (tile tile' n : Nat) (x : Word) : Word :=
  if tile' = tile then BitVec.ofNat 32 (r.acc.getD n 0)
  else if tile' = tile + 1 then (if n = 0 then BitVec.ofNat 32 r.m else if n = 1 then BitVec.ofNat 32 r.l else x)
  else x

theorem zElem_writeMerged {tile i : Nat} {r : PartRow} (bad : Bool) (c : Cluster) {tile' row n : Nat} (hi : i < 64)
    (hacc : r.acc.length = 32) (hrow : row < 64) (hn : n < 32) :
    zElem (writeMerged tile i r bad c) tile' row n =
      if row = i then leadElem r tile tile' n (zElem c tile' row n) else zElem c tile' row n := by
  simp only [zElem, writeMerged, sget_sset, zKey_inj hrow hi hn (by omega : 1 < 32), zKey_inj hrow hi hn (by omega : 0 < 32),
    sget_putRow tile i hi hrow hn r.acc 0 (by omega)]
  by_cases hlane : row = i
  · subst hlane
    simp only [leadElem, true_and, if_true, Nat.zero_le, Nat.zero_add, hacc, hn, and_true, Nat.sub_zero]
    by_cases htile : tile' = tile
    · subst htile
      simp
    · by_cases hnext : tile' = tile + 1
      · subst hnext
        simp only [true_and, if_true, htile, if_false]
        by_cases h0 : n = 0
        · simp [h0]
        · simp [h0]
      · simp [htile, hnext]
  · simp [hlane]

theorem nmem_nset (k i : Nat) (b : Bool) (m : NSet) : nmem i (nset k b m) = if i = k then b else nmem i m := by
  cases b
  · by_cases h : i = k <;> simp [nset, nmem_ndel, h]
  · by_cases h : i = k <;> simp [nset, nmem_nins, h]

theorem nmem_writeMerged {tile i : Nat} (r : PartRow) (bad : Bool) (c : Cluster) {tile' row : Nat} (hi : i < 64) (hrow : row < 64)
    (ht : tile' = tile ∨ tile' = tile + 1) :
    nmem (zRow tile' row) (writeMerged tile i r bad c).zPoison = if row = i then bad else nmem (zRow tile' row) c.zPoison := by
  simp only [writeMerged, nmem_nset, zRow_inj hrow hi]
  by_cases hlane : row = i
  · rcases ht with rfl | rfl <;> simp [hlane]
  · simp [hlane]

/-- A fold over distinct numbers of which only `row` acts on what is observed acts there once. -/
theorem observe_foldl {σ α : Type} (obs : σ → α) (f : σ → Nat → σ) (g : α → α) (row : Nat) {ls : List Nat} (hnd : ls.Nodup)
    (h : ∀ c, ∀ i ∈ ls, obs (f c i) = if row = i then g (obs c) else obs c) (c : σ) :
    obs (ls.foldl f c) = if row ∈ ls then g (obs c) else obs c := by
  induction ls generalizing c with
  | nil => simp
  | cons i rest ih =>
    obtain ⟨hi, hnd⟩ := List.nodup_cons.mp hnd
    rw [List.foldl_cons, ih hnd (fun c j hj => h c j (List.mem_cons_of_mem _ hj)), h c i List.mem_cons_self]
    by_cases hrow : row = i
    · subst hrow
      simp [hi]
    · simp [hrow]

theorem length_acc_mergedRow (c : Cluster) (posts : List Contribution) (i : Nat) : (mergedRow c posts i).acc.length = 32 := by
  have hposted (x : Contribution) : (postedRow c x i).acc.length = 32 := by
    unfold postedRow
    split <;> simp [emptyRow]
  have hfold (rest : List Contribution) (a : PartRow) (ha : a.acc.length = 32) :
      (rest.foldl (fun acc y => mergeRows acc (postedRow c y i)) a).acc.length = 32 := by
    induction rest generalizing a with
    | nil => exact ha
    | cons y rest ih => exact ih _ (by simp [mergeRows, ha, hposted y])
  cases posts with
  | nil => simp [mergedRow, emptyRow]
  | cons x rest => exact hfold rest _ (hposted x)

/-- The rows of a lead once the round is merged (R337). -/
theorem leadRows_mergeRound {c : Cluster} {posts : List Contribution} {lead : Contribution}
    (hlead : posts.find? (fun x => !x.lanes.isEmpty) = some lead) (hnd : lead.lanes.Nodup) (hlt : ∀ l ∈ lead.lanes, l < 64) :
    LeadRows c (mergeRound posts c) posts lead := by
  have hround : mergeRound posts c = lead.lanes.foldl
      (fun acc i => writeMerged lead.tile i (mergedRow c posts i) (mergedPoison c posts i) acc) c := by rw [mergeRound, hlead]
  have helem {tile row n : Nat} (hrow : row < 64) (hn : n < 32) : zElem (mergeRound posts c) tile row n =
      if row ∈ lead.lanes then leadElem (mergedRow c posts row) lead.tile tile n (zElem c tile row n) else zElem c tile row n := by
    rw [hround]
    refine observe_foldl (fun d => zElem d tile row n) _ (leadElem (mergedRow c posts row) lead.tile tile n) row hnd
      (fun d i hi => ?_) c
    rw [zElem_writeMerged _ d (hlt i hi) (length_acc_mergedRow c posts i) hrow hn]
    split
    next heq => rw [heq]
    next => rfl
  have hpoison {tile row : Nat} (hrow : row < 64) (ht : tile = lead.tile ∨ tile = lead.tile + 1) :
      nmem (zRow tile row) (mergeRound posts c).zPoison =
        if row ∈ lead.lanes then mergedPoison c posts row else nmem (zRow tile row) c.zPoison := by
    rw [hround]
    refine observe_foldl (fun d => nmem (zRow tile row) d.zPoison) _ (fun _ => mergedPoison c posts row) row hnd
      (fun d i hi => ?_) c
    rw [nmem_writeMerged _ _ d (hlt i hi) hrow ht]
    split
    next heq => rw [heq]
    next => rfl
  refine ⟨fun i hi => ⟨fun n hn => ?_, ?_, ?_, fun n h2 hn => ?_, ?_, ?_⟩, fun tile row n hrow hn hout => ?_⟩
  · rw [helem (hlt i hi) hn, if_pos hi]
    simp [leadElem]
  · rw [helem (hlt i hi) (by omega), if_pos hi]
    simp [leadElem]
  · rw [helem (hlt i hi) (by omega), if_pos hi]
    simp [leadElem]
  · rw [helem (hlt i hi) hn, if_pos hi]
    simp [leadElem, show n ≠ 0 by omega, show n ≠ 1 by omega]
  · rw [Nat.mul_comm, ← zRow, hpoison (hlt i hi) (.inl rfl), if_pos hi]
  · rw [Nat.mul_comm, ← zRow, hpoison (hlt i hi) (.inr rfl), if_pos hi]
  · rw [helem hrow hn]
    rcases hout with hout | ⟨htile, hnext⟩
    · rw [if_neg hout]
    · simp [leadElem, htile, hnext]

/-- The merge writes accumulators and their poison alone. -/
theorem mergeRound_keeps (posts : List Contribution) (c : Cluster) :
    mergeRound posts c = { c with z := (mergeRound posts c).z, zPoison := (mergeRound posts c).zPoison } := by
  have hfold (ls : List Nat) (f : Cluster → Nat → Cluster)
      (hf : ∀ d i, f d i = { d with z := (f d i).z, zPoison := (f d i).zPoison }) (d : Cluster) :
      ls.foldl f d = { d with z := (ls.foldl f d).z, zPoison := (ls.foldl f d).zPoison } := by
    induction ls generalizing d with
    | nil => rfl
    | cons i rest ih =>
      exact (ih (f d i)).trans (congrArg (fun e : Cluster => { e with
        z := (rest.foldl f (f d i)).z, zPoison := (rest.foldl f (f d i)).zPoison }) (hf d i))
  unfold mergeRound
  split
  · rfl
  · exact hfold _ _ (fun _ _ => rfl) c

theorem table_mergeRound (posts : List Contribution) (c : Cluster) : (mergeRound posts c).table = c.table := by
  rw [mergeRound_keeps]
theorem rounds_mergeRound (posts : List Contribution) (c : Cluster) : (mergeRound posts c).rounds = c.rounds := by
  rw [mergeRound_keeps]

/-! ### The requests of a round leave the table -/

/-- The request of a contribution leaves the table, if it stands there. -/
def dropPost (cluster : Nat) (s : State) (x : Contribution) : State :=
  match (getCluster s cluster).table.find? fun q => q.id == x.request with
  | some q => dropRequest s cluster q
  | none => s

theorem dropRound_eq (s : State) (cluster : Nat) (r : Round) :
    dropRound s cluster r = modCluster (r.posts.foldl (dropPost cluster) s) cluster fun c =>
      { c with rounds := c.rounds.filter fun q => !(isRound r.launch r.ens q) } := rfl

/-- A request leaves the table, and its lanes' counters fall where its core still holds its launch. -/
theorem dropRequest_eq (s : State) (cluster : Nat) (q : Request) :
    dropRequest s cluster q =
      let s1 := modCluster s cluster fun c => { c with table := c.table.filter fun x => !(x.id == q.id) }
      if holdsLaunch s q.core q.launch then modLanes s1 q.core q.cast q.lanes (counterDown q.ctr) else s1 := by
  rw [dropRequest, lowerAll_lanes]

theorem dropRequest_keeps (s : State) (cluster : Nat) (q : Request) :
    (∀ key, homeByte (dropRequest s cluster q) key = homeByte s key) ∧
      (∀ c, (getCore (dropRequest s cluster q) c).launch = (getCore s c).launch) ∧
      ∀ c k l, hasLane (dropRequest s cluster q) c k l = hasLane s c k l := by
  rw [dropRequest_eq]
  dsimp only
  split
  · exact ⟨fun key => homeByte_modLanes .., fun c => launch_modLanes .., fun c k l => hasLane_modLanes ..⟩
  · exact ⟨fun _ => rfl, fun _ => rfl, fun _ _ _ => rfl⟩

theorem getCluster_dropRequest (s : State) (cluster : Nat) (q : Request) :
    getCluster (dropRequest s cluster q) cluster =
      { getCluster s cluster with table := (getCluster s cluster).table.filter fun x => !(x.id == q.id) } := by
  rw [dropRequest_eq]
  dsimp only
  split <;> simp [modCluster]

theorem dropPost_keeps (cluster : Nat) (s : State) (x : Contribution) :
    (∀ key, homeByte (dropPost cluster s x) key = homeByte s key) ∧
      (∀ c, (getCore (dropPost cluster s x) c).launch = (getCore s c).launch) ∧
      ∀ c k l, hasLane (dropPost cluster s x) c k l = hasLane s c k l := by
  unfold dropPost
  split
  · exact dropRequest_keeps ..
  · exact ⟨fun _ => rfl, fun _ => rfl, fun _ _ _ => rfl⟩

theorem getCluster_dropPost (cluster : Nat) (s : State) (x : Contribution) :
    getCluster (dropPost cluster s x) cluster =
      { getCluster s cluster with table := (getCluster s cluster).table.filter fun q => !(q.id == x.request) } := by
  unfold dropPost
  split
  next q hq =>
    have hid : q.id = x.request := by simpa using List.find?_some hq
    rw [getCluster_dropRequest, hid]
  next hnone =>
    rw [List.filter_eq_self.mpr fun q hq => by simpa using List.find?_eq_none.mp hnone q hq]

theorem homeByte_dropPosts (cluster : Nat) (posts : List Contribution) (s : State) (key : Nat) :
    homeByte (posts.foldl (dropPost cluster) s) key = homeByte s key := by
  induction posts generalizing s with
  | nil => rfl
  | cons x rest ih =>
    obtain ⟨hmem, _⟩ := dropPost_keeps cluster s x
    exact (ih _).trans (hmem key)

theorem getCluster_dropPosts (cluster : Nat) (posts : List Contribution) (s : State) :
    getCluster (posts.foldl (dropPost cluster) s) cluster =
      { getCluster s cluster with
        table := (getCluster s cluster).table.filter fun q => posts.all fun x => !(q.id == x.request) } := by
  induction posts generalizing s with
  | nil => simp
  | cons x rest ih =>
    rw [List.foldl_cons, ih, getCluster_dropPost, List.filter_filter]
    simp [Bool.and_comm]

/-- The request that a contribution has posted stands in the table, first of its number, as the contribution names it. -/
def PostStands (c : Cluster) (x : Contribution) : Prop :=
  ∃ q, c.table.find? (fun q => q.id == x.request) = some q ∧ q.core = x.core ∧ q.cast = x.cast ∧ q.lanes = x.lanes ∧ q.ctr = x.ctr

/-- The core of a contribution holds the launch of its request still. -/
def StillHolds (s : State) (cluster : Nat) (x : Contribution) : Prop :=
  ∀ q ∈ (getCluster s cluster).table, q.id = x.request → holdsLaunch s x.core q.launch = true

theorem dropPost_eq {cluster : Nat} {s : State} {x : Contribution} (h : PostStands (getCluster s cluster) x) :
    ∃ q ∈ (getCluster s cluster).table, q.id = x.request ∧ dropPost cluster s x =
      let s1 := modCluster s cluster fun c => { c with table := c.table.filter fun y => !(y.id == x.request) }
      if holdsLaunch s x.core q.launch then modLanes s1 x.core x.cast x.lanes (counterDown x.ctr) else s1 := by
  obtain ⟨q, hq, hcore, hcast, hlanes, hctr⟩ := h
  have hid : q.id = x.request := by simpa using List.find?_some hq
  refine ⟨q, List.mem_of_find?_eq_some hq, hid, ?_⟩
  rw [dropPost, hq]
  dsimp only
  rw [dropRequest_eq, hcore, hcast, hlanes, hctr, hid]

theorem getThread_dropPost_other {cluster : Nat} {s : State} {x : Contribution} (h : PostStands (getCluster s cluster) x)
    {c k : Nat} (hne : (c, k) ≠ (x.core, x.cast)) (l : Nat) :
    getThread (dropPost cluster s x) c k l = getThread s c k l := by
  obtain ⟨q, _, _, heq⟩ := dropPost_eq h
  rw [heq]
  dsimp only
  split
  · exact getThread_modLanes_other _ _ _ _ _ (.inl hne)
  · rfl

theorem getThread_dropPost_same {cluster : Nat} {s : State} {x : Contribution} (h : PostStands (getCluster s cluster) x)
    (hnd : x.lanes.Nodup) (hlaunch : StillHolds s cluster x) {l : Nat} (hl : l ∈ x.lanes)
    (hlane : hasLane s x.core x.cast l = true) :
    getThread (dropPost cluster s x) x.core x.cast l = counterDown x.ctr (getThread s x.core x.cast l) := by
  obtain ⟨q, hq, hid, heq⟩ := dropPost_eq h
  rw [heq]
  dsimp only
  rw [if_pos (hlaunch q hq hid)]
  exact getThread_modLanes_mem _ hnd hl hlane

theorem postStands_dropPost {cluster : Nat} {s : State} {x y : Contribution} (h : PostStands (getCluster s cluster) y)
    (hne : y.request ≠ x.request) : PostStands (getCluster (dropPost cluster s x) cluster) y := by
  obtain ⟨q, hq, hsame⟩ := h
  refine ⟨q, ?_, hsame⟩
  rw [getCluster_dropPost, List.find?_filter, ← hq]
  congr 1
  funext p
  by_cases hp : p.id = y.request
  · simp [hp, hne]
  · simp [hp]

/-- Once a first contribution's request has left the table, those of the rest stand there still. -/
theorem postStands_rest {cluster : Nat} {s : State} {x : Contribution} {rest : List Contribution}
    (h : ∀ y ∈ x :: rest, PostStands (getCluster s cluster) y) (hx : x.request ∉ rest.map fun y => y.request) :
    ∀ y ∈ rest, PostStands (getCluster (dropPost cluster s x) cluster) y := fun y hy =>
  postStands_dropPost (h y (List.mem_cons_of_mem _ hy)) fun heq => hx (List.mem_map.mpr ⟨y, hy, heq⟩)

theorem stillHolds_dropPost {cluster : Nat} {s : State} {x y : Contribution} (h : StillHolds s cluster y) :
    StillHolds (dropPost cluster s x) cluster y := by
  obtain ⟨_, hlaunch, _⟩ := dropPost_keeps cluster s x
  intro q hq hid
  rw [getCluster_dropPost] at hq
  rw [holdsLaunch, hlaunch]
  exact h q (List.mem_filter.mp hq).1 hid

theorem getThread_dropPosts_other {cluster : Nat} {posts : List Contribution} {s : State}
    (hreq : (posts.map fun x => x.request).Nodup) (h : ∀ x ∈ posts, PostStands (getCluster s cluster) x) {c k : Nat}
    (hne : ∀ x ∈ posts, (c, k) ≠ (x.core, x.cast)) (l : Nat) :
    getThread (posts.foldl (dropPost cluster) s) c k l = getThread s c k l := by
  induction posts generalizing s with
  | nil => rfl
  | cons x rest ih =>
    obtain ⟨hx, hrest⟩ := List.nodup_cons.mp hreq
    exact (ih hrest (postStands_rest h hx) fun y hy => hne y (List.mem_cons_of_mem _ hy)).trans
      (getThread_dropPost_other (h x List.mem_cons_self) (hne x List.mem_cons_self) l)

/-- The counters of a contribution's lanes fall by one where its core still holds its launch (R337). -/
theorem getThread_dropPosts_mem {cluster : Nat} {posts : List Contribution} {s : State}
    (hreq : (posts.map fun x => x.request).Nodup) (hcasts : (posts.map fun x => (x.core, x.cast)).Nodup)
    (h : ∀ x ∈ posts, PostStands (getCluster s cluster) x) {x : Contribution} (hx : x ∈ posts) (hnd : x.lanes.Nodup)
    (hlaunch : StillHolds s cluster x) {l : Nat} (hl : l ∈ x.lanes) (hlane : hasLane s x.core x.cast l = true) :
    getThread (posts.foldl (dropPost cluster) s) x.core x.cast l = counterDown x.ctr (getThread s x.core x.cast l) := by
  induction posts generalizing s with
  | nil => cases hx
  | cons y rest ih =>
    obtain ⟨hy, hreqs⟩ := List.nodup_cons.mp hreq
    obtain ⟨hfirst, hothers⟩ := List.nodup_cons.mp hcasts
    have hstand := postStands_rest h hy
    have hother : ∀ z ∈ rest, (y.core, y.cast) ≠ (z.core, z.cast) := fun z hz heq =>
      hfirst (List.mem_map.mpr ⟨z, hz, heq.symm⟩)
    rw [List.foldl_cons]
    rcases List.mem_cons.mp hx with rfl | hx
    · rw [getThread_dropPosts_other hreqs hstand hother,
        getThread_dropPost_same (h x List.mem_cons_self) hnd hlaunch hl hlane]
    · obtain ⟨_, _, hlanes⟩ := dropPost_keeps cluster s y
      rw [ih hreqs hothers hstand hx (stillHolds_dropPost hlaunch) ((hlanes ..).trans hlane),
        getThread_dropPost_other (h y List.mem_cons_self) (hother x hx).symm]

/-! ### The completion -/

theorem exec_credRoundCompletion (cluster ctx launch ens : Nat) (s : State) :
    exec (.credRoundCompletion cluster ctx launch ens) s = execCredRoundCompletion cluster ctx launch ens s := rfl

theorem execCredRoundCompletion_some {s : State} {cluster ctx launch ens : Nat} {r : Round}
    (h : (getCluster s cluster).rounds.find? (isRound (launchKey ctx launch) ens) = some r) :
    execCredRoundCompletion cluster ctx launch ens s =
      if !roundFull s cluster r || !roundReady (fun _ => false) (getCluster s cluster) r then .next s
      else .next (completeRound s cluster r) := by
  rw [execCredRoundCompletion, h]

/-- The state once a round has been merged into its cluster, and its requests stand in the table still. -/
def roundMerged (s : State) (cluster : Nat) (r : Round) : State :=
  let c := getCluster s cluster
  setCluster s cluster { mergeRound r.posts c with views := c.views ++ roundView cluster r.posts c }

theorem completeRound_eq (s : State) (cluster : Nat) (r : Round) :
    completeRound s cluster r = dropRound (roundMerged s cluster r) cluster r := rfl

theorem table_roundMerged (s : State) (cluster : Nat) (r : Round) :
    (getCluster (roundMerged s cluster r) cluster).table = (getCluster s cluster).table := by
  rw [roundMerged, getCluster_setCluster_same, mergeRound_keeps]

theorem getCluster_completeRound (s : State) (cluster : Nat) (r : Round) :
    getCluster (completeRound s cluster r) cluster =
      let c := getCluster s cluster
      { mergeRound r.posts c with
        views := c.views ++ roundView cluster r.posts c
        table := c.table.filter fun q => r.posts.all fun x => !(q.id == x.request)
        rounds := c.rounds.filter fun q => !(isRound r.launch r.ens q) } := by
  rw [completeRound_eq, dropRound_eq, modCluster, getCluster_setCluster_same, getCluster_dropPosts, roundMerged,
    getCluster_setCluster_same]
  simp only [table_mergeRound, rounds_mergeRound]

theorem leadRows_congr {c d e : Cluster} {posts : List Contribution} {lead : Contribution} (hz : e.z = d.z)
    (hp : e.zPoison = d.zPoison) (h : LeadRows c d posts lead) : LeadRows c e posts lead := by
  unfold LeadRows zElem at *
  rwa [hz, hp]

/-- What the completion of a round comes to: the lead's rows, the table, the lanes' counters (R336, R337). -/
theorem completeRound_effect {s : State} {cluster : Nat} {r : Round}
    (hreq : (r.posts.map fun x => x.request).Nodup) (hcasts : (r.posts.map fun x => (x.core, x.cast)).Nodup)
    (hlanes : ∀ x ∈ r.posts, x.lanes.Nodup ∧ ∀ l ∈ x.lanes, l < 64)
    (hstand : ∀ x ∈ r.posts, PostStands (getCluster s cluster) x) :
    let c := getCluster s cluster
    let t := completeRound s cluster r
    MemoryKept s t ∧ (∀ d ∈ (getCluster t cluster).rounds, d.launch ≠ r.launch ∨ d.ens ≠ r.ens) ∧
      (∀ q, q ∈ (getCluster t cluster).table ↔ q ∈ c.table ∧ ∀ x ∈ r.posts, q.id ≠ x.request) ∧
      (∀ x ∈ r.posts, StillHolds s cluster x → ∀ l ∈ x.lanes, hasLane s x.core x.cast l = true →
        getThread t x.core x.cast l = counterDown x.ctr (getThread s x.core x.cast l)) ∧
      (∀ lead, r.posts.find? (fun x => !x.lanes.isEmpty) = some lead → LeadRows c (getCluster t cluster) r.posts lead) ∧
      (r.posts.find? (fun x => !x.lanes.isEmpty) = none → (getCluster t cluster).z = c.z) := by
  intro c t
  have hcluster : getCluster t cluster = _ := getCluster_completeRound s cluster r
  refine ⟨fun key => ?_, fun d hd => ?_, fun q => ?_, fun x hx hlaunch l hl hlane => ?_, fun lead hlead => ?_, fun hnone => ?_⟩
  · exact homeByte_dropPosts cluster r.posts _ key
  · rw [hcluster] at hd
    have hnot := (List.mem_filter.mp hd).2
    simpa [isRound, imp_iff_not_or] using hnot
  · rw [hcluster]
    exact List.mem_filter.trans (and_congr_right fun _ => by simp)
  · obtain ⟨hnd, _⟩ := hlanes x hx
    refine getThread_dropPosts_mem (s := roundMerged s cluster r) hreq hcasts (fun y hy => ?_) hx hnd ?_ hl hlane
    · rw [PostStands, table_roundMerged]
      exact hstand y hy
    · rw [StillHolds, table_roundMerged]
      exact hlaunch
  · obtain ⟨hnd, hlt⟩ := hlanes lead (List.mem_of_find?_eq_some hlead)
    exact leadRows_congr (by rw [hcluster]) (by rw [hcluster]) (leadRows_mergeRound hlead hnd hlt)
  · rw [hcluster]
    dsimp only
    rw [mergeRound, hnone]

end Sys2Proof.Proofs
end

section
/-! SUPPORT. A commit ends no lane and starts none: what performs its stores, renewals and training keeps of every thread whether it is
live and whether it has committed (R152, R211). -/

namespace Sys2Proof.Proofs

open Machine Claims

/-- What a commit keeps of a thread: whether it is live, and whether its next instruction has committed its scene already. -/
def lifeOf (t : Thread) : Bool × Bool := (t.live, t.committed)

/-- Every thread of every cast lives in `t` as in `s`. -/
structure KeepsLives (s t : State) : Prop where
  lives : ∀ core cast, (getCast t core cast).threads.map lifeOf = (getCast s core cast).threads.map lifeOf

theorem KeepsLives.refl (s : State) : KeepsLives s s := ⟨fun _ _ => rfl⟩

theorem KeepsLives.trans {s u t : State} (h : KeepsLives s u) (h' : KeepsLives u t) : KeepsLives s t :=
  ⟨fun core cast => (h'.lives core cast).trans (h.lives core cast)⟩

theorem KeepsLives.of_cores {s t : State} (h : t.cores = s.cores) : KeepsLives s t :=
  ⟨fun core cast => by rw [getCast, getCore, h, getCast, getCore]⟩

/-- A change of a core that leaves its casts. -/
theorem keepsLives_modCore (s : State) (core : Nat) {f : Core → Core} (h : (f (getCore s core)).casts = (getCore s core).casts) :
    KeepsLives s (modCore s core f) := by
  refine ⟨fun c cast => ?_⟩
  by_cases hc : c = core
  · subst hc
    rw [getCast, getCore_modCore_same, h, getCast]
  · rw [getCast, getCore_modCore_other _ _ hc, getCast]

theorem getThread_eq_getElem {s : State} {core cast lane : Nat} (h : lane < (getCast s core cast).threads.length) :
    getThread s core cast lane = (getCast s core cast).threads[lane] := by
  simp [getThread, h]

/-- A change of one thread that lives on as it did. -/
theorem keepsLives_modThread (s : State) (core cast lane : Nat) {f : Thread → Thread} (h : ∀ t, lifeOf (f t) = lifeOf t) :
    KeepsLives s (modThread s core cast lane f) := by
  refine ⟨fun c k => ?_⟩
  by_cases hc : c = core
  · by_cases hk : k = cast
    · subst hc hk
      rw [modThread, getCast_setThread]
      refine List.ext_getElem (by simp) fun i hi _ => ?_
      by_cases hl : lane = i
      · subst hl
        have hlane : lane < (getCast s c k).threads.length := by simpa using hi
        simp [h, getThread_eq_getElem hlane]
      · simp [List.getElem_set_ne hl]
    · rw [hc, modThread, getCast_setThread_other _ _ _ _ hk]
  · rw [getCast, modThread, getCore_setThread_other _ _ _ _ hc, getCast]

theorem keepsLives_foldl {α : Type} {f : State → α → State} (h : ∀ s x, KeepsLives s (f s x)) (l : List α) (s : State) :
    KeepsLives s (l.foldl f s) := by
  induction l generalizing s with
  | nil => exact .refl s
  | cons x rest ih => exact (h s x).trans (ih _)

/-- Either branch keeps lives. -/
theorem keepsLives_ite {s t u : State} {p : Prop} [Decidable p] (ht : KeepsLives s t) (hu : KeepsLives s u) :
    KeepsLives s (if p then t else u) := by
  split
  · exact ht
  · exact hu

/-! ### Charges and the home -/

theorem sfind_map {α : Type} (k : Nat) (f : Nat × α → α) (m : Store α) :
    sfind k (m.map fun e => (e.1, f e)) = (sfind k m).map fun x => f (k, x) := by
  induction m with
  | nil => rfl
  | cons e rest ih =>
    obtain ⟨j, x⟩ := e
    by_cases h : j = k
    · subst h; simp [sfind]
    · simp [sfind, h, ih]

/-- A change of the live threads of a core that keeps their lives. -/
theorem lives_mapLive {f : Thread → Thread} (h : ∀ t, lifeOf (f t) = lifeOf t) (c : Core) (cast : Nat) :
    (sget {} cast (mapLive f c).casts).threads.map lifeOf = (sget ({} : Cast) cast c.casts).threads.map lifeOf := by
  have hcast := sfind_map cast
    (fun e : Nat × Cast => { e.2 with threads := e.2.threads.map fun t => if t.live then f t else t }) c.casts
  simp only [mapLive, sget, hcast]
  cases sfind cast c.casts with
  | none => rfl
  | some x =>
    simp only [Option.map_some, List.map_map]
    refine List.map_congr_left fun t _ => ?_
    simp only [Function.comp]
    split
    · exact h t
    · rfl

/-- The pending bits of the live threads of a context are set: what a charge does that spends its budget (R218). -/
def exhaustCores (s : State) (ctx : Nat) : State :=
  { s with cores := s.cores.map fun e =>
      if e.2.launch.isSome && coreCtx s e.1 == ctx then (e.1, mapLive (fun t => { t with exh := true }) e.2) else e }

theorem getCore_exhaustCores (s : State) (ctx core : Nat) :
    getCore (exhaustCores s ctx) core = getCore s core ∨
      getCore (exhaustCores s ctx) core = mapLive (fun t => { t with exh := true }) (getCore s core) := by
  have hmap : (exhaustCores s ctx).cores = s.cores.map fun e => (e.1, if e.2.launch.isSome && coreCtx s e.1 == ctx then
      mapLive (fun t => { t with exh := true }) e.2 else e.2) := List.map_congr_left fun e _ => by split <;> rfl
  simp only [getCore, hmap, sget, sfind_map]
  cases sfind core s.cores with
  | none => exact .inl rfl
  | some c => exact (ite_eq_or_eq _ _ _).symm

theorem keepsLives_exhaustCores (s : State) (ctx : Nat) : KeepsLives s (exhaustCores s ctx) := by
  refine ⟨fun core cast => ?_⟩
  rw [getCast, getCast]
  rcases getCore_exhaustCores s ctx core with heq | heq
  · rw [heq]
  · rw [heq]
    exact lives_mapLive (f := fun t => { t with exh := true }) (fun _ => rfl) (getCore s core) cast

theorem keepsLives_charge (s : State) (ctx k : Nat) : KeepsLives s (charge s ctx k) := by
  unfold charge
  dsimp only
  generalize hspent : setContext s ctx _ = s1
  have hcores : KeepsLives s s1 := .of_cores (by rw [← hspent]; rfl)
  exact keepsLives_ite (.refl s) (keepsLives_ite (hcores.trans (keepsLives_exhaustCores s1 ctx)) hcores)

theorem keepsLives_checkLine (s : State) (line cls ctx : Nat) : KeepsLives s (checkLine s line cls ctx) := by
  unfold checkLine
  refine keepsLives_ite (.refl s) ?_
  split
  · exact .refl s
  · exact .trans (.of_cores (by split <;> rfl)) (keepsLives_charge _ ctx _)

theorem cores_trainL2 (s : State) (die ctx sig : Nat) (up : Bool) : (trainL2 s die ctx sig up).cores = s.cores := by
  unfold trainL2
  dsimp only
  split <;> rfl

theorem cores_evictL2 (s : State) (die : Nat) (l : L2Line) : (evictL2 s die l).cores = s.cores := by
  have hcores : (if l.dirty then putMemLine (modDie s die fun d => { d with l2 := sdel l.line d.l2 }) l.line l.data l.tags
      else modDie s die fun d => { d with l2 := sdel l.line d.l2 }).cores = s.cores := by split <;> rfl
  unfold evictL2
  dsimp only
  split
  · split
    · rw [cores_trainL2, hcores]
    · exact hcores
  · exact hcores

theorem cores_makeRoomL2 (s : State) (die line ctx : Nat) : (makeRoomL2 s die line ctx).2.cores = s.cores := by
  unfold makeRoomL2
  dsimp only
  split
  · rfl
  · split
    · rfl
    · exact cores_evictL2 ..

theorem cores_insertL2 (s : State) (die line ctx : Nat) (sig : Option Nat) (lu : Bool) :
    (insertL2 s die line ctx sig lu).2.cores = s.cores := by
  cases sig with
  | none => rfl
  | some g =>
    unfold insertL2
    simp only [apply_ite State.cores]
    exact ite_self _

theorem cores_touchL2 (s : State) (line ctx : Nat) (sig : Option Nat) (lu : Bool) :
    (touchL2 s line ctx sig lu).cores = s.cores := by
  unfold touchL2
  split
  · rfl
  · dsimp only
    split
    · split
      · rfl
      · split
        · split
          · rfl
          · exact cores_trainL2 ..
        · rfl
    · exact (cores_insertL2 ..).trans (cores_makeRoomL2 ..)

theorem cores_putHome (s : State) (line : Nat) (d : LineData) (tags : BitVec 4) : (putHome s line d tags).cores = s.cores := by
  unfold putHome
  dsimp only
  split
  · rfl
  · split <;> rfl

theorem keepsLives_writeHome (s : State) (line : Nat) (mask : BitVec 64) (d : LineData) (tags : BitVec 4) (poison : Bool)
    (cls ctx : Nat) (sig : Option Nat) : KeepsLives s (writeHome s line mask d tags poison cls ctx sig) := by
  have htouched : KeepsLives s (touchL2 (if mask = fullMask then s else checkLine s line cls ctx) line ctx sig false) :=
    (keepsLives_ite (.refl s) (keepsLives_checkLine ..)).trans (.of_cores (cores_touchL2 ..))
  unfold writeHome
  dsimp only
  refine htouched.trans (keepsLives_ite (.trans (.of_cores (cores_putHome ..)) (keepsLives_charge ..)) (.of_cores ?_))
  simp only [apply_ite State.cores, cores_putHome, ite_self]

theorem keepsLives_readHome (s : State) (line cls ctx : Nat) (sig : Option Nat) (lu : Bool) :
    KeepsLives s (readHome s line cls ctx sig lu) :=
  (keepsLives_checkLine s line cls ctx).trans (.of_cores (cores_touchL2 ..))

/-! ### L1 and the port of a core -/

theorem keepsLives_spendToken (s : State) (core : Nat) : KeepsLives s (spendToken s core) := keepsLives_modCore s core rfl

theorem keepsLives_sendWriteBack (s : State) (core : Nat) (l : L1Line) : KeepsLives s (sendWriteBack s core l) :=
  keepsLives_ite (.refl s) ((keepsLives_spendToken s core).trans (.of_cores rfl))

theorem keepsLives_evictL1 (s : State) (core : Nat) (l : L1Line) : KeepsLives s (evictL1 s core l) := by
  unfold evictL1
  refine (keepsLives_sendWriteBack s core l).trans (keepsLives_modCore _ core ?_)
  dsimp only
  split <;> rfl

theorem keepsLives_ejectLine (s : State) (core line : Nat) : KeepsLives s (ejectLine s core line) := by
  unfold ejectLine
  dsimp only
  refine .trans ?_ (keepsLives_modCore _ core rfl)
  split
  · exact keepsLives_sendWriteBack ..
  · exact .refl s

theorem keepsLives_makeRoomL1 (s : State) (core line : Nat) : KeepsLives s (makeRoomL1 s core line).2 := by
  unfold makeRoomL1
  dsimp only
  split
  · exact .refl s
  · split
    · exact .refl s
    · exact (keepsLives_modCore s core rfl).trans (keepsLives_evictL1 ..)

theorem keepsLives_installL1 (s : State) (core line cls ctx sig : Nat) (lu : Bool) (v : LineView) :
    KeepsLives s (installL1 s core line cls ctx sig lu v) :=
  (keepsLives_makeRoomL1 s core line).trans (keepsLives_modCore _ core (f := fun c => { c with l1 := _ }) rfl)

theorem keepsLives_joinMiss (s : State) (core line : Nat) : KeepsLives s (joinMiss s core line) := by
  unfold joinMiss
  exact keepsLives_modCore s core rfl

theorem keepsLives_openMiss (s : State) (core line ctx sig : Nat) (far : Bool) (v : LineView) :
    KeepsLives s (openMiss s core line ctx sig far v) := by
  unfold openMiss
  exact keepsLives_modCore s core rfl

theorem keepsLives_loadLine (s : State) (core line cls ctx : Nat) (pc : Word) (alloc lu : Bool) :
    KeepsLives s (loadLine s core line cls ctx pc alloc lu) := by
  have hjoin := keepsLives_joinMiss s core line
  unfold loadLine
  split
  · exact hjoin.trans (keepsLives_modCore _ core rfl)
  · exact keepsLives_ite (hjoin.trans (keepsLives_installL1 ..)) hjoin
  · have hopen (v : LineView) := ((keepsLives_spendToken s core).trans (keepsLives_readHome _ line cls ctx (some (sigL2 pc)) lu)).trans
      (keepsLives_openMiss _ core line ctx (sigL1 pc) (missesL2 s core line) v)
    exact keepsLives_ite ((hopen _).trans (keepsLives_installL1 ..)) (hopen _)

theorem keepsLives_popFifo (s : State) (core : Nat) : KeepsLives s (popFifo s core) := by
  unfold popFifo
  split
  · exact .refl s
  · exact keepsLives_modCore s core rfl
  · dsimp only
    split
    · exact keepsLives_modCore s core rfl
    · exact ((keepsLives_modCore s core rfl).trans (keepsLives_sendWriteBack ..)).trans (keepsLives_modCore _ core rfl)

theorem keepsLives_pushFifo (s : State) (core : Nat) (e : FifoEntry) : KeepsLives s (pushFifo s core e) := by
  unfold pushFifo
  exact (keepsLives_ite (keepsLives_popFifo s core) (.refl s)).trans (keepsLives_modCore _ core rfl)

theorem keepsLives_storeLine (s : State) (core line cls ctx : Nat) (pc : Word) (mask : BitVec 64) (d : LineData)
    (tags : BitVec 4) : KeepsLives s (storeLine s core line cls ctx pc mask d tags) := by
  have hload := keepsLives_loadLine s core line cls ctx pc true false
  unfold storeLine
  dsimp only
  split
  · exact hload
  · have hput (l : L1Line) := hload.trans
      (keepsLives_modCore _ core (f := fun c => { c with l1 := sput line l c.l1 }) rfl)
    exact keepsLives_ite ((hput _).trans (keepsLives_pushFifo ..)) (hput _)

theorem keepsLives_sendHomeWrite (s : State) (core line cls ctx : Nat) (pc : Word) (mask : BitVec 64) (d : LineData)
    (tags : BitVec 4) (poison : Bool) : KeepsLives s (sendHomeWrite s core line cls ctx pc mask d tags poison) :=
  (keepsLives_spendToken s core).trans (.of_cores rfl)

theorem keepsLives_sendPoisoned (s : State) (core line cls ctx : Nat) (mask : BitVec 64) (d : LineData) :
    KeepsLives s (sendPoisoned s core line cls ctx mask d) := (keepsLives_spendToken s core).trans (.of_cores rfl)

theorem keepsLives_sendRenewal (s : State) (core line ctx : Nat) (c : Cap) (n : Nat) :
    KeepsLives s (sendRenewal s core line ctx c n) := (keepsLives_spendToken s core).trans (.of_cores rfl)

theorem keepsLives_openRequest (s : State) (core line ctx : Nat) : KeepsLives s (openRequest s core line ctx) := by
  unfold openRequest
  exact keepsLives_modCore s core rfl

/-! ### Translation and Fugitive regions -/

theorem keepsLives_translate (s : State) (core fn ctx oid off : Nat) : KeepsLives s (translate s core fn ctx oid off).2 := by
  have hfront (e : TlbEntry) : KeepsLives s (modCore s core fun c => { c with tlb := tlbFront 192 e c.tlb }) :=
    keepsLives_modCore s core rfl
  unfold Machine.translate
  dsimp only
  split
  · exact hfront _
  · split
    · exact (hfront _).trans (.of_cores rfl)
    · split
      · exact (hfront _).trans (.of_cores rfl)
      · exact .refl s

theorem keepsLives_visit (s : State) (q : Port) (oid off : Nat) : KeepsLives s (visit s q oid off) := by
  unfold visit
  split
  · exact .refl s
  · exact keepsLives_translate ..

theorem keepsLives_checkRange (s : State) (q : Port) (oid off n : Nat) : KeepsLives s (checkRange s q oid off n) :=
  keepsLives_foldl (fun s c => by
    split
    · exact (keepsLives_visit ..).trans (keepsLives_readHome ..)
    · exact .refl s) _ s

theorem keepsLives_readBooks (s : State) (q : Port) (oid : Nat) (f : FugHdr) (n k : Nat) : KeepsLives s (readBooks s q oid f n k) :=
  ((keepsLives_checkRange ..).trans (keepsLives_checkRange ..)).trans (keepsLives_checkRange ..)

theorem keepsLives_spendPort (s : State) (q : Port) : KeepsLives s (spendPort s q) := by
  unfold spendPort
  split
  · exact keepsLives_spendToken ..
  · exact .refl s

theorem keepsLives_readBlock (s : State) (q : Port) (oid : Nat) (f : FugHdr) (n b : Nat) (sig : Option Nat) :
    KeepsLives s (readBlock s q oid f n b sig).state := by
  unfold readBlock
  dsimp only
  split
  · exact .refl s
  · split
    · exact .refl s
    · exact (keepsLives_visit ..).trans (keepsLives_readHome ..)

theorem keepsLives_fugWrite (s : State) (q : Port) (oid e : Nat) (bs : List Byte) (poison : Bool) (sig : Option Nat) :
    KeepsLives s (fugWrite s q oid e bs poison sig) := by
  unfold fugWrite
  split
  · exact .refl s
  · refine keepsLives_ite ?_ (.refl s)
    split
    · exact .refl s
    · exact (keepsLives_readBooks ..).trans (keepsLives_writeHome ..)

theorem keepsLives_readFugBlock (s : State) (core fn ctx oid : Nat) (f : FugHdr) (e : Nat) (pc : Word) :
    KeepsLives s (readFugBlock s core fn ctx oid f e pc).state := by
  unfold readFugBlock
  dsimp only
  refine .trans ?_ (keepsLives_readBlock ..)
  split
  · exact (keepsLives_spendToken ..).trans (keepsLives_openRequest ..)
  · exact .refl s

/-- A passed check of an access to a Fugitive region has read its books through the port. -/
theorem accessFug_ok {s s1 : State} {core fn ctx n : Nat} {v : Via} {c : Cap} {off : Int} {rights : List Nat}
    {denied : Option PageKey} {f : FugHdr} (h : accessFug s core fn ctx v c off n rights denied = .ok s1 f) :
    KeepsLives s s1 := by
  have hmissing (o : Nat) (p : PageState) : missingPage s fn ctx v c (effective c off) denied o p ≠ .ok s1 f := by
    unfold missingPage
    dsimp only
    split
    · simp
    · simp
    · split <;> simp
  unfold accessFug at h
  dsimp only at h
  split at h
  · cases h
  · split at h
    · exact absurd h (hmissing _ _)
    · split at h
      · cases h
      · split at h
        · cases h
        · split at h
          · cases h
          · split at h
            · exact absurd h (hmissing _ _)
            · split at h
              · cases h
              · cases h
                exact (keepsLives_spendPort ..).trans (keepsLives_readBooks ..)

/-! ### The commit -/

theorem keepsLives_prefetchAt (s : State) (core fn ctx : Nat) (c : Cap) (e : Int) (pc : Word) (toL1 : Bool) :
    KeepsLives s (prefetchAt s core fn ctx c e pc toL1) := by
  unfold prefetchAt
  dsimp only
  split
  · split
    next haccess => exact (accessFug_ok haccess).trans (keepsLives_readFugBlock ..)
    next => exact .refl s
  · split
    · exact .refl s
    · split
      next p s1 htranslate =>
        have htrans : KeepsLives s s1 := by simpa [htranslate] using keepsLives_translate s core fn ctx (capOid c) e.toNat
        refine keepsLives_ite (.refl s) (htrans.trans (keepsLives_ite (keepsLives_ite (.refl s1) (keepsLives_loadLine ..)) ?_))
        exact ((keepsLives_spendToken ..).trans (keepsLives_openRequest ..)).trans (keepsLives_readHome ..)
      next => exact .refl s

theorem keepsLives_landStore (s : State) (core : Nat) (st : BufStore) : KeepsLives s (landStore s core st) := by
  unfold landStore
  dsimp only
  split
  · exact keepsLives_modCore s core rfl
  · split
    · exact (keepsLives_spendToken ..).trans (keepsLives_fugWrite ..)
    next c _ _ _ =>
      have htrans := keepsLives_translate s core (coreFn s core) (coreCtx s core) (capOid c) st.off
      split
      next p s1 htranslate =>
        rw [htranslate] at htrans
        refine htrans.trans (keepsLives_ite ((keepsLives_ejectLine ..).trans (keepsLives_sendHomeWrite ..)) ?_)
        exact keepsLives_ite ((keepsLives_ejectLine ..).trans (keepsLives_sendPoisoned ..)) (keepsLives_storeLine ..)
      next htranslate =>
        rw [htranslate] at htrans
        exact htrans

theorem keepsLives_performStore (s : State) (core cast lane : Nat) (st : BufStore) :
    KeepsLives s (performStore s core cast lane st) := by
  unfold performStore
  refine .trans ?_ (keepsLives_landStore ..)
  split
  · exact keepsLives_ite (keepsLives_modThread s core cast lane fun _ => rfl) (.refl s)
  · exact .refl s

theorem keepsLives_trainEvents (s : State) (core : Nat) (es : List Training) : KeepsLives s (trainEvents s core es) :=
  keepsLives_foldl (fun s e => by
    have hbank (b : CoreBank) : KeepsLives s (setCore s core { getCore s core with bank := b }) :=
      keepsLives_modCore s core (f := fun c => { c with bank := b }) rfl
    dsimp only
    split
    · exact (hbank _).trans (keepsLives_prefetchAt ..)
    · exact hbank _) es s

theorem keepsLives_performRenewal (s : State) (core : Nat) (c : Cap) (n : Nat) : KeepsLives s (performRenewal s core c n) := by
  unfold performRenewal
  dsimp only
  split
  · exact .refl s
  · refine keepsLives_ite ?_ (.refl s)
    split
    · exact keepsLives_sendRenewal ..
    · exact .refl s

theorem finishCommit_eq (s : State) (core : Nat) (th : Nat × Nat) :
    finishCommit s core th =
      let scene := (getThread s core th.1 th.2).scene
      modThread (trainEvents (scene.renewals.foldl (fun s r => performRenewal s core r.1 r.2) s) core scene.training)
        core th.1 th.2 emptied := rfl

theorem keepsLives_emptied (s : State) (core cast lane : Nat) : KeepsLives s (modThread s core cast lane emptied) :=
  keepsLives_modThread s core cast lane fun _ => rfl

theorem keepsLives_finishCommit (s : State) (core : Nat) (th : Nat × Nat) : KeepsLives s (finishCommit s core th) := by
  rw [finishCommit_eq]
  refine .trans ?_ (keepsLives_emptied ..)
  refine .trans ?_ (keepsLives_trainEvents ..)
  refine keepsLives_foldl (fun u r => ?_) _ s
  exact keepsLives_performRenewal u core r.1 r.2

/-- The commit of some scenes ends no lane and starts none. -/
theorem keepsLives_commitThreads (s : State) (core : Nat) (ths : List (Nat × Nat)) : KeepsLives s (commitThreads s core ths) := by
  have hstores (js : List (Nat × Nat × BufStore)) :
      KeepsLives s (js.foldl (fun s j => performStore s core j.1 j.2.1 j.2.2) s) :=
    keepsLives_foldl (fun s j => keepsLives_performStore s core j.1 j.2.1 j.2.2) js s
  unfold commitThreads
  exact (hstores _).trans (keepsLives_foldl (fun s th => keepsLives_finishCommit s core th) ths _)

end Sys2Proof.Proofs
end

section
/-! SUPPORT. A complete cast executes a gathering instruction that is a commit point: its lanes gather, those that execute it commit, its
effect, and every lane goes on (R172, R173, R210, R211). -/

namespace Sys2Proof.Proofs

open Machine Claims

/-! ### The live lanes of a cast -/

theorem enum_eq_zipIdx {α : Type} (i : Nat) (xs : List α) : enum i xs = (xs.zipIdx i).map Prod.swap := by
  induction xs generalizing i with
  | nil => rfl
  | cons x xs ih => simp [enum, ih]

theorem enum_map {α β : Type} (f : α → β) (i : Nat) (xs : List α) :
    enum i (xs.map f) = (enum i xs).map fun e => (e.1, f e.2) := by
  induction xs generalizing i with
  | nil => rfl
  | cons x xs ih => simp [enum, ih]

theorem mem_liveLanes {c : Cast} {l : Nat} : l ∈ liveLanes c ↔ ∃ t, c.threads[l]? = some t ∧ t.live = true := by
  simp [liveLanes, enum_eq_zipIdx, List.mk_mem_zipIdx_iff_getElem?]

theorem nodup_liveLanes (c : Cast) : (liveLanes c).Nodup := by
  have hall : ((enum 0 c.threads).map Prod.fst).Nodup := by
    rw [enum_eq_zipIdx, List.map_map]
    exact (List.zipIdx_map_snd 0 c.threads).symm ▸ List.nodup_range'
  exact hall.sublist (List.filter_sublist.map Prod.fst)

theorem hasLane_of_mem_liveLanes {s : State} {core cast l : Nat} (h : l ∈ liveLanes (getCast s core cast)) :
    hasLane s core cast l = true := by
  obtain ⟨t, ht, _⟩ := mem_liveLanes.mp h
  exact decide_eq_true (List.getElem?_eq_some_iff.mp ht).1

theorem KeepsLives.getElem? {s t : State} (h : KeepsLives s t) (core cast l : Nat) :
    (getCast t core cast).threads[l]?.map lifeOf = (getCast s core cast).threads[l]?.map lifeOf := by
  rw [← List.getElem?_map, h.lives, List.getElem?_map]

theorem KeepsLives.mem_liveLanes {s t : State} (h : KeepsLives s t) {core cast l : Nat}
    (hl : l ∈ liveLanes (getCast t core cast)) : l ∈ liveLanes (getCast s core cast) := by
  obtain ⟨u, hu, hlive⟩ := Proofs.mem_liveLanes.mp hl
  have hsame := h.getElem? core cast l
  rw [hu, Option.map_some] at hsame
  obtain ⟨v, hv, hlife⟩ := Option.map_eq_some_iff.mp hsame.symm
  exact Proofs.mem_liveLanes.mpr ⟨v, hv, ((Prod.mk.inj hlife).1).trans hlive⟩

theorem KeepsLives.committed {s t : State} (h : KeepsLives s t) (core cast l : Nat) :
    (getThread t core cast l).committed = (getThread s core cast l).committed := by
  have hsame := h.getElem? core cast l
  unfold getThread
  cases ht : (getCast t core cast).threads[l]? <;> cases hs : (getCast s core cast).threads[l]? <;>
    simp_all [lifeOf]

/-! ### A cast gathers -/

theorem castIssues_iff {s : State} {core cast : Nat} {act : List Nat} {o : Opc} {op : Op} :
    castIssues s core cast act o op = true ↔
      s.actor = .lanes core ((liveLanes (getCast s core cast)).map fun l => (cast, l)) ∧ liveLanes (getCast s core cast) ≠ [] ∧
      op.second = none ∧ legalIn (laneEnv s core) o op = true ∧
      (∀ l ∈ liveLanes (getCast s core cast),
        (getThread s core cast l).pc = (getThread s core cast ((liveLanes (getCast s core cast)).headD 0)).pc ∧
        onTime s core cast l o op = true ∧ (getThread s core cast l).committed = false) ∧
      act = (liveLanes (getCast s core cast)).filter fun l => guardOf s core cast l op := by
  simp [castIssues, and_assoc]

/-- A thread that stands at a gathering instruction. -/
def atGather (t : Thread) : Thread := { t with wait := .gather }

theorem gathered_eq (s : State) (core cast : Nat) :
    gathered s core cast = modLanes s core cast (liveLanes (getCast s core cast)) atGather := by
  rw [gathered, List.foldl_map]
  rfl

theorem getThread_gathered {s : State} {core cast l : Nat} (h : l ∈ liveLanes (getCast s core cast)) :
    getThread (gathered s core cast) core cast l = atGather (getThread s core cast l) := by
  rw [gathered_eq]
  exact getThread_modLanes_mem _ (nodup_liveLanes _) h (hasLane_of_mem_liveLanes h)

theorem keepsLives_gathered (s : State) (core cast : Nat) : KeepsLives s (gathered s core cast) := by
  rw [gathered_eq]
  refine keepsLives_foldl (fun u l => ?_) _ s
  exact keepsLives_modThread u core cast l fun _ => rfl

theorem guardOf_gathered {s : State} {core cast l : Nat} (op : Op) (h : l ∈ liveLanes (getCast s core cast)) :
    guardOf (gathered s core cast) core cast l op = guardOf s core cast l op := by
  obtain ⟨hstate, _⟩ := onlyLanes_modLanes s core cast (liveLanes (getCast s core cast)) atGather
  have htick : (gathered s core cast).tick = s.tick := by rw [gathered_eq, hstate]
  simp only [guardOf, readP, laneFree, getThread_gathered h, htick]
  rfl

/-- The threads of a cast that has gathered: the live ones stand at the instruction. -/
theorem threads_gathered (s : State) (core cast : Nat) :
    (getCast (gathered s core cast) core cast).threads =
      (getCast s core cast).threads.map fun t => if t.live then atGather t else t := by
  have hlane (l : Nat) : hasLane (gathered s core cast) core cast l = hasLane s core cast l := by
    rw [gathered_eq, hasLane_modLanes]
  have hlength : (getCast (gathered s core cast) core cast).threads.length = (getCast s core cast).threads.length := by
    simpa using congrArg List.length ((keepsLives_gathered s core cast).lives core cast)
  refine List.ext_getElem (by simpa using hlength) fun l hl hl' => ?_
  have hl' : l < (getCast s core cast).threads.length := hlength ▸ hl
  rw [← getThread_eq_getElem hl, List.getElem_map, ← getThread_eq_getElem hl']
  have hmem : l ∈ liveLanes (getCast s core cast) ↔ (getThread s core cast l).live = true := by
    simp [mem_liveLanes, getThread_eq_getElem hl', hl']
  by_cases hlive : l ∈ liveLanes (getCast s core cast)
  · rw [getThread_gathered hlive, if_pos (hmem.mp hlive)]
  · rw [if_neg (mt hmem.mpr hlive), gathered_eq, getThread_modLanes_other _ _ _ _ _ (.inr hlive)]

/-- The least of some numbers that are all the same. -/
theorem min?_of_forall_eq {xs : List Nat} {p : Nat} (hne : xs ≠ []) (h : ∀ x ∈ xs, x = p) : xs.min? = some p := by
  have hpos : xs.length ≠ 0 := by simpa using hne
  rw [List.eq_replicate_of_mem h, List.min?_replicate_of_pos (by omega)]

/-- All live lanes of a cast that stand at one PC are the lanes that execute the gathering instruction there (R173). -/
theorem gatherLanes_gathered {s : State} {core cast : Nat} {pc : Word} (hne : liveLanes (getCast s core cast) ≠ [])
    (hpc : ∀ l ∈ liveLanes (getCast s core cast), (getThread s core cast l).pc = pc) :
    gatherLanes (getCast (gathered s core cast) core cast) = liveLanes (getCast s core cast) := by
  have hlive : (enum 0 (getCast (gathered s core cast) core cast).threads).filter (fun e => e.2.live) =
      ((enum 0 (getCast s core cast).threads).filter fun e => e.2.live).map fun e => (e.1, atGather e.2) := by
    rw [threads_gathered, enum_map, List.filter_map]
    have hkeep : ((fun e : Nat × Thread => e.2.live) ∘ fun e : Nat × Thread =>
        (e.1, if e.2.live = true then atGather e.2 else e.2)) = fun e => e.2.live := by
      funext e
      simp only [Function.comp]
      split <;> rfl
    rw [hkeep]
    refine List.map_congr_left fun e he => ?_
    rw [if_pos (List.mem_filter.mp he).2]
  have hsame : ∀ e ∈ (enum 0 (getCast s core cast).threads).filter fun e => e.2.live, e.2.pc = pc := by
    intro e he
    have hl := hpc e.1 (List.mem_map_of_mem he)
    have hget : (getCast s core cast).threads[e.1]? = some e.2 := by
      obtain ⟨x, hx, rfl⟩ := List.mem_map.mp (enum_eq_zipIdx .. ▸ (List.mem_filter.mp he).1)
      exact List.mem_zipIdx_iff_getElem?.mp hx
    rwa [getThread, hget] at hl
  simp only [gatherLanes, hlive]
  unfold liveLanes at hne ⊢
  generalize (enum 0 (getCast s core cast).threads).filter (fun e => e.2.live) = es at hne hsame ⊢
  have hmin : ((es.map fun e => (e.1, atGather e.2)).map fun e => e.2.pc.toNat).min? = some pc.toNat := by
    refine min?_of_forall_eq (by simpa using hne) fun x hx => ?_
    simp only [List.map_map, List.mem_map] at hx
    obtain ⟨e, he, rfl⟩ := hx
    exact congrArg BitVec.toNat (hsame e he)
  have hall : (es.map fun e => (e.1, atGather e.2)).filter (fun e => e.2.pc.toNat == pc.toNat) =
      es.map fun e => (e.1, atGather e.2) := by
    refine List.filter_eq_self.mpr fun x hx => ?_
    obtain ⟨e, he, rfl⟩ := List.mem_map.mp hx
    exact beq_iff_eq.mpr (congrArg BitVec.toNat (hsame e he))
  rw [if_pos (by simp [atGather]), hmin]
  dsimp only
  rw [hall, List.map_map]
  rfl

theorem groupCasts_lanes (cast : Nat) {ls : List Nat} (h : ls ≠ []) : groupCasts (ls.map fun l => (cast, l)) = [cast] := by
  induction ls with
  | nil => exact absurd rfl h
  | cons l rest ih =>
    cases rest with
    | nil => rfl
    | cons m rest =>
      have hrest := ih (by simp)
      unfold groupCasts at hrest ⊢
      rw [List.map_cons, List.foldr_cons, hrest]
      simp [nins]

theorem groupPc_lanes (s : State) (core cast : Nat) {ls : List Nat} (h : ls ≠ []) :
    groupPc s core (ls.map fun l => (cast, l)) = (getThread s core cast (ls.headD 0)).pc := by
  cases ls with
  | nil => exact absurd rfl h
  | cons l rest => rfl

theorem headD_mem {ls : List Nat} (h : ls ≠ []) : ls.headD 0 ∈ ls := by
  cases ls with
  | nil => exact absurd rfl h
  | cons l rest => exact List.mem_cons_self

/-- A cast that is complete at a gathering instruction executes it once. -/
theorem execGather_complete {s : State} {core cast : Nat} {act : List Nat} {o : Opc} {op : Op} (g : GatherSpec)
    (h : castIssues s core cast act o op = true) :
    execGather o g op s = runGather o op g true core cast (liveLanes (getCast s core cast)) (gathered s core cast) := by
  obtain ⟨hactor, hne, _, hlegal, hlanes, _⟩ := castIssues_iff.mp h
  have hhead := headD_mem hne
  have htimes : ∀ th ∈ (liveLanes (getCast s core cast)).map (fun l => (cast, l)), onTime s core th.1 th.2 o op = true := by
    intro th hth
    obtain ⟨l, hl, rfl⟩ := List.mem_map.mp hth
    obtain ⟨_, htime, _⟩ := hlanes l hl
    exact htime
  have hcheck (pc : Word) (ths : List (Nat × Nat)) (hths : ∀ th ∈ ths, onTime s core th.1 th.2 o op = true) :
      (if modeSchk (coreMode s core) then stallCheck s (frameAt core pc o op) ths else (s, ths)) = (s, ths) := by
    split
    next hm => exact stallCheck_onTime pc hm hths
    next => rfl
  have hparts := gatherLanes_gathered hne fun l hl => (hlanes l hl).1
  have hpc : groupPc (gathered s core cast) core ((liveLanes (getCast s core cast)).map fun l => (cast, l)) =
      groupPc s core ((liveLanes (getCast s core cast)).map fun l => (cast, l)) := by
    rw [groupPc_lanes _ _ _ hne, groupPc_lanes _ _ _ hne, getThread_gathered hhead]
    rfl
  have hempty : (liveLanes (getCast s core cast)).isEmpty = false := by simpa using hne
  rw [execGather, hactor]
  dsimp only
  unfold reachGather
  simp only [hlegal, Bool.not_true, Bool.false_eq_true, if_false, hcheck _ _ htimes, groupCasts_lanes cast hne]
  change gatherCasts o op g core _ [cast] (gathered s core cast) = _
  simp only [gatherCasts, hparts, hempty, hpc, frameAt, bne_self_eq_false, Bool.or_self, Bool.false_eq_true, if_false]
  cases runGather o op g true core cast (liveLanes (getCast s core cast)) (gathered s core cast) <;> rfl

/-! ### The commit of a gathering instruction -/

theorem scanCommits_length {s : State} {core : Nat} {ths ok : List (Nat × Nat)} {ps : List ((Nat × Nat) × PageKey)}
    (h : scanCommits s core ths = .ready ok ps) : ok.length + ps.length = ths.length := by
  induction ths generalizing ok ps with
  | nil =>
    cases h
    rfl
  | cons th rest ih =>
    unfold scanCommits at h
    split at h
    · cases h
    · cases h
    next ok' ps' hrest =>
      have hlen := ih hrest
      split at h <;> cases h <;> simp only [List.length_cons] <;> omega

/-- A commit point at which every lane commits: none is worn out and none restarts for a page. -/
theorem commitPoint_all {s s1 : State} {fr : Frame} {ths : List (Nat × Nat)} (h : commitPoint s fr ths = .go s1 ths) :
    ths.filter (fun th => exhausted (getThread s fr.core th.1 th.2)) = [] ∧
      scanCommits s fr.core (ths.filter fun th => !exhausted (getThread s fr.core th.1 th.2)) = .ready ths [] ∧
      s1 = ths.foldl (fun s th => modThread s fr.core th.1 th.2 fun t =>
        passBoundary s (openImplicit (coreBill s fr.core) t fr.pc)) (commitThreads s fr.core ths) := by
  unfold commitPoint at h
  dsimp only at h
  split at h
  · cases h
  · cases h
  next ok ps hscan =>
    split at h
    · cases h
    · obtain ⟨hstate, rfl⟩ := CommitOut.go.inj h
      have hlen := scanCommits_length hscan
      have hsplit := List.length_eq_length_filter_add (l := ok) fun th => exhausted (getThread s fr.core th.1 th.2)
      have hworn : ok.filter (fun th => exhausted (getThread s fr.core th.1 th.2)) = [] :=
        List.eq_nil_of_length_eq_zero (by omega)
      have hpages : ps = [] := List.eq_nil_of_length_eq_zero (by omega)
      subst hpages
      rw [hworn] at hstate
      exact ⟨hworn, hscan, hstate.symm⟩

theorem keepsLives_commitPoint_all {s s1 : State} {fr : Frame} {ths : List (Nat × Nat)} (h : commitPoint s fr ths = .go s1 ths) :
    KeepsLives s s1 := by
  obtain ⟨_, _, rfl⟩ := commitPoint_all h
  refine (keepsLives_commitThreads s fr.core ths).trans (keepsLives_foldl (fun u th => ?_) _ _)
  exact keepsLives_modThread u fr.core th.1 th.2 fun _ => rfl

theorem commitAside_none {s s1 : State} {fr : Frame} {ths : List (Nat × Nat)} (h : commitPoint s fr ths = .go s1 ths) :
    commitAside s fr ths = none := by
  obtain ⟨hworn, hscan, _⟩ := commitPoint_all h
  simp only [commitAside, hworn, hscan]
  rfl

theorem castCommitted_eq_some {s s1 : State} {core cast : Nat} {act : List Nat} {o : Opc} {op : Op}
    (h : castCommitted s core cast act o op = some s1) :
    commitPoint (gathered s core cast) (castFrame s core cast o op) (act.map fun l => (cast, l)) =
      .go s1 (act.map fun l => (cast, l)) := by
  unfold castCommitted at h
  split at h
  case h_1 s2 ok hgo =>
    split at h
    next hok =>
      cases h
      rw [hgo, eq_of_beq hok]
    next => cases h
  all_goals cases h

/-- The commit of a cast's lanes at a gathering instruction ends no lane and starts none. -/
theorem keepsLives_castCommitted {s s1 : State} {core cast : Nat} {act : List Nat} {o : Opc} {op : Op}
    (h : castCommitted s core cast act o op = some s1) : KeepsLives s s1 :=
  (keepsLives_gathered s core cast).trans (keepsLives_commitPoint_all (castCommitted_eq_some h))

/-- The live lanes of a cast that do not execute its gathering instruction. -/
def idleLanes (s : State) (core cast : Nat) (act : List Nat) : List Nat :=
  (liveLanes (getCast s core cast)).filter fun l => !act.contains l

/-- A gathering commit point of a complete cast whose lanes have all committed: its effect on what the commit leaves. -/
theorem execGather_committed {s s1 : State} {core cast : Nat} {act : List Nat} {o : Opc} {op : Op} {g : GatherSpec}
    (hg : g.commits = true) (h : castIssues s core cast act o op = true) (hc : castCommitted s core cast act o op = some s1) :
    execGather o g op s = gatherEffect (castFrame s core cast o op) g true cast act (idleLanes s core cast act) s1 := by
  rw [execGather_complete g h]
  obtain ⟨_, hne, _, _, hlanes, hact⟩ := castIssues_iff.mp h
  have hcommit := castCommitted_eq_some hc
  have hframe : frameAt core (groupPc (gathered s core cast) core ((liveLanes (getCast s core cast)).map fun l => (cast, l))) o op
      = castFrame s core cast o op := by
    rw [groupPc_lanes _ _ _ hne, getThread_gathered (headD_mem hne)]
    rfl
  have hguards : (liveLanes (getCast s core cast)).filter (fun l => guardOf (gathered s core cast) core cast l op) = act := by
    rw [hact]
    exact List.filter_congr fun l hl => guardOf_gathered op hl
  have htodo : act.filter (fun l => !(getThread (gathered s core cast) core cast l).committed) = act := by
    refine List.filter_eq_self.mpr fun l hl => ?_
    rw [hact] at hl
    obtain ⟨hlive, _⟩ := List.mem_filter.mp hl
    obtain ⟨_, _, hnot⟩ := hlanes l hlive
    rw [(keepsLives_gathered s core cast).committed, hnot]
    rfl
  have hgo : act.filter (fun l => !act.contains l || (act.map fun l => (cast, l)).contains (cast, l)) = act := by
    refine List.filter_eq_self.mpr fun l hl => ?_
    simp [hl]
  unfold runGather
  simp only [hframe, hguards, hg, htodo, if_true, commitAside_none hcommit, hcommit, hgo]
  rfl

/-! ### The cast goes on -/

theorem afterWord_congr {s u : State} {fr : Frame} (hclk : coreClk u fr.core = coreClk s fr.core)
    (hbill : coreBill u fr.core = coreBill s fr.core) (e : Eff) (committed : Bool) :
    afterWord u fr e none committed = afterWord s fr e none committed := by
  funext t
  simp only [afterWord, hclk, hbill]

/-- Lanes without results go on one after another, each as its word leaves it. -/
theorem proceed_eq (s : State) (fr : Frame) (cast : Nat) (ls : List Nat) (committed : Bool) :
    proceed s fr cast ls [] committed = modLanes s fr.core cast ls (afterWord s fr {} none committed) := by
  have hfold (ls : List Nat) (u : State) (hclk : coreClk u fr.core = coreClk s fr.core)
      (hbill : coreBill u fr.core = coreBill s fr.core) :
      proceed u fr cast ls [] committed = modLanes u fr.core cast ls (afterWord s fr {} none committed) := by
    induction ls generalizing u with
    | nil => rfl
    | cons l rest ih =>
      have hword := afterWord_congr hclk hbill {} committed
      change proceed (modThread u fr.core cast l (afterWord u fr {} none committed)) fr cast rest [] committed = _
      rw [hword]
      exact ih _ hclk ((coreBill_modThread ..).trans hbill)
  exact hfold ls s rfl rfl

/-- A lane past a word that has written nothing in it, up to what only delays it. -/
theorem sameThread_afterWord_idle (s : State) (fr : Frame) {t : Thread} (h : t.committed = false) :
    SameThread (afterWord s fr {} none false t) (readyAt fr.next t) :=
  (afterWord_plain s fr {} t).trans (congrArg undelayed (laneResult_none fr h))

/-- A lane past a commit point that it has executed: an implicit scene is open at the next instruction (R210). -/
theorem sameThread_afterWord_commit (s : State) (fr : Frame) {t : Thread} (h : t.committed = false) :
    let u := readyAt fr.next t
    SameThread (afterWord s fr {} none true t) { u with scene := implicitScene (coreBill s fr.core) u fr.next, denied := none } := by
  intro u
  exact congrArg (fun x : Thread => { openImplicit (coreBill s fr.core) x fr.next with denied := none })
    (sameThread_afterWord_idle s fr h)

theorem coreBill_modLanes (s : State) (core cast : Nat) (ls : List Nat) (f : Thread → Thread) (c : Nat) :
    coreBill (modLanes s core cast ls f) c = coreBill s c := by
  obtain ⟨hstate, _⟩ := onlyLanes_modLanes s core cast ls f
  have hlaunches : (modLanes s core cast ls f).launches = s.launches := by rw [hstate]
  rw [coreBill, coreLaunch_of_launch (launch_modLanes ..) hlaunches, coreBill]

/-- A lane of a cast after a gathering commit point without results whose effect has left `result` of it: the lanes `act` have
executed it, the lanes `idle` have not. -/
theorem castLane_proceed {s1 s2 : State} {fr : Frame} {cast : Nat} {act idle : List Nat} {l : Nat} {result : Thread → Thread}
    (hact : act.Nodup) (hidle : idle.Nodup) (hin : l ∈ idle ↔ l ∉ act)
    (hbill : coreBill s2 fr.core = coreBill s1 fr.core) (hlane : hasLane s2 fr.core cast l = true)
    (hresult : getThread s2 fr.core cast l = result (getThread s1 fr.core cast l))
    (hc : (getThread s2 fr.core cast l).committed = false) :
    CastLane s1 (proceed (proceed s2 fr cast act [] true) fr cast idle [] false) fr.core cast l fr.next (act.contains l) result := by
  rw [CastLane, ← hresult, proceed_eq, proceed_eq, List.contains_eq_mem]
  by_cases hl : l ∈ act
  · rw [getThread_modLanes_other _ _ _ _ _ (.inr fun hout => hin.mp hout hl), getThread_modLanes_mem _ hact hl hlane,
      if_pos (decide_eq_true hl), ← hbill]
    exact sameThread_afterWord_commit s2 fr hc
  · rw [getThread_modLanes_mem _ hidle (hin.mpr hl) ((hasLane_modLanes ..).trans hlane),
      getThread_modLanes_other _ _ _ _ _ (.inr hl), if_neg (by simpa using hl)]
    exact sameThread_afterWord_idle _ fr hc

end Sys2Proof.Proofs
end

section
/-! CRED: a complete cast posts its contribution to the open round of its cluster ensemble, and the round completes (R334 to R338). -/

namespace Sys2Proof.Proofs

open Machine Claims

/-! ### A request is posted -/

/-- The request that a cast posts (R311). -/
def newRequest (s : State) (core cast : Nat) (lanes : List Nat) (ctr tile : Nat) (high : Bool) (kind : ReqKind) : Request :=
  { id := s.fresh, core, cast, lanes, ctr, tile, high, posted := coreClk s core, kind, launch := (getCore s core).launch }

theorem postRequest_eq (s : State) (core cast : Nat) (lanes : List Nat) (ctr tile : Nat) (high : Bool) (kind : ReqKind) :
    postRequest s core cast lanes ctr tile high kind =
      modCluster (modLanes (takeFresh s).2 core cast lanes (counterUp ctr)) (clusterOfCore core) fun c =>
        { c with table := c.table ++ [newRequest s core cast lanes ctr tile high kind] } := by
  rw [← raiseAll_lanes]
  rfl

@[simp] theorem getCluster_modCluster_same (s : State) (n : Nat) (f : Cluster → Cluster) :
    getCluster (modCluster s n f) n = f (getCluster s n) := getCluster_setCluster_same ..

theorem getCluster_modCluster_other (s : State) {n k : Nat} (f : Cluster → Cluster) (h : k ≠ n) :
    getCluster (modCluster s n f) k = getCluster s k := getCluster_setCluster_other s _ h

/-! ### A contribution joins its round -/

theorem mem_insertPost (x : Contribution) (posts : List Contribution) : x ∈ insertPost x posts := by
  induction posts with
  | nil => exact List.mem_singleton_self x
  | cons y rest ih =>
    unfold insertPost
    split
    · exact List.mem_cons_self
    · exact List.mem_cons_of_mem y ih

theorem addPost_keeps (launch ens : Nat) (x : Contribution) (c : Cluster) :
    addPost launch ens x c = { c with rounds := (addPost launch ens x c).rounds } := by
  unfold addPost
  split <;> rfl

/-- A round of the ensemble holds the contribution, be it the open one or one that it opens (R335). -/
theorem mem_addPost (launch ens : Nat) (x : Contribution) (c : Cluster) :
    ∃ d ∈ (addPost launch ens x c).rounds, d.launch = launch ∧ d.ens = ens ∧ x ∈ d.posts := by
  unfold addPost
  split
  next hopen =>
    obtain ⟨r, hr, hround⟩ := List.any_eq_true.mp hopen
    have hnames : r.launch = launch ∧ r.ens = ens := by simpa [isRound] using hround
    refine ⟨{ r with posts := insertPost x r.posts }, List.mem_map.mpr ⟨r, hr, if_pos hround⟩, ?_⟩
    exact ⟨hnames.1, hnames.2, mem_insertPost x r.posts⟩
  next =>
    exact ⟨{ launch, ens, posts := [x] }, List.mem_append_right _ (List.mem_singleton_self _), rfl, rfl, List.mem_singleton_self x⟩

/-! ### CRED -/

theorem exec_cred (op : Op) (s : State) : exec (.cred op) s = execGather .cred gatherCred op s := rfl

/-- The contribution that a cast posts (R335). -/
def newContribution (s : State) (fr : Frame) (cast : Nat) (act : List Nat) (ens : Nat) : Contribution :=
  { core := fr.core, cast, position := (sget {} ens (coreLaunch s fr.core).ensembles).casts.idxOf cast
    lanes := act, tile := fr.op.d.toNat, ctr := fr.op.c.toNat
    m := laneWords s fr cast act .a, l := laneWords s fr cast act .b, request := s.fresh
    scenes := if act.isEmpty then idleScenes s fr cast else act.map fun l => (l, (getThread s fr.core cast l).scene) }

/-- The state once a cast has posted. -/
def credPosted (s : State) (fr : Frame) (cast : Nat) (act : List Nat) (ens : Nat) : State :=
  modCluster (postRequest s fr.core cast act fr.op.c.toNat fr.op.d.toNat false (.cred ens)) (clusterOfCore fr.core)
    (addPost (((getCore s fr.core).launch).getD 0) ens (newContribution s fr cast act ens))

/-- CRED of a cast that has no contribution in the open round, and need not wait to post (R335). -/
theorem gatherCred_posts {s : State} {fr : Frame} {cast : Nat} {act : List Nat} {ens : Nat}
    (hens : clusterEnsemble s fr.core cast (fr.op.mod.toNat % 4) = some ens)
    (hfree : ∀ r ∈ (getCluster s (clusterOfCore fr.core)).rounds, r.launch = ((getCore s fr.core).launch).getD 0 → r.ens = ens →
      ∀ x ∈ r.posts, (x.core, x.cast) ≠ (fr.core, cast))
    (hheld : postHeld s fr.core cast act fr.op.c.toNat = false) :
    gatherCred.body fr cast act s = .done (credPosted s fr cast act ens) [] := by
  have hnot : ((getCluster s (clusterOfCore fr.core)).rounds.any fun r =>
      isRound (((getCore s fr.core).launch).getD 0) ens r && r.posts.any fun x => x.core == fr.core && x.cast == cast) = false := by
    simpa [isRound] using hfree
  simp only [gatherCred, hens, hnot, hheld, Bool.or_self, Bool.false_eq_true, if_false]
  rfl

theorem getCluster_credPosted (s : State) (fr : Frame) (cast : Nat) (act : List Nat) (ens : Nat) :
    let old := getCluster s (clusterOfCore fr.core)
    let r := newRequest s fr.core cast act fr.op.c.toNat fr.op.d.toNat false (.cred ens)
    getCluster (credPosted s fr cast act ens) (clusterOfCore fr.core) =
      addPost (((getCore s fr.core).launch).getD 0) ens (newContribution s fr cast act ens)
        { old with table := old.table ++ [r] } := by
  intro old r
  rw [credPosted, getCluster_modCluster_same, postRequest_eq, getCluster_modCluster_same, getCluster_modLanes]
  rfl

theorem getCluster_credPosted_other (s : State) (fr : Frame) (cast : Nat) (act : List Nat) (ens : Nat) {k : Nat}
    (h : k ≠ clusterOfCore fr.core) : getCluster (credPosted s fr cast act ens) k = getCluster s k := by
  rw [credPosted, getCluster_modCluster_other _ _ h, postRequest_eq, getCluster_modCluster_other _ _ h, getCluster_modLanes]
  rfl

/-- The threads of a cast that has posted: the counters of the lanes of its contribution have risen. -/
theorem cores_credPosted (s : State) (fr : Frame) (cast : Nat) (act : List Nat) (ens : Nat) :
    (credPosted s fr cast act ens).cores = (modLanes (takeFresh s).2 fr.core cast act (counterUp fr.op.c.toNat)).cores := by
  rw [credPosted, postRequest_eq]
  rfl

theorem getThread_of_cores {s t : State} (h : t.cores = s.cores) (c k l : Nat) : getThread t c k l = getThread s c k l := by
  rw [getThread, getCast, getCore, h, getThread, getCast, getCore]

theorem getThread_credPosted {s : State} {fr : Frame} {cast : Nat} {act : List Nat} (ens : Nat) {l : Nat} (hact : act.Nodup)
    (hlane : hasLane s fr.core cast l = true) :
    getThread (credPosted s fr cast act ens) fr.core cast l =
      if act.contains l then counterUp fr.op.c.toNat (getThread s fr.core cast l) else getThread s fr.core cast l := by
  rw [getThread_of_cores (cores_credPosted s fr cast act ens), List.contains_eq_mem]
  by_cases hl : l ∈ act
  · rw [if_pos (decide_eq_true hl)]
    exact getThread_modLanes_mem (s := (takeFresh s).2) _ hact hl hlane
  · rw [getThread_modLanes_other _ _ _ _ _ (.inr hl), if_neg (by simpa using hl)]
    rfl

theorem hasLane_credPosted (s : State) (fr : Frame) (cast : Nat) (act : List Nat) (ens c k l : Nat) :
    hasLane (credPosted s fr cast act ens) c k l = hasLane s c k l := by
  rw [hasLane, getCast, getCore, cores_credPosted]
  exact hasLane_modLanes ..

theorem coreBill_credPosted (s : State) (fr : Frame) (cast : Nat) (act : List Nat) (ens c : Nat) :
    coreBill (credPosted s fr cast act ens) c = coreBill s c := by
  rw [credPosted, postRequest_eq]
  exact coreBill_modLanes ..

theorem homeByte_credPosted (s : State) (fr : Frame) (cast : Nat) (act : List Nat) (ens key : Nat) :
    homeByte (credPosted s fr cast act ens) key = homeByte s key := by
  rw [credPosted, postRequest_eq]
  exact homeByte_modLanes ..

/-- CRED posts (R334, R335): the first half of the claim. -/
theorem credPosts {s s1 : State} {core cast : Nat} {act : List Nat} {op : Op} {ens : Nat}
    (hissue : castIssues s core cast act .cred op = true) (hcommit : castCommitted s core cast act .cred op = some s1)
    (hens : clusterEnsemble s1 core cast (op.mod.toNat % 4) = some ens)
    (hfree : ∀ r ∈ (getCluster s1 (clusterOfCore core)).rounds, r.launch = ((getCore s1 core).launch).getD 0 → r.ens = ens →
      ∀ x ∈ r.posts, (x.core, x.cast) ≠ (core, cast))
    (hheld : postHeld s1 core cast act op.c.toNat = false) :
    let fr := castFrame s core cast .cred op
    let r := newRequest s1 core cast act op.c.toNat op.d.toNat false (.cred ens)
    ∃ t, exec (.cred op) s = .next t ∧ Posts s1 t core cast act fr.next r ∧
      ∃ d ∈ (getCluster t (clusterOfCore core)).rounds, d.launch = ((getCore s1 core).launch).getD 0 ∧ d.ens = ens ∧
        newContribution s1 fr cast act ens ∈ d.posts := by
  intro fr r
  obtain ⟨_, _, _, _, hlanes, hact⟩ := castIssues_iff.mp hissue
  have hlives := keepsLives_castCommitted hcommit
  have hactNodup : act.Nodup := hact ▸ (nodup_liveLanes _).filter _
  let p := credPosted s1 fr cast act ens
  let idle := idleLanes s core cast act
  have hexec : exec (.cred op) s = .next (proceed (proceed p fr cast act [] true) fr cast idle [] false) := by
    rw [exec_cred, execGather_committed rfl hissue hcommit, gatherEffect, gatherCred_posts (fr := fr) hens hfree hheld]
    rfl
  have hcluster (k : Nat) : getCluster (proceed (proceed p fr cast act [] true) fr cast idle [] false) k = getCluster p k := by
    rw [proceed_eq, proceed_eq, getCluster_modLanes, getCluster_modLanes]
  have hposted : getCluster p (clusterOfCore core) = addPost (((getCore s1 core).launch).getD 0) ens
      (newContribution s1 fr cast act ens)
      { getCluster s1 (clusterOfCore core) with table := (getCluster s1 (clusterOfCore core)).table ++ [r] } :=
    getCluster_credPosted s1 fr cast act ens
  refine ⟨_, hexec, ⟨?_, fun hkind => absurd rfl (hkind ens), fun k hk => ?_, fun key => ?_, rfl, rfl, rfl, rfl, rfl, fun l hl => ?_⟩, ?_⟩
  · rw [hcluster, hposted, addPost_keeps]
  · exact (hcluster k).trans (getCluster_credPosted_other s1 fr cast act ens hk)
  · rw [proceed_eq, proceed_eq, homeByte_modLanes, homeByte_modLanes]
    exact homeByte_credPosted ..
  · have hlane := hasLane_of_mem_liveLanes hl
    have hlive := hlives.mem_liveLanes hl
    have hthread := getThread_credPosted (fr := fr) ens hactNodup hlane
    obtain ⟨_, _, hnot⟩ := hlanes l hlive
    refine castLane_proceed (s2 := p) hactNodup ((nodup_liveLanes _).filter _) ?_ (coreBill_credPosted ..)
      ((hasLane_credPosted ..).trans hlane) hthread ?_
    · simp [idle, idleLanes, hlive]
    · rw [hthread, ← hnot, ← hlives.committed]
      split <;> rfl
  · rw [hcluster, hposted]
    exact mem_addPost ..

/-- A round completes when it is full and every earlier request is complete, and not before (R335 to R338). -/
theorem credRoundCompletes {s : State} {cluster ctx launch ens : Nat} {r : Round}
    (h : (getCluster s cluster).rounds.find? (isRound (launchKey ctx launch) ens) = some r) :
    let run := exec (.credRoundCompletion cluster ctx launch ens) s
    (roundFull s cluster r = false ∨ roundReady (fun _ => false) (getCluster s cluster) r = false → run = .next s) ∧
      (roundFull s cluster r = true → roundReady (fun _ => false) (getCluster s cluster) r = true →
        run = .next (completeRound s cluster r)) := by
  intro run
  have hrun : run = _ := (exec_credRoundCompletion ..).trans (execCredRoundCompletion_some h)
  refine ⟨fun hnot => ?_, fun hfull hready => ?_⟩
  · rw [hrun, if_pos (by rcases hnot with hnot | hnot <;> simp [hnot])]
  · rw [hrun, if_neg (by simp [hfull, hready])]

/-- Settles O34: a complete cast's CRED commits and posts its contribution; a full round whose earlier requests have completed merges
into the rows of its lead alone. -/
theorem credPostsAndRoundsComplete : Obligations.CredPostsAndRoundsComplete := by
  refine ⟨?_, ?_⟩
  · intro s s1 core cast act op ens hissue hcommit hens fr key cluster words hfree hheld
    obtain ⟨t, hexec, hposts, d, hd, hlaunch, hname, hmem⟩ := credPosts hissue hcommit hens hfree hheld
    exact ⟨t, _, hexec, hposts, rfl, rfl, rfl, rfl, d, hd, hlaunch, hname, _, hmem, rfl, rfl, rfl, rfl, rfl, rfl, rfl, rfl, rfl⟩
  · intro s cluster ctx launch ens r hround c run
    obtain ⟨hwaits, hcompletes⟩ := credRoundCompletes hround
    refine ⟨hwaits, fun hfull hready hreq hcasts hstand => ⟨_, hcompletes hfull hready, ?_⟩⟩
    refine completeRound_effect hreq hcasts (fun x hx => ?_) fun x hx => ?_
    · obtain ⟨hnd, hlt, _⟩ := hstand x hx
      exact ⟨hnd, hlt⟩
    · obtain ⟨_, _, hrequest⟩ := hstand x hx
      exact hrequest

end Sys2Proof.Proofs
end
